-- ==== Sys2Proof/Word.lean ====
section
/-!
DEFINITION. The word types of the part and their plainest arithmetic: addresses, words, bytes, and the two ways the
spec narrows and widens a bit string (trunc, sext, zext of the notation chapter).
-/
namespace Sys2Proof

/-- A 64-bit register or instruction word (R161). -/
abbrev Word := BitVec 64
/-- One byte of memory; memory is little-endian (R5). -/
abbrev Byte := BitVec 8

/-- zext(x, n) read as a 64-bit word. -/
def zextW {n : Nat} (x : BitVec n) : Word := x.setWidth 64
/-- sext(x, n) read as a 64-bit word. -/
def sextW {n : Nat} (x : BitVec n) : Word := x.signExtend 64

/-- A Boolean as the word 0 or 1. -/
def boolW (b : Bool) : Word := if b then 1 else 0

/-- ceil(a / b) on naturals, for b > 0. -/
def ceilDiv (a b : Nat) : Nat := (a + b - 1) / b

end Sys2Proof
end

