-- ==== Sys2Proof/Machine/Bits.lean ====
section
/-!
DEFINITION. Bit-field, sign-extension and byte-order helpers over naturals, integers and byte lists (R5, R9).
-/
namespace Sys2Proof.Machine
open Sys2Proof

/-- Bits [hi:lo] of a natural number. -/
def bitsOf (x hi lo : Nat) : Nat := (x / 2 ^ lo) % 2 ^ (hi + 1 - lo)

/-- Bit i of a natural number. -/
def bitOf (x i : Nat) : Bool := (x / 2 ^ i) % 2 == 1

/-- The low w bits of x read as a signed number: sext(x, w). -/
def sext (w x : Nat) : Int :=
  let y := x % 2 ^ w
  if y < 2 ^ (w - 1) || w == 0 then (y : Int) else (y : Int) - (2 ^ w : Nat)

/-- trunc(x, w): the low w bits of an exact integer. -/
def truncI (w : Nat) (x : Int) : Nat := (x % ((2 ^ w : Nat) : Int)).toNat

/-- A field of an integer register made of (value, offset) parts. -/
def packFields : List (Nat × Nat) → Nat
  | [] => 0
  | (v, lo) :: r => v * 2 ^ lo + packFields r

/-- Little-endian bytes of the low 8·n bits (R5). -/
def toBytes : Nat → Nat → List Byte
  | 0, _ => []
  | n + 1, x => BitVec.ofNat 8 x :: toBytes n (x / 256)

/-- The number that little-endian bytes hold (R5). -/
def ofBytes : List Byte → Nat
  | [] => 0
  | b :: r => b.toNat + 256 * ofBytes r

/-- n bytes of a list from an offset, missing ones zero. -/
def bytesAt (l : List Byte) (off n : Nat) : List Byte := (List.range n).map (fun i => l.getD (off + i) 0)

/-- The number in n bytes of a list from an offset. -/
def natAt (l : List Byte) (off n : Nat) : Nat := ofBytes (bytesAt l off n)

/-- Number of one bits among the low w. -/
def popCount : Nat → Nat → Nat
  | 0, _ => 0
  | w + 1, x => x % 2 + popCount w (x / 2)

/-- Leading zero bits of the w-bit x; w when x = 0. -/
def leadingZeros : Nat → Nat → Nat
  | 0, _ => 0
  | w + 1, x => if bitOf x w then 0 else 1 + leadingZeros w x

/-- Trailing zero bits of the w-bit x; w when x = 0. -/
def trailingZeros : Nat → Nat → Nat
  | 0, _ => 0
  | w + 1, x => if x % 2 == 1 then 0 else 1 + trailingZeros w (x / 2)

/-- The lowest set bit among n bits, from index i. -/
def lowestSet : Nat → Nat → Nat → Option Nat
  | 0, _, _ => none
  | n + 1, i, x => if x % 2 == 1 then some i else lowestSet n (i + 1) (x / 2)

/-- x rounded up to a multiple of m > 0. -/
def roundUp (x m : Nat) : Nat := (x + m - 1) / m * m

/-- Floor of log2 for x > 0, with fuel. -/
def log2Fuel : Nat → Nat → Nat
  | 0, _ => 0
  | f + 1, x => if x < 2 then 0 else 1 + log2Fuel f (x / 2)

end Sys2Proof.Machine
end

