-- ==== Sys2Proof/Syntax.lean ====
section
/-!
DEFINITION. The instructions, device events and host commands of the part: one constructor of `Instr` per row of
spec/opcode_table.json. An encoded instruction carries the fields of its word format (W3, WI, WJ, WM of R161-R164,
the half format of R168); an event carries the names of the units it acts on; a host command acts on the message its endpoint holds.
-/
namespace Sys2Proof

/-- Element types, in the order of their TY codes 0..14 (Table 5.1, Table 14.5). Code 15 is unassigned. -/
inductive Ty where
  | i8 | n8 | i16 | n16 | i32 | n32 | i64 | n64 | h | bf | f | d | q8 | q4 | e8
  deriving DecidableEq, Repr

/-- Ordering kinds, in the order of the ORD codes 0..4 (Table 11.1). -/
inductive Ord where
  | plain | acq | rel | ar | sc
  deriving DecidableEq, Repr

/-- Scopes, in the order of the SCOPE codes 0..5 (Table 1.1). -/
inductive Scope where
  | lane | core | quad | die | pkg | pod
  deriving DecidableEq, Repr

/-- The fields of a W3 word (Table 13.1); OP and FN are the constructor. -/
structure W3 where
  d : BitVec 6
  a : BitVec 6
  b : BitVec 6
  c : BitVec 6
  ty : Ty
  k : BitVec 3
  q : BitVec 3
  imm : BitVec 14
  deriving DecidableEq, Repr

/-- The fields of a WI word (Table 13.2). -/
structure WI where
  d : BitVec 6
  a : BitVec 6
  imm : BitVec 32
  deriving DecidableEq, Repr

/-- The fields of a WJ word (Table 13.3); OP and CC are the constructor. -/
structure WJ where
  a : BitVec 6
  b : BitVec 6
  off : BitVec 40
  deriving DecidableEq, Repr

/-- The fields of a WM word (Table 13.4). -/
structure WM where
  d : BitVec 6
  a : BitVec 6
  b : BitVec 6
  c : BitVec 6
  ty : Ty
  k : BitVec 3
  ord : Ord
  scope : Scope
  off : BitVec 11
  deriving DecidableEq, Repr

/-- The half opcodes 0..24 in the order of Table 13.9. -/
inductive HOp where
  | nop | mov | add | sub | and | or | xor | shl | shr | sra | min | max | slt | addi | li | ld | st | brz | brnz
  | vadd | vsub | vmul | vfadd | vfmul | vffma
  deriving DecidableEq, Repr

/-- One half of a paired word (Table 13.8): `low` is its bits [13:0]. -/
structure Half where
  op : HOp
  d : BitVec 5
  s : BitVec 5
  x : BitVec 1
  low : BitVec 14
  deriving DecidableEq, Repr

/-- A hardware control thread: its core 0..1023 (die × 256 + quad × 4 + core) and its HTID 0..3 (R13). -/
structure Hart where
  core : Nat
  thread : Nat
  deriving DecidableEq, Repr

/-- A logical core of a job: the job's handle and the index c of R36. -/
structure LRef where
  job : Nat
  lcore : Nat
  deriving DecidableEq, Repr

/-- A command message as its endpoint received it: the I/O die it was sent to, the transport connection and the
message's sequence number there (R391, R144), the two reserved header bytes, the TAG, the BLEN field and the body
(Table 30.1). The command code is the constructor. -/
structure Msg where
  iodie : Nat
  conn : Nat
  seq : Nat
  reserved : BitVec 16
  tag : Word
  blen : Nat
  body : List Byte
  deriving DecidableEq, Repr

/-- What another package asks of a line or word homed here (R99, R400). -/
inductive RemoteOp where
  | read (size : Nat)
  | write (bytes : List Byte)
  deriving DecidableEq, Repr

inductive Instr where
  -- SYS
  | nop (f : W3) | trap (f : W3) | eret (f : W3) | waiti (f : W3) | yield (f : W3)
  -- INT3
  | add (f : W3) | sub (f : W3) | mul (f : W3) | mulh (f : W3) | mulhn (f : W3) | div (f : W3) | divn (f : W3)
  | rem (f : W3) | remn (f : W3) | and (f : W3) | or (f : W3) | xor (f : W3) | andn (f : W3) | orn (f : W3)
  | shl (f : W3) | shr (f : W3) | sra (f : W3) | rot (f : W3) | min (f : W3) | max (f : W3) | minn (f : W3)
  | maxn (f : W3) | slt (f : W3) | sltn (f : W3) | seq (f : W3) | sel (f : W3) | clz (f : W3) | ctz (f : W3)
  | popc (f : W3) | bswap (f : W3) | bext (f : W3) | bins (f : W3)
  -- INTI, LI, LEA
  | addi (f : WI) | andi (f : WI) | ori (f : WI) | xori (f : WI) | shli (f : WI) | shri (f : WI) | srai (f : WI)
  | roti (f : WI) | slti (f : WI) | sltni (f : WI) | mini (f : WI) | maxi (f : WI)
  | li (f : WI) | lih (f : WI) | lea (f : W3)
  -- FLT3
  | fadd (f : W3) | fsub (f : W3) | fmul (f : W3) | ffma (f : W3) | fdiv (f : W3) | fsqrt (f : W3) | fmin (f : W3)
  | fmax (f : W3) | fcmp (f : W3) | fclass (f : W3) | fcvt (f : W3) | fabs (f : W3) | fneg (f : W3)
  -- BR, JAL, JR, BLOCK
  | brEq (f : WJ) | brNe (f : WJ) | brLt (f : WJ) | brGe (f : WJ) | brLtn (f : WJ) | brGen (f : WJ)
  | jal (f : WJ) | jr (f : W3) | vfetch (f : W3)
  -- STATE
  | rds (f : W3) | wrs (f : W3) | vlWrite (f : W3) | vstartWrite (f : W3) | fflgWrite (f : W3) | mshapeWrite (f : W3)
  | drthWrite (f : W3) | drstatWrite (f : W3) | railqWrite (f : W3) | tstamp (f : W3)
  -- LDS, STS, VLD, VST, MEMCTL
  | ld (f : WM) | ldl (f : WM) | pref (f : WM) | st (f : WM) | stc (f : WM)
  | vld (f : WM) | vlds (f : WM) | vldg (f : WM) | vldl (f : WM) | vlde (f : WM) | vldt (f : WM) | vldtt (f : WM)
  | vst (f : WM) | vsts (f : WM) | vstg (f : WM) | vstc (f : WM) | vste (f : WM) | vstt (f : WM)
  | fence (f : WM) | cflush (f : WM) | cinvData (f : WM) | cinvInstruction (f : WM) | cinvTranslation (f : WM)
  | cinvTranslationAll (f : WM) | czero (f : WM)
  -- MTX, AUTUMN
  | mshape (f : W3) | mldb (f : W3) | mma (f : W3) | mmaz (f : W3) | mdrain (f : W3) | mclrAcc (f : W3)
  | mclrB (f : W3) | mstat (f : W3)
  | acprobe (f : W3) | acprobeSpec (f : W3) | acwait (f : W3) | acstore (f : W3) | acdrop (f : W3)
  | acdropAll (f : W3)
  -- VINT
  | vadd (f : W3) | vsub (f : W3) | vmul (f : W3) | vmulh (f : W3) | vmin (f : W3) | vmax (f : W3) | vand (f : W3)
  | vor (f : W3) | vxor (f : W3) | vshl (f : W3) | vshr (f : W3) | vsra (f : W3) | vabs (f : W3) | vneg (f : W3)
  | vsel (f : W3) | vmulw (f : W3) | vmacw (f : W3)
  -- VFLT
  | vfadd (f : W3) | vfsub (f : W3) | vfmul (f : W3) | vffma (f : W3) | vffms (f : W3) | vfnma (f : W3)
  | vfdiv (f : W3) | vfsqrt (f : W3) | vfrcp (f : W3) | vfrsqrt (f : W3) | vfexp2 (f : W3) | vflog2 (f : W3)
  | vfmin (f : W3) | vfmax (f : W3) | vfabs (f : W3) | vfneg (f : W3) | vfclass (f : W3)
  -- VCVT, VCMP, VRED, VPERM, VENC, MASK, VCFG
  | vcvt (f : W3) | vcmp (f : W3) | vfcmp (f : W3)
  | vrsum (f : W3) | vrmax (f : W3) | vrmin (f : W3) | vscanSum (f : W3) | vscanMax (f : W3) | vscanMin (f : W3)
  | vcompress (f : W3) | vspread (f : W3)
  | vperm (f : W3) | vslideup (f : W3) | vslidedn (f : W3) | vbcastScalar (f : W3) | vbcastElementIndexed (f : W3)
  | vbcastElement (f : W3) | vextr (f : W3) | vins (f : W3) | viota (f : W3) | vrev (f : W3)
  | vencAuto (f : W3) | vencRun (f : W3) | vencDict (f : W3) | vencDelta (f : W3) | vexpand (f : W3) | vinfo (f : W3)
  | kand (f : W3) | kor (f : W3) | kxor (f : W3) | knot (f : W3) | kpopc (f : W3) | kfirst (f : W3) | kmov (f : W3)
  | setvl (f : W3)
  -- COPY, CBUF, BAR, JOB, CTX
  | cpset (f : W3) | cpstart (f : W3) | cpwait (f : W3) | cpstat (f : W3)
  | cbinit (f : W3) | cbwait (f : W3) | cbrel (f : W3)
  | barinit (f : W3) | barrive (f : W3) | barwait (f : W3) | phend (f : W3)
  | jlaunch (f : W3) | jwait (f : W3)
  | vsave (f : W3) | vrest (f : W3) | csave (f : W3) | crest (f : W3)
  -- two halves; words that are no instruction; a fetch that fails
  | pairedWord (a b : Half)
  | reservedInstruction (w : Word)
  -- traps and probes from outside the instruction
  | asyncTrapTaken (t : Hart)
  | probeResolve (t : Hart) (n : Nat)
  | waitiDeadline (t : Hart)
  -- copy engine: the transfer at the head of a channel of a quad (die × 64 + quad)
  | copyModeCopy (quad chan : Nat) | copyModeMulticast (quad chan : Nat) | copyModeFill (quad chan : Nat)
  | copyModeVersioned (quad chan : Nat) | copyModeReduceAdd (quad chan : Nat) | copyModeDedup (quad chan : Nat)
  -- scheduler
  | grant (job : Nat) (cores : List Nat)
  | preempt (core slot : Nat)
  | resume (l : LRef) (core : Nat)
  | replyArrival (l : LRef) (tid fid : Nat)
  | jobCombine (job : Nat)
  | completionRecord (job : Nat)
  | agingTick (job : Nat) | levelReturn (job : Nat)
  | jobEndedBySupervisor (job : Nat)
  -- memory system
  | migrationEpoch (die : Nat)
  | migrationLineDone (subblock line : Nat)
  | movesWindowClose (subblock : Nat) | pinleftTick (subblock : Nat)
  | linePoisoned (line : Nat)
  | ptAdvance (core : Nat)
  | accessFromOtherPackage (pkg : Nat) (pa : Nat) (op : RemoteOp)
  -- power
  | droopAlarm (quad sag : Nat) | stretchEnd (quad : Nat) | halvedIssueEnd (quad : Nat) | ballastWindow (quad : Nat)
  | pcSample (core : Nat) | opPointChange (quad point : Nat) | alcChange (core lanes : Nat)
  -- pod
  | podPhaseMessage (pkg : Nat) (idx : Nat)
  -- rows that carry nothing
  | instructionFetchFault | schedulerFailover | capLeaseExpiry | winterEntry | spring | deviceReset
  -- host commands 1..16: each acts on the message that its endpoint holds (`State.command`)
  | submit | bind | unbind | map | unmap | powerCap | enterWinter | liftWinter | readCounter | firmwareUpdate | loadKey
  | attest | readOffer | accept | jobStatus | podTable
  deriving DecidableEq, Repr

end Sys2Proof
end

