-- ==== Sys2Proof/Machine/Checks.lean ====
section
/-!
DEFINITION. The field checks of R182, group by group: types and their classes (Table 5.1), register ranges (R167),
code fields (R180), reserved fields and immediate bits (R164, R166), and the pairing rules (R169), from the operand
tables of the instruction chapters. `WellFormed` calls them, one arm per instruction.
-/
namespace Sys2Proof

/-- Width of a type in bits (Table 5.1). -/
def Ty.width : Ty → Nat
  | .i8 | .n8 | .q8 | .e8 => 8
  | .i16 | .n16 | .h | .bf => 16
  | .i32 | .n32 | .f => 32
  | .i64 | .n64 | .d => 64
  | .q4 => 4

/-- The 64-bit types, which occupy register pairs (R54). -/
def Ty.wide : Ty → Bool
  | .i64 | .n64 | .d => true
  | _ => false

/-- TY codes 0..7. -/
def Ty.isInt : Ty → Bool
  | .i8 | .n8 | .i16 | .n16 | .i32 | .n32 | .i64 | .n64 => true
  | _ => false

/-- The signed integer types, TY 0, 2, 4 and 6. -/
def Ty.signed : Ty → Bool
  | .i8 | .i16 | .i32 | .i64 => true
  | _ => false

/-- The unsigned integer types, TY 1, 3, 5 and 7. -/
def Ty.unsigned : Ty → Bool
  | .n8 | .n16 | .n32 | .n64 => true
  | _ => false

/-- `.h`, `.bf`, `.f`, `.d`. -/
def Ty.isFloat : Ty → Bool
  | .h | .bf | .f | .d => true
  | _ => false

/-- The floating types of the vector groups, TY 8, 9 and 10. -/
def Ty.isVFloat : Ty → Bool
  | .h | .bf | .f => true
  | _ => false

/-- `.q8` and `.q4`. -/
def Ty.isTile : Ty → Bool
  | .q8 | .q4 => true
  | _ => false

/-- TY codes 0..11. -/
def Ty.isNumber (t : Ty) : Bool := t.isInt || t.isFloat

/-- TY codes 4..7, 10 and 11: the linked accesses (Table 18.1). -/
def Ty.isLinked : Ty → Bool
  | .i32 | .n32 | .i64 | .n64 | .f | .d => true
  | _ => false

/-- The code of a type (Table 5.1). -/
def Ty.code : Ty → Nat
  | .i8 => 0 | .n8 => 1 | .i16 => 2 | .n16 => 3 | .i32 => 4 | .n32 => 5 | .i64 => 6 | .n64 => 7
  | .h => 8 | .bf => 9 | .f => 10 | .d => 11 | .q8 => 12 | .q4 => 13 | .e8 => 14

/-- The type a code names; 15 and above name none (R53). -/
def Ty.ofCode : Nat → Option Ty
  | 0 => some .i8 | 1 => some .n8 | 2 => some .i16 | 3 => some .n16 | 4 => some .i32 | 5 => some .n32
  | 6 => some .i64 | 7 => some .n64 | 8 => some .h | 9 => some .bf | 10 => some .f | 11 => some .d
  | 12 => some .q8 | 13 => some .q4 | 14 => some .e8 | _ => none

/-- How an instruction uses one 6-bit register field (R164, R167). -/
inductive Use where
  | zero             -- not used: must be zero
  | s                -- a scalar register
  | v (t : Ty)       -- a vector register holding type t; a pair when t has 64 bits
  | k                -- a mask register
  | acc              -- an accumulator row
  | b                -- a stationary register
  deriving DecidableEq, Repr

/-- The register range check of R167 for one field. -/
def Use.ok (u : Use) (r : BitVec 6) : Bool :=
  match u with
  | .zero => r == 0
  | .s => true
  | .v t => r.toNat < 32 && (!t.wide || r.toNat % 2 == 0)
  | .k => r.toNat < 8
  | .acc => r.toNat < 8
  | .b => r.toNat < 4

/-- How an instruction uses the Q field (R63, R180). -/
inductive QUse where
  | zero | sat | round
  deriving DecidableEq, Repr

/-- The check of Q. -/
def QUse.ok (u : QUse) (q : BitVec 3) : Bool :=
  match u with
  | .zero => q == 0
  | .sat => q.toNat < 2
  | .round => q.toNat < 7

/-- Bits [hi:lo] of IMM14 as a natural number. -/
def W3.immBits (f : W3) (hi lo : Nat) : Nat := (f.imm.toNat / 2 ^ lo) % 2 ^ (hi - lo + 1)

/-- IMM14[13], which in the vector groups makes B a scalar register (R166). -/
def W3.bScalar (f : W3) : Bool := f.imm.getLsbD 13

/-- IMM14 is zero outside the bits of `mask` (R164). -/
def W3.immOnly (f : W3) (mask : Nat) : Bool := (f.imm &&& ~~~(BitVec.ofNat 14 mask)) == 0

/-- The four register fields and Q of a W3 word, with K free or zero. -/
def W3.uses (f : W3) (du au bu cu : Use) (mask : Bool) (q : QUse) : Bool :=
  du.ok f.d && au.ok f.a && bu.ok f.b && cu.ok f.c && (mask || f.k == 0) && q.ok f.q

/-- TY is not used. -/
def W3.noTy (f : W3) : Bool := f.ty == .i8

/-- B as "v or s" (R166). -/
def W3.vs (f : W3) (t : Ty) : Use := if f.bScalar then .s else .v t

/-- The registers a vector operand of type t occupies, as first and last number. -/
def regSpan (r : BitVec 6) (t : Ty) : Nat × Nat := (r.toNat, if t.wide then r.toNat + 1 else r.toNat)

/-- Two vector operands share a register (R260). -/
def overlaps (r1 : BitVec 6) (t1 : Ty) (r2 : BitVec 6) (t2 : Ty) : Bool :=
  (regSpan r1 t1).1 ≤ (regSpan r2 t2).2 && (regSpan r2 t2).1 ≤ (regSpan r1 t1).2

-- Scalar groups -----------------------------------------------------------------------------------------------------

/-- SYS, and every W3 member that uses none of its fields. -/
def W3.bare (f : W3) : Bool := f.uses .zero .zero .zero .zero false .zero && f.noTy && f.imm == 0

/-- INT3 binary members (Table 17.1). -/
def wfInt3 (f : W3) (ty : Ty → Bool) (q : QUse) : Bool :=
  f.uses .s .s .s .zero false q && ty f.ty && f.imm == 0

/-- INT3 unary members: B must be 0. -/
def wfInt3U (f : W3) : Bool := f.uses .s .s .zero .zero false .zero && f.ty.isInt && f.imm == 0

/-- `bext` and `bins` (R210). -/
def wfBits (f : W3) : Bool :=
  f.uses .s .s .zero .zero false .zero && (f.ty == .i64 || f.ty == .n64) && f.immOnly 0x1FFF
    && f.immBits 12 6 != 0 && f.immBits 5 0 + f.immBits 12 6 ≤ 64

/-- INTI members other than the shifts (R212). -/
def wfIntI (_ : WI) : Bool := true

/-- INTI shift members: IMM32[31:6] must be 0 (Table 17.4). -/
def wfShiftI (f : WI) : Bool := f.imm.toNat < 64

/-- LI members have A = 0 (R213). -/
def wfLi (f : WI) : Bool := f.a == 0

/-- FLT3 members with B (`b`), their rounding and their immediate bits (Table 17.5). -/
def wfFlt (f : W3) (bu : Use) (q : QUse) (mask : Nat) : Bool :=
  f.uses .s .s bu .zero false q && f.ty.isFloat && f.immOnly mask

/-- `fcvt` (R217): both types 0..11 and different. Table 17.5 gives its Q as a rounding mode for every pair. -/
def wfFcvt (f : W3) : Bool :=
  match Ty.ofCode (f.immBits 3 0) with
  | none => false
  | some st =>
    f.uses .s .s .zero .zero false .round
      && f.ty.isNumber && st.isNumber && st != f.ty && f.immOnly 0xF

/-- The state register numbers of Table 13.12. -/
def stateRegs : List Nat :=
  [0x000, 0x001, 0x002, 0x003, 0x004, 0x005, 0x006, 0x007, 0x008, 0x009, 0x00A, 0x00B, 0x00C, 0x00D,
   0x010, 0x011, 0x012, 0x013, 0x014, 0x020, 0x021, 0x022, 0x023, 0x024, 0x025,
   0x030, 0x031, 0x032, 0x033, 0x040, 0x041, 0x042, 0x043,
   0x050, 0x051, 0x052, 0x053, 0x054, 0x055, 0x056, 0x057, 0x060, 0x061, 0x062, 0x063, 0x070, 0x071]

/-- The state registers whose write has a row of its own in the opcode table. -/
def ownWriteRegs : List Nat := [0x000, 0x003, 0x007, 0x00D, 0x040, 0x041, 0x043]

/-- The number a `rds` or `wrs` names. -/
def W3.stateReg (f : W3) : Nat := f.immBits 11 0

/-- `rds` (R226). -/
def wfRds (f : W3) : Bool :=
  f.uses .s .zero .zero .zero false .zero && f.noTy && f.immOnly 0xFFF && stateRegs.contains f.stateReg

/-- `wrs` of the register numbers accepted by `which` (R226). -/
def wfWrs (f : W3) (which : Nat → Bool) : Bool :=
  f.uses .zero .s .zero .zero false .zero && f.noTy && f.immOnly 0xFFF && stateRegs.contains f.stateReg
    && which f.stateReg

/-- `tstamp` (R228): D = B ≠ 0 raises trap 1. -/
def wfTstamp (f : W3) : Bool :=
  f.uses .s .zero .s .zero false .zero && f.noTy && f.immOnly 1 && !(f.d == f.b && f.d != 0)

-- Memory groups (Table 18.1) ----------------------------------------------------------------------------------------

/-- ORD sets of Table 18.1: loads take 0, 1, 3, 4 and stores 0, 2, 3, 4. -/
def Ord.loadOk : Ord → Bool
  | .rel => false
  | _ => true
def Ord.storeOk : Ord → Bool
  | .acq => false
  | _ => true

/-- SCOPE must be 0 for a plain access that names no progress word (R229). -/
def WM.scopeOk (f : WM) (progress : Bool) : Bool :=
  f.ord != .plain || f.scope == .lane || (progress && f.c != 0)

/-- The register fields of a WM word, with K free or zero. -/
def WM.uses (f : WM) (du au bu cu : Use) (mask : Bool) : Bool :=
  du.ok f.d && au.ok f.a && bu.ok f.b && cu.ok f.c && (mask || f.k == 0)

def wfLd (f : WM) (ty : Ty → Bool) : Bool :=
  f.uses .s .s .zero .s false && ty f.ty && f.ord.loadOk && f.scopeOk true
def wfSt (f : WM) (du : Use) (ty : Ty → Bool) : Bool :=
  f.uses du .s .s .s false && ty f.ty && f.ord.storeOk && f.scopeOk true
def wfPref (f : WM) : Bool :=
  f.uses .zero .s .zero .zero false && f.ty == .i8 && f.ord == .plain && (f.scope == .core || f.scope == .die)
def wfVLoad (f : WM) (bu : Use) (ty : Ty → Bool) (mask : Bool) : Bool :=
  f.uses (.v f.ty) .s bu .s mask && ty f.ty && f.ord.loadOk && f.scopeOk true
def wfVStore (f : WM) (bu : Use) (ty : Ty → Bool) (mask : Bool) : Bool :=
  f.uses (.v f.ty) .s bu .s mask && ty f.ty && f.ord.storeOk && f.scopeOk true
def wfVstt (f : WM) : Bool :=
  f.uses (.v f.ty) .s .s .s true && f.ty.isTile && f.c != 0 && f.ord.storeOk && f.scopeOk false
def wfFence (f : WM) : Bool :=
  f.uses .zero .zero .zero .zero false && f.ty == .i8 && f.ord != .plain && f.off == 0
def wfCflush (f : WM) : Bool :=
  f.uses .zero .s .zero .zero false && f.ty == .i8 && f.ord == .plain && f.scope == .lane
def wfCinv (f : WM) (form : Nat) : Bool :=
  f.d.toNat == form && f.uses .s .s .zero .zero false && f.ty == .i8 && f.ord == .plain && f.scope == .lane
    && (form != 3 || (f.a == 0 && f.off == 0))
def wfCzero (f : WM) : Bool :=
  f.uses .zero .s .zero .s false && f.ty == .i8 && (f.ord == .plain || f.ord == .rel) && f.scopeOk true

-- Matrix and Autumn (Tables 22.3, 22.5, 22.8) ------------------------------------------------------------------------

def wfMldb (f : W3) : Bool :=
  f.uses .b .s (if f.ty.isTile then .s else .zero) .s false .zero
    && (f.ty.isTile || f.ty == .h || f.ty == .bf) && f.immOnly 1
def wfMma (f : W3) : Bool :=
  f.uses .acc (.v .i8) .b .s false .zero
    && (f.ty.isTile || f.ty == .h || f.ty == .bf || f.ty == .i8 || f.ty == .n8) && f.immOnly 0x1FFF
def wfMdrain (f : W3) : Bool := f.uses (.v f.ty) .acc .zero .s false .round && f.ty.isVFloat
def wfMclr (f : W3) (du : Use) (imm : Nat) : Bool :=
  f.uses du .zero .zero .zero false .zero && f.noTy && f.imm.toNat == imm
/-- The items of `mstat`, and those that IMM14[13] may clear (Table 22.5). -/
def mstatItems : List Nat := [0x00, 0x01, 0x02, 0x03, 0x10, 0x11, 0x12, 0x13, 0x20, 0x21, 0x22, 0x23, 0x24, 0x25]
def mstatClearable : List Nat := [0x01, 0x02, 0x03, 0x20, 0x21, 0x22, 0x23, 0x24]
def wfMstat (f : W3) : Bool :=
  f.uses .s .zero .zero .zero false .zero && f.noTy && f.immOnly 0x20FF && mstatItems.contains (f.immBits 7 0)
    && (!f.bScalar || mstatClearable.contains (f.immBits 7 0))
/-- The step forms of `acprobe` and `acstore`: IMM14[13] = 1 with a step, or 0. -/
def W3.stepImm (f : W3) : Bool := f.bScalar || f.imm == 0
def wfAcprobe (f : W3) (spec : Bool) : Bool :=
  f.d.toNat < 64 && f.k == 0 && f.ty.isVFloat && f.q.toNat == (if spec then 1 else 0)
    && (if spec then f.imm != 0 else f.stepImm)
def wfAcstore (f : W3) : Bool := f.uses .s .s .s .s false .zero && f.ty.isVFloat && f.stepImm
def wfAcdrop (f : W3) (au : Use) (imm : Nat) : Bool :=
  f.uses .zero au .zero .zero false .zero && f.noTy && f.imm.toNat == imm

-- Vector groups (Table 20.1) -----------------------------------------------------------------------------------------

def wfVInt (f : W3) (q : QUse) : Bool :=
  f.uses (.v f.ty) (.v f.ty) (f.vs f.ty) .zero true q && f.ty.isInt && f.immOnly 0x2000
def wfVIntU (f : W3) : Bool := f.uses (.v f.ty) (.v f.ty) .zero .zero true .sat && f.ty.isInt && f.imm == 0
def wfVsel (f : W3) : Bool := f.uses (.v f.ty) (.v f.ty) (f.vs f.ty) .k true .zero && f.immOnly 0x2000

/-- The destination type of `vmulw` and `vmacw`: twice the wider source, signed when either source is (R265). -/
def wideTy (ta tb : Ty) : Option Ty :=
  let sg := ta.signed || tb.signed
  match max ta.width tb.width with
  | 8 => some (if sg then .i16 else .n16)
  | 16 => some (if sg then .i32 else .n32)
  | 32 => some (if sg then .i64 else .n64)
  | _ => none

def wfVWide (f : W3) (q : QUse) : Bool :=
  match Ty.ofCode (f.immBits 3 0) with
  | none => false
  | some tb =>
    match wideTy f.ty tb with
    | none => false
    | some td =>
      f.ty.isInt && tb.isInt && f.uses (.v td) (.v f.ty) (f.vs tb) .zero true q && f.immOnly 0x200F
        && !overlaps f.d td f.a f.ty && (f.bScalar || !overlaps f.d td f.b tb)

def wfVFlt (f : W3) (q : QUse) : Bool :=
  f.uses (.v f.ty) (.v f.ty) (f.vs f.ty) .zero true q && f.ty.isVFloat && f.immOnly 0x2000
def wfVFltU (f : W3) (q : QUse) : Bool :=
  f.uses (.v f.ty) (.v f.ty) .zero .zero true q && f.ty.isVFloat && f.imm == 0

/-- The pairs of Table 20.5. -/
def vcvtPair (dt st : Ty) : Bool :=
  st != dt && dt.isNumber && (st.isNumber || st.isTile || (st == .e8 && dt.isFloat))

def wfVcvt (f : W3) : Bool :=
  match Ty.ofCode (f.immBits 3 0) with
  | none => false
  | some st =>
    f.uses (.v f.ty) (.v st) .zero .zero true (if f.ty.isInt && st.isInt then .zero else .round)
      && vcvtPair f.ty st && f.immOnly 0xF && (f.ty.width == st.width || !overlaps f.d f.ty f.a st)

def wfVcmp (f : W3) (ty : Ty → Bool) (conds : Nat) : Bool :=
  f.uses .k (.v f.ty) (f.vs f.ty) .zero true .zero && ty f.ty && f.immOnly 0x2007 && f.immBits 2 0 < conds

/-- `vrsum`: Q is rounding for floating types (0 with `.w`), saturate for integer ones; `.w` is floating only. -/
def wfVrsum (f : W3) : Bool :=
  let w := f.imm.getLsbD 0
  f.uses (.v f.ty) (.v f.ty) .zero .zero true (if f.ty.isVFloat then (if w then .zero else .round) else .sat)
    && (f.ty.isInt || (f.ty.isVFloat)) && f.immOnly 1 && (!w || f.ty.isVFloat)
def wfVrext (f : W3) : Bool :=
  f.uses (.v f.ty) (.v f.ty) .zero .zero true .zero && (f.ty.isInt || f.ty.isVFloat) && f.imm == 0
def wfVscan (f : W3) (op : Nat) (q : QUse) : Bool :=
  f.uses (.v f.ty) (.v f.ty) .zero .zero true q && (f.ty.isInt || f.ty.isVFloat) && f.imm.toNat == op
    && !overlaps f.d f.ty f.a f.ty
/-- `vcompress`, `vspread`, `vrev`: D differs from A (R260). -/
def wfVMove (f : W3) : Bool :=
  f.uses (.v f.ty) (.v f.ty) .zero .zero true .zero && f.imm == 0 && !overlaps f.d f.ty f.a f.ty
def wfVperm (f : W3) : Bool :=
  f.uses (.v f.ty) (.v f.ty) (f.vs .n32) .zero true .zero && f.immOnly 0x2000 && !overlaps f.d f.ty f.a f.ty
    && (f.bScalar || !overlaps f.d f.ty f.b .n32)
/-- The offset forms of R278: an unsigned immediate with B = 0, or a scalar register with no other bit. -/
def W3.offsetForm (f : W3) : Bool := if f.bScalar then f.immOnly 0x2000 else f.b == 0
def wfVslide (f : W3) : Bool :=
  f.uses (.v f.ty) (.v f.ty) .s .zero true .zero && f.offsetForm && !overlaps f.d f.ty f.a f.ty
def wfVbcastScalar (f : W3) : Bool := f.uses (.v f.ty) .zero .s .zero true .zero && f.imm.toNat == 0x3000
def wfVbcastIdx (f : W3) : Bool :=
  f.uses (.v f.ty) (.v f.ty) .s .zero true .zero && f.imm.toNat == 0x2000 && !overlaps f.d f.ty f.a f.ty
def wfVbcastElt (f : W3) : Bool :=
  f.uses (.v f.ty) (.v f.ty) .zero .zero true .zero && !f.bScalar && !overlaps f.d f.ty f.a f.ty
def wfVextr (f : W3) : Bool := f.uses .s (.v f.ty) .s .zero false .zero && f.offsetForm
def wfVins (f : W3) : Bool := f.uses (.v f.ty) .s .s .zero false .zero && f.offsetForm
def wfViota (f : W3) : Bool := f.uses (.v f.ty) .zero .zero .zero true .zero && f.ty.isInt && f.imm == 0
def wfVenc (f : W3) (target : Nat) : Bool :=
  f.uses (.v f.ty) (.v f.ty) .zero .zero false .zero && !f.ty.isTile && !f.ty.wide && f.imm.toNat == target
    && (target != 3 || f.ty.isInt)
def wfVexpand (f : W3) : Bool := f.uses (.v f.ty) (.v f.ty) .zero .zero false .zero && f.imm == 0
def wfVinfo (f : W3) : Bool := f.uses .s (.v .i8) .zero .zero false .zero && f.noTy && f.imm == 0
def wfMask (f : W3) (du bu : Use) : Bool := f.uses du .k bu .zero false .zero && f.noTy && f.imm == 0
def wfSetvl (f : W3) : Bool :=
  f.uses .s .s .zero .zero false .zero && f.noTy && f.immOnly 0x3F && (Ty.ofCode (f.immBits 3 0)).isSome

-- Engines and system (Table 24.1) ------------------------------------------------------------------------------------

/-- A W3 member with no TY, K or Q and an immediate accepted by `imm`. -/
def wfSys (f : W3) (du au bu cu : Use) (imm : Nat → Bool) : Bool :=
  f.uses du au bu cu false .zero && f.noTy && imm f.imm.toNat

/-- How many barriers a scope has, per instance (Table 24.6); 0 for a code that names no barrier scope. -/
def barrierCount : Nat → Nat
  | 1 => 16 | 2 => 64 | 3 => 256 | 4 => 512 | 5 => 512 | _ => 0

/-- A barrier id: scope [13:11], zero [10:9], index [8:0] (R321, R332). -/
def barrierIdOk (imm : Nat) : Bool := (imm / 2 ^ 9) % 4 == 0 && imm % 2 ^ 9 < barrierCount (imm / 2 ^ 11)

-- Halves (R168, R169) ------------------------------------------------------------------------------------------------

/-- Operand forms of the halves (Table 13.9). -/
inductive HForm where
  | none | oneSource | register | immediate
  deriving DecidableEq, Repr

def HOp.form : HOp → HForm
  | .nop => .none
  | .mov => .oneSource
  | .addi | .li | .ld | .st | .brz | .brnz => .immediate
  | _ => .register

def HOp.isVector : HOp → Bool
  | .vadd | .vsub | .vmul | .vfadd | .vfmul | .vffma => true
  | _ => false

/-- The bits of a half that its form fixes. -/
def Half.formOk (h : Half) : Bool :=
  match h.op.form with
  | .none => h.d == 0 && h.s == 0 && h.x == 0 && h.low == 0
  | .oneSource => h.low == 0
  | .register => h.low.getLsbD 8 && h.low.toNat % 256 == 0
  | .immediate =>
    (h.op != .li || (h.s == 0 && h.x == 0)) && ((h.op != .brz && h.op != .brnz) || h.d == 0)

/-- T5 of a register-form half. -/
def Half.t5 (h : Half) : BitVec 5 := (h.low >>> 9).setWidth 5

/-- Vector register numbers occupy 4 bits of their field. -/
def Half.vecOk (h : Half) : Bool :=
  !h.op.isVector || (h.d.toNat < 16 && h.s.toNat < 16 && h.t5.toNat < 16)

/-- R169, slot by slot: memory halves in A only, branch halves in B only. -/
def Half.wf (h : Half) (slotA : Bool) : Bool :=
  h.formOk && h.vecOk && (slotA || (h.op != .ld && h.op != .st)) && (!slotA || (h.op != .brz && h.op != .brnz))

-- Device units and messages ------------------------------------------------------------------------------------------

def coreOk (c : Nat) : Bool := c < 1024
def Hart.ok (t : Hart) : Bool := t.core < 1024 && t.thread < 4
def chanOk (quad chan : Nat) : Bool := quad < 256 && chan < 4
/-- A message carries as many body bytes as it received; BLEN is what its header says (R392). -/
def Msg.ok (m : Msg) : Bool := m.iodie < 2 && m.body.length ≤ 65536

end Sys2Proof
end

