-- ==== Sys2Proof/WellFormed.lean ====
section
/-!
DEFINITION. Which instructions are well formed: the checks of R182 that a word must pass to be an instruction at all,
one arm per constructor, each a call of the field checks of `Machine/Checks.lean`.
-/
namespace Sys2Proof

/-- The checks of R182 on an instruction's fields, and the unit numbers of an event. -/
def WellFormed : Instr → Bool
  | .nop f | .eret f | .yield f => f.bare
  | .trap f => f.uses .zero .zero .zero .zero false .zero && f.noTy
  | .waiti f => f.uses .s .s .zero .zero false .zero && f.noTy && f.imm == 0
  | .add f | .sub f | .mul f => wfInt3 f Ty.isInt .sat
  | .mulh f | .rem f | .sra f | .min f | .max f | .slt f => wfInt3 f Ty.signed .zero
  | .div f => wfInt3 f Ty.signed .sat
  | .mulhn f | .divn f | .remn f | .shr f | .minn f | .maxn f | .sltn f => wfInt3 f Ty.unsigned .zero
  | .and f | .or f | .xor f | .andn f | .orn f | .shl f | .rot f | .seq f => wfInt3 f Ty.isInt .zero
  | .sel f => f.uses .s .s .s .s false .zero && f.ty.isInt && f.imm == 0
  | .clz f | .ctz f | .popc f | .bswap f => wfInt3U f
  | .bext f | .bins f => wfBits f
  | .addi f | .andi f | .ori f | .xori f | .slti f | .sltni f | .mini f | .maxi f => wfIntI f
  | .shli f | .shri f | .srai f | .roti f => wfShiftI f
  | .li f | .lih f => wfLi f
  | .lea f => f.uses .s .s .s .zero false .zero && f.noTy
  | .fadd f | .fsub f | .fmul f | .ffma f | .fdiv f => wfFlt f .s .round 0
  | .fsqrt f => wfFlt f .zero .round 0
  | .fmin f | .fmax f => wfFlt f .s .zero 0
  | .fcmp f => wfFlt f .s .zero 7
  | .fclass f | .fabs f | .fneg f => wfFlt f .zero .zero 0
  | .fcvt f => wfFcvt f
  | .brEq _ | .brNe _ | .brLt _ | .brGe _ | .brLtn _ | .brGen _ => true
  | .jal f => f.b == 0
  | .jr f => f.uses .s .s .zero .zero false .zero && f.noTy
  | .vfetch f => f.uses .zero .s .zero .zero true .zero && f.noTy
  | .rds f => wfRds f
  | .wrs f => wfWrs f (fun n => !ownWriteRegs.contains n)
  | .vlWrite f => wfWrs f (· == 0x000)
  | .vstartWrite f => wfWrs f (· == 0x003)
  | .fflgWrite f => wfWrs f (· == 0x007)
  | .mshapeWrite f => wfWrs f (· == 0x00D)
  | .drthWrite f => wfWrs f (· == 0x040)
  | .drstatWrite f => wfWrs f (· == 0x041)
  | .railqWrite f => wfWrs f (· == 0x043)
  | .tstamp f => wfTstamp f
  | .ld f => wfLd f (fun t => t.isNumber || t == .e8)
  | .ldl f => wfLd f Ty.isLinked
  | .pref f => wfPref f
  | .st f => wfSt f .zero (fun t => t.isNumber || t == .e8)
  | .stc f => wfSt f .s Ty.isLinked
  | .vld f => wfVLoad f .zero (fun _ => true) true
  | .vlds f => wfVLoad f .s (fun t => t != .q4) true
  | .vldg f => wfVLoad f (.v f.ty) (fun t => t != .q4) true
  | .vldl f => wfVLoad f (.v f.ty) Ty.isLinked true
  | .vlde f => wfVLoad f .zero (fun _ => true) false
  | .vldt f | .vldtt f => wfVLoad f .s Ty.isTile true
  | .vst f => wfVStore f .zero (fun _ => true) true
  | .vsts f => wfVStore f .s (fun t => t != .q4) true
  | .vstg f => wfVStore f (.v f.ty) (fun t => t != .q4) true
  | .vstc f => wfVStore f (.v f.ty) Ty.isLinked true && f.k != 0
  | .vste f => wfVStore f .zero (fun _ => true) false
  | .vstt f => wfVstt f
  | .fence f => wfFence f
  | .cflush f => wfCflush f
  | .cinvData f => wfCinv f 0
  | .cinvInstruction f => wfCinv f 1
  | .cinvTranslation f => wfCinv f 2
  | .cinvTranslationAll f => wfCinv f 3
  | .czero f => wfCzero f
  | .mshape f => wfSys f .zero .s .zero .zero (· == 0)
  | .mldb f => wfMldb f
  | .mma f | .mmaz f => wfMma f
  | .mdrain f => wfMdrain f
  | .mclrAcc f => wfMclr f .acc 0
  | .mclrB f => wfMclr f .b 1
  | .mstat f => wfMstat f
  | .acprobe f => wfAcprobe f false
  | .acprobeSpec f => wfAcprobe f true
  | .acwait f => wfSys f .s .s .zero .zero (· == 0)
  | .acstore f => wfAcstore f
  | .acdrop f => wfAcdrop f .s 0
  | .acdropAll f => wfAcdrop f .zero 1
  | .vadd f | .vsub f | .vmul f | .vshl f => wfVInt f .sat
  | .vmulh f | .vmin f | .vmax f | .vand f | .vor f | .vxor f | .vshr f | .vsra f => wfVInt f .zero
  | .vabs f | .vneg f => wfVIntU f
  | .vsel f => wfVsel f
  | .vmulw f => wfVWide f .zero
  | .vmacw f => wfVWide f .sat
  | .vfadd f | .vfsub f | .vfmul f | .vffma f | .vffms f | .vfnma f | .vfdiv f => wfVFlt f .round
  | .vfsqrt f | .vfrcp f | .vfrsqrt f | .vfexp2 f | .vflog2 f => wfVFltU f .round
  | .vfmin f | .vfmax f => wfVFlt f .zero
  | .vfabs f | .vfneg f | .vfclass f => wfVFltU f .zero
  | .vcvt f => wfVcvt f
  | .vcmp f => wfVcmp f Ty.isInt 6
  | .vfcmp f => wfVcmp f Ty.isVFloat 8
  | .vrsum f => wfVrsum f
  | .vrmax f | .vrmin f => wfVrext f
  | .vscanSum f => wfVscan f 0 (if f.ty.isVFloat then .round else .sat)
  | .vscanMax f => wfVscan f 1 .zero
  | .vscanMin f => wfVscan f 2 .zero
  | .vcompress f | .vspread f | .vrev f => wfVMove f
  | .vperm f => wfVperm f
  | .vslideup f | .vslidedn f => wfVslide f
  | .vbcastScalar f => wfVbcastScalar f
  | .vbcastElementIndexed f => wfVbcastIdx f
  | .vbcastElement f => wfVbcastElt f
  | .vextr f => wfVextr f
  | .vins f => wfVins f
  | .viota f => wfViota f
  | .vencAuto f => wfVenc f 0
  | .vencRun f => wfVenc f 1
  | .vencDict f => wfVenc f 2
  | .vencDelta f => wfVenc f 3
  | .vexpand f => wfVexpand f
  | .vinfo f => wfVinfo f
  | .kand f | .kor f | .kxor f => wfMask f .k .k
  | .knot f | .kmov f => wfMask f .k .zero
  | .kpopc f | .kfirst f => wfMask f .s .zero
  | .setvl f => wfSetvl f
  | .cpset f => wfSys f .zero .s .zero .zero (· < 12)
  | .cpstart f => wfSys f .s .zero .zero .zero (· == 0)
  | .cpwait f => wfSys f .s .s .zero .zero (· == 0)
  | .cpstat f => wfSys f .s .zero .zero .zero (· < 12)
  | .cbinit f => wfSys f .zero .s .zero .zero (· < 16)
  | .cbwait f => wfSys f .s .s .zero .zero (· < 16)
  | .cbrel f => wfSys f .zero .s .zero .zero (· < 16)
  | .barinit f => wfSys f .zero .s .s .s barrierIdOk
  | .barrive f | .phend f => wfSys f .s .zero .zero .zero barrierIdOk
  | .barwait f => wfSys f .s .s .zero .zero barrierIdOk
  | .jlaunch f | .jwait f => wfSys f .s .s .zero .zero (· == 0)
  | .vsave f | .vrest f | .csave f | .crest f => wfSys f .zero .s .zero .zero (· == 0)
  | .pairedWord a b => a.wf true && b.wf false
  | .reservedInstruction _ => true
  | .instructionFetchFault => true
  | .asyncTrapTaken t | .waitiDeadline t | .probeResolve t _ => t.ok
  | .copyModeCopy q c | .copyModeMulticast q c | .copyModeFill q c | .copyModeVersioned q c
  | .copyModeReduceAdd q c | .copyModeDedup q c => chanOk q c
  | .grant _ cores => cores.all coreOk
  | .preempt c _ => coreOk c
  | .resume _ c => coreOk c
  | .replyArrival _ tid _ => tid < 4
  | .jobCombine _ | .completionRecord _ | .agingTick _ | .levelReturn _ | .jobEndedBySupervisor _ => true
  | .schedulerFailover | .capLeaseExpiry | .winterEntry | .spring | .deviceReset => true
  | .migrationEpoch d => d < 4
  | .migrationLineDone _ l => l < 1024
  | .movesWindowClose _ | .pinleftTick _ | .linePoisoned _ => true
  | .ptAdvance c | .pcSample c => coreOk c
  | .accessFromOtherPackage p _ _ => p < 8192
  | .droopAlarm q _ | .stretchEnd q | .halvedIssueEnd q | .ballastWindow q => q < 256
  | .opPointChange q p => q < 256 && p < 8
  | .alcChange c n => coreOk c && [4, 8, 16, 32].contains n
  | .podPhaseMessage p i => p < 8192 && i < 512
  | .submit | .bind | .unbind | .map | .unmap | .powerCap | .enterWinter | .liftWinter | .readCounter
  | .firmwareUpdate | .loadKey | .attest | .readOffer | .accept | .jobStatus | .podTable => true

end Sys2Proof
end

