-- ==== Sys2Proof/Decode.lean ====
section
/-!
DEFINITION. From a 64-bit word to an instruction or a named rejection, and back: the word formats of Tables 13.1-13.4,
the half format of Table 13.8, the major opcodes of Table 14.1 and the members of Table 14.2. Decoding is total; what it
rejects raises trap 1, or trap 2 for a paired word (R182). The VP instructions of R225 have their own type: they are no
instruction outside a block.
-/
namespace Sys2Proof
open Sys2Proof.Machine (bitsOf)

/-- Why a word is no instruction (R182, R169). -/
inductive Reject where
  | opUnassigned
  | fnUnassigned
  | ccUnassigned
  | typeUnassigned
  | orderUnassigned
  | scopeUnassigned
  | fieldCheck
  | pairRule
  | vpOnly
  deriving DecidableEq, Repr

/-- The named rejection as a result. -/
abbrev Decoded := Except Reject Instr

-- Fields of the word formats -----------------------------------------------------------------------------------------

/-- ORD codes 0..4 (Table 11.1). -/
def Ord.ofCode : Nat → Option Ord
  | 0 => some .plain | 1 => some .acq | 2 => some .rel | 3 => some .ar | 4 => some .sc | _ => none
def Ord.code : Ord → Nat
  | .plain => 0 | .acq => 1 | .rel => 2 | .ar => 3 | .sc => 4

/-- SCOPE codes 0..5 (Table 1.1). -/
def Scope.ofCode : Nat → Option Scope
  | 0 => some .lane | 1 => some .core | 2 => some .quad | 3 => some .die | 4 => some .pkg | 5 => some .pod | _ => none
def Scope.code : Scope → Nat
  | .lane => 0 | .core => 1 | .quad => 2 | .die => 3 | .pkg => 4 | .pod => 5

/-- The fields of a W3 word (Table 13.1). -/
def rawW3 (w : Word) : Except Reject W3 :=
  match Ty.ofCode (w.extractLsb' 20 4).toNat with
  | none => .error .typeUnassigned
  | some ty =>
    .ok { d := w.extractLsb' 50 6, a := w.extractLsb' 44 6, b := w.extractLsb' 38 6, c := w.extractLsb' 32 6, ty := ty,
          k := w.extractLsb' 17 3, q := w.extractLsb' 14 3, imm := w.extractLsb' 0 14 }

/-- The fields of a WI word (Table 13.2). -/
def rawWI (w : Word) : WI := { d := w.extractLsb' 50 6, a := w.extractLsb' 44 6, imm := w.extractLsb' 12 32 }

/-- The fields of a WJ word (Table 13.3). -/
def rawWJ (w : Word) : WJ := { a := w.extractLsb' 50 6, b := w.extractLsb' 44 6, off := w.extractLsb' 0 40 }

/-- The fields of a WM word (Table 13.4). -/
def rawWM (w : Word) : Except Reject WM :=
  match Ty.ofCode (w.extractLsb' 20 4).toNat with
  | none => .error .typeUnassigned
  | some ty =>
    match Ord.ofCode (w.extractLsb' 14 3).toNat with
    | none => .error .orderUnassigned
    | some ord =>
      match Scope.ofCode (w.extractLsb' 11 3).toNat with
      | none => .error .scopeUnassigned
      | some scope =>
        .ok { d := w.extractLsb' 50 6, a := w.extractLsb' 44 6, b := w.extractLsb' 38 6, c := w.extractLsb' 32 6,
              ty := ty, k := w.extractLsb' 17 3, ord := ord, scope := scope, off := w.extractLsb' 0 11 }

-- Members of each group (Table 14.2), in FN order --------------------------------------------------------------------

/-- The row of the opcode table that a `wrs` word belongs to, by the register it names. -/
def pickWrs (f : W3) : Instr :=
  match f.stateReg with
  | 0x000 => .vlWrite f | 0x003 => .vstartWrite f | 0x007 => .fflgWrite f | 0x00D => .mshapeWrite f
  | 0x040 => .drthWrite f | 0x041 => .drstatWrite f | 0x043 => .railqWrite f | _ => .wrs f
/-- `cinv` by its form number in D (Table 18.5); a number beyond the table keeps form 3 and fails its check. -/
def pickCinv (f : WM) : Instr :=
  match f.d.toNat with
  | 0 => .cinvData f | 1 => .cinvInstruction f | 2 => .cinvTranslation f | _ => .cinvTranslationAll f
/-- `mclr` by IMM14[0] (Table 22.3). -/
def pickMclr (f : W3) : Instr := if f.imm.getLsbD 0 then .mclrB f else .mclrAcc f
/-- `acprobe` by Q[0], `.spec` (Table 22.8). -/
def pickAcprobe (f : W3) : Instr := if f.q.getLsbD 0 then .acprobeSpec f else .acprobe f
/-- `acdrop` by IMM14[0], `.all` (Table 22.8). -/
def pickAcdrop (f : W3) : Instr := if f.imm.getLsbD 0 then .acdropAll f else .acdrop f
/-- `vscan` by IMM14[1:0] (R276); operation 3 keeps `.min` and fails its check. -/
def pickVscan (f : W3) : Instr :=
  match f.immBits 1 0 with
  | 0 => .vscanSum f | 1 => .vscanMax f | _ => .vscanMin f
/-- `vbcast` by IMM14[13:12] (R278). -/
def pickVbcast (f : W3) : Instr :=
  if f.bScalar then (if f.imm.getLsbD 12 then .vbcastScalar f else .vbcastElementIndexed f) else .vbcastElement f
/-- `venc` by its target in IMM14[1:0] (R280). -/
def pickVenc (f : W3) : Instr :=
  match f.immBits 1 0 with
  | 0 => .vencAuto f | 1 => .vencRun f | 2 => .vencDict f | _ => .vencDelta f

def sysMembers : List (W3 → Instr) :=
  [Instr.nop, Instr.trap, Instr.eret, Instr.waiti, Instr.yield]
def int3Members : List (W3 → Instr) :=
  [Instr.add, Instr.sub, Instr.mul, Instr.mulh, Instr.mulhn, Instr.div, Instr.divn, Instr.rem, Instr.remn,
   Instr.and, Instr.or, Instr.xor, Instr.andn, Instr.orn, Instr.shl, Instr.shr, Instr.sra, Instr.rot,
   Instr.min, Instr.max, Instr.minn, Instr.maxn, Instr.slt, Instr.sltn, Instr.seq, Instr.sel, Instr.clz,
   Instr.ctz, Instr.popc, Instr.bswap, Instr.bext, Instr.bins]
def intiMembers : List (WI → Instr) :=
  [Instr.addi, Instr.andi, Instr.ori, Instr.xori, Instr.shli, Instr.shri, Instr.srai, Instr.roti, Instr.slti,
   Instr.sltni, Instr.mini, Instr.maxi]
def liMembers : List (WI → Instr) :=
  [Instr.li, Instr.lih]
def leaMembers : List (W3 → Instr) :=
  [Instr.lea]
def flt3Members : List (W3 → Instr) :=
  [Instr.fadd, Instr.fsub, Instr.fmul, Instr.ffma, Instr.fdiv, Instr.fsqrt, Instr.fmin, Instr.fmax, Instr.fcmp,
   Instr.fclass, Instr.fcvt, Instr.fabs, Instr.fneg]
def jrMembers : List (W3 → Instr) :=
  [Instr.jr]
def blockMembers : List (W3 → Instr) :=
  [Instr.vfetch]
def stateMembers : List (W3 → Instr) :=
  [Instr.rds, pickWrs, Instr.tstamp]
def ldsMembers : List (WM → Instr) :=
  [Instr.ld, Instr.ldl, Instr.pref]
def stsMembers : List (WM → Instr) :=
  [Instr.st, Instr.stc]
def vldMembers : List (WM → Instr) :=
  [Instr.vld, Instr.vlds, Instr.vldg, Instr.vldl, Instr.vlde, Instr.vldt, Instr.vldtt]
def vstMembers : List (WM → Instr) :=
  [Instr.vst, Instr.vsts, Instr.vstg, Instr.vstc, Instr.vste, Instr.vstt]
def memctlMembers : List (WM → Instr) :=
  [Instr.fence, Instr.cflush, pickCinv, Instr.czero]
def mtxMembers : List (W3 → Instr) :=
  [Instr.mshape, Instr.mldb, Instr.mma, Instr.mmaz, Instr.mdrain, pickMclr, Instr.mstat]
def autumnMembers : List (W3 → Instr) :=
  [pickAcprobe, Instr.acwait, Instr.acstore, pickAcdrop]
def vintMembers : List (W3 → Instr) :=
  [Instr.vadd, Instr.vsub, Instr.vmul, Instr.vmulh, Instr.vmin, Instr.vmax, Instr.vand, Instr.vor, Instr.vxor,
   Instr.vshl, Instr.vshr, Instr.vsra, Instr.vabs, Instr.vneg, Instr.vsel, Instr.vmulw, Instr.vmacw]
def vfltMembers : List (W3 → Instr) :=
  [Instr.vfadd, Instr.vfsub, Instr.vfmul, Instr.vffma, Instr.vffms, Instr.vfnma, Instr.vfdiv, Instr.vfsqrt,
   Instr.vfrcp, Instr.vfrsqrt, Instr.vfexp2, Instr.vflog2, Instr.vfmin, Instr.vfmax, Instr.vfabs, Instr.vfneg,
   Instr.vfclass]
def vcvtMembers : List (W3 → Instr) :=
  [Instr.vcvt]
def vcmpMembers : List (W3 → Instr) :=
  [Instr.vcmp, Instr.vfcmp]
def vredMembers : List (W3 → Instr) :=
  [Instr.vrsum, Instr.vrmax, Instr.vrmin, pickVscan, Instr.vcompress, Instr.vspread]
def vpermMembers : List (W3 → Instr) :=
  [Instr.vperm, Instr.vslideup, Instr.vslidedn, pickVbcast, Instr.vextr, Instr.vins, Instr.viota, Instr.vrev]
def vencMembers : List (W3 → Instr) :=
  [pickVenc, Instr.vexpand, Instr.vinfo]
def maskMembers : List (W3 → Instr) :=
  [Instr.kand, Instr.kor, Instr.kxor, Instr.knot, Instr.kpopc, Instr.kfirst, Instr.kmov]
def vcfgMembers : List (W3 → Instr) :=
  [Instr.setvl]
def copyMembers : List (W3 → Instr) :=
  [Instr.cpset, Instr.cpstart, Instr.cpwait, Instr.cpstat]
def cbufMembers : List (W3 → Instr) :=
  [Instr.cbinit, Instr.cbwait, Instr.cbrel]
def barMembers : List (W3 → Instr) :=
  [Instr.barinit, Instr.barrive, Instr.barwait, Instr.phend]
def jobMembers : List (W3 → Instr) :=
  [Instr.jlaunch, Instr.jwait]
def ctxMembers : List (W3 → Instr) :=
  [Instr.vsave, Instr.vrest, Instr.csave, Instr.crest]

/-- A W3 word of a group: FN selects the member, then R182's field checks. -/
def member3 (w : Word) (ms : List (W3 → Instr)) : Decoded :=
  match ms[(w.extractLsb' 24 8).toNat]? with
  | none => .error .fnUnassigned
  | some mk => match rawW3 w with
    | .error e => .error e
    | .ok f => .ok (mk f)

/-- A WI word of a group: FN12 selects the member. -/
def memberI (w : Word) (ms : List (WI → Instr)) : Decoded :=
  match ms[(w.extractLsb' 0 12).toNat]? with
  | none => .error .fnUnassigned
  | some mk => .ok (mk (rawWI w))

/-- A WM word of a group. -/
def memberM (w : Word) (ms : List (WM → Instr)) : Decoded :=
  match ms[(w.extractLsb' 24 8).toNat]? with
  | none => .error .fnUnassigned
  | some mk => match rawWM w with
    | .error e => .error e
    | .ok f => .ok (mk f)

/-- BR takes its member from CC (Table 14.4). -/
def brMembers : List (WJ → Instr) := [Instr.brEq, Instr.brNe, Instr.brLt, Instr.brGe, Instr.brLtn, Instr.brGen]
def memberBr (w : Word) : Decoded :=
  match brMembers[(w.extractLsb' 40 4).toNat]? with
  | none => .error .ccUnassigned
  | some mk => .ok (mk (rawWJ w))

/-- JAL accepts CC = 0 only (R179). -/
def memberJal (w : Word) : Decoded :=
  if w.extractLsb' 40 4 = 0 then .ok (.jal (rawWJ w)) else .error .ccUnassigned

/-- BLOCK: outside a block only `vfetch` is an instruction; its other members belong to VPs (R225). -/
def memberBlock (w : Word) : Decoded :=
  match (w.extractLsb' 24 8).toNat with
  | 0 => member3 w blockMembers
  | 1 | 2 | 3 | 4 | 5 => .error .vpOnly
  | _ => .error .fnUnassigned

/-- The group of a full word (Table 14.1). -/
def decodeGroup (w : Word) : Decoded :=
  match (w.extractLsb' 56 7).toNat with
  | 0x00 => member3 w sysMembers
  | 0x01 => member3 w int3Members
  | 0x02 => memberI w intiMembers
  | 0x03 => memberI w liMembers
  | 0x04 => member3 w leaMembers
  | 0x05 => member3 w flt3Members
  | 0x08 => memberBr w
  | 0x09 => memberJal w
  | 0x0A => member3 w jrMembers
  | 0x0C => memberBlock w
  | 0x0E => member3 w stateMembers
  | 0x10 => memberM w ldsMembers
  | 0x11 => memberM w stsMembers
  | 0x12 => memberM w vldMembers
  | 0x13 => memberM w vstMembers
  | 0x14 => memberM w memctlMembers
  | 0x18 => member3 w mtxMembers
  | 0x19 => member3 w autumnMembers
  | 0x20 => member3 w vintMembers
  | 0x21 => member3 w vfltMembers
  | 0x22 => member3 w vcvtMembers
  | 0x23 => member3 w vcmpMembers
  | 0x24 => member3 w vredMembers
  | 0x25 => member3 w vpermMembers
  | 0x26 => member3 w vencMembers
  | 0x27 => member3 w maskMembers
  | 0x28 => member3 w vcfgMembers
  | 0x30 => member3 w copyMembers
  | 0x31 => member3 w cbufMembers
  | 0x32 => member3 w barMembers
  | 0x33 => member3 w jobMembers
  | 0x34 => member3 w ctxMembers
  | _ => .error .opUnassigned

-- Halves (Tables 13.8, 14.3) -----------------------------------------------------------------------------------------

/-- HOP 0..24. -/
def hops : List HOp :=
  [.nop, .mov, .add, .sub, .and, .or, .xor, .shl, .shr, .sra, .min, .max, .slt, .addi, .li, .ld, .st, .brz, .brnz,
   .vadd, .vsub, .vmul, .vfadd, .vfmul, .vffma]
/-- The number of a half opcode. -/
def HOp.code : HOp → Nat
  | .nop => 0 | .mov => 1 | .add => 2 | .sub => 3 | .and => 4 | .or => 5 | .xor => 6 | .shl => 7 | .shr => 8
  | .sra => 9 | .min => 10 | .max => 11 | .slt => 12 | .addi => 13 | .li => 14 | .ld => 15 | .st => 16 | .brz => 17
  | .brnz => 18 | .vadd => 19 | .vsub => 20 | .vmul => 21 | .vfadd => 22 | .vfmul => 23 | .vffma => 24

/-- The fields of one half, 31 bits (Table 13.8). -/
def rawHalf (h : BitVec 31) : Option Half :=
  match hops[(h.extractLsb' 25 6).toNat]? with
  | none => none
  | some op => some { op := op, d := h.extractLsb' 20 5, s := h.extractLsb' 15 5, x := h.extractLsb' 14 1,
                      low := h.extractLsb' 0 14 }

/-- A paired word: slot A in bits [62:32], bit 31 zero, slot B in bits [30:0] (R161). -/
def decodePair (w : Word) : Decoded :=
  if w.getLsbD 31 then .error .pairRule
  else match rawHalf (w.extractLsb' 32 31), rawHalf (w.extractLsb' 0 31) with
    | some a, some b => .ok (.pairedWord a b)
    | _, _ => .error .pairRule

/-- The instruction a word encodes, or why it encodes none: the format and member first, then the field checks of
`WellFormed` (R183, steps 2 and 3). -/
def decodeWord (w : Word) : Decoded :=
  if w.getLsbD 63 then
    match decodePair w with
    | .error e => .error e
    | .ok i => if WellFormed i then .ok i else .error .pairRule
  else
    match decodeGroup w with
    | .error e => .error e
    | .ok i => if WellFormed i then .ok i else .error .fieldCheck

/-- What a fetched word executes as: its instruction, or the row for words that are none (R182). -/
def decodeInstr (w : Word) : Instr :=
  match decodeWord w with
  | .ok i => i
  | .error _ => .reservedInstruction w

-- The feature an encoding needs (R181) -------------------------------------------------------------------------------

/-- Feature bits, as a mask of FEAT0[4:0], that a word's encoding needs beside the base set (Table 14.6). -/
def featureNeed (w : Word) : Nat :=
  if w.getLsbD 63 then 0
  else match (w.extractLsb' 56 7).toNat, (w.extractLsb' 24 8).toNat with
    | 0x18, 1 => 0xA
    | 0x18, _ => 0x2
    | 0x19, _ => 0x4
    | 0x12, 4 => 0x10
    | 0x12, 5 => 0x8
    | 0x12, 6 => 0x8
    | 0x13, 4 => 0x10
    | 0x13, 5 => 0x8
    | 0x26, _ => 0x10
    | _, _ => 0

-- VP instructions (R225) ---------------------------------------------------------------------------------------------

/-- The BLOCK members that only a VP executes. -/
inductive VpInstr where
  | vpbr (f : W3) | vpj (f : W3) | vpend | xqpush (f : W3) | xqpop (f : W3)
  deriving DecidableEq, Repr

/-- TY 0..5, 8, 9 and 10: the types of `vpbr`. -/
def vpbrTy (t : Ty) : Bool := (t.isInt && !t.wide) || t.isVFloat

/-- The VP instruction a word encodes, with the field checks of Table 17.10 and R225. -/
def decodeVp (w : Word) : Option VpInstr :=
  if w.getLsbD 63 || (w.extractLsb' 56 7).toNat != 0x0C then none
  else match rawW3 w with
    | .error _ => none
    | .ok f => match (w.extractLsb' 24 8).toNat with
      | 1 =>
        if f.d == 0 && Use.ok (.v f.ty) f.a && Use.ok (f.vs f.ty) f.b && f.c.toNat < 4 && f.k == 0 && f.q == 0
          && vpbrTy f.ty then some (.vpbr f) else none
      | 2 => if f.uses .zero .zero .zero .zero false .zero && f.noTy then some (.vpj f) else none
      | 3 => if f.bare then some .vpend else none
      | 4 =>
        if f.uses .zero (.v f.ty) .zero .zero false .zero && f.imm == 0 && (vpbrTy f.ty || f.ty == .e8)
        then some (.xqpush f) else none
      | 5 =>
        if f.uses (.v f.ty) .s .zero .zero false .zero && f.imm == 0 && (vpbrTy f.ty || f.ty == .e8)
        then some (.xqpop f) else none
      | _ => none

-- Encoding -----------------------------------------------------------------------------------------------------------

/-- A W3 word from its parts (Table 13.1). -/
def packW3 (op fn : Nat) (f : W3) : Word :=
  (0#1 ++ BitVec.ofNat 7 op ++ f.d ++ f.a ++ f.b ++ f.c ++ BitVec.ofNat 8 fn ++ BitVec.ofNat 4 f.ty.code ++ f.k ++ f.q
    ++ f.imm : BitVec 64)
/-- A WI word from its parts (Table 13.2). -/
def packWI (op fn : Nat) (f : WI) : Word :=
  (0#1 ++ BitVec.ofNat 7 op ++ f.d ++ f.a ++ f.imm ++ BitVec.ofNat 12 fn : BitVec 64)
/-- A WJ word from its parts (Table 13.3). -/
def packWJ (op cc : Nat) (f : WJ) : Word :=
  (0#1 ++ BitVec.ofNat 7 op ++ f.a ++ f.b ++ BitVec.ofNat 4 cc ++ f.off : BitVec 64)
/-- A WM word from its parts (Table 13.4). -/
def packWM (op fn : Nat) (f : WM) : Word :=
  (0#1 ++ BitVec.ofNat 7 op ++ f.d ++ f.a ++ f.b ++ f.c ++ BitVec.ofNat 8 fn ++ BitVec.ofNat 4 f.ty.code ++ f.k
    ++ BitVec.ofNat 3 f.ord.code ++ BitVec.ofNat 3 f.scope.code ++ f.off : BitVec 64)
/-- One half from its parts (Table 13.8). -/
def packHalf (h : Half) : BitVec 31 := (BitVec.ofNat 6 h.op.code ++ h.d ++ h.s ++ h.x ++ h.low : BitVec 31)
/-- A paired word from its halves. -/
def packPair (a b : Half) : Word := (1#1 ++ packHalf a ++ 0#1 ++ packHalf b : BitVec 64)

/-- Whether an instruction is one that a word encodes: no event, no host command, no failed fetch and no reserved word. -/
def hasWord : Instr → Bool
  | .reservedInstruction _ | .instructionFetchFault | .asyncTrapTaken _ | .probeResolve _ _ | .waitiDeadline _
  | .copyModeCopy _ _ | .copyModeMulticast _ _ | .copyModeFill _ _ | .copyModeVersioned _ _ | .copyModeReduceAdd _ _
  | .copyModeDedup _ _
  | .grant _ _ | .preempt _ _ | .resume _ _ | .replyArrival _ _ _ | .jobCombine _ | .completionRecord _
  | .agingTick _ | .levelReturn _ | .jobEndedBySupervisor _ | .schedulerFailover
  | .migrationEpoch _ | .migrationLineDone _ _ | .movesWindowClose _ | .pinleftTick _ | .linePoisoned _ | .ptAdvance _
  | .accessFromOtherPackage _ _ _
  | .droopAlarm _ _ | .stretchEnd _ | .halvedIssueEnd _ | .ballastWindow _ | .pcSample _ | .opPointChange _ _
  | .alcChange _ _ | .capLeaseExpiry | .winterEntry | .spring | .podPhaseMessage _ _ | .deviceReset
  | .submit | .bind | .unbind | .map | .unmap | .powerCap | .enterWinter | .liftWinter | .readCounter
  | .firmwareUpdate | .loadKey | .attest | .readOffer | .accept | .jobStatus | .podTable => false
  | _ => true

/-- The word of an instruction; events and commands have none (0). -/
def encode : Instr → Word
  | .nop f => packW3 0x00 0x00 f
  | .trap f => packW3 0x00 0x01 f
  | .eret f => packW3 0x00 0x02 f
  | .waiti f => packW3 0x00 0x03 f
  | .yield f => packW3 0x00 0x04 f
  | .add f => packW3 0x01 0x00 f
  | .sub f => packW3 0x01 0x01 f
  | .mul f => packW3 0x01 0x02 f
  | .mulh f => packW3 0x01 0x03 f
  | .mulhn f => packW3 0x01 0x04 f
  | .div f => packW3 0x01 0x05 f
  | .divn f => packW3 0x01 0x06 f
  | .rem f => packW3 0x01 0x07 f
  | .remn f => packW3 0x01 0x08 f
  | .and f => packW3 0x01 0x09 f
  | .or f => packW3 0x01 0x0A f
  | .xor f => packW3 0x01 0x0B f
  | .andn f => packW3 0x01 0x0C f
  | .orn f => packW3 0x01 0x0D f
  | .shl f => packW3 0x01 0x0E f
  | .shr f => packW3 0x01 0x0F f
  | .sra f => packW3 0x01 0x10 f
  | .rot f => packW3 0x01 0x11 f
  | .min f => packW3 0x01 0x12 f
  | .max f => packW3 0x01 0x13 f
  | .minn f => packW3 0x01 0x14 f
  | .maxn f => packW3 0x01 0x15 f
  | .slt f => packW3 0x01 0x16 f
  | .sltn f => packW3 0x01 0x17 f
  | .seq f => packW3 0x01 0x18 f
  | .sel f => packW3 0x01 0x19 f
  | .clz f => packW3 0x01 0x1A f
  | .ctz f => packW3 0x01 0x1B f
  | .popc f => packW3 0x01 0x1C f
  | .bswap f => packW3 0x01 0x1D f
  | .bext f => packW3 0x01 0x1E f
  | .bins f => packW3 0x01 0x1F f
  | .addi f => packWI 0x02 0x00 f
  | .andi f => packWI 0x02 0x01 f
  | .ori f => packWI 0x02 0x02 f
  | .xori f => packWI 0x02 0x03 f
  | .shli f => packWI 0x02 0x04 f
  | .shri f => packWI 0x02 0x05 f
  | .srai f => packWI 0x02 0x06 f
  | .roti f => packWI 0x02 0x07 f
  | .slti f => packWI 0x02 0x08 f
  | .sltni f => packWI 0x02 0x09 f
  | .mini f => packWI 0x02 0x0A f
  | .maxi f => packWI 0x02 0x0B f
  | .li f => packWI 0x03 0x00 f
  | .lih f => packWI 0x03 0x01 f
  | .lea f => packW3 0x04 0x00 f
  | .fadd f => packW3 0x05 0x00 f
  | .fsub f => packW3 0x05 0x01 f
  | .fmul f => packW3 0x05 0x02 f
  | .ffma f => packW3 0x05 0x03 f
  | .fdiv f => packW3 0x05 0x04 f
  | .fsqrt f => packW3 0x05 0x05 f
  | .fmin f => packW3 0x05 0x06 f
  | .fmax f => packW3 0x05 0x07 f
  | .fcmp f => packW3 0x05 0x08 f
  | .fclass f => packW3 0x05 0x09 f
  | .fcvt f => packW3 0x05 0x0A f
  | .fabs f => packW3 0x05 0x0B f
  | .fneg f => packW3 0x05 0x0C f
  | .jr f => packW3 0x0A 0x00 f
  | .vfetch f => packW3 0x0C 0x00 f
  | .rds f => packW3 0x0E 0x00 f
  | .wrs f => packW3 0x0E 0x01 f
  | .vlWrite f => packW3 0x0E 0x01 f
  | .vstartWrite f => packW3 0x0E 0x01 f
  | .fflgWrite f => packW3 0x0E 0x01 f
  | .mshapeWrite f => packW3 0x0E 0x01 f
  | .drthWrite f => packW3 0x0E 0x01 f
  | .drstatWrite f => packW3 0x0E 0x01 f
  | .railqWrite f => packW3 0x0E 0x01 f
  | .tstamp f => packW3 0x0E 0x02 f
  | .ld f => packWM 0x10 0x00 f
  | .ldl f => packWM 0x10 0x01 f
  | .pref f => packWM 0x10 0x02 f
  | .st f => packWM 0x11 0x00 f
  | .stc f => packWM 0x11 0x01 f
  | .vld f => packWM 0x12 0x00 f
  | .vlds f => packWM 0x12 0x01 f
  | .vldg f => packWM 0x12 0x02 f
  | .vldl f => packWM 0x12 0x03 f
  | .vlde f => packWM 0x12 0x04 f
  | .vldt f => packWM 0x12 0x05 f
  | .vldtt f => packWM 0x12 0x06 f
  | .vst f => packWM 0x13 0x00 f
  | .vsts f => packWM 0x13 0x01 f
  | .vstg f => packWM 0x13 0x02 f
  | .vstc f => packWM 0x13 0x03 f
  | .vste f => packWM 0x13 0x04 f
  | .vstt f => packWM 0x13 0x05 f
  | .fence f => packWM 0x14 0x00 f
  | .cflush f => packWM 0x14 0x01 f
  | .cinvData f => packWM 0x14 0x02 f
  | .cinvInstruction f => packWM 0x14 0x02 f
  | .cinvTranslation f => packWM 0x14 0x02 f
  | .cinvTranslationAll f => packWM 0x14 0x02 f
  | .czero f => packWM 0x14 0x03 f
  | .mshape f => packW3 0x18 0x00 f
  | .mldb f => packW3 0x18 0x01 f
  | .mma f => packW3 0x18 0x02 f
  | .mmaz f => packW3 0x18 0x03 f
  | .mdrain f => packW3 0x18 0x04 f
  | .mclrAcc f => packW3 0x18 0x05 f
  | .mclrB f => packW3 0x18 0x05 f
  | .mstat f => packW3 0x18 0x06 f
  | .acprobe f => packW3 0x19 0x00 f
  | .acprobeSpec f => packW3 0x19 0x00 f
  | .acwait f => packW3 0x19 0x01 f
  | .acstore f => packW3 0x19 0x02 f
  | .acdrop f => packW3 0x19 0x03 f
  | .acdropAll f => packW3 0x19 0x03 f
  | .vadd f => packW3 0x20 0x00 f
  | .vsub f => packW3 0x20 0x01 f
  | .vmul f => packW3 0x20 0x02 f
  | .vmulh f => packW3 0x20 0x03 f
  | .vmin f => packW3 0x20 0x04 f
  | .vmax f => packW3 0x20 0x05 f
  | .vand f => packW3 0x20 0x06 f
  | .vor f => packW3 0x20 0x07 f
  | .vxor f => packW3 0x20 0x08 f
  | .vshl f => packW3 0x20 0x09 f
  | .vshr f => packW3 0x20 0x0A f
  | .vsra f => packW3 0x20 0x0B f
  | .vabs f => packW3 0x20 0x0C f
  | .vneg f => packW3 0x20 0x0D f
  | .vsel f => packW3 0x20 0x0E f
  | .vmulw f => packW3 0x20 0x0F f
  | .vmacw f => packW3 0x20 0x10 f
  | .vfadd f => packW3 0x21 0x00 f
  | .vfsub f => packW3 0x21 0x01 f
  | .vfmul f => packW3 0x21 0x02 f
  | .vffma f => packW3 0x21 0x03 f
  | .vffms f => packW3 0x21 0x04 f
  | .vfnma f => packW3 0x21 0x05 f
  | .vfdiv f => packW3 0x21 0x06 f
  | .vfsqrt f => packW3 0x21 0x07 f
  | .vfrcp f => packW3 0x21 0x08 f
  | .vfrsqrt f => packW3 0x21 0x09 f
  | .vfexp2 f => packW3 0x21 0x0A f
  | .vflog2 f => packW3 0x21 0x0B f
  | .vfmin f => packW3 0x21 0x0C f
  | .vfmax f => packW3 0x21 0x0D f
  | .vfabs f => packW3 0x21 0x0E f
  | .vfneg f => packW3 0x21 0x0F f
  | .vfclass f => packW3 0x21 0x10 f
  | .vcvt f => packW3 0x22 0x00 f
  | .vcmp f => packW3 0x23 0x00 f
  | .vfcmp f => packW3 0x23 0x01 f
  | .vrsum f => packW3 0x24 0x00 f
  | .vrmax f => packW3 0x24 0x01 f
  | .vrmin f => packW3 0x24 0x02 f
  | .vscanSum f => packW3 0x24 0x03 f
  | .vscanMax f => packW3 0x24 0x03 f
  | .vscanMin f => packW3 0x24 0x03 f
  | .vcompress f => packW3 0x24 0x04 f
  | .vspread f => packW3 0x24 0x05 f
  | .vperm f => packW3 0x25 0x00 f
  | .vslideup f => packW3 0x25 0x01 f
  | .vslidedn f => packW3 0x25 0x02 f
  | .vbcastScalar f => packW3 0x25 0x03 f
  | .vbcastElementIndexed f => packW3 0x25 0x03 f
  | .vbcastElement f => packW3 0x25 0x03 f
  | .vextr f => packW3 0x25 0x04 f
  | .vins f => packW3 0x25 0x05 f
  | .viota f => packW3 0x25 0x06 f
  | .vrev f => packW3 0x25 0x07 f
  | .vencAuto f => packW3 0x26 0x00 f
  | .vencRun f => packW3 0x26 0x00 f
  | .vencDict f => packW3 0x26 0x00 f
  | .vencDelta f => packW3 0x26 0x00 f
  | .vexpand f => packW3 0x26 0x01 f
  | .vinfo f => packW3 0x26 0x02 f
  | .kand f => packW3 0x27 0x00 f
  | .kor f => packW3 0x27 0x01 f
  | .kxor f => packW3 0x27 0x02 f
  | .knot f => packW3 0x27 0x03 f
  | .kpopc f => packW3 0x27 0x04 f
  | .kfirst f => packW3 0x27 0x05 f
  | .kmov f => packW3 0x27 0x06 f
  | .setvl f => packW3 0x28 0x00 f
  | .cpset f => packW3 0x30 0x00 f
  | .cpstart f => packW3 0x30 0x01 f
  | .cpwait f => packW3 0x30 0x02 f
  | .cpstat f => packW3 0x30 0x03 f
  | .cbinit f => packW3 0x31 0x00 f
  | .cbwait f => packW3 0x31 0x01 f
  | .cbrel f => packW3 0x31 0x02 f
  | .barinit f => packW3 0x32 0x00 f
  | .barrive f => packW3 0x32 0x01 f
  | .barwait f => packW3 0x32 0x02 f
  | .phend f => packW3 0x32 0x03 f
  | .jlaunch f => packW3 0x33 0x00 f
  | .jwait f => packW3 0x33 0x01 f
  | .vsave f => packW3 0x34 0x00 f
  | .vrest f => packW3 0x34 0x01 f
  | .csave f => packW3 0x34 0x02 f
  | .crest f => packW3 0x34 0x03 f
  | .brEq f => packWJ 0x08 0 f
  | .brNe f => packWJ 0x08 1 f
  | .brLt f => packWJ 0x08 2 f
  | .brGe f => packWJ 0x08 3 f
  | .brLtn f => packWJ 0x08 4 f
  | .brGen f => packWJ 0x08 5 f
  | .jal f => packWJ 0x09 0 f
  | .pairedWord a b => packPair a b
  | .reservedInstruction w => w
  | .instructionFetchFault | .asyncTrapTaken _ | .probeResolve _ _ | .waitiDeadline _ => 0
  | .copyModeCopy _ _ | .copyModeMulticast _ _ | .copyModeFill _ _ | .copyModeVersioned _ _
  | .copyModeReduceAdd _ _ | .copyModeDedup _ _ => 0
  | .grant _ _ | .preempt _ _ | .resume _ _ | .replyArrival _ _ _ | .jobCombine _ | .completionRecord _
  | .agingTick _ | .levelReturn _ | .jobEndedBySupervisor _ | .schedulerFailover => 0
  | .migrationEpoch _ | .migrationLineDone _ _ | .movesWindowClose _ | .pinleftTick _ | .linePoisoned _
  | .ptAdvance _ | .accessFromOtherPackage _ _ _ => 0
  | .droopAlarm _ _ | .stretchEnd _ | .halvedIssueEnd _ | .ballastWindow _ | .pcSample _ | .opPointChange _ _
  | .alcChange _ _ | .capLeaseExpiry | .winterEntry | .spring | .podPhaseMessage _ _ | .deviceReset => 0
  | .submit | .bind | .unbind | .map | .unmap | .powerCap | .enterWinter | .liftWinter | .readCounter
  | .firmwareUpdate | .loadKey | .attest | .readOffer | .accept | .jobStatus | .podTable => 0

/-- The instruction this decoder reads from a table row's bits: a word of up to 64 bits, its bytes laid out little-endian
as memory holds them (R161). -/
def decodeTableWord (_nbits w : Nat) : Option Instr :=
  match decodeWord (BitVec.ofNat 64 w) with
  | .ok i => some i
  | .error _ => none

-- Host messages (Tables 30.1, 30.2) ----------------------------------------------------------------------------------

/-- Command codes 1..16 (Table 30.2). -/
def commands : List Instr :=
  [.submit, .bind, .unbind, .map, .unmap, .powerCap, .enterWinter, .liftWinter, .readCounter, .firmwareUpdate,
   .loadKey, .attest, .readOffer, .accept, .jobStatus, .podTable]

/-- The message in a command's bytes, and the command it names when its code is known. -/
def decodeMessage (iodie conn seq : Nat) (bytes : List Byte) : Msg × Option Instr :=
  let m : Msg := { iodie := iodie, conn := conn, seq := seq, reserved := BitVec.ofNat 16 (Machine.natAt bytes 2 2),
                   tag := BitVec.ofNat 64 (Machine.natAt bytes 8 8), blen := Machine.natAt bytes 4 4,
                   body := bytes.drop 16 }
  let cmd := Machine.natAt bytes 0 2
  (m, if cmd = 0 then none else commands[cmd - 1]?)

end Sys2Proof
end

