-- ==== Sys2Proof/Machine/Numbers.lean ====
section
/-!
DEFINITION. The exact values of the number formats, rounding, and the floating-point and integer operations of the
number chapter: formats R55-R57, rounding R63-R65, flags and clamping R66-R70, zeros R71, minimum and maximum R77.
A value is held exactly, as a sign, a natural number and a power of two; it is rounded once, at the end.
-/
namespace Sys2Proof.Machine
open Sys2Proof

/-- The six flags of FFLG in bit order NX UF OF DZ INV SAT (Table 5.9). -/
abbrev Flags := BitVec 6
def flNX : Flags := 1
def flUF : Flags := 2
def flOF : Flags := 4
def flDZ : Flags := 8
def flINV : Flags := 16
def flSAT : Flags := 32

/-- A rounding mode (Table 5.6), with the draw h of R65 for the stochastic one. -/
inductive RMode where
  | rne | rtz | rdn | rup | rna
  | sr (h : Nat)
  deriving DecidableEq, Repr

/-- An exact floating value: (−1)^s · m · 2^e, an infinity, or the NaN. A zero keeps its sign. -/
inductive FVal where
  | nan
  | inf (s : Bool)
  | fin (s : Bool) (m : Nat) (e : Int)
  deriving DecidableEq, Repr

/-- A binary format: width, exponent bits, precision (with the leading bit), and whether that bit is stored (W80). -/
structure Fmt where
  w : Nat
  eb : Nat
  p : Nat
  explicitBit : Bool
  deriving DecidableEq, Repr

def fmtH : Fmt := { w := 16, eb := 5, p := 11, explicitBit := false }
def fmtBF : Fmt := { w := 16, eb := 8, p := 8, explicitBit := false }
def fmtF : Fmt := { w := 32, eb := 8, p := 24, explicitBit := false }
def fmtD : Fmt := { w := 64, eb := 11, p := 53, explicitBit := false }
def fmtW80 : Fmt := { w := 80, eb := 15, p := 64, explicitBit := true }

/-- The format of a floating type (Table 5.2); integer and tile types have none and are never asked for one. -/
def fmtOf : Ty → Fmt
  | .h => fmtH
  | .bf => fmtBF
  | .d => fmtD
  | _ => fmtF

/-- Exponent bias. -/
def Fmt.bias (f : Fmt) : Int := (2 ^ (f.eb - 1) - 1 : Nat)
/-- Exponent of the last place of the subnormals. -/
def Fmt.qmin (f : Fmt) : Int := 1 - f.bias - ((f.p : Int) - 1)
/-- Exponent of the last place of the largest finite value. -/
def Fmt.qmax (f : Fmt) : Int := f.bias - ((f.p : Int) - 1)

/-- Number of significant bits. -/
def bitLen (m : Nat) : Nat := if m = 0 then 0 else Nat.log2 m + 1

/-- The value of a bit pattern (R55, R57). -/
def Fmt.decode (f : Fmt) (x : Nat) : FVal :=
  let fb := if f.explicitBit then f.p else f.p - 1
  let s := bitOf x (f.w - 1)
  let ex := (x / 2 ^ fb) % 2 ^ f.eb
  let fr := x % 2 ^ fb
  if ex = 2 ^ f.eb - 1 then
    (if (if f.explicitBit then fr = 2 ^ (f.p - 1) else fr = 0) then .inf s else .nan)
  else if ex = 0 then .fin s fr f.qmin
  else .fin s (if f.explicitBit then fr else fr + 2 ^ (f.p - 1)) (f.qmin + ((ex : Int) - 1))

/-- The default NaN (R56). -/
def Fmt.nan (f : Fmt) : Nat :=
  if f.explicitBit then (2 ^ f.eb - 1) * 2 ^ f.p + 3 * 2 ^ (f.p - 2)
  else (2 ^ f.eb - 1) * 2 ^ (f.p - 1) + 2 ^ (f.p - 2)
/-- An infinity. -/
def Fmt.inf (f : Fmt) (s : Bool) : Nat :=
  (if s then 2 ^ (f.w - 1) else 0)
    + (if f.explicitBit then (2 ^ f.eb - 1) * 2 ^ f.p + 2 ^ (f.p - 1) else (2 ^ f.eb - 1) * 2 ^ (f.p - 1))

/-- The pattern of (−1)^s · m · 2^q, for a value on the format's grid: m < 2^p + 1 and q its last place. -/
def Fmt.pack (f : Fmt) (s : Bool) (m : Nat) (q : Int) : Nat :=
  let (m, q) := if bitLen m > f.p then (m / 2, q + 1) else (m, q)
  let fb := if f.explicitBit then f.p else f.p - 1
  let sg := if s then 2 ^ (f.w - 1) else 0
  if bitLen m < f.p then sg + m
  else sg + (q - f.qmin + 1).toNat * 2 ^ fb + (if f.explicitBit then m else m - 2 ^ (f.p - 1))

/-- The largest finite value with a sign. -/
def Fmt.maxFinite (f : Fmt) (s : Bool) : Nat := f.pack s (2 ^ f.p - 1) f.qmax

/-- A magnitude in [m·2^e, (m+1)·2^e): exactly m·2^e unless `sticky`. A sticky magnitude carries at least 34 bits more than
any precision it is rounded to. -/
structure Mag where
  m : Nat
  e : Int
  sticky : Bool
  deriving DecidableEq, Repr

/-- A magnitude rounded to last place q: the multiple and whether it differs from the magnitude (R63, R65). -/
def Mag.roundAt (x : Mag) (s : Bool) (mode : RMode) (q : Int) : Nat × Bool :=
  if q ≤ x.e then (x.m * 2 ^ (x.e - q).toNat, x.sticky)
  else
    let sh := (q - x.e).toNat
    let lo := x.m / 2 ^ sh
    let rem := x.m % 2 ^ sh
    let inexact := rem != 0 || x.sticky
    let up :=
      inexact && (match mode with
        | .rne => decide (2 * rem > 2 ^ sh) || (decide (2 * rem = 2 ^ sh) && (x.sticky || lo % 2 == 1))
        | .rna => decide (2 * rem ≥ 2 ^ sh)
        | .rtz => false
        | .rdn => s
        | .rup => !s
        | .sr h => decide (h < 2 ^ 32 * rem / 2 ^ sh))
    (if up then lo + 1 else lo, inexact)

/-- Last place of a magnitude on a grid of precision p, not below qmin. -/
def Mag.place (x : Mag) (p : Nat) (qmin : Option Int) : Int :=
  let q := x.e + (bitLen x.m : Int) - (p : Int)
  match qmin with
  | some lo => max q lo
  | none => q

/-- A rounded floating result: its bits, its flags, and whether the value was clamped under R69. -/
structure FRes where
  bits : Nat
  flags : Flags
  mark : Bool
  deriving DecidableEq, Repr

/-- A non-zero magnitude rounded once to a format (R64): tininess after rounding, FRM.FZ, overflow as R67 within one format
and as R69 in a narrowing conversion. -/
def Fmt.roundMag (f : Fmt) (s : Bool) (x : Mag) (mode : RMode) (fz narrowing : Bool) : FRes :=
  let q := x.place f.p (some f.qmin)
  let (m, inexact) := x.roundAt s mode q
  let (um, _) := x.roundAt s mode (x.place f.p none)
  let tiny := (bitLen um : Int) + x.place f.p none < (f.p : Int) + f.qmin
  let tooBig := (bitLen m : Int) + q > (f.p : Int) + f.qmax
  if tooBig then
    if narrowing then { bits := f.maxFinite s, flags := flSAT ||| flNX, mark := true }
    else
      let toInf := match mode with
        | .rne | .rna | .sr _ => true
        | .rtz => false
        | .rdn => s
        | .rup => !s
      { bits := if toInf then f.inf s else f.maxFinite s, flags := flOF ||| flNX, mark := false }
  else if fz && m != 0 && bitLen m < f.p then { bits := f.pack s 0 q, flags := flUF ||| flNX, mark := false }
  else
    { bits := f.pack s m q,
      flags := (if inexact then flNX else 0) ||| (if inexact && tiny then flUF else 0), mark := false }

/-- An exact value rounded once to a format. -/
def Fmt.round (f : Fmt) (v : FVal) (mode : RMode) (fz narrowing : Bool) : FRes :=
  match v with
  | .nan => { bits := f.nan, flags := 0, mark := false }
  | .inf s => { bits := f.inf s, flags := 0, mark := false }
  | .fin s m e =>
    if m = 0 then { bits := f.pack s 0 f.qmin, flags := 0, mark := false }
    else f.roundMag s { m := m, e := e, sticky := false } mode fz narrowing

/-- A magnitude that may be zero or inexact, rounded to an integer (R70). -/
def roundToInt (s : Bool) (x : Mag) (mode : RMode) : Int × Bool :=
  let (m, inexact) := x.roundAt s mode 0
  (if s then -(m : Int) else (m : Int), inexact)

/-- An input flushed by FRM.FZ: a subnormal `.h`, `.bf` or `.f` value reads as zero of its sign, with FFLG.UF (R64). -/
def Fmt.flushIn (f : Fmt) (fz : Bool) (v : FVal) : FVal × Flags :=
  match v with
  | .fin s m e => if fz && m != 0 && bitLen m < f.p && e == f.qmin then (.fin s 0 e, flUF) else (v, 0)
  | _ => (v, 0)

/-- FRM.FZ acts on `.h`, `.bf` and `.f`, never on `.d` (Table 5.7). -/
def fzOf (t : Ty) : Bool := t.isVFloat

/-- A floating operand as an instruction reads it under FRM.FZ. -/
def readFloat (t : Ty) (fz : Bool) (bits : Nat) : FVal × Flags :=
  (fmtOf t).flushIn (fz && fzOf t) ((fmtOf t).decode bits)

-- Exact operations ---------------------------------------------------------------------------------------------------

def FVal.isNan : FVal → Bool
  | .nan => true
  | _ => false
def FVal.isZero : FVal → Bool
  | .fin _ 0 _ => true
  | _ => false
def FVal.sign : FVal → Bool
  | .nan => false
  | .inf s => s
  | .fin s _ _ => s
def FVal.neg : FVal → FVal
  | .nan => .nan
  | .inf s => .inf !s
  | .fin s m e => .fin (!s) m e
def FVal.abs : FVal → FVal
  | .nan => .nan
  | .inf _ => .inf false
  | .fin _ m e => .fin false m e

/-- A finite value as an integer multiple of 2^q, for q at most its exponent. -/
def FVal.scaled (v : FVal) (q : Int) : Int :=
  match v with
  | .fin s m e => let k : Nat := m * 2 ^ (e - q).toNat; if s then -(k : Int) else (k : Int)
  | _ => 0

/-- The exponent of a finite value. -/
def FVal.exp : FVal → Int
  | .fin _ _ e => e
  | _ => 0

/-- The exact value n · 2^q; a zero has the given sign. -/
def FVal.ofInt (n : Int) (q : Int) (zeroSign : Bool) : FVal :=
  if n = 0 then .fin zeroSign 0 q else .fin (n < 0) n.natAbs q

/-- The exact sum of a list with the zero signs of R71 and the invalid sum of opposite infinities. `rdn` says that the
rounding mode is `.rdn`. -/
def sumExact (rdn : Bool) (l : List FVal) : FVal × Flags :=
  let pos := l.any (fun v => v == .inf false)
  let negv := l.any (fun v => v == .inf true)
  if pos && negv then (.nan, flINV)
  else if l.any FVal.isNan then (.nan, 0)
  else
    if pos then (.inf false, 0)
    else if negv then (.inf true, 0)
    else
      let q := l.foldl (fun q v => if v.isZero then q else min q v.exp) (1000000 : Int)
      let n := l.foldl (fun a v => if v.isZero then a else a + v.scaled q) (0 : Int)
      let zs :=
        if l.all FVal.isZero then (if rdn then l.any FVal.sign else l.all FVal.sign) else rdn
      (FVal.ofInt n (if l.all FVal.isZero then 0 else q) zs, 0)

/-- The exact product; 0 × ∞ is invalid. -/
def mulExact (a b : FVal) : FVal × Flags :=
  match a, b with
  | .nan, _ => (.nan, 0)
  | _, .nan => (.nan, 0)
  | .inf s, .fin t m _ => if m = 0 then (.nan, flINV) else (.inf (s != t), 0)
  | .fin s m _, .inf t => if m = 0 then (.nan, flINV) else (.inf (s != t), 0)
  | .inf s, .inf t => (.inf (s != t), 0)
  | .fin s m e, .fin t n d => (.fin (s != t) (m * n) (e + d), 0)

/-- Value comparison with −0 equal to +0; none when either is a NaN (R216). -/
def FVal.cmp (a b : FVal) : Option Ordering :=
  match a, b with
  | .nan, _ => none
  | _, .nan => none
  | .inf s, .inf t => some (if s == t then .eq else if s then .lt else .gt)
  | .inf s, _ => some (if s then .lt else .gt)
  | _, .inf t => some (if t then .gt else .lt)
  | .fin _ _ e, .fin _ _ d => let q := min e d; some (compare (a.scaled q) (b.scaled q))

/-- Minimum or maximum of R77: a lone NaN gives the other operand, and −0 lies below +0. -/
def minMax (wantMax : Bool) (a b : FVal) : FVal :=
  match FVal.cmp a b with
  | none => if a.isNan then b else a
  | some .lt => if wantMax then b else a
  | some .gt => if wantMax then a else b
  | some .eq => if a.sign == wantMax then b else a

/-- Integer square root by digits: the root of the top digit pairs, lowest pair last. -/
def isqrt : Nat → Nat → Nat
  | 0, _ => 0
  | k + 1, n =>
    let r := 2 * isqrt k (n / 4)
    if (r + 1) * (r + 1) ≤ n then r + 1 else r

/-- Quotient of two non-zero finite magnitudes with enough bits for any rounding. -/
def divMag (m : Nat) (e : Int) (n : Nat) (d : Int) : Mag :=
  let k := bitLen n + 110
  let x := m * 2 ^ k
  { m := x / n, e := e - d - (k : Int), sticky := x % n != 0 }

/-- Square root of a non-zero finite magnitude. -/
def sqrtMag (m : Nat) (e : Int) : Mag :=
  let odd := e % 2 != 0
  let m' : Nat := if odd then 2 * m else m
  let e' : Int := if odd then e - 1 else e
  let k : Nat := 120
  let x : Nat := m' * 2 ^ (2 * k)
  let r := isqrt (bitLen x / 2 + 1) x
  { m := r, e := e' / 2 - (k : Int), sticky := r * r != x }

/-- Reciprocal square root of a non-zero finite magnitude: the root of 2^(2k) / m·2^e. -/
def rsqrtMag (m : Nat) (e : Int) : Mag :=
  let odd := e % 2 != 0
  let m' := if odd then 2 * m else m
  let e' := if odd then e - 1 else e
  let k : Nat := bitLen m' + 120
  let x : Nat := 2 ^ (2 * k) / m'
  let r := isqrt (bitLen x / 2 + 1) x
  { m := r, e := -(e' / 2) - (k : Int), sticky := r * r * m' != 2 ^ (2 * k) }

/-- A magnitude as a result in its operands' format. -/
def Fmt.ofMag (f : Fmt) (s : Bool) (x : Mag) (mode : RMode) (fz : Bool) (fl : Flags) : FRes :=
  let r := f.roundMag s x mode fz false
  { r with flags := r.flags ||| fl }

/-- An exact value as a result, with the flags gathered on the way. -/
def Fmt.result (f : Fmt) (v : FVal) (mode : RMode) (fz : Bool) (fl : Flags) : FRes :=
  let r := f.round v mode fz false
  { r with flags := r.flags ||| fl }

/-- Whether a mode is `.rdn`, for the zero signs of R71. -/
def RMode.isRdn : RMode → Bool
  | .rdn => true
  | _ => false

/-- The arithmetic members shared by FLT3 and VFLT (Tables 17.5, 20.4). -/
inductive FOp where
  | add | sub | mul | fma | fms | fnma | div | sqrt | rcp | rsqrt | exp2 | log2 | min | max | abs | neg
  deriving DecidableEq, Repr

/-- a / b (R215): 0/0 and ∞/∞ are invalid; a finite non-zero over zero gives an infinity with DZ. -/
def divOp (f : Fmt) (a b : FVal) (mode : RMode) (fz : Bool) (fl : Flags) : FRes :=
  match a, b with
  | .nan, _ => f.result .nan mode fz fl
  | _, .nan => f.result .nan mode fz fl
  | .inf _, .inf _ => f.result .nan mode fz (fl ||| flINV)
  | .inf s, .fin t _ _ => f.result (.inf (s != t)) mode fz fl
  | .fin s _ e, .inf t => f.result (.fin (s != t) 0 e) mode fz fl
  | .fin s m e, .fin t n d =>
    if n = 0 then
      (if m = 0 then f.result .nan mode fz (fl ||| flINV) else f.result (.inf (s != t)) mode fz (fl ||| flDZ))
    else if m = 0 then f.result (.fin (s != t) 0 0) mode fz fl
    else f.ofMag (s != t) (divMag m e n d) mode fz fl

/-- √a: √(−0) = −0, and a value below −0 is invalid. -/
def sqrtOp (f : Fmt) (a : FVal) (mode : RMode) (fz : Bool) (fl : Flags) : FRes :=
  match a with
  | .nan => f.result .nan mode fz fl
  | .inf s => if s then f.result .nan mode fz (fl ||| flINV) else f.result (.inf false) mode fz fl
  | .fin s m e =>
    if m = 0 then f.result a mode fz fl
    else if s then f.result .nan mode fz (fl ||| flINV)
    else f.ofMag false (sqrtMag m e) mode fz fl

/-- 1/√a: rsqrt(±0) = ±∞ with DZ, rsqrt(+∞) = +0, and a value below −0 is invalid (R64). -/
def rsqrtOp (f : Fmt) (a : FVal) (mode : RMode) (fz : Bool) (fl : Flags) : FRes :=
  match a with
  | .nan => f.result .nan mode fz fl
  | .inf s => if s then f.result .nan mode fz (fl ||| flINV) else f.result (.fin false 0 0) mode fz fl
  | .fin s m e =>
    if m = 0 then f.result (.inf s) mode fz (fl ||| flDZ)
    else if s then f.result .nan mode fz (fl ||| flINV)
    else f.ofMag false (rsqrtMag m e) mode fz fl

/-- a × b + c rounded once. 0 × ∞ raises INV also when c is a NaN, where IEEE 754-2019 leaves the choice (R56, log entry 45). -/
def fmaOp (f : Fmt) (a b c : FVal) (mode : RMode) (fz : Bool) (fl : Flags) : FRes :=
  let (p, f1) := mulExact a b
  let (v, f2) := sumExact mode.isRdn [p, c]
  f.result v mode fz (fl ||| f1 ||| f2)

-- Integers -----------------------------------------------------------------------------------------------------------

/-- Range of an integer type (Table 5.1). -/
def minOf (t : Ty) : Int := if t.signed then -((2 ^ (t.width - 1) : Nat) : Int) else 0
def maxOf (t : Ty) : Int :=
  if t.signed then ((2 ^ (t.width - 1) : Nat) : Int) - 1 else ((2 ^ t.width : Nat) : Int) - 1

/-- The value of the low w bits as the type reads them. -/
def readInt (t : Ty) (x : Nat) : Int := if t.signed then sext t.width x else ((x % 2 ^ t.width : Nat) : Int)

/-- satmark of an exact integer (R69): the nearest limit with SAT and NX, or the value. -/
def satInt (t : Ty) (r : Int) : FRes :=
  if r < (minOf t) then { bits := truncI t.width (minOf t), flags := flSAT ||| flNX, mark := true }
  else if r > (maxOf t) then { bits := truncI t.width (maxOf t), flags := flSAT ||| flNX, mark := true }
  else { bits := truncI t.width r, flags := 0, mark := false }

/-- An exact integer result: clamped and marked, or wrapped modulo 2^w. -/
def intRes (t : Ty) (sat : Bool) (r : Int) : FRes :=
  if sat then satInt t r else { bits := truncI t.width r, flags := 0, mark := false }

-- Conversions (R68-R70) ------------------------------------------------------------------------------------------------

/-- A floating value converted to an integer type (R70): NaN gives 0 with INV; an infinity or a value outside is
clamped. -/
def toIntRes (t : Ty) (v : FVal) (mode : RMode) : FRes :=
  match v with
  | .nan => { bits := 0, flags := flINV, mark := false }
  | .inf s => satInt t (if s then (minOf t) - 1 else (maxOf t) + 1)
  | .fin s m e =>
    let (r, inexact) := roundToInt s { m := m, e := e, sticky := false } mode
    let o := satInt t r
    { o with flags := o.flags ||| (if inexact then flNX else 0) }

/-- An exact value delivered to type t as a narrowing conversion (R68-R70). -/
def narrowTo (t : Ty) (v : FVal) (mode : RMode) (fz : Bool) : FRes :=
  if t.isInt then toIntRes t v mode else (fmtOf t).round v mode (fz && fzOf t) true

-- Comparison and class ------------------------------------------------------------------------------------------------

/-- The condition codes of Table 17.6. -/
def fcond (code : Nat) (a b : FVal) : Bool :=
  match FVal.cmp a b with
  | none => code == 1 || code == 6
  | some o =>
    match code with
    | 0 => o == .eq
    | 1 => o != .eq
    | 2 => o == .lt
    | 3 => o != .gt
    | 4 => o == .gt
    | 5 => o != .lt
    | 6 => false
    | _ => true

/-- The class mask of Table 17.7, of the bits as they stand. -/
def fclassOf (f : Fmt) (bits : Nat) : Nat :=
  match f.decode bits with
  | .nan => 256
  | .inf s => if s then 1 else 128
  | .fin s m _ =>
    if m = 0 then (if s then 8 else 16)
    else if bitLen m < f.p then (if s then 4 else 32)
    else (if s then 2 else 64)

-- Stochastic draw (R65) -----------------------------------------------------------------------------------------------

/-- The low 32 bits of the hash of R65 for a seed, a strip and an element index. -/
def srDraw (seed : Word) (strip : BitVec 32) (i : Nat) : Nat :=
  let key := seed ^^^ (strip.setWidth 64 * 0x9E3779B97F4A7C15#64) ^^^ (BitVec.ofNat 64 (i + 1) * 0xC2B2AE3D27D4EB4F#64)
  let h := key ^^^ (key >>> 33)
  let h := h * 0xFF51AFD7ED558CCD#64
  let h := h ^^^ (h >>> 33)
  let h := h * 0xC4CEB9FE1A85EC53#64
  let h := h ^^^ (h >>> 33)
  h.toNat % 2 ^ 32

-- W80 (R57, R75, R76) --------------------------------------------------------------------------------------------------

/-- roundw80: an exact sum rounded to W80 in `.rne`; only OF and INV are raised (R76). -/
def roundW80 (v : FVal) : BitVec 80 × Flags :=
  let r := fmtW80.round v .rne false false
  (BitVec.ofNat 80 r.bits, r.flags &&& flOF)

/-- The sum of two W80 nodes. -/
def addW80 (a b : BitVec 80) : BitVec 80 × Flags :=
  let (v, f1) := sumExact false [fmtW80.decode a.toNat, fmtW80.decode b.toNat]
  let (r, f2) := roundW80 v
  (r, f1 ||| f2)

/-- −0 in W80, the identity of a sum. -/
def w80NegZero : BitVec 80 := BitVec.ofNat 80 (2 ^ 79)

end Sys2Proof.Machine
end

