-- ==== Sys2Proof/Machine/Codes.lean ====
section
/-!
DEFINITION. Narrow codes, tile headers and scale words (R58-R62, Table 7.3), and the quantisation of a 16×16 block into a
tile (R73, R74).
-/
namespace Sys2Proof.Machine
open Sys2Proof

/-- Magnitudes of the 4-bit codes 0..7 and the power of two they count, by code type (Table 5.3). -/
def mag4 (ct c : Nat) : Nat :=
  match ct with
  | 1 => [0, 1, 2, 3, 4, 6, 8, 12].getD c 0
  | 2 => [0, 1, 2, 4, 8, 16, 32, 64].getD c 0
  | _ => [0, 1, 2, 3, 4, 6, 8, 16].getD c 0

/-- Magnitude of an E4M3 or E5M2 code below its special values, in units of 2^−9 or 2^−16 (Table 5.4). -/
def mag8 (ct c : Nat) : Nat :=
  let fb := if ct = 1 then 3 else 2
  let ex := c / 2 ^ fb
  let fr := c % 2 ^ fb
  if ex = 0 then fr else (2 ^ fb + fr) * 2 ^ (ex - 1)

/-- The magnitude of a non-integer code, and its unit as a power of two. -/
def codeMag (four : Bool) (ct c : Nat) : Nat := if four then mag4 ct c else mag8 ct c
def codeUnit (four : Bool) (ct : Nat) : Int :=
  if four then (match ct with | 1 => -1 | 2 => -3 | _ => 0) else if ct = 1 then -9 else -16

/-- The value of a code (Tables 5.3, 5.4). -/
def codeVal (four : Bool) (ct c : Nat) : FVal :=
  if ct = 0 then FVal.ofInt (sext (if four then 4 else 8) c) 0 false
  else if four then .fin (bitOf c 3) (codeMag true ct (c % 8)) (codeUnit true ct)
  else if ct = 3 then .nan
  else
    let s := bitOf c 7
    let m := c % 128
    if ct = 1 then (if m = 127 then .nan else .fin s (codeMag false 1 m) (-9))
    else if m / 4 = 31 then (if m % 4 = 0 then .inf s else .nan)
    else .fin s (codeMag false 2 m) (-16)

/-- A value times 2^x. -/
def FVal.scale (v : FVal) (x : Int) : FVal :=
  match v with
  | .fin s m e => .fin s m (e + x)
  | v => v

/-- Fields of a scale word (Table 7.3). -/
def scaleWord (xoff : Int) (ct : Nat) (nan : Bool) : Nat :=
  truncI 9 xoff + ct * 2 ^ 9 + (if nan then 2 ^ 11 else 0)
def scaleNan (sw : Nat) : Bool := bitOf sw 11

/-- The value of a `.q8` or `.q4` element: code × 2^XOFF, or the NaN (Table 7.3, R61). -/
def tileVal (t : Ty) (code sw : Nat) : FVal :=
  if scaleNan sw then .nan else (codeVal (t == .q4) (bitsOf sw 10 9) code).scale (sext 9 sw)

/-- The flags of decoding it: a code of the reserved 8-bit type raises INV (Table 5.4). -/
def tileFlags (t : Ty) (sw : Nat) : Flags := if t == .q8 && !scaleNan sw && bitsOf sw 10 9 == 3 then flINV else 0

/-- The value of a raw E8M0 byte: 2^(e − 127), or the NaN (Table 5.1). -/
def e8Val (b : Nat) : FVal := if b % 256 = 255 then .nan else .fin false 1 ((b % 256 : Nat) - 127)

-- Tile headers (Table 5.5) --------------------------------------------------------------------------------------------

/-- Payload bytes of a tile (R60). -/
def payloadSize (t : Ty) : Nat := if t == .q4 then 128 else 256

/-- The code of element (i, j) in a payload (R60). -/
def payloadCode (t : Ty) (pay : List Byte) (i j : Nat) : Nat :=
  if t == .q4 then
    let b := (pay.getD (i * 8 + j / 2) 0).toNat
    if j % 2 = 0 then b % 16 else b / 16
  else (pay.getD (i * 16 + j) 0).toNat

def hdrFmt (h : List Byte) : Nat := (h.getD 0 0).toNat
def hdrCt (h : List Byte) : Nat := hdrFmt h % 4
def hdrW (h : List Byte) : Nat := bitsOf (hdrFmt h) 3 2
def hdrMx (h : List Byte) : Bool := bitOf (hdrFmt h) 4
def hdrExp (h : List Byte) : Nat := (h.getD 1 0).toNat
/-- r[i] and c[j]; zero when FMT.MX = 0. -/
def hdrR (h : List Byte) (i : Nat) : Nat := if hdrMx h then bitsOf (natAt h 2 4) (2 * i + 1) (2 * i) else 0
def hdrC (h : List Byte) (j : Nat) : Nat := if hdrMx h then bitsOf (natAt h 6 4) (2 * j + 1) (2 * j) else 0
def hdrVersion (h : List Byte) : BitVec 16 := BitVec.ofNat 16 (natAt h 10 2)

/-- A reserved width, a width that is not the instruction's, or a reserved 8-bit type: the cases that raise INV (R61,
R244). -/
def hdrBad (t : Ty) (h : List Byte) : Bool :=
  decide (hdrW h ≥ 2) || hdrW h != (if t == .q4 then 0 else 1) || (t == .q8 && hdrCt h == 3)

/-- Every element of the tile is the NaN. -/
def hdrNan (t : Ty) (h : List Byte) : Bool := hdrBad t h || bitOf (hdrFmt h) 5 || hdrExp h == 255

/-- The scale word of source element (p, q) of a tile (R244). -/
def tileScale (t : Ty) (h : List Byte) (p q : Nat) : Nat :=
  scaleWord ((hdrExp h : Int) - 127 - (hdrR h p : Int) - (hdrC h q : Int)) (hdrCt h) (hdrNan t h)

-- Quantisation (R73, R74) ---------------------------------------------------------------------------------------------

/-- Cmax (Table 5.11). -/
def cmax (four : Bool) (ct : Nat) : Nat :=
  if four then (match ct with | 0 => 7 | 1 => 6 | 2 => 8 | _ => 16)
  else (match ct with | 0 => 127 | 1 => 448 | _ => 57344)

/-- m · 2^t ≤ c for a signed t. -/
def scaledLe (m : Nat) (t : Int) (c : Nat) : Bool :=
  if t ≥ 0 then decide (m * 2 ^ t.toNat ≤ c) else decide (m ≤ c * 2 ^ (-t).toNat)

/-- The largest k with m · 2^(e+k) ≤ c, for m > 0. -/
def fitShift (m : Nat) (e : Int) (c : Nat) : Int :=
  let k := (bitLen c : Int) - (bitLen m : Int) - e
  if scaledLe m (e + k) c then k else k - 1

/-- The larger of two magnitudes m · 2^e. -/
def magMax (a b : Nat × Int) : Nat × Int :=
  if a.1 = 0 then b else if b.1 = 0 then a
  else
    let q := min a.2 b.2
    if a.1 * 2 ^ (a.2 - q).toNat < b.1 * 2 ^ (b.2 - q).toNat then b else a

/-- The magnitude of a finite value. -/
def FVal.mag : FVal → Nat × Int
  | .fin _ m e => (m, e)
  | _ => (0, 0)

/-- The largest r in 0..3 with m · 2^(t+r) ≤ c. -/
def fitR (m : Nat) (t : Int) (c : Nat) : Nat :=
  if scaledLe m (t + 3) c then 3 else if scaledLe m (t + 2) c then 2 else if scaledLe m (t + 1) c then 1 else 0

/-- The largest code at or below |y| = m · 2^e among the n codes below the given one. -/
def codeFloor (four : Bool) (ct : Nat) (m : Nat) (e : Int) : Nat → Nat
  | 0 => 0
  | n + 1 =>
    let u := codeUnit four ct
    let q := min e u
    if codeMag four ct (n + 1) * 2 ^ (u - q).toNat ≤ m * 2 ^ (e - q).toNat then n + 1 else codeFloor four ct m e n

/-- roundcode (R74): the code of y = (−1)^s · m · 2^e, and whether it differs from y. -/
def roundCode (four : Bool) (ct : Nat) (s : Bool) (m : Nat) (e : Int) (mode : RMode) : Nat × Bool :=
  let w := if four then 4 else 8
  if ct = 0 then
    let (r, inexact) := roundToInt s { m := m, e := e, sticky := false } mode
    (truncI w r, inexact)
  else
    let top := if four then 7 else if ct = 1 then 126 else 123
    let c := codeFloor four ct m e top
    let u := codeUnit four ct
    let q := min e u
    let y := m * 2 ^ (e - q).toNat
    let lo := codeMag four ct c * 2 ^ (u - q).toNat
    let hi := codeMag four ct (c + 1) * 2 ^ (u - q).toNat
    let inexact := y != lo
    let up := inexact && (match mode with
      | .rne => decide (2 * y > lo + hi) || (decide (2 * y = lo + hi) && c % 2 == 1)
      | .rna => decide (2 * y ≥ lo + hi)
      | .rtz => false
      | .rdn => s
      | .rup => !s
      | .sr h => decide (h < 2 ^ 32 * (y - lo) / (hi - lo)))
    ((if up then c + 1 else c) + (if s then 2 ^ (w - 1) else 0), inexact)

/-- A tile header's 16 bytes. -/
def headerBytes (four : Bool) (ct : Nat) (mx nant : Bool) (e : Nat) (r c : List Nat) (version : BitVec 16) : List Byte :=
  let word (l : List Nat) : Nat := l.foldr (fun x a => x + 4 * a) 0
  toBytes 1 (ct + (if four then 0 else 4) + (if mx then 16 else 0) + (if nant then 32 else 0)) ++ toBytes 1 e
    ++ toBytes 4 (if mx then word r else 0) ++ toBytes 4 (if mx then word c else 0) ++ toBytes 2 version.toNat
    ++ toBytes 4 0

/-- A payload's bytes from its 256 codes (R60). -/
def payloadBytes (four : Bool) (codes : List Nat) : List Byte :=
  if four then (List.range 128).map (fun k => BitVec.ofNat 8 (codes.getD (2 * k) 0 + 16 * codes.getD (2 * k + 1) 0))
  else codes.map (BitVec.ofNat 8)

/-- The header and payload of a block of 256 values in row order, read under FRM.FZ already, and the flags raised (R73).
`mode` gives the rounding of element i·16 + j. -/
def quantise (four : Bool) (ct : Nat) (x : List FVal) (mode : Nat → RMode) (version : BitVec 16) :
    List Byte × List Byte × Flags :=
  let anyNan := x.any FVal.isNan
  let anyInf := x.any (fun v => v == .inf false || v == .inf true)
  let zeros := List.replicate 16 0
  if anyNan || anyInf then
    (headerBytes four ct false true 255 zeros zeros version,
     payloadBytes four (List.replicate 256 (if four then 7 else 0x7F)),
     (if anyNan then flINV else 0) ||| (if anyInf then flOF else 0))
  else
    let c := cmax four ct
    let mg := x.map FVal.mag
    let big := mg.foldl magMax (0, 0)
    if big.1 = 0 then
      (headerBytes four ct false false 127 zeros zeros version, payloadBytes four (List.replicate 256 0), 0)
    else
      let e : Int := 127 - fitShift big.1 big.2 c
      let ee : Nat := e.toNat
      let base : Int := 127 - (ee : Int)
      let at_ (i j : Nat) : Nat × Int := mg.getD (16 * i + j) (0, 0)
      let r := (List.range 16).map (fun i =>
        let rowMax := (List.range 16).foldl (fun a j => magMax a (at_ i j)) (0, 0)
        fitR rowMax.1 (rowMax.2 + base) c)
      let cs := (List.range 16).map (fun j =>
        let colMax := (List.range 16).foldl
          (fun a i => magMax a ((at_ i j).1, (at_ i j).2 + (r.getD i 0 : Int))) (0, 0)
        fitR colMax.1 (colMax.2 + base) c)
      let coded := (List.range 256).map (fun n =>
        let v := x.getD n (.fin false 0 0)
        let sh : Int := base + (r.getD (n / 16) 0 : Int) + (cs.getD (n % 16) 0 : Int)
        roundCode four ct v.sign v.mag.1 (v.mag.2 + sh) (mode n))
      let mx := r.any (· != 0) || cs.any (· != 0)
      (headerBytes four ct mx false ee r cs version, payloadBytes four (coded.map (·.1)),
       (if e < 0 then flUF else 0) ||| (if coded.any (·.2) then flNX else 0))

end Sys2Proof.Machine
end

