-- ==== Sys2Proof/Config.lean ====
section
/-!
DEFINITION. What the spec leaves open and what one package has fixed: every constant here has no body, so nothing can be
proved of its value beyond its type. A free value is applied to the counter `State.fresh`, which each use advances, or to
the operands it depends on. The assumption log names each one.
-/
namespace Sys2Proof

/-- Nanoseconds of TIME that pass during one turn of the machine (R28; latencies are timing only). -/
opaque Config.turnTime : Nat → Nat
/-- The phase of a quad's A-clock against the time base, in 78ths of a nanosecond (R28). -/
opaque Config.clockPhase : Nat → Nat
/-- Energy of one explicit charge of R368 or R381, in 78ths of a picojoule. -/
opaque Config.energy : Nat → Nat
/-- Bubbles the matrix array inserts before a row when its queue is empty (R125). -/
opaque Config.bubbles : Nat → Nat
/-- Power a context's issued work brings to a quad's estimate in a window of 64 A-cycles, in mW (R379). -/
opaque Config.issuedPower : Nat → BitVec 16
/-- The logic rail, above the lower of its two points, while it moves between them (R375). -/
opaque Config.railMoving : Nat → Nat
/-- Whether a read of a scalar finds the vector work that produces it incomplete, or a scalar load the store before it (R49). -/
opaque Config.incomplete : Nat → Bool
/-- The frame that the migration engine or the map command would take, when it is free (R107, R109). -/
opaque Config.frameChoice : Nat → Nat
/-- The die whose HBM4 the map command takes a frame from (R107). -/
opaque Config.dieChoice : Nat → BitVec 2
/-- The second key of AES-256-XTS, for its tweak, from the 256-bit key of a slot (R115, R403). -/
opaque Config.tweakKey : BitVec 256 → BitVec 256
/-- The SLH-DSA public key fused into the package, 64 bytes (R401, R402). -/
opaque Config.slhPublic : BitVec 512
/-- The identity key pair of the package (R401): its secret seed, the secret of its randomness and its public seed, 32 bytes each. -/
opaque Config.identitySeed : BitVec 256
opaque Config.identityPrf : BitVec 256
opaque Config.identityPublicSeed : BitVec 256
/-- The 32 random bytes that one signature takes (R401, log entry 39). -/
opaque Config.signRandom : Nat → BitVec 256
/-- The two seeds that the package's ML-KEM-1024 key pair is made of, and the random bytes of the identity key's signature of its
public half (R403). -/
opaque Config.kemSeed : BitVec 256
opaque Config.kemReject : BitVec 256
opaque Config.kemSignRandom : BitVec 256
/-- Hash, version and anti-rollback number of the image stored at manufacture, and the fused minimum (R402). -/
opaque Config.bootHash : BitVec 256
opaque Config.bootVersion : BitVec 64
opaque Config.bootArb : BitVec 32
opaque Config.fusedMin : BitVec 32
/-- A value that the spec mentions and does not state. -/
opaque Config.unstated : Nat → BitVec 64
/-- log2 of a value that no precision of the model decides (R64); never reached unless the bracket stays open. -/
opaque Config.transcendental : Nat → Nat → Bool

end Sys2Proof
end

