-- ==== Sys2Proof/Machine/Aes.lean ====
section
/-!
DEFINITION. AES-256 and its XTS mode (R115): how a 64-byte line stands in HBM4 and LPDDR, and what a reader under another
key receives from it (R116). Bytes are naturals below 256 and blocks are lists of 16 of them, column after column.
-/
namespace Sys2Proof.Machine
open Sys2Proof

-- The field of AES -----------------------------------------------------------------------------------------------------

/-- Twice an element of the field. -/
def gfDouble (a : Nat) : Nat := if a < 128 then 2 * a else (2 * a) ^^^ 0x11B
/-- The product of two elements over the lowest n bits of the second. -/
def gfMulFuel : Nat → Nat → Nat → Nat
  | 0, _, _ => 0
  | n + 1, a, b => (if b % 2 = 1 then a else 0) ^^^ gfMulFuel n (gfDouble a) (b / 2)
def gfMul (a b : Nat) : Nat := gfMulFuel 8 a b
/-- The product of the squares a², a⁴, … of an element, n of them: with 7, its inverse. -/
def gfSquares : Nat → Nat → Nat
  | 0, _ => 1
  | n + 1, a => let q := gfMul a a; gfMul q (gfSquares n q)
def gfInv (a : Nat) : Nat := gfSquares 7 a

/-- A byte rotated left. -/
def rotByte (x k : Nat) : Nat := (x * 2 ^ k) % 256 ||| x / 2 ^ (8 - k)
def subByte (a : Nat) : Nat :=
  let x := gfInv a
  x ^^^ rotByte x 1 ^^^ rotByte x 2 ^^^ rotByte x 3 ^^^ rotByte x 4 ^^^ 0x63
def unsubByte (a : Nat) : Nat := gfInv (rotByte a 1 ^^^ rotByte a 3 ^^^ rotByte a 6 ^^^ 0x05)

-- Rounds ---------------------------------------------------------------------------------------------------------------

def xorBytes (a b : List Nat) : List Nat := a.zipWith (· ^^^ ·) b

/-- Row r of the block moves left by r columns, or back. -/
def shiftRows (b : List Nat) : List Nat := (List.range 16).map (fun i => b.getD ((i + 4 * (i % 4)) % 16) 0)
def unshiftRows (b : List Nat) : List Nat := (List.range 16).map (fun i => b.getD ((i + 12 * (i % 4)) % 16) 0)

/-- Each column times a circulant matrix given by its first row. -/
def mixWith (row : List Nat) (b : List Nat) : List Nat :=
  (List.range 16).map (fun i =>
    (List.range 4).foldl (fun x j => x ^^^ gfMul (b.getD (i / 4 * 4 + j) 0) (row.getD ((j + 4 - i % 4) % 4) 0)) 0)

/-- The next words of the key schedule of AES-256 (60 words of four bytes), newest first. -/
def keyWords : Nat → Nat → List (List Nat) → List (List Nat)
  | 0, _, ws => ws
  | n + 1, i, ws =>
    let prev := ws.getD 0 []
    let step :=
      if i % 8 = 0 then
        xorBytes ((prev.drop 1 ++ prev.take 1).map subByte) [2 ^ (i / 8 - 1), 0, 0, 0]
      else if i % 8 = 4 then prev.map subByte else prev
    keyWords n (i + 1) (xorBytes (ws.getD 7 []) step :: ws)

/-- The 15 round keys of a 256-bit key, whose first byte is the lowest. -/
def roundKeys (key : BitVec 256) : List (List Nat) :=
  let bytes := (toBytes 32 key.toNat).map BitVec.toNat
  let first := (List.range 8).map (fun i => (bytes.drop (4 * i)).take 4)
  let ws := (keyWords 52 8 first.reverse).reverse
  (List.range 15).map (fun r => ((ws.drop (4 * r)).take 4).flatten)

/-- One block enciphered and deciphered. -/
def aesEncrypt (ks : List (List Nat)) (b : List Nat) : List Nat :=
  let start := xorBytes b (ks.getD 0 [])
  let inner := (ks.drop 1).take 13 |>.foldl (fun x k => xorBytes (mixWith [2, 3, 1, 1] (shiftRows (x.map subByte))) k) start
  xorBytes (shiftRows (inner.map subByte)) (ks.getD 14 [])
def aesDecrypt (ks : List (List Nat)) (b : List Nat) : List Nat :=
  let start := (unshiftRows (xorBytes b (ks.getD 14 []))).map unsubByte
  let inner := ((ks.drop 1).take 13).reverse.foldl
    (fun x k => (unshiftRows (mixWith [14, 11, 13, 9] (xorBytes x k))).map unsubByte) start
  xorBytes inner (ks.getD 0 [])

-- XTS over a line --------------------------------------------------------------------------------------------------------

/-- A tweak times α, as bytes lowest first. -/
def tweakDouble (t : List Nat) : List Nat :=
  let x := t.foldr (fun b n => b + 256 * n) 0
  let y := if x < 2 ^ 127 then 2 * x else (2 * x % 2 ^ 128) ^^^ 0x87
  (toBytes 16 y).map BitVec.toNat
/-- The blocks of a data unit under successive tweaks. -/
def xtsBlocks (f : List Nat → List Nat) : Nat → List Nat → List Nat → List Nat
  | 0, _, _ => []
  | n + 1, t, l => xorBytes (f (xorBytes (l.take 16) t)) t ++ xtsBlocks f n (tweakDouble t) (l.drop 16)

/-- A 64-byte line at a package-local address as memory holds it, and back. XTS takes a second key for its tweak, which
`Config.tweakKey` derives: the spec names one key of 256 bits (log entry 33). -/
def xtsLine (encrypt : Bool) (key : BitVec 256) (addr : Nat) (l : List Byte) : List Byte :=
  let ks := roundKeys key
  let t := aesEncrypt (roundKeys (Config.tweakKey key)) ((toBytes 16 addr).map BitVec.toNat)
  (xtsBlocks (if encrypt then aesEncrypt ks else aesDecrypt ks) 4 t (l.map BitVec.toNat)).map (BitVec.ofNat 8)

/-- What a reader under one key receives of a line written under another (R116): 64 bytes. -/
def foreignLine (written read : BitVec 256) (addr : Nat) (l : List Byte) : List Byte :=
  (xtsLine false read addr (xtsLine true written addr l) ++ List.replicate 64 0).take 64

end Sys2Proof.Machine
end

