-- ==== Sys2Proof/Machine/Memory.lean ====
section
/-!
DEFINITION. Byte memory over the pod-global physical address space (R99): a list of (address, byte) pairs with addresses
strictly rising and no entry equal to what an unlisted address reads as, which is the byte 0 (log entry 1).
-/
namespace Sys2Proof.Machine
open Sys2Proof

/-- Memory as canonical cells. -/
abbrev Memory := List Host.Cell

/-- What an unlisted address reads as: RAM after power-on, whose contents the spec does not give. DESIGN CHOICE (log
entry 1), unsafe. -/
def Memory.unlisted : Byte := 0

/-- The byte at an address. -/
def Memory.read (m : Memory) (a : Nat) : Byte :=
  match m with
  | [] => Memory.unlisted
  | (j, v) :: r => if j = a then v else if a < j then Memory.unlisted else Memory.read r a

/-- Store one byte, keeping the canonical form. -/
def Memory.write (m : Memory) (a : Nat) (v : Byte) : Memory :=
  match m with
  | [] => if v = Memory.unlisted then [] else [(a, v)]
  | (j, u) :: r =>
    if a < j then (if v = Memory.unlisted then (j, u) :: r else (a, v) :: (j, u) :: r)
    else if j = a then (if v = Memory.unlisted then r else (a, v) :: r)
    else (j, u) :: Memory.write r a v

/-- The canonical form above a lower bound: strictly rising addresses, no unlisted byte. -/
def Memory.wfFrom (lo : Nat) (m : Memory) : Bool :=
  match m with
  | [] => true
  | (j, v) :: r => decide (lo ≤ j) && decide (v ≠ Memory.unlisted) && Memory.wfFrom (j + 1) r

/-- The canonical form. -/
def Memory.wf (m : Memory) : Bool := Memory.wfFrom 0 m

/-- n bytes from an address. -/
def Memory.readBytes (m : Memory) (a : Nat) : Nat → List Byte
  | 0 => []
  | n + 1 => m.read a :: Memory.readBytes m (a + 1) n

/-- Store bytes from an address upwards. -/
def Memory.writeBytes (m : Memory) (a : Nat) : List Byte → Memory
  | [] => m
  | b :: r => Memory.writeBytes (m.write a b) (a + 1) r

end Sys2Proof.Machine
end

