-- ==== Sys2Proof/Machine/Sparse.lean ====
section
/-!
DEFINITION. Sparse maps from natural numbers as lists of pairs in rising key order: what the machine holds for numbered
units of which most stand at their reset value. A reader gives the value of an unlisted key.
-/
namespace Sys2Proof.Machine

/-- A list of (key, value) pairs; `SMap.set` keeps its keys strictly rising. -/
abbrev SMap (α : Type) := List (Nat × α)

/-- The value at key k, or the given one when k is not listed. -/
def SMap.get {α : Type} (m : SMap α) (dflt : α) (k : Nat) : α :=
  match m with
  | [] => dflt
  | (j, v) :: r => if j = k then v else if k < j then dflt else SMap.get r dflt k

/-- The listed value at key k. -/
def SMap.find {α : Type} (m : SMap α) (k : Nat) : Option α :=
  match m with
  | [] => none
  | (j, v) :: r => if j = k then some v else if k < j then none else SMap.find r k

/-- Store v at key k. -/
def SMap.set {α : Type} (m : SMap α) (k : Nat) (v : α) : SMap α :=
  match m with
  | [] => [(k, v)]
  | (j, u) :: r => if k < j then (k, v) :: (j, u) :: r else if j = k then (k, v) :: r else (j, u) :: SMap.set r k v

/-- Remove key k. -/
def SMap.erase {α : Type} (m : SMap α) (k : Nat) : SMap α :=
  match m with
  | [] => []
  | (j, u) :: r => if j = k then r else if k < j then (j, u) :: r else (j, u) :: SMap.erase r k

/-- Keys strictly rising. -/
def SMap.sorted {α : Type} (m : SMap α) : Bool :=
  match m with
  | [] => true
  | [_] => true
  | (j, _) :: (k, v) :: r => decide (j < k) && SMap.sorted ((k, v) :: r)

end Sys2Proof.Machine
end

