-- ==== Sys2Proof/Machine/State.lean ====
section
/-!
DEFINITION. The state of one CF3 package, as plain data, and its value right after device reset. Every register, memory,
queue and status the spec names stands here once; the fields marked MODEL are the model's own. INVENTORY.md lists each
with its rule and reset value.
-/
namespace Sys2Proof.Machine
open Sys2Proof

/-- Why a step stops for good. No instruction or event of this part ends a run: every fault the spec describes is a trap,
which is a next state (R361), and a stopped thread leaves the others running. Nothing raises this constructor; it is
there so that the type is inhabited, and it is safe. -/
inductive Fault where
  | none
  deriving DecidableEq, Repr

/-- Why a step has no meaning. Raised by `exec` for an instruction that is not modelled yet; it is safe, since a refused
instruction proves nothing about the hardware. -/
inductive Refusal where
  | notModelled (mnemonic : String)
  deriving DecidableEq, Repr

-- Vector, mask, accumulator and stationary registers ------------------------------------------------------------------

/-- TAG of a vector register (Table 7.1). -/
inductive Tag where
  | plain | run | dict | delta
  deriving DecidableEq, Repr

/-- A vector register: its descriptor (Table 7.1), the data plane (VLMAX×32 bits) and the index plane (VLMAX×16 bits)
at their largest VLMAX (R80, R81). -/
structure VReg where
  tag : Tag
  ty : Ty
  n : Nat
  p : Nat
  prog : Nat
  data : BitVec 65536
  index : BitVec 32768
  deriving DecidableEq, Repr

/-- A PLAIN register of zeros (R39, R80). -/
def VReg.zero : VReg := { tag := .plain, ty := .i8, n := 0, p := 0, prog := 0, data := 0, index := 0 }

/-- A loaded stationary register (R295): K = 16·kg, N = 16·ng, its type, the transposed flag and its image in the order
of R340: tile records (header, payload) for codes, values row by row for 16-bit types. -/
structure BReg where
  kg : Nat
  ng : Nat
  bty : Ty
  tr : Bool
  image : List Byte
  deriving DecidableEq, Repr

/-- One accumulator row of 128 W80 values (R55, R75). -/
abbrev AccRow := Vector (BitVec 80) 128

/-- The register files a core's threads share (Table 1.3), with VDIRTY, and MODEL: `busy`, the registers that vector or matrix
work has written and that no read of a scalar from them has found complete since (R49): `v` from bit 0, `k` from 32, `acc` from
40, `b` from 48. In the copy of a speculative thread `dirty` holds what its present segment has set (R227, R312). -/
structure RegFile where
  v : Vector VReg 32
  k : Vector (BitVec 2048) 8
  acc : Vector AccRow 8
  b : Vector (Option BReg) 4
  dirty : BitVec 32
  busy : BitVec 52
  deriving DecidableEq, Repr

/-- The files of a core that starts with no other resident logical core (R39). -/
def RegFile.zero : RegFile :=
  { v := Vector.replicate 32 VReg.zero, k := Vector.replicate 8 0, acc := Vector.replicate 8 (Vector.replicate 128 0),
    b := Vector.replicate 4 none, dirty := 0, busy := 0 }

-- A control thread ----------------------------------------------------------------------------------------------------

/-- The registers held per control thread (Tables 1.3, 13.12, 22.6, 24.3), each at its own width. -/
structure ThreadRegs where
  pc : Word
  s : Vector Word 64
  vl : Nat
  vtTy : BitVec 4
  vtEw : BitVec 6
  vtNeg : Bool
  vstart : Nat
  rdiv : BitVec 4
  pln : Bool
  satk : BitVec 3
  frmRm : BitVec 3
  frmFz : Bool
  fflg : BitVec 6
  srseed : Word
  strip : BitVec 32
  tcause : BitVec 8
  tval : Word
  tpc : Word
  pprv : Bool
  priv : Bool
  te : Bool
  blk : Bool
  asy : Bool
  fid : BitVec 16
  tvecVm : Bool
  tvecBase : BitVec 50
  tscratch : Word
  acBase : BitVec 56
  acSlg : BitVec 5
  acNslot : BitVec 24
  acThr : BitVec 32
  acMet : BitVec 2
  acDist : BitVec 16
  acMaxr : BitVec 16
  acHits : Word
  acMiss : Word
  acReason : Vector Word 4
  acSquash : Word
  shadow : Vector Word 12
  rstart : Word
  faultWord : Word
  deriving DecidableEq, Repr

/-- The registers of a thread at reset and at its logical core's start, before the entry values of R39 are put in. -/
def ThreadRegs.zero : ThreadRegs :=
  { pc := 0, s := Vector.replicate 64 0, vl := 0, vtTy := 0, vtEw := 0, vtNeg := false, vstart := 0, rdiv := 2,
    pln := false, satk := 7, frmRm := 0, frmFz := false, fflg := 0, srseed := 0, strip := 0, tcause := 0, tval := 0,
    tpc := 0, pprv := false, priv := false, te := false, blk := false, asy := false, fid := 0, tvecVm := false,
    tvecBase := 0, tscratch := 0, acBase := 0, acSlg := 0, acNslot := 0, acThr := 0, acMet := 0, acDist := 1,
    acMaxr := 3, acHits := 0, acMiss := 0, acReason := Vector.replicate 4 0, acSquash := 0,
    shadow := Vector.replicate 12 0, rstart := 0, faultWord := 0 }

/-- A reservation of `ldl` or of one element of `vldl` (R235, R242): its address and size, where it lies, and how many
writes its line had seen at the linked read. It is held while that count stands and nothing else has lost it. -/
structure Reservation where
  va : Word
  pa : Nat
  size : Nat
  writes : Nat
  lost : Bool
  deriving DecidableEq, Repr

/-- An asynchronous cause that waits for its boundary (R360). -/
structure Pending where
  code : Nat
  val : Word
  fid : Nat
  deriving DecidableEq, Repr

/-- What a resolved probe answers (Table 22.10). -/
structure ProbeResult where
  hit : Bool
  reason : Nat
  metric : BitVec 32
  deriving DecidableEq, Repr

/-- The thread as it stood just after a `.spec` probe issued, with the registers that awaited an acknowledgement (R312). -/
structure Checkpoint where
  regs : ThreadRegs
  file : RegFile
  acks : List (BitVec 6)
  resv : Option Reservation
  vresv : SMap Reservation
  linker : Word
  deriving DecidableEq, Repr

/-- A probe of the Autumn unit (R307-R309): the request with the register values it was made under, the input as it
stood at acceptance, how many held items came before it (R312), the place of its slot's header line, which is the slot that it
holds under whatever address (R308), and its answer. `taken` is not 0 once an `acwait` of a thread that runs speculatively has had
the probe's answer: it is the number of `.spec` probes that must be confirmed for that `acwait` to stand (R312, R313). A `.spec`
probe that has been confirmed and committed stays as an answered plain one till then. -/
structure Probe where
  ticket : Word
  slotVa : Word
  key : Word
  len : Nat
  step : BitVec 32
  ty : Ty
  dist : BitVec 16
  maxr : BitVec 16
  thr : BitVec 32
  met : BitVec 2
  input : List Byte
  target : Word
  spec : Bool
  confirmed : Bool
  taken : Nat
  heldAt : Nat
  hdrPa : Nat
  hdrKey : BitVec 256
  result : Option ProbeResult
  ck : Option Checkpoint
  deriving DecidableEq, Repr

/-- A performed or held effect (R312): bytes stored under a key, one half byte of a `.q4` store (R239), a progress-word increment
(R231), an entry that a probe's HIT advances (R308), or a versioned tile write performed while the header's version is still the
expected one (R141, R142), with the register its acknowledgement sets. The others leave memory alone: a line read at its home (R108,
R123), a row the matrix array issued with its counts, a clearing of such a count (Table 22.5), what a row added to an accumulator
row, as exact group sums by column, or its clearing (R303), and a resynchronisation of a register or of memory (R49). -/
inductive Effect where
  | store (pa : Nat) (bytes : List Byte) (key : BitVec 256)
  | nibble (pa : Nat) (high : Bool) (v : BitVec 4) (key : BitVec 256)
  | add1 (pa : Nat) (key : BitVec 256)
  | advance (pa : Nat) (step : BitVec 32) (key : BitVec 256)
  | tile (hdr : Nat) (hdrBytes : List Byte) (pay : Nat) (payBytes : List Byte) (expected : BitVec 16) (hkey pkey : BitVec 256)
      (ack : Option (BitVec 6))
  | read (line : Nat) (acq : Bool)
  | rowIssued (bubbles dropped : Word)
  | clearCount (item : Nat)
  | accRow (row : Nat) (clear : Bool) (cols : List (List FVal))
  | resync (mem : Bool)
  deriving DecidableEq, Repr

/-- The effects of one instruction that a speculative thread holds, whether it is one of the 16 that R312 lets it hold (a
store, a progress-word write, a fence or a resynchronisation), the unit that performs them when it is not the thread, and the
ordering that the instruction names (Table 11.2); a fence has no effects. -/
structure Held where
  counts : Bool
  unit : Option Nat
  es : List Effect
  ord : Ord
  deriving DecidableEq, Repr

/-- What answers a request: data, an acknowledgement, or a fault with its code and address (R367). -/
structure Answer where
  state : Nat
  code : Nat
  value : Nat
  deriving DecidableEq, Repr

/-- A request of the instruction at the stop point whose reply has not arrived (R366), with the answer it had at its home
before the thread stopped (R145), and the home slice it stands unacknowledged at, if its line has one (R144). -/
structure Request where
  fid : Nat
  kind : Nat
  reg : Nat
  elem : Nat
  va : Word
  ty : Ty
  answer : Answer
  slice : Option Nat
  deriving DecidableEq, Repr

/-- The bytes that the elements of a stopped `vldg` or `vldl` have read, by address, for the word at `pc` from VSTART `next`
on: every element of one instruction that reads a byte reads the same write of it (R124, R139). -/
structure RowsRead where
  pc : Word
  next : Nat
  bytes : SMap Byte
  deriving DecidableEq, Repr

/-- The elements above a faulted one that were performed before a pause (R367), for the word at `pc`, with the fault ids, state and
register of their log entries; `armed` once an `eret` has gone back to that word, whose next execution alone skips them; `more` are
those whose replies had come before the thread stopped, which have no log entry and are performed no second time either (R145, log
entry 22). -/
structure DoneSet where
  pc : Word
  elems : List Nat
  fids : List Nat
  state : Nat
  reg : Nat
  more : List Nat
  armed : Bool
  deriving DecidableEq, Repr

/-- Which thread of which logical core runs in a hardware thread (R36). -/
structure Owner where
  job : Nat
  lcore : Nat
  tid : Nat
  deriving DecidableEq, Repr

/-- What the device keeps with a thread beside its registers; `vstcFail` holds the outcomes of each stopped `vstc` with its address
and the VSTART it stopped at, and `linker` is the address of the `vldl` that made the set `vresv` (R242); `phend` marks each `phend`
that has arrived and not returned, by its address, its barrier and PHASE at its arrival (R335); `arrived` are the elements of a
stopped load or store that were performed above the lowest one awaited (R366); `report` holds RSTART and the fault word of a
transfer that stopped while the thread was saved (R367). -/
structure Side where
  resv : Option Reservation
  vresv : SMap Reservation
  linker : Word
  probes : List Probe
  pending : List Pending
  requests : List Request
  arrived : List Nat
  done : Option DoneSet
  rows : List RowsRead
  phend : List (Word × Nat × Word)
  vstcFail : List (Word × Nat × BitVec 2048)
  nextFid : Nat
  report : Option (Word × Word)
  deriving DecidableEq, Repr

/-- The instruction that the thread has stopped in begins anew or not at all: its done set, its rows and its outcomes are forgotten
(R124, R367). -/
def Side.abandon (x : Side) : Side := { x with done := none, rows := [], vstcFail := [] }

def Side.zero : Side :=
  { resv := none, vresv := [], linker := 0, probes := [], pending := [], requests := [], arrived := [], done := none, rows := [], phend := [],
    vstcFail := [], nextFid := 0, report := none }

/-- A hardware control thread. `waiting` is the `waiti` in progress: its D register and its deadline (R223). `entered` is
the address of an instruction that has begun and waits: the thread stands at no instruction boundary there. `acks` are the
scalar registers that the acknowledgement of a held versioned write will set (R247, R312). `stopped` is the address of an
instruction that stopped between two elements and has not completed, with the vector register whose elements at or beyond PROG
no other thread may read: one that it has written as RUN up to its stop, or one into which replies have come above an element
that is awaited (R91, R93, R119, R366). MODEL: `reads` are VSTART, FFLG,
VDIRTY and RESYNC while vector work may not have completed that they show, and `stores` the element stores, newest first, that
may not have been performed (R49); `burst` says that the thread has executed nothing but element-wise vector instructions since
its last `tstamp.wait`, so that its slot's next group is due in the next A-cycle (R385). -/
structure Thread where
  regs : ThreadRegs
  owner : Option Owner
  ended : Bool
  asid : Nat
  keyid : Nat
  side : Side
  specFile : Option RegFile
  held : List Held
  acks : List (BitVec 6)
  waiting : Option (BitVec 6 × Word)
  entered : Option Word
  stopped : Option (Word × Option Nat)
  reads : BitVec 4
  stores : List (List (Nat × Nat))
  burst : Bool
  deriving DecidableEq, Repr

def Thread.zero : Thread :=
  { regs := ThreadRegs.zero, owner := none, ended := false, asid := 0, keyid := 0, side := Side.zero,
    specFile := none, held := [], acks := [], waiting := none, entered := none,
    stopped := none, reads := 0, stores := [], burst := false }

-- Core and quad -------------------------------------------------------------------------------------------------------

/-- A circular buffer (Table 9.8): its geometry, the slots whose fill has completed, oldest first, the slots claimed and
not yet filled, and its two positions (R120, R330). -/
structure CBuf where
  base : Nat
  slotsz : Nat
  nslot : Nat
  filled : List Nat
  transit : List Nat
  fillPos : Nat
  readPos : Nat
  deriving DecidableEq, Repr

def CBuf.zero : CBuf :=
  { base := 0, slotsz := 0, nslot := 0, filled := [], transit := [], fillPos := 0, readPos := 0 }

structure Core where
  file : RegFile
  mshape : BitVec 19
  vlmax : Nat
  scrb : Nat
  fuse : Bool
  alcWanted : Nat
  slip : BitVec 4
  resyncReg : BitVec 32
  resyncMem : BitVec 32
  bubbles : Word
  rows : Word
  dropped : Word
  pt : Nat
  ptTicks : Nat
  cbufs : Vector CBuf 16
  pcsamp : Word
  samples : Nat
  threads : Vector Thread 4
  deriving DecidableEq, Repr

def Core.zero : Core :=
  { file := RegFile.zero, mshape := 0, vlmax := 512, scrb := 0, fuse := false, alcWanted := 32, slip := 2,
    resyncReg := 0, resyncMem := 0, bubbles := 0, rows := 0, dropped := 0, pt := 0, ptTicks := 0,
    cbufs := Vector.replicate 16 CBuf.zero, pcsamp := 0, samples := 0, threads := Vector.replicate 4 Thread.zero }

/-- A transfer in a channel (R323): its launch count, its launcher with its hardware core and context, the shadow set it copied, the
byte it began at, how far it has come in bytes, and the slots it has claimed for its present row, as (core, slot) pairs (R324). -/
structure Transfer where
  count : Nat
  owner : Owner
  core : Nat
  asid : Nat
  shadow : Vector Word 12
  begun : Nat
  pos : Nat
  claims : List (Nat × Nat)
  deriving DecidableEq, Repr

structure Channel where
  launched : Nat
  queue : List Transfer
  deriving DecidableEq, Repr

/-- An element-wise vector instruction in the queue of the arithmetic slot: the address of its word, and the bits of its
elements that have not issued (R90, R358). -/
structure Queued where
  pc : Word
  left : Nat
  deriving DecidableEq, Repr

/-- The vector arithmetic slot of a core (R358, R385): what each thread has queued, oldest first, the thread served last, and the
thread and word of the group that issued in the A-cycle in progress, which is final at the edge that ends it. -/
structure Slot where
  queue : Vector (List Queued) 4
  last : Nat
  flight : Option (Nat × Word)
  deriving DecidableEq, Repr

/-- A slot that nothing uses; thread 0 is served first (log entry 59). -/
def Slot.idle : Slot := { queue := Vector.replicate 4 [], last := 3, flight := none }

/-- A quad: its copy channels, its droop detector (Table 28.3), its operating point (Table 28.1), the point it moves to and
ALCLIM; its A-clock (R28, R377): the edges counted, when the last of them fell and the length of the cycle it began, in 78ths
of a nanosecond from TIME 0, whether an alarm waits for the next edge, and the A-cycles left of the stretch and of the halved
window; the arithmetic slots of its cores, by core of the quad; and its latest window of 64 A-cycles (R379): the number of the
window, the estimate of it in mW, the power that each context's issued work brought to it, and how far each one fell when the
issued power last fell. -/
structure Quad where
  channels : Vector Channel 4
  drth : BitVec 8
  drCnt : BitVec 32
  drSag : BitVec 8
  drEv : Bool
  op : Nat
  moving : Option Nat
  alclim : BitVec 3
  edges : Nat
  edgeAt : Nat
  cycle : Nat
  alarm : Bool
  stretch : Nat
  halved : Nat
  slots : SMap Slot
  window : Nat
  estimate : Nat
  issued : SMap Nat
  falls : SMap Nat
  deriving DecidableEq, Repr

def Quad.zero : Quad :=
  { channels := Vector.replicate 4 { launched := 0, queue := [] }, drth := 40, drCnt := 0, drSag := 0, drEv := false,
    op := 5, moving := none, alclim := 0, edges := 0, edgeAt := 0, cycle := 130, alarm := false, stretch := 0, halved := 0,
    slots := [], window := 0, estimate := 0, issued := [], falls := [] }

/-- A barrier (R333), with the completions of its `pod` phase that members have announced (R336). -/
structure Barrier where
  ea : Nat
  eb : Nat
  ra : Int
  rb : Int
  phase : Word
  excess : Bool
  ot : Bool
  reached : Nat
  members : SMap Nat
  deriving DecidableEq, Repr

def Barrier.zero : Barrier :=
  { ea := 0, eb := 0, ra := 0, rb := 0, phase := 0, excess := false, ot := false, reached := 0, members := [] }

-- Memory system -------------------------------------------------------------------------------------------------------

/-- What the home acknowledges to a request (R142, R144): whether it was performed, and the line's version. -/
structure Ack where
  done : Bool
  version : BitVec 16
  deriving DecidableEq, Repr

/-- What a home slice keeps for one source of requests (R144): its latest sequence number, and the latest 64 sequences with
their acknowledgements, newest first. -/
structure Source where
  last : BitVec 32
  window : List (BitVec 32 × Ack)
  deriving DecidableEq, Repr

def Source.zero : Source := { last := 0, window := [] }

/-- A 64-byte line at its home: the timestamps of R123, its version (R142), its last writer's source and sequence (R144),
the number of writes it has seen, poison (R117), and the key its bytes were written under (R116). -/
structure Line where
  wt : Nat
  rt : Nat
  version : BitVec 16
  writer : Option (Nat × BitVec 32)
  writes : Nat
  poison : Bool
  key : BitVec 256
  deriving DecidableEq, Repr

def Line.zero : Line := { wt := 0, rt := 0, version := 0, writer := none, writes := 0, poison := false, key := 0 }

/-- A residence record (Table 9.6), the move in progress, the epochs its counters have been zero (R109), the TIME at which
its 16 ms window opened, and the TIME of the latest fall of PINLEFT (R111). -/
structure Residence where
  tier : BitVec 2
  die : BitVec 2
  rtier : Bool
  pinned : Bool
  moving : Bool
  dframe : BitVec 25
  rpkg : BitVec 13
  moves : Nat
  cnt : Vector (BitVec 8) 4
  cntr : BitVec 8
  pinleft : BitVec 16
  quiet : Nat
  windowAt : Nat
  pinAt : Nat
  dest : Option (BitVec 2 × BitVec 2 × BitVec 25)
  moved : Nat
  deriving DecidableEq, Repr

/-- A sub-block that resides nowhere (R107). -/
def Residence.zero : Residence :=
  { tier := 3, die := 0, rtier := false, pinned := false, moving := false, dframe := 0, rpkg := 0, moves := 0,
    cnt := Vector.replicate 4 0, cntr := 0, pinleft := 0, quiet := 0, windowAt := 0, pinAt := 0, dest := none, moved := 0 }
/-- 64 KiB frames of the LPDDR tier, two halves of 1 TiB (R29). -/
def lpddrFrames : Nat := 2 ^ 25
/-- 64 KiB frames of a compute die's two HBM4 stacks, 96 GiB (R29). -/
def hbmFrames : Nat := 1572864
/-- Those that hold sub-blocks at reset where there is no LPDDR tier. -/
def hbmPart : Nat := hbmFrames / 2
/-- The record of sub-block n at reset: in the LPDDR frame of its number while there is one; on a device without that tier (R30), in the
lower half of the HBM4 frames of die 0, then of die 1 and so on (log entry 34). -/
def Residence.initial (lpddr : Bool) (n : Nat) : Residence :=
  if lpddr then
    if n < lpddrFrames then { Residence.zero with tier := 1, dframe := BitVec.ofNat 25 n } else Residence.zero
  else if n < 4 * hbmPart then
    { Residence.zero with tier := 0, die := BitVec.ofNat 2 (n / hbmPart), dframe := BitVec.ofNat 25 (n % hbmPart) }
  else Residence.zero

/-- Memory with what its homes keep: whether the LPDDR tier is present (R30), bytes, lines by line number, residence records by
huge page × 4096 + sub-block, and the sources of requests by source × 64 + home slice (R144). -/
structure MemSys where
  lpddr : Bool
  mem : Memory
  lines : SMap Line
  records : SMap Residence
  sources : SMap Source
  deriving DecidableEq, Repr

-- Contexts, jobs and the scheduler ------------------------------------------------------------------------------------

/-- A binding (Tables 26.1, 30.7) with the window table each die's translation store holds (R104), the save slots in use
(R362), the other packages on which the context is bound with its POD flag (R336, R400), and the energy charged since
binding, in 78ths of a picojoule, which is 1 mW through 1/78 ns (R379, R381). -/
structure Context where
  keyid : Nat
  dies : BitVec 4
  pnote : Bool
  pod : Bool
  sroot : Nat
  wtab : Nat
  poolBase : Nat
  poolCnt : Nat
  cntBase : Nat
  fpBase : Nat
  spool : Nat
  scnt : Nat
  bcore : BitVec 16
  bquad : BitVec 64
  bdie : BitVec 256
  bpkg : BitVec 512
  windows : Vector (SMap (BitVec 128)) 4
  slots : SMap LRef
  peers : List Nat
  energy : Nat
  deriving DecidableEq, Repr

/-- A job card as read at submission (Tables 3.1, 3.2). -/
structure Card where
  entry : Word
  args : Word
  scount : Word
  slen : BitVec 32
  nlog : BitVec 32
  ctrl : Word
  fptr : Word
  srseed : Word
  cmbsrc : Word
  cmbdst : Word
  cmbstr : BitVec 32
  cmblen : BitVec 32
  featreq : BitVec 256
  doneAt : Word
  rsvd : Word
  deriving DecidableEq, Repr

/-- A footprint entry (R33). -/
structure Footprint where
  base : Word
  len : Nat
  reads : Bool
  writes : Bool
  deriving DecidableEq, Repr

/-- Where a logical core stands (R36, R362): not started, resident on a core from a first hardware thread, saved in its
slot, kept in place through Winter, or ended. -/
inductive LState where
  | waiting
  | resident (core base : Nat)
  | saved
  | inPlace (core base : Nat)
  | ended
  deriving DecidableEq, Repr

/-- A thread of a pre-empted logical core: what its save area does not hold (R342, R363), the instruction it has stopped in
included. -/
structure SavedThread where
  side : Side
  ended : Bool
  pc : Word
  priv : Bool
  stopped : Option (Word × Option Nat)
  deriving DecidableEq, Repr

def SavedThread.zero : SavedThread := { side := Side.zero, ended := true, pc := 0, priv := false, stopped := none }

/-- A logical core of a job: its strip counter (R37, R38), its save slot, the first hardware thread it had, the number of
the pre-emption that stopped it with its neighbours (R363), its saved threads, the TIME at which it stopped, and the core that
is kept for it through Winter (R384). -/
structure LCore where
  st : LState
  next : Nat
  slot : Option Nat
  base : Nat
  group : Nat
  threads : List SavedThread
  stoppedAt : Nat
  kept : Option Nat
  deriving DecidableEq, Repr

def LCore.zero : LCore :=
  { st := .waiting, next := 0, slot := none, base := 0, group := 0, threads := [], stoppedAt := 0,
    kept := none }

inductive JobState where
  | dependent | active | completing
  deriving DecidableEq, Repr

/-- A job the scheduler holds (R353-R355): arrival order is list order. `cores` is the grant, by position; `strips` is S
and `next` the shared strip counter; `readySince`, `waitSince` and `heldSince` are the TIMEs since which it waits to start
or resume, does so and holds no core, and holds a core; `ended1` marks status 1, `fault` a combine or count fault (R43). -/
structure Job where
  handle : Nat
  card : Card
  footprint : List Footprint
  st : JobState
  strips : Nat
  next : Nat
  finished : Nat
  level : Nat
  readySince : Option Nat
  waitSince : Option Nat
  heldSince : Option Nat
  lastGrant : Nat
  scopeAt : Option Nat
  cores : List Nat
  started : Nat
  lcores : SMap LCore
  ended1 : Bool
  fault : Nat
  flags : BitVec 6
  combined : Bool
  deriving DecidableEq, Repr

/-- A firmware image as the device keeps it (Table 30.11): its version, its anti-rollback number, its hash, and its bytes, of
which the image stored at manufacture shows none. -/
structure FwImage where
  version : BitVec 64
  arb : BitVec 32
  hash : BitVec 256
  bytes : List Byte
  deriving DecidableEq, Repr

/-- A reply that left an endpoint: connection, sequence number and bytes (R392). -/
structure Reply where
  conn : Nat
  seq : Nat
  bytes : List Byte
  deriving DecidableEq, Repr

/-- One turn of the machine: which agent moves next. MODEL: the order in which agents act, the arrival of messages and
the passage of TIME are timing, which the spec leaves open; the list holds them as data. `race` runs one instruction of each
of two threads, the second reading the listed elements of shared registers as the first leaves them (R17). `peer` is what
the pod announces of a context on another package (R336). `work` is start-up, test or recovery work done for a context, or
housekeeping for ASID 0, in 78ths of a picojoule (R381); `corrected` is an error of the hardware that was corrected, and `failed` one
that a job does not survive (R396, R406); `replay` names the compute die to whose slice its request was sent (R144). `discard` is a
message that no service admits (R391). `mapMove`, which the map command before it takes up, is a sub-block that the command
moves (R111, R395). -/
inductive Turn where
  | event (i : Instr)
  | run (t : Hart)
  | runTo (t : Hart) (stop : Nat) (await : List Nat)
  | elapse (ns : Nat)
  | message (iodie conn seq : Nat) (bytes : List Byte)
  | replay (source line : Nat) (seq : BitVec 32) (die : Nat) (e : Effect)
  | race (t u : Hart) (elems : List Nat)
  | peer (asid pkg : Nat) (bound : Bool)
  | work (asid energy : Nat)
  | corrected
  | failed (job : Nat)
  | discard (iodie : Nat) (bytes : List Byte)
  | mapMove (block : Nat) (tier die : BitVec 2) (rtier : Bool) (frame : BitVec 25) (pkg : BitVec 13)
  deriving DecidableEq, Repr

/-- The key of slot 0, which belongs to firmware: the spec gives it no value (log entry 2). -/
def State.firmwareKey : BitVec 256 := BitVec.allOnes 256

structure State where
  time : Nat
  msys : MemSys
  cores : SMap Core
  quads : SMap Quad
  barriers : SMap Barrier
  contexts : SMap Context
  jobs : List Job
  finished : List (Nat × Word)
  nextHandle : Nat
  replica : Nat
  keys : SMap (BitVec 256)
  keyLoads : Word
  started : Bool
  recovery : Bool
  offer : BitVec 256
  accepted : BitVec 256
  pkg : BitVec 13
  pod : SMap (BitVec 256)
  running : FwImage
  stored : Option FwImage
  previous : Option FwImage
  fusedMin : BitVec 32
  staged : List Byte
  stagedNext : Nat
  stagedOf : Nat
  capLast : Word
  capFloor : Nat
  capLease : Option (Nat × Nat)
  brownOut : Bool
  winterCmd : Bool
  winter : Bool
  winterCount : Word
  winterAt : Nat
  lostSamples : Nat
  pinEvents : Word
  failures : Word
  corrected : Word
  energy0 : Nat
  thPromote : Nat
  thRatio : Nat
  thQuiet : Nat
  epochAt : Vector Nat 4
  command : Msg
  replies : List Reply
  inbox : List Turn
  cur : Hart
  stopAt : Option Nat
  await : List Nat
  agenda : List Turn
  beat : Bool
  fresh : Nat
  deriving DecidableEq, Repr

/-- A machine with the LPDDR tier or without it (R30) right after device reset: TIME 0, nothing started, no context, job, key or pod
table, memory listing nothing, every register at the reset value of its table. INVENTORY.md and the assumption log name the values
the spec does not give. -/
def State.resetOf (lpddr : Bool) : State :=
  { time := 0, msys := { lpddr := lpddr, mem := [], lines := [], records := [], sources := [] }, cores := [], quads := [], barriers := [],
    contexts := [], jobs := [], finished := [], nextHandle := 1, replica := 0, keys := [(0, State.firmwareKey)], keyLoads := 0,
    started := false, recovery := false, offer := if lpddr then 0x7F else 0x5F, accepted := 0, pkg := 0, pod := [],
    running := { version := Config.bootVersion, arb := Config.bootArb, hash := Config.bootHash, bytes := [] }, stored := none,
    previous := none,
    fusedMin := Config.fusedMin, staged := [], stagedNext := 0, stagedOf := 0, capLast := 0, capFloor := 1040,
    capLease := none, brownOut := false, winterCmd := false, winter := false, winterCount := 0, winterAt := 0, lostSamples := 0,
    pinEvents := 0, failures := 0, corrected := 0, energy0 := 0, thPromote := 32, thRatio := 2, thQuiet := 64, epochAt := Vector.replicate 4 1000000,
    command := { iodie := 0, conn := 0, seq := 0, reserved := 0, tag := 0, blen := 0, body := [] },
    replies := [], inbox := [], cur := { core := 0, thread := 0 }, stopAt := none, await := [], agenda := [], beat := false, fresh := 0 }
/-- The machine with every tier (R29). -/
def State.reset : State := State.resetOf true

end Sys2Proof.Machine
end

