-- ==== Sys2Proof/Machine/Lines.lean ====
section
/-!
DEFINITION. The 64-byte lines of memory: what a home keeps of each, and how bytes are read and stored under a key (R115-R117).
-/
namespace Sys2Proof.Machine
open Sys2Proof

def MemSys.line (m : MemSys) (n : Nat) : Line := SMap.get m.lines Line.zero n
def MemSys.setLine (m : MemSys) (n : Nat) (x : Line) : MemSys := { m with lines := SMap.set m.lines n x }

/-- The 64-byte lines an access of n > 0 bytes touches. -/
def linesOf (pa n : Nat) : List Nat := (List.range ((pa + n - 1) / 64 + 1 - pa / 64)).map (fun i => pa / 64 + i)

/-- A reader or writer under a key meets a line's own bytes: the line was written under that key, or never, or the device
reads a structure that lies under no slot's key (log entry 33). -/
def Line.opens (l : Line) (key : BitVec 256) : Bool := l.key == 0 || key == 0 || l.key == key
/-- A line's 64 bytes as a reader under a key receives them (R116): its own bytes, or what decryption under another key
makes of the line as it is stored (R115). -/
def MemSys.lineUnder (m : MemSys) (n : Nat) (key : BitVec 256) : List Byte :=
  let own := m.mem.readBytes (64 * n) 64
  if (m.line n).opens key then own else foreignLine (m.line n).key key (64 * n % 2 ^ 47) own

/-- Bring a line under a key before part of it is written: its other bytes become what a reader under that key receives
(R116). Key 0 marks a line that no keyed store has written. -/
def MemSys.rekey (m : MemSys) (n : Nat) (key : BitVec 256) : MemSys :=
  if (m.line n).opens key then m else { m with mem := m.mem.writeBytes (64 * n) (m.lineUnder n key) }

/-- Store bytes under a key: one write of each line it touches; a write of a whole line clears its poison (R117). -/
def MemSys.store (m : MemSys) (pa : Nat) (bytes : List Byte) (key : BitVec 256) : MemSys :=
  if bytes.length = 0 then m
  else
    let ls := linesOf pa bytes.length
    let m := ls.foldl (fun m n => m.rekey n key) m
    let m := { m with mem := m.mem.writeBytes pa bytes }
    ls.foldl (fun m n =>
      let l := m.line n
      let whole := decide (pa ≤ 64 * n) && decide (64 * n + 64 ≤ pa + bytes.length)
      m.setLine n { l with writes := l.writes + 1, key := if key = 0 then l.key else key,
                           poison := l.poison && !whole }) m

/-- One byte as a reader under a key receives it (R116). -/
def MemSys.readByte (m : MemSys) (key : BitVec 256) (a : Nat) : Byte :=
  if (m.line (a / 64)).opens key then m.mem.read a else (m.lineUnder (a / 64) key).getD (a % 64) 0

/-- n bytes as a reader under a key receives them. -/
def MemSys.load (m : MemSys) (key : BitVec 256) (a : Nat) : Nat → List Byte
  | 0 => []
  | n + 1 => m.readByte key a :: MemSys.load m key (a + 1) n

end Sys2Proof.Machine
end

