-- ==== Sys2Proof/Machine/Units.lean ====
section
/-!
DEFINITION. The units of a package by number: cores, quads, hardware threads, and the thread whose instruction executes.
-/
namespace Sys2Proof.Machine
open Sys2Proof

/-- Element i of a vector, or the given value beyond its end. -/
def vget {α : Type} {n : Nat} (v : Vector α n) (i : Nat) (dflt : α) : α := v.toList.getD i dflt
/-- Replace element i; beyond the end nothing changes. -/
def vset {α : Type} {n : Nat} (v : Vector α n) (i : Nat) (x : α) : Vector α n := v.setIfInBounds i x

-- Units --------------------------------------------------------------------------------------------------------------

def State.core (s : State) (c : Nat) : Core := SMap.get s.cores Core.zero c
def State.setCore (s : State) (c : Nat) (x : Core) : State := { s with cores := SMap.set s.cores c x }
def State.quad (s : State) (q : Nat) : Quad := SMap.get s.quads Quad.zero q
def State.setQuad (s : State) (q : Nat) (x : Quad) : State := { s with quads := SMap.set s.quads q x }

/-- The quad (die × 64 + quad) and the die of a core (R13). -/
def quadOf (core : Nat) : Nat := core / 4
def dieOf (core : Nat) : Nat := core / 256

/-- A hardware thread. -/
def State.thread (s : State) (t : Hart) : Thread := vget (s.core t.core).threads t.thread Thread.zero
def State.setThread (s : State) (t : Hart) (x : Thread) : State :=
  let c := s.core t.core
  s.setCore t.core { c with threads := vset c.threads t.thread x }

/-- The thread whose instruction executes. -/
def State.thr (s : State) : Thread := s.thread s.cur
def State.setThr (s : State) (x : Thread) : State := s.setThread s.cur x
/-- Its registers. -/
def State.regs (s : State) : ThreadRegs := s.thr.regs
def State.setRegs (s : State) (r : ThreadRegs) : State := s.setThr { s.thr with regs := r }
/-- What the device keeps beside them. -/
def State.side (s : State) : Side := s.thr.side
def State.setSide (s : State) (x : Side) : State := s.setThr { s.thr with side := x }
/-- Its core. -/
def State.myCore (s : State) : Core := s.core s.cur.core
def State.setMyCore (s : State) (x : Core) : State := s.setCore s.cur.core x

end Sys2Proof.Machine
end

