-- ==== Sys2Proof/Machine/Homes.lean ====
section
/-!
DEFINITION. Lines at their homes: the effects of instructions on memory, homes (R23, R108), the timestamps of R123, exactly-once
delivery (R144), and how an agent performs an effect. Every access is performed at its home, in order (log entries 5 and 6).
-/
namespace Sys2Proof.Machine
open Sys2Proof

-- Effects on memory ------------------------------------------------------------------------------------------------------

/-- Perform one effect on memory. -/
def MemSys.apply (m : MemSys) (e : Effect) : MemSys :=
  match e with
  | .store pa bytes key => m.store pa bytes key
  | .nibble pa high v key =>
    let b := (m.readByte key pa).toNat
    m.store pa [BitVec.ofNat 8 (if high then b % 16 + 16 * v.toNat else b / 16 * 16 + v.toNat)] key
  | .add1 pa key => m.store pa (toBytes 8 (ofBytes (m.load key pa 8) + 1)) key
  | .advance pa step key =>
    let h := m.load key pa 8
    m.store pa (toBytes 4 step.toNat ++ toBytes 2 (natAt h 4 2 + 1) ++ bytesAt h 6 2) key
  | .tile hdr hb pay pb expected hkey pkey _ =>
    if natAt (m.load hkey hdr 16) 10 2 = expected.toNat then (m.store hdr hb hkey).store pay pb pkey else m
  | .read _ _ | .rowIssued _ _ | .clearCount _ | .accRow _ _ _ | .resync _ => m

/-- What a home acknowledges to a versioned tile write: accepted, or rejected with the current version (R142). -/
def MemSys.tileAck (m : MemSys) (hdr : Nat) (expected : BitVec 16) (hkey : BitVec 256) : Ack :=
  let now := BitVec.ofNat 16 (natAt (m.load hkey hdr 16) 10 2)
  { done := now == expected, version := now }
/-- The acknowledgement of an effect at its home: only a versioned write can be rejected. -/
def MemSys.ackOf (m : MemSys) (e : Effect) : Ack :=
  match e with
  | .tile hdr _ _ _ expected hkey _ _ => m.tileAck hdr expected hkey
  | _ => { done := true, version := 0 }

/-- The addresses an effect writes, as an address and a length. -/
def Effect.span : Effect → List (Nat × Nat)
  | .store pa bytes _ => [(pa, bytes.length)]
  | .nibble pa _ _ _ => [(pa, 1)]
  | .add1 pa _ => [(pa, 8)]
  | .advance pa _ _ => [(pa, 8)]
  | .tile hdr hb pay pb _ _ _ _ => [(hdr, hb.length), (pay, pb.length)]
  | .read _ _ | .rowIssued _ _ | .clearCount _ | .accRow _ _ _ | .resync _ => []

def MemSys.applyAll (m : MemSys) (es : List Effect) : MemSys := es.foldl MemSys.apply m
/-- Held items applied to memory in program order. -/
def MemSys.applyHeld (m : MemSys) (l : List Held) : MemSys := l.foldl (fun m h => m.applyAll h.es) m
-- Residence counters and timestamps ------------------------------------------------------------------------------------

/-- The residence record of a sub-block (huge page × 4096 + sub-block). -/
def MemSys.record (m : MemSys) (n : Nat) : Residence := (SMap.find m.records n).getD (Residence.initial m.lpddr n)
def MemSys.setRecord (m : MemSys) (n : Nat) (x : Residence) : MemSys := { m with records := SMap.set m.records n x }

/-- The sub-block of a local managed address of this package, if it is one (Table 9.1). -/
def State.subBlock (s : State) (pa : Nat) : Option Nat :=
  if pa / 2 ^ 47 = s.pkg.toNat && pa % 2 ^ 47 < 2 ^ 42 then some (pa % 2 ^ 47 / 65536) else none

/-- 8-bit saturating increment. -/
def satInc (b : BitVec 8) : BitVec 8 := if b = 255 then b else b + 1

/-- The agents of this package by number: the cores 0..1023, and from `unitOn 0` on the units of each die that act beside
them (Autumn unit, completion agent, scheduler). -/
def unitOn (die : Nat) : Nat := 1024 + die % 4
def agentDie (a : Nat) : Nat := if a < 1024 then dieOf a else a % 4

/-- The compute die that an HBM4 or LPDDR placement makes home of a sub-block (R108). -/
def homeDie (lpddr : Bool) (die : BitVec 2) (frame : BitVec 25) (n : Nat) : Nat :=
  if lpddr then (if frame.getLsbD 24 then 1 else 0) + 2 * (n % 2) else die.toNat
/-- The home of a sub-block: the package and the compute die in it (R108); none where it is not allocated. -/
def Residence.home (r : Residence) (pkg n : Nat) : Option (Nat × Nat) :=
  match r.tier.toNat with
  | 0 => some (pkg, homeDie false r.die r.dframe n)
  | 1 => some (pkg, homeDie true r.die r.dframe n)
  | 2 => some (r.rpkg.toNat, homeDie r.rtier r.die r.dframe n)
  | _ => none
/-- The home of one line of a sub-block: while a move is in progress, that of the new placement for the lines that have been
transferred, and that of the old one for the others (R110). -/
def Residence.homeOf (r : Residence) (pkg n line : Nat) : Option (Nat × Nat) :=
  match r.moving, r.dest with
  | true, some (tier, die, frame) =>
    if line < r.moved then some (pkg, homeDie (tier == 1) die frame n) else r.home pkg n
  | _, _ => r.home pkg n
/-- The home slice of an address within its home die (R23). -/
def homeSlice (pa : Nat) : Nat := bitsOf pa 11 8 ^^^ bitsOf pa 15 12 ^^^ bitsOf pa 19 16
/-- The quads that a slice lies under (R23): columns 2·(s mod 4) and the next, rows 2·⌊s/4⌋ and the next. -/
def sliceQuads (slice : Nat) : List Nat :=
  let q := slice / 4 * 16 + slice % 4 * 2
  [q, q + 1, q + 8, q + 9]
/-- The home compute die of a physical address: of a line of a sub-block as its record says, of a residence record die PA[17:16],
of a scratch byte the die of its core (R108, R110, Table 9.1). -/
def State.homeDieOf (s : State) (pa : Nat) : Nat :=
  match s.subBlock pa with
  | some n => (((s.msys.record n).homeOf s.pkg.toNat n (pa / 64 % 1024)).map (·.2)).getD 0
  | none => if pa % 2 ^ 47 / 2 ^ 43 = 1 then bitsOf pa 17 16 else bitsOf pa 29 28

/-- The home counts a line access in its record, by the accessor's die or as another package's (R108). -/
def State.countAccess (s : State) (pa : Nat) (die : Option Nat) : State :=
  match s.subBlock pa with
  | none => s
  | some n =>
    let r := s.msys.record n
    let r := match die with
      | some d => { r with cnt := vset r.cnt d (satInc (vget r.cnt d 0)) }
      | none => { r with cntr := satInc r.cntr }
    { s with msys := s.msys.setRecord n r }

/-- The same for k accesses of lines of one sub-block by a die. -/
def Residence.countMany (r : Residence) (die k : Nat) : Residence :=
  { r with cnt := vset r.cnt die (BitVec.ofNat 8 (min 255 ((vget r.cnt die 0).toNat + k))) }

/-- The core whose logical clock a core uses: a fused quad shares one (R123). -/
def State.clockCore (s : State) (c : Nat) : Nat := if (s.core c).fuse then c / 4 * 4 else c
/-- The logical clock of an agent; a unit keeps none. -/
def State.pt (s : State) (c : Nat) : Nat := if c < 1024 then (s.core (s.clockCore c)).pt else 0
def State.setPt (s : State) (c n : Nat) : State :=
  if c < 1024 then
    let k := s.clockCore c
    s.setCore k { s.core k with pt := n }
  else s

-- Exactly-once delivery (R144) -----------------------------------------------------------------------------------------

/-- Where a slice keeps what it knows of a source: source × 64 + die × 16 + slice. -/
def State.sourceKey (s : State) (src ln : Nat) : Nat := src * 64 + s.homeDieOf (64 * ln) * 16 + homeSlice (64 * ln)
def MemSys.source (m : MemSys) (k : Nat) : Source := SMap.get m.sources Source.zero k

/-- The same at the slice of a given die: the one a request was sent to, which is the line's home or was before a move (R110). -/
def sourceAt (src ln die : Nat) : Nat := src * 64 + die % 4 * 16 + homeSlice (64 * ln)
/-- A request that a source sent for a line to a die is a replay: its sequence is the line's latest writer's, or lies in the window of
the slice it was sent to. -/
def State.isReplay (s : State) (src ln : Nat) (seq : BitVec 32) (die : Nat) : Bool :=
  (s.msys.line ln).writer == some (src, seq) || (s.msys.source (sourceAt src ln die)).window.any (fun x => x.1 == seq)
/-- The acknowledgement that a home recorded for a request. -/
def State.recordedAck (s : State) (src ln : Nat) (seq : BitVec 32) (die : Nat) : Ack :=
  match (s.msys.source (sourceAt src ln die)).window.find? (fun x => x.1 == seq) with
  | some (_, a) => a
  | none => { done := true, version := (s.msys.line ln).version }

/-- A request performed at its home: it takes its source's next sequence number, its acknowledgement enters the window of
the latest 64, and a write leaves its tag at the line. -/
def State.request (s : State) (src ln : Nat) (write : Bool) (ack : Ack) : State :=
  let k := s.sourceKey src ln
  let x := s.msys.source k
  let seq := x.last + 1
  let m := { s.msys with sources := SMap.set s.msys.sources k { last := seq, window := ((seq, ack) :: x.window).take 64 } }
  { s with msys := if write then m.setLine ln { m.line ln with writer := some (src, seq) } else m }

-- Accesses at their homes (R108, R123) -----------------------------------------------------------------------------------

/-- A load of a line by an agent: the lease is renewed and PT follows WT; an acquire then also follows the renewed lease,
where R123 says only "RT of the line read" (log entry 44). -/
def State.touchLoad (s : State) (c : Nat) (acq : Bool) (ln : Nat) : State :=
  let l := s.msys.line ln
  let pt := s.pt c
  let rt := max l.rt (pt + 16)
  let s := { s with msys := s.msys.setLine ln { l with rt := rt } }
  let s := s.setPt c (max (max pt l.wt) (if acq then rt else 0))
  (s.countAccess (64 * ln) (some (agentDie c))).request c ln false { done := true, version := l.version }

/-- A store performed at a line's home for an agent (R123). -/
def State.touchStore (s : State) (c : Nat) (ln : Nat) : State :=
  let l := s.msys.line ln
  let wt := max (s.pt c) (l.rt + 1)
  let s := { s with msys := s.msys.setLine ln { l with wt := wt, rt := wt } }
  let s := s.setPt c (max (s.pt c) wt)
  (s.countAccess (64 * ln) (some (agentDie c))).request c ln true { done := true, version := l.version }

/-- The local-scratch range of Table 9.1. -/
def scratchRange (pa : Nat) : Bool :=
  let l := pa % 2 ^ 47
  decide (0x400000000000 ≤ l) && decide (l < 0x400040000000)
/-- The core that a scratch address names. -/
def scratchCore (pa : Nat) : Nat := bitsOf pa 29 20

/-- The lines that have a home among n bytes at an address: none of scratch, which is not cached (R118). -/
def homedLines (pa n : Nat) : List Nat := if n = 0 || scratchRange pa then [] else linesOf pa n
/-- Those of an effect's spans. -/
def Effect.lines (e : Effect) : List Nat := e.span.flatMap (fun (pa, n) => homedLines pa n)
/-- Count a row that the matrix array issued on a core, or clear such a count (R125, Table 22.5); or count a resynchronisation
(R49). -/
def Core.count (c : Core) (e : Effect) : Core :=
  match e with
  | .rowIssued bubbles dropped => { c with rows := c.rows + 1, bubbles := c.bubbles + bubbles, dropped := c.dropped + dropped }
  | .clearCount 1 => { c with bubbles := 0 }
  | .clearCount 2 => { c with rows := 0 }
  | .clearCount 3 => { c with dropped := 0 }
  | .resync true => { c with resyncMem := c.resyncMem + 1 }
  | .resync false => { c with resyncReg := c.resyncReg + 1 }
  | _ => c

/-- Perform an effect for an agent: memory and its lines change where the effect writes; a versioned write that is rejected
performs nothing, and its acknowledgement says so (R142). -/
def State.perform (s : State) (c : Nat) (e : Effect) : State :=
  match e with
  | .read ln acq => s.touchLoad c acq ln
  | .rowIssued _ _ | .clearCount _ | .resync _ => s.setCore c ((s.core c).count e)
  | .accRow _ _ _ => s
  | e =>
    let ack := s.msys.ackOf e
    if ack.done then e.lines.foldl (fun s ln => s.touchStore c ln) { s with msys := s.msys.apply e }
    else match e.lines with
      | [] => s
      | ln :: _ => (s.countAccess (64 * ln) (some (agentDie c))).request c ln false ack
def State.performAll (s : State) (c : Nat) (es : List Effect) : State := es.foldl (fun s e => s.perform c e) s

-- The device's own structures ----------------------------------------------------------------------------------------------

/-- Bytes that a unit writes into the device's own structures (R108). -/
def State.deviceStore (s : State) (unit pa : Nat) (b : List Byte) : State := s.perform unit (.store pa b 0)
/-- A stretch of memory set to zero. -/
def MemSys.zeroRange (m : MemSys) (pa n : Nat) : MemSys :=
  { m with mem := m.mem.filter (fun c => !(decide (pa ≤ c.1) && decide (c.1 < pa + n))),
           lines := m.lines.map (fun (k, l) =>
             (k, if pa ≤ 64 * k && 64 * k < pa + n then
                   { l with writes := l.writes + 1, poison := false, wt := l.rt + 1, rt := l.rt + 1 }
                 else l)) }
/-- A unit sets whole lines to zero. -/
def State.deviceClear (s : State) (unit pa n : Nat) : State :=
  let s := (linesOf pa n).foldl (fun s ln => s.countAccess (64 * ln) (some (agentDie unit))) s
  { s with msys := s.msys.zeroRange pa n }
/-- A unit sets whole sub-blocks of 1,024 lines each to zero: every line access counts, and a line that nothing has touched keeps
no entry of its own. -/
def State.deviceZero (s : State) (unit pa n : Nat) : State :=
  (List.range (n / 65536)).foldl (fun s i =>
    match s.subBlock (pa + 65536 * i) with
    | none => s
    | some b => { s with msys := s.msys.setRecord b ((s.msys.record b).countMany (agentDie unit) 1024) })
    { s with msys := s.msys.zeroRange pa n }

end Sys2Proof.Machine
end

