-- ==== Sys2Proof/Machine/Ops.lean ====
section
/-!
DEFINITION. The named operations over the state that every meaning is built from: register files and their special cases,
the program counter, flags, the derived registers, taking an exception (R361) and returning from one (R222), and
stopping a job.
-/
namespace Sys2Proof.Machine
open Sys2Proof

-- Scalar registers, PC and flags --------------------------------------------------------------------------------------

/-- Scalar register r; `s0` reads 0 (Table 13.10). -/
def State.getS (s : State) (r : BitVec 6) : Word := if r = 0 then 0 else vget s.regs.s r.toNat 0
/-- Write scalar register r; a write to `s0` is discarded. -/
def State.setS (s : State) (r : BitVec 6) (v : Word) : State :=
  if r = 0 then s else s.setRegs { s.regs with s := vset s.regs.s r.toNat v }

def State.pc (s : State) : Word := s.regs.pc
def State.setPc (s : State) (v : Word) : State := s.setRegs { s.regs with pc := v }
/-- Past the instruction's one word (R161). -/
def State.advance (s : State) : State := s.setPc (s.pc + 8)

/-- Raise sticky flags (R66). -/
def State.orFlags (s : State) (f : BitVec 6) : State := s.setRegs { s.regs with fflg := s.regs.fflg ||| f }

def State.setVstart (s : State) (n : Nat) : State := s.setRegs { s.regs with vstart := n }

-- Register files -------------------------------------------------------------------------------------------------------

/-- The vector, mask, accumulator and stationary registers the thread reads: its speculative copies while it runs
speculatively, else the core's (R312). -/
def State.file (s : State) : RegFile :=
  match s.thr.specFile with
  | some f => f
  | none => s.myCore.file
def State.setFile (s : State) (f : RegFile) : State :=
  match s.thr.specFile with
  | some _ => s.setThr { s.thr with specFile := some f }
  | none => s.setMyCore { s.myCore with file := f }

def State.vlmax (s : State) : Nat := s.myCore.vlmax
def State.vl (s : State) : Nat := s.regs.vl
def State.vstart (s : State) : Nat := s.regs.vstart

def State.vreg (s : State) (r : Nat) : VReg := vget s.file.v r VReg.zero
def State.kreg (s : State) (r : Nat) : BitVec 2048 := vget s.file.k r 0
def State.accReg (s : State) (r : Nat) : AccRow := vget s.file.acc r (Vector.replicate 128 0)
def State.bReg (s : State) (r : Nat) : Option BReg := vget s.file.b r none

/-- The bit of a register in `RegFile.busy`: vector, mask, accumulator and stationary registers (R49). -/
def busyV (r : Nat) : BitVec 52 := 1#52 <<< (r % 32)
def busyK (r : Nat) : BitVec 52 := 1#52 <<< (32 + r % 8)
def busyAcc (r : Nat) : BitVec 52 := 1#52 <<< (40 + r % 8)
def busyB (r : Nat) : BitVec 52 := 1#52 <<< (48 + r % 4)
/-- A vector register written by vector work, with its VDIRTY bit (R82). -/
def RegFile.putV (f : RegFile) (r : Nat) (x : VReg) : RegFile :=
  { f with v := vset f.v r x, dirty := f.dirty ||| (1#32 <<< r), busy := f.busy ||| busyV r }
/-- Write a vector register and set its VDIRTY bit (R82). -/
def State.setVreg (s : State) (r : Nat) (x : VReg) : State := s.setFile (s.file.putV r x)
/-- Write a mask register; it holds VLMAX bits (Table 13.10). -/
def State.setKreg (s : State) (r : Nat) (x : BitVec 2048) : State :=
  s.setFile { s.file with k := vset s.file.k r (BitVec.ofNat 2048 (x.toNat % 2 ^ s.vlmax)), busy := s.file.busy ||| busyK r }
def State.setAcc (s : State) (r : Nat) (x : AccRow) : State :=
  s.setFile { s.file with acc := vset s.file.acc r x, busy := s.file.busy ||| busyAcc r }
def State.setB (s : State) (r : Nat) (x : Option BReg) : State :=
  s.setFile { s.file with b := vset s.file.b r x, busy := s.file.busy ||| busyB r }

-- Clocks ---------------------------------------------------------------------------------------------------------------

/-- 1 ms of TIME in nanoseconds. -/
def msNs : Nat := 1000000
/-- A-clock of an operating point in MHz (Table 28.1). -/
def opMhz (p : Nat) : Nat := [150, 250, 325, 400, 500, 600, 600, 600].getD p 600
/-- Logic rail of an operating point in units of 5 mV (Tables 28.1, 28.2). -/
def opVlog (p : Nat) : Nat := [90, 100, 110, 120, 130, 140, 155, 170].getD p 140

/-- A-cycle of an operating point in 78ths of a nanosecond, which every point's period is a whole number of (Table 28.1). -/
def opPeriod (p : Nat) : Nat := [520, 312, 240, 195, 156, 130, 130, 130].getD p 130

/-- The point whose clock a quad runs at: the slower of the two while the rail moves (R375). -/
def Quad.clock (q : Quad) : Nat :=
  match q.moving with
  | some p => if opMhz p < opMhz q.op then p else q.op
  | none => q.op
/-- The slots may issue in the A-cycle in progress: in every one, and in the first, third, … of a halved window (R377). -/
def Quad.issues (q : Quad) : Bool := q.halved % 2 == 0
/-- The thread that a slot serves next: the one after the one it served last that has something queued (R358). -/
def Slot.turn (x : Slot) : Option Nat :=
  ((List.range 4).map (fun i => (x.last + 1 + i) % 4)).find? (fun t => !(vget x.queue t []).isEmpty)
/-- One element group of at most 64 bits a lane, of the thread's oldest queued instruction (R6, R358, R385). -/
def Slot.issue (x : Slot) (lanes : Nat) : Slot :=
  match x.turn with
  | none => x
  | some t =>
    match vget x.queue t [] with
    | [] => x
    | i :: rest =>
      { queue := vset x.queue t (if i.left ≤ 64 * lanes then rest else { i with left := i.left - 64 * lanes } :: rest),
        last := t, flight := some (t, i.pc) }
/-- A slot at the beginning of an A-cycle: the group of the cycle before is final, and the next one issues. -/
def Slot.cycle (x : Slot) (lanes : Nat) (issues : Bool) : Slot :=
  let x := { x with flight := none }
  if issues then x.issue lanes else x
/-- A slot has nothing queued and nothing that is not final. -/
def Slot.quiet (x : Slot) : Bool := x.flight.isNone && x.queue.all (fun l => l.isEmpty)
/-- The slot of a core of the quad. -/
def Quad.slot (q : Quad) (i : Nat) : Slot := SMap.get q.slots Slot.idle i

/-- An edge of the A-clock, and the cycle it begins (R377, R378): the first of a stretch after an alarm, one more of the
stretch, or the halved window; a cycle of a stretch lasts two periods. `lanes` is ALC of each core of the quad (R376). -/
def Quad.edge (lanes : Nat → Nat) (q : Quad) : Quad :=
  let stretch := if q.alarm then 6 else q.stretch - 1
  let q := { q with
    edges := q.edges + 1, edgeAt := q.edgeAt + q.cycle, alarm := false, stretch := stretch,
    halved := if q.alarm then 0 else if q.stretch = 1 then 64 else if q.stretch = 0 then q.halved - 1 else q.halved,
    cycle := (if stretch = 0 then 1 else 2) * opPeriod q.clock }
  { q with slots := q.slots.map (fun (i, x) => (i, x.cycle (lanes i) q.issues)) }
/-- No alarm, stretch or halved window is in progress, and no slot has work. -/
def Quad.calm (q : Quad) : Bool := !q.alarm && q.stretch == 0 && q.halved == 0 && q.slots.all (fun (_, x) => x.quiet)
/-- The quad at an instant: its edges one by one while something is in progress, and then all at once. -/
def Quad.run (lanes : Nat → Nat) : Nat → Quad → Nat → Quad
  | 0, q, now =>
    if now < q.edgeAt + q.cycle then q
    else
      let p := opPeriod q.clock
      let n := (now - (q.edgeAt + q.cycle)) / p
      { q with edges := q.edges + 1 + n, edgeAt := q.edgeAt + q.cycle + n * p, cycle := p }
  | n + 1, q, now =>
    if now < q.edgeAt + q.cycle then q
    else if q.calm then Quad.run lanes 0 q now
    else Quad.run lanes n (q.edge lanes) now
/-- Element groups that the slots have queued at the narrowest width, 4 lanes (R376). -/
def Quad.groups (q : Quad) : Nat :=
  q.slots.foldl (fun n (_, x) => n + x.queue.foldl (fun n l => n + l.foldl (fun n i => n + i.left / 256 + 1) 0) 0) 0
/-- How many edges may fall before all that is in progress is over: those of an alarm, its stretch and its window, and one for each
group, of which a window holds up at most 32. -/
def Quad.horizon (q : Quad) : Nat := 112 + q.groups
def Quad.at (lanes : Nat → Nat) (q : Quad) (now : Nat) : Quad := Quad.run lanes q.horizon q now
/-- Work of a thread is not final: it stands queued or in the A-cycle in progress. -/
def Slot.working (x : Slot) (t : Nat) : Bool := !(vget x.queue t []).isEmpty || x.flight.any (fun f => f.1 == t)
/-- The quad at the first edge from its last one on at which everything that a thread of core i has issued is final (R228, R385). -/
def Quad.dry (lanes : Nat → Nat) (i t : Nat) : Nat → Quad → Quad
  | 0, q => q
  | n + 1, q => if (q.slot i).working t then Quad.dry lanes i t n (q.edge lanes) else q
/-- A thread of core i queues an element-wise instruction of so many bits: its first group issues in the A-cycle in progress if the
slot has issued none in it and may (R385). -/
def Quad.enqueue (lanes : Nat → Nat) (q : Quad) (i t : Nat) (x : Queued) : Quad :=
  let s := q.slot i
  let s := { s with queue := vset s.queue t (vget s.queue t [] ++ [x]) }
  let s := if s.flight.isNone && q.issues then s.issue (lanes i) else s
  { q with slots := SMap.set q.slots i s }
/-- What a thread of core i had queued is gone: it has been stopped (R363). -/
def Quad.unqueue (q : Quad) (i t : Nat) : Quad :=
  if (q.slot i).working t then
    let s := q.slot i
    { q with slots := SMap.set q.slots i { s with queue := vset s.queue t [], flight := s.flight.filter (fun f => f.1 != t) } }
  else q
/-- The oldest instruction of a thread of core i that has not completed in the slot (R380). -/
def Quad.oldest (q : Quad) (i t : Nat) : Option Word :=
  match (q.slot i).flight, vget (q.slot i).queue t [] with
  | some (u, pc), l => if u = t then some pc else l.head?.map (fun x => x.pc)
  | none, l => l.head?.map (fun x => x.pc)

/-- The phase of a quad's A-clock: its last edge before TIME 0. -/
def clockPhase (q : Nat) : Nat := Config.clockPhase q % 130
/-- The present instant on a quad's clock, in 78ths of a nanosecond. -/
def State.ticks (s : State) (q : Nat) : Nat := 78 * s.time + clockPhase q
/-- ALC of a core: the smaller of the quad's limit and the count the management core chose (R376). -/
def State.alc (s : State) (c : Nat) : Nat :=
  let lim := match (s.quad (quadOf c)).alclim.toNat with
    | 1 => 16 | 2 => 8 | 3 => 4 | _ => 32
  min lim (s.core c).alcWanted
/-- That of each core of a quad. -/
def State.lanes (s : State) (q i : Nat) : Nat := s.alc (4 * q + i)
/-- A quad as it stands now; in Winter its clock stands still (R383). -/
def State.quadNow (s : State) (q : Nat) : Quad := if s.winter then s.quad q else (s.quad q).at (s.lanes q) (s.ticks q)
/-- The quad brought up to now, before what decides how its slots issue changes (R376). -/
def State.bringQuad (s : State) (q : Nat) : State := if s.winter then s else s.setQuad q (s.quadNow q)
/-- CYC of a quad (R28). -/
def State.cyc (s : State) (q : Nat) : Word := BitVec.ofNat 64 (s.quadNow q).edges
/-- The next edge of a quad's A-clock, or the one that falls now: the quad at it, and the instant. -/
def State.nextEdge (s : State) (q : Nat) : Quad × Nat :=
  let x := s.quadNow q
  if x.edgeAt = s.ticks q then (x, x.edgeAt) else (x.edge (s.lanes q), x.edgeAt + x.cycle)
/-- A hardware thread's work in its slot is not final. -/
def State.working (s : State) (t : Hart) : Bool := ((s.quadNow (quadOf t.core)).slot (t.core % 4)).working t.thread
/-- The edge at which it all is: the quad at it, and the instant; none when it is final by now. -/
def State.dryEdge (s : State) (t : Hart) : Option (Quad × Nat) :=
  let q := quadOf t.core
  let x := s.quadNow q
  if (x.slot (t.core % 4)).working t.thread then
    let y := Quad.dry (s.lanes q) (t.core % 4) t.thread x.horizon x
    some (y, y.edgeAt)
  else none

/-- TIME at an instant of a quad's clock, rounded down as TIME counts, and the first TIME not before it. -/
def timeAt (q instant : Nat) : Nat := (instant - clockPhase q) / 78
def timeFrom (q instant : Nat) : Nat := (instant - clockPhase q + 77) / 78
/-- The latest TIME at which the threads that execute nothing but element-wise vector instructions since their `tstamp.wait` must
have executed the next: the edge at which their work would be final lies at it or after (R385). -/
def State.timeCap (s : State) : Option Nat :=
  (s.cores.flatMap (fun (c, x) => (List.range 4).filterMap (fun i =>
    if (vget x.threads i Thread.zero).burst then
      some (match s.dryEdge { core := c, thread := i } with
        | some (_, e) => timeAt (quadOf c) e
        | none => s.time)
    else none))).min?
/-- TIME moves on to an instant, but not past that one. -/
def State.passTo (s : State) (time : Nat) : State :=
  { s with time := max s.time (match s.timeCap with | some t => min t time | none => time) }

/-- A fresh index for a free value; each use advances the counter. -/
def State.draw (s : State) : Nat × State := (s.fresh, { s with fresh := s.fresh + 1 })

-- Jobs and contexts ----------------------------------------------------------------------------------------------------

def State.job (s : State) (h : Nat) : Option Job := s.jobs.find? (fun j => j.handle == h)
/-- Replace the job of the same handle. -/
def State.setJob (s : State) (x : Job) : State :=
  { s with jobs := s.jobs.map (fun j => if j.handle == x.handle then x else j) }
def State.context (s : State) (asid : Nat) : Option Context := SMap.find s.contexts asid
def State.setContext (s : State) (asid : Nat) (x : Context) : State :=
  { s with contexts := SMap.set s.contexts asid x }

/-- A field of CTRL (Table 3.2). -/
def Card.ctrlBits (c : Card) (hi lo : Nat) : Nat := bitsOf c.ctrl.toNat hi lo
def Card.scope (c : Card) : Nat := c.ctrlBits 2 0
def Card.indirect (c : Card) : Bool := bitOf c.ctrl.toNat 3
def Card.eqx (c : Card) : Bool := bitOf c.ctrl.toNat 4
def Card.fuse (c : Card) : Bool := bitOf c.ctrl.toNat 5
def Card.gang (c : Card) : Bool := bitOf c.ctrl.toNat 6
def Card.vlreq (c : Card) : Nat := c.ctrlBits 8 7
def Card.scrb (c : Card) : Nat := c.ctrlBits 13 9
/-- T = TCNT + 1 (R36). -/
def Card.threads (c : Card) : Nat := c.ctrlBits 15 14 + 1
def Card.prio (c : Card) : Nat := c.ctrlBits 21 16
def Card.asid (c : Card) : Nat := c.ctrlBits 37 22
def Card.nfp (c : Card) : Nat := c.ctrlBits 42 38
def Card.cmbop (c : Card) : Nat := c.ctrlBits 45 43
def Card.cmbty (c : Card) : Nat := c.ctrlBits 49 46
/-- C (Table 3.1). -/
def Card.ncores (c : Card) : Nat := c.nlog.toNat % 2 ^ 24
/-- H = floor(4 / T) (R36). -/
def Card.resident (c : Card) : Nat := 4 / c.threads

/-- Charge energy, in 78ths of a picojoule, to a context, or to the housekeeping account for ASID 0 or one not bound (R381). -/
def State.charge (s : State) (asid energy : Nat) : State :=
  match s.context asid with
  | some c => s.setContext asid { c with energy := c.energy + energy }
  | none => { s with energy0 := s.energy0 + energy }
/-- Whole microjoules of an account. -/
def microjoules (energy : Nat) : Word := BitVec.ofNat 64 (energy / 78000000)

/-- Charge a free amount (R368). -/
def State.chargeFree (s : State) (asid : Nat) : State :=
  let (n, s) := s.draw
  s.charge asid (Config.energy n)

/-- Change one logical core of a job. -/
def Job.lcore (j : Job) (c : Nat) : LCore := SMap.get j.lcores LCore.zero c
def Job.setLcore (j : Job) (c : Nat) (x : LCore) : Job := { j with lcores := SMap.set j.lcores c x }

/-- A thread whose logical core has ended: it runs nothing, and its registers stand till the next start (R39). -/
def Thread.vacate (t : Thread) : Thread := { Thread.zero with regs := t.regs }
/-- Free the threads of a core that run one job. -/
def Core.dropJob (c : Core) (h : Nat) : Core :=
  { c with threads := c.threads.map (fun t =>
      match t.owner with
      | some o => if o.job == h then t.vacate else t
      | none => t) }

/-- Offset of the vector area in a save slot (Table 26.8). -/
def slotVector : Nat := 36864
/-- Physical address of a save slot (R362). -/
def Context.slotPa (cx : Context) (n : Nat) : Nat := cx.spool + n * 2 ^ 20
/-- The lowest die that a context is bound on. -/
def Context.firstDie (c : Context) : Nat := ((List.range 4).find? (fun d => c.dies.getLsbD d)).getD 0
/-- Clear the VALID byte of a save slot whose logical core has ended (R362). -/
def State.clearSlot (s : State) (cx : Context) (n : Nat) : State :=
  s.deviceStore (unitOn cx.firstDie) (cx.slotPa n + slotVector + 4) [0]

/-- FREE of a buffer (Table 9.8). -/
def CBuf.free (b : CBuf) : Nat := b.nslot - b.filled.length - b.transit.length
/-- A claimed slot returns to FREE (R328). -/
def CBuf.giveBack (b : CBuf) (slot : Nat) : CBuf := { b with transit := b.transit.erase slot, fillPos := slot }
def Core.setCbuf (c : Core) (n : Nat) (b : CBuf) : Core := { c with cbufs := vset c.cbufs n b }
def Core.cbuf (c : Core) (n : Nat) : CBuf := vget c.cbufs n CBuf.zero

/-- Buffer number of a transfer: MODE.CBN (Table 24.4). -/
def Transfer.cbn (t : Transfer) : Nat := bitsOf (vget t.shadow 6 0).toNat 7 4
/-- Give back the slots a transfer has claimed. -/
def State.giveBackAll (s : State) (t : Transfer) : State :=
  t.claims.foldl (fun s (c, slot) => s.setCore c ((s.core c).setCbuf t.cbn (((s.core c).cbuf t.cbn).giveBack slot))) s
/-- Discard the transfers of a job that has ended (R43): they count as complete, and their slots return to FREE. -/
def State.dropTransfers (s : State) (h : Nat) : State :=
  let mine := s.quads.flatMap (fun (_, q) => q.channels.toList.flatMap (fun c => c.queue.filter (fun t => t.owner.job == h)))
  let s := mine.foldl State.giveBackAll s
  { s with quads := s.quads.map (fun (k, q) => (k, { q with channels := q.channels.map (fun c =>
      { c with queue := c.queue.filter (fun t => t.owner.job != h) }) })) }

/-- The L1s of a quad are one while a job that sets the fusion flag holds a core of it, also when it holds only some of the four,
of which R21 does not speak (log entry 31); the four cores then share the
latest of their logical clocks, and each keeps it when they part (R123). -/
def State.fuseQuad (s : State) (q : Nat) : State :=
  let fuse := s.jobs.any (fun j => j.card.fuse && j.cores.any (fun c => quadOf c == q))
  let cores := (List.range 4).map (fun i => 4 * q + i)
  let pt := (cores.map (fun c => (s.core c).pt)).foldl max 0
  if cores.all (fun c => (s.core c).fuse == fuse) then s
  else cores.foldl (fun s c => s.setCore c { s.core c with fuse := fuse, pt := if fuse then pt else (s.core (4 * q)).pt, ptTicks := (s.core (4 * q)).ptTicks }) s
/-- Cores leave a job's grant. -/
def State.dropCores (s : State) (h : Nat) (l : List Nat) : State :=
  match s.job h with
  | none => s
  | some j =>
    (l.map quadOf).eraseDups.foldl State.fuseQuad (s.setJob { j with cores := j.cores.filter (fun c => !l.contains c) })

/-- A job ends with status 1 (R43): its threads stop, its transfers are discarded, no further strip is handed out, its save
slots are given back, and its completion record falls due. -/
def State.endJob (s : State) (h : Nat) : State :=
  match s.job h with
  | none => s
  | some j =>
    let s := s.dropTransfers h
    let s := j.cores.foldl (fun s c => s.setCore c ((s.core c).dropJob h)) s
    let s := s.setJob { j with ended1 := true, cores := [], readySince := none, waitSince := none, heldSince := none,
                               lcores := j.lcores.map (fun (c, l) => (c, { l with st := .ended, slot := none, threads := [], kept := none })),
                               st := .completing }
    let s := (j.cores.map quadOf).eraseDups.foldl State.fuseQuad s
    match s.context j.card.asid with
    | none => s
    | some cx =>
      let mine := cx.slots.filter (fun (_, l) => l.job == h)
      let s := mine.foldl (fun s (n, _) => s.clearSlot cx n) s
      s.setContext j.card.asid { cx with slots := cx.slots.filter (fun (_, l) => l.job != h) }

-- Exceptions -----------------------------------------------------------------------------------------------------------

/-- A cause with its value, its resumption point and its kind (Table 26.4). -/
structure Trap where
  code : Nat
  val : Word
  point : Word
  asy : Bool
  blk : Bool
  fid : Nat
  deriving DecidableEq, Repr

/-- A synchronous trap of the instruction at `point`. -/
def Trap.sync (code : Nat) (val point : Word) : Trap :=
  { code := code, val := val, point := point, asy := false, blk := false, fid := 0 }

/-- Where a handler of a code begins: TVEC.BASE × 64, plus 64 × code when TVEC.VM = 1 (R361). -/
def ThreadRegs.handler (r : ThreadRegs) (code : Nat) : Word :=
  (r.tvecBase.setWidth 64 <<< 6) + (if r.tvecVm then BitVec.ofNat 64 (64 * code) else 0)

/-- The registers after trap entry (R361). -/
def ThreadRegs.enter (r : ThreadRegs) (t : Trap) : ThreadRegs :=
  { r with tcause := BitVec.ofNat 8 t.code, tval := t.val, tpc := t.point, pprv := r.priv, asy := t.asy, blk := t.blk,
           fid := BitVec.ofNat 16 t.fid, te := false, priv := true, pc := r.handler t.code }

/-- What a trap, a pre-emption or a Winter passage does to the reservations: they stand, lost (R235, R223). -/
def Reservation.lose (r : Reservation) : Reservation := { r with lost := true }
def Side.loseReservations (x : Side) : Side :=
  { x with resv := x.resv.map Reservation.lose, vresv := x.vresv.map (fun (k, r) => (k, r.lose)) }
/-- A done set waits for the `eret` that goes back to its word (R367). -/
def Side.disarm (x : Side) : Side := { x with done := x.done.map (fun d => { d with armed := false }) }
/-- That `eret`, to an address. -/
def Side.arm (x : Side) (pc : Word) : Side := { x with done := x.done.map (fun d => { d with armed := d.pc == pc }) }

/-- Trap entry (R361): a trap at supervisor privilege with TE = 0 is a double trap, which stops the thread and ends its
job with status 1; any other saves cause, value, point and status and enters the handler. The thread's reservations
are lost (R235). -/
def State.enterTrap (s : State) (t : Trap) : State :=
  if s.regs.priv && !s.regs.te then
    let s := { s with failures := s.failures + 1 }
    match s.thr.owner with
    | some o => s.endJob o.job
    | none => s.setThr { s.thr with ended := true }
  else
    (s.setSide s.side.loseReservations.disarm).setRegs (s.regs.enter t)

/-- Return from a trap to `TPC` (R222): the privilege TSTATE.PPRIV records, and TE set. -/
def ThreadRegs.leave (r : ThreadRegs) : ThreadRegs := { r with priv := r.pprv, te := true, pc := r.tpc }

end Sys2Proof.Machine
end

