-- ==== Sys2Proof/Machine/Mem.lean ====
section
/-!
DEFINITION. Memory accesses: the address map (R99), scalar translation (R100-R102), the vector window (R103-R106), framed
regions and the frame pool (R112-R114), keys (R116), poison (R117) and local scratch (R118). A changed translation entry takes
effect at once: one of the outcomes the ordering rules allow (log entry 6).
-/
namespace Sys2Proof.Machine
open Sys2Proof

-- What a thread sees and issues ------------------------------------------------------------------------------------------

/-- Memory as the current thread sees it: with its own held effects on top, in program order (R312). -/
def State.view (s : State) : MemSys := s.msys.applyHeld s.thr.held

/-- An effect counts among the 16 instructions a speculative thread may hold. -/
def Effect.holds : Effect → Bool
  | .store _ _ _ | .nibble _ _ _ _ | .add1 _ _ | .advance _ _ _ | .tile _ _ _ _ _ _ _ _ => true
  | .resync _ => true
  | .read _ _ | .rowIssued _ _ | .clearCount _ | .accRow _ _ _ => false

/-- A line read at its home. -/
def Effect.isRead : Effect → Bool
  | .read _ _ => true
  | _ => false
/-- Issue the effects of one instruction of an ordering. While the thread runs speculatively its reads are performed, which are
ordinary reads, and the rest is held (R312); else all are performed in order. -/
def State.issueAs (s : State) (o : Ord) (es : List Effect) : State :=
  match s.thr.specFile with
  | some _ =>
    let s := s.performAll s.cur.core (es.filter Effect.isRead)
    let es := es.filter (fun e => !e.isRead)
    if es.isEmpty then s
    else s.setThr { s.thr with held := s.thr.held ++ [{ counts := es.any Effect.holds, unit := none, es := es, ord := o }] }
  | none => s.performAll s.cur.core es
/-- The same for an instruction that names no ordering. -/
def State.issue (s : State) (es : List Effect) : State := s.issueAs .plain es
/-- Lines read at their homes, with acquire semantics or without, as effects. -/
def dataReads (p : Nat) (n : Nat) (acq : Bool) : List (Nat × Bool) := (homedLines p n).map (fun ln => (ln, acq))
def readsOf (l : List (Nat × Bool)) : List Effect := l.map (fun x => .read x.1 x.2)

-- Held effects in the way of a read (R128, R141, R142) --------------------------------------------------------------------

/-- Two stretches of memory overlap. -/
def overlap (a b : Nat × Nat) : Bool := decide (a.1 < b.1 + b.2) && decide (b.1 < a.1 + a.2)
/-- What n bytes at an address have of each aligned unit of 8 bytes. -/
def unitParts (pa n : Nat) : List (Nat × Nat) :=
  (List.range ((pa + n + 7) / 8 - pa / 8)).map (fun i =>
    let u := 8 * (pa / 8 + i)
    (max pa u, min (pa + n) (u + 8) - max pa u))
/-- A read of a part of an aligned unit would find the thread's own held effects in it, the latest of which is no plain store of
the whole part. Such a read could give bytes of a write that another agent performs first beside bytes of the held one (R128), or
bytes of a versioned write that its home then rejects (R141, R142). -/
def State.torn (s : State) (x : Nat × Nat) : Bool :=
  let es : List Effect := (s.thr.held.flatMap (fun h => h.es)).filter (fun e => e.span.any (overlap x))
  match es.getLast? with
  | none => false
  | some (Effect.store pa bytes _) => !(decide (pa ≤ x.1) && decide (x.1 + x.2 ≤ pa + bytes.length))
  | some _ => true
/-- Some part of these stretches would. -/
def State.tears (s : State) (l : List (Nat × Nat)) : Bool := l.any (fun x => (unitParts x.1 x.2).any s.torn)

-- Who accesses ---------------------------------------------------------------------------------------------------------

/-- The agent of an access: context, key slot of its scalar accesses, its number (its core, for its scratch and the store of
its die), privilege, and whether it is a copy engine. -/
structure Who where
  asid : Nat
  keyid : Nat
  core : Nat
  user : Bool
  engine : Bool
  deriving DecidableEq, Repr

/-- The current control thread. -/
def State.me (s : State) : Who :=
  { asid := s.thr.asid, keyid := s.thr.keyid, core := s.cur.core, user := !s.regs.priv, engine := false }

inductive AccessKind where
  | load | store | fetch
  deriving DecidableEq, Repr

/-- A checked access: where it goes and under which key. -/
structure Place where
  pa : Nat
  key : BitVec 256
  deriving DecidableEq, Repr

-- Address map (R98, R99, Table 9.1) ------------------------------------------------------------------------------------

/-- Bits [63:56] all equal to bit 55 (R98). -/
def canonical (va : Word) : Bool :=
  let top := va.toNat / 2 ^ 55
  top == 0 || top == 2 ^ 9 - 1
/-- VA[55:0]. -/
def va56 (va : Word) : Nat := va.toNat % 2 ^ 56
/-- The local-scratch window of Table 9.3. -/
def inScratch (va : Word) : Bool := decide (0x007FFFFFFFF00000 ≤ va56 va) && decide (va56 va < 0x0080000000000000)
/-- Physical address of a core's scratch (Table 9.1). -/
def State.scratchPa (s : State) (core off : Nat) : Nat :=
  s.pkg.toNat * 2 ^ 47 + 0x400000000000 + core * 2 ^ 20 + off
/-- Bytes of local scratch a core has (R118). -/
def State.scratchSize (s : State) (core : Nat) : Nat := (s.core core).scrb * 32768

/-- Another package is a member of the pod (R400): feature bit 6 is accepted and its entry says so; the package itself
always is. -/
def State.member (s : State) (p : Nat) : Bool :=
  p == s.pkg.toNat || (s.accepted.getLsbD 6 && (SMap.get s.pod 0 p).getLsbD 0)

/-- The package that holds a sub-block now is a member, where its record has TIER 2 (R400). -/
def State.holderIn (s : State) (pa : Nat) : Bool :=
  match s.subBlock pa with
  | some n => (s.msys.record n).tier != 2 || s.member (s.msys.record n).rpkg.toNat
  | none => true
/-- A physical address an agent may reach: managed memory that no package outside the pod holds, residence records for loads, and
for a copy engine the scratch that a core has (Table 9.1, R118). DESIGN CHOICE: an instruction fetch reaches no residence record,
nor does a store, since R107 has records mapped to be read (log entry 36). -/
def State.reachable (s : State) (w : Who) (pa : Nat) (kind : AccessKind) : Bool :=
  let l := pa % 2 ^ 47
  s.member (pa / 2 ^ 47) && s.holderIn pa
    && (decide (l < 2 ^ 42) || (kind == .load && decide (0x080000000000 ≤ l) && decide (l < 0x080040000000))
      || (w.engine && scratchRange pa
        && (pa / 2 ^ 47 != s.pkg.toNat || decide (pa % 2 ^ 20 < s.scratchSize (scratchCore pa)))))

/-- A residence record's 16 bytes (Table 9.6). -/
def Residence.bytes (r : Residence) : List Byte :=
  toBytes 16 (packFields [(r.tier.toNat, 0), (r.die.toNat, 2), (r.rtier.toNat, 4), (r.pinned.toNat, 5),
    (r.moving.toNat, 6), (r.dframe.toNat, 8), (r.rpkg.toNat, 33), (r.moves, 46), ((vget r.cnt 0 0).toNat, 64),
    ((vget r.cnt 1 0).toNat, 72), ((vget r.cnt 2 0).toNat, 80), ((vget r.cnt 3 0).toNat, 88), (r.cntr.toNat, 96),
    (r.pinleft.toNat, 104)])

/-- n bytes read at a place: a residence record shows its live fields (R107), every other address its bytes. -/
def State.loadAt (s : State) (m : MemSys) (p : Place) (n : Nat) : List Byte :=
  let l := p.pa % 2 ^ 47
  if 0x080000000000 ≤ l && l < 0x080040000000 && p.pa / 2 ^ 47 = s.pkg.toNat then
    (List.range n).map (fun i =>
      ((m.record ((l + i - 0x080000000000) / 16)).bytes).getD ((l + i) % 16) 0)
  else m.load p.key p.pa n

-- Scalar translation (R100, R101) --------------------------------------------------------------------------------------

/-- An entry that is malformed at a level: reserved bits, LEAF misplaced, W without R, or a misaligned 2 MiB PFN. -/
def pteBad (level e : Nat) : Bool :=
  let leaf := bitOf e 5
  bitsOf e 11 6 != 0 || bitsOf e 63 60 != 0 || (bitOf e 2 && !bitOf e 1)
    || (decide (level < 2) && leaf) || (level == 3 && !leaf) || (level == 2 && leaf && bitsOf e 20 12 != 0)

/-- Walk from a table at `base` through the given levels: the leaf entry and the size of its page in bits, or none; and the
lines of the entries it read. DESIGN CHOICE: an entry in a poisoned line, or in a sub-block without a residence, is read as it
stands and raises nothing, as a frame-table entry and a pool count are, since Table 9.5 checks the access alone (log entry 58). -/
def walkLevels (m : MemSys) (va : Nat) : List (Nat × Nat × Nat) → Nat → Option (Nat × Nat) × List Nat
  | [], _ => (none, [])
  | (level, hi, lo) :: rest, base =>
    let at_ := base + 8 * bitsOf va hi lo
    let e := ofBytes (m.load 0 at_ 8)
    if !bitOf e 0 || pteBad level e then (none, [at_ / 64])
    else if bitOf e 5 then (some (e, lo), [at_ / 64])
    else
      let (r, ls) := walkLevels m va rest (bitsOf e 59 12 * 4096)
      (r, at_ / 64 :: ls)

/-- The four levels: number, highest and lowest VA bit of the index (R100). -/
def scalarLevels : List (Nat × Nat × Nat) := [(0, 55, 39), (1, 38, 30), (2, 29, 21), (3, 20, 12)]

/-- The walk of an agent's scalar table for an address. -/
def State.walk (s : State) (m : MemSys) (w : Who) (va : Word) : Option (Nat × Nat) × List Nat :=
  match s.context w.asid with
  | none => (none, [])
  | some cx => walkLevels m (va56 va) scalarLevels cx.sroot
/-- The physical address a scalar access reaches, or none for the faults of R101. -/
def State.scalarPa (s : State) (m : MemSys) (w : Who) (kind : AccessKind) (va : Word) : Option Nat :=
  match (s.walk m w va).1 with
  | none => none
  | some (e, lo) =>
    let permitted := match kind with
      | .load => bitOf e 1
      | .store => bitOf e 2
      | .fetch => bitOf e 3
    let pa := bitsOf e 59 lo * 2 ^ lo + va56 va % 2 ^ lo
    if permitted && (!w.user || bitOf e 4) && s.reachable w pa kind then some pa else none

/-- The key in a slot a program may use: slot 0 belongs to firmware, and an empty slot fails (R116). -/
def State.keyOf (s : State) (slot : Nat) : Option (BitVec 256) := if slot = 0 then none else SMap.find s.keys slot

-- Frame pool and poison (R112-R114, R117) ------------------------------------------------------------------------------

/-- Key id 0, the firmware's, under which the device keeps count arrays and frame tables (R115). -/
def State.key0 (s : State) : BitVec 256 := (SMap.find s.keys 0).getD 0
/-- Where the frame pool of a context keeps the count of the frame an address lies in, if it lies in one (R113). -/
def Context.countPa (cx : Context) (pa : Nat) : Option Nat :=
  if cx.poolBase != 0 && decide (cx.poolBase ≤ pa) && decide (pa < cx.poolBase + cx.poolCnt * 4096) then
    some (cx.cntBase + 2 * ((pa - cx.poolBase) / 4096))
  else none
/-- An address lies in the count array of a context, or in the frame table of one of its FRAMED window entries. -/
def Context.keeps (cx : Context) (pa : Nat) : Bool :=
  (decide (cx.cntBase ≤ pa) && decide (pa < cx.cntBase + 2 * cx.poolCnt))
    || cx.windows.any (fun w => w.any (fun (_, e) =>
        bitOf e.toNat 0 && bitsOf e.toNat 5 4 == 1 && decide (bitsOf e.toNat 111 64 * 4096 ≤ pa)
          && decide (pa < bitsOf e.toNat 111 64 * 4096 + 524288)))
/-- The key that a line is read and written under, for an agent whose slot holds `key`: key id 0 for count arrays and frame
tables, whoever accesses them (R115, log entry 33); none for scratch, which is not encrypted (R118). -/
def State.keyAt (s : State) (pa : Nat) (key : BitVec 256) : BitVec 256 :=
  if scratchRange pa then 0
  else if s.contexts.any (fun (_, cx) => cx.keeps pa) then s.key0 else key

/-- Check 5 of Table 9.5: a store into a frame whose count exceeds 1. -/
def State.shared (s : State) (m : MemSys) (w : Who) (pa : Nat) : Bool :=
  match (s.context w.asid).bind (fun cx => cx.countPa pa) with
  | some at_ => decide (ofBytes (m.load s.key0 at_ 2) > 1)
  | none => false

/-- A write of n bytes covers the whole of a line. -/
def wholeLine (pa n ln : Nat) : Bool := decide (pa ≤ 64 * ln) && decide (64 * ln + 64 ≤ pa + n)

/-- A sub-block that is not allocated (R107). -/
def State.absent (s : State) (m : MemSys) (pa : Nat) : Bool :=
  match s.subBlock pa with
  | some b => (m.record b).tier == 3
  | none => false
/-- A poisoned line of an access (R117). A store that writes all of a line is performed there. -/
def poisonMet (m : MemSys) (kind : AccessKind) (pa n : Nat) : Bool :=
  (linesOf pa n).any (fun ln => (m.line ln).poison && !(kind == .store && wholeLine pa n ln))
/-- Check 6: poison, and as poison does a sub-block that is not allocated (R107, R117). -/
def State.poisoned (s : State) (m : MemSys) (kind : AccessKind) (pa n : Nat) : Bool :=
  poisonMet m kind pa n || s.absent m pa

/-- Checks 5 and 6 in order, and the key of the place. A `czero` clears poison and leaves out that part of check 6 (R251). -/
def State.lastChecks (s : State) (m : MemSys) (w : Who) (kind : AccessKind) (p : Place) (n : Nat) (clears : Bool) :
    Except Nat Place :=
  if kind == .store && s.shared m w p.pa then .error 8
  else if (!clears && poisonMet m kind p.pa n) || s.absent m p.pa then .error 14
  else .ok { p with key := s.keyAt p.pa p.key }

/-- A scalar access of n bytes aligned to `align`: R98, the translation of R101, which stands in for check 2 (R230), and then checks
1, 3, 5 and 6 (R106); check 4 concerns FRAMED window entries, which no scalar access goes through. The scratch window has no
translation; its range is checked after the alignment. `clears` marks `czero`. -/
def State.scalarAccess (s : State) (m : MemSys) (w : Who) (kind : AccessKind) (va : Word) (n align : Nat)
    (clears : Bool) : Except Nat Place :=
  let bad := if kind == .store then 6 else 5
  if !canonical va then .error bad
  else if kind == .fetch && inScratch va then .error bad
  else if inScratch va then
    if va.toNat % align != 0 then .error 4
    else if s.scratchSize w.core < va56 va % 2 ^ 20 + n then .error bad
    else .ok { pa := s.scratchPa w.core (va56 va % 2 ^ 20), key := 0 }
  else match s.scalarPa m w kind va with
    | none => .error bad
    | some pa =>
      if va.toNat % align != 0 then .error 4
      else match s.keyOf w.keyid with
      | none => .error bad
      | some key => s.lastChecks m w kind { pa := pa, key := key } n clears

-- The vector window (R103-R106) ----------------------------------------------------------------------------------------

def weV (e : BitVec 128) : Bool := e.getLsbD 0
def weR (e : BitVec 128) : Bool := e.getLsbD 1
def weW (e : BitVec 128) : Bool := e.getLsbD 2
def weMode (e : BitVec 128) : Nat := bitsOf e.toNat 5 4
def weKey (e : BitVec 128) : Nat := bitsOf e.toNat 18 6
def weBase (e : BitVec 128) : Nat := bitsOf e.toNat 111 64
/-- An entry with V = 1 that R105 rejects. -/
def weBad (e : BitVec 128) : Bool :=
  let x := e.toNat
  weV e && (bitOf x 3 || bitsOf x 63 19 != 0 || bitsOf x 127 112 != 0 || decide (weMode e ≥ 2) || (weW e && !weR e)
    || (weMode e == 0 && weBase e % 2 ^ 16 != 0) || (weMode e == 1 && weBase e % 2 ^ 7 != 0))

/-- The window entry that the translation store of an agent's die holds for an address (R103, R104). -/
def Context.entryFor (cx : Context) (w : Who) (va : Word) : BitVec 128 :=
  SMap.get (vget cx.windows (agentDie w.core) []) 0 (bitsOf va.toNat 41 28)
/-- Where the frame table holds the entry of a framed address (R112). -/
def frameEntryPa (e : BitVec 128) (va : Word) : Nat := weBase e * 4096 + 8 * bitsOf va.toNat 27 12
/-- The frame of a framed address: present only with P = 1 and zero reserved bits (Table 9.7). -/
def State.framePa (s : State) (m : MemSys) (e : BitVec 128) (va : Word) : Option Nat :=
  let fe := ofBytes (m.load s.key0 (frameEntryPa e va) 8)
  if bitOf fe 0 && bitsOf fe 11 1 == 0 && bitsOf fe 63 60 == 0 then
    some (bitsOf fe 59 12 * 4096 + va.toNat % 4096)
  else none

/-- A vector-port access of n bytes aligned to `align`: R98, then the checks of Table 9.5 in order. -/
def State.vectorAccess (s : State) (m : MemSys) (w : Who) (kind : AccessKind) (va : Word) (n align : Nat) :
    Except Nat Place :=
  if !canonical va then .error 7
  else if va.toNat % align != 0 then .error 4
  else if inScratch va then
    if s.scratchSize w.core < va56 va % 2 ^ 20 + n then .error 7
    else .ok { pa := s.scratchPa w.core (va56 va % 2 ^ 20), key := 0 }
  else if 2 ^ 42 ≤ va56 va then .error 7
  else match s.context w.asid with
    | none => .error 7
    | some cx =>
      let e := cx.entryFor w va
      if !weV e || !(if kind == .store then weW e else weR e) then .error 7
      else if weMode e = 0 then
        let pa := weBase e * 4096 + va.toNat % 2 ^ 28
        if !s.reachable w pa kind then .error 7
        else match s.keyOf (weKey e) with
          | none => .error 7
          | some key => s.lastChecks m w kind { pa := pa, key := key } n false
      else match s.keyOf cx.keyid with
        | none => .error 7
        | some key =>
          match s.framePa m e va with
          | none => .error 9
          | some pa =>
            if !s.reachable w pa kind then .error 7
            else s.lastChecks m w kind { pa := pa, key := key } n false

-- What the checks read at their homes ------------------------------------------------------------------------------------

/-- The lines that the checks of a vector access read: the entry of the frame table, and for a store into a frame pool the
frame's count, with acquire semantics (R112, R114). -/
def State.vectorReads (s : State) (w : Who) (kind : AccessKind) (va : Word) (pa : Nat) : List (Nat × Bool) :=
  match s.context w.asid with
  | none => []
  | some cx =>
    let e := cx.entryFor w va
    (if !inScratch va && weMode e == 1 then [(frameEntryPa e va / 64, false)] else [])
      ++ (match kind, cx.countPa pa with
          | .store, some at_ => [(at_ / 64, true)]
          | _, _ => [])
/-- The lines that a scalar access reads before its own: the entries of its walk and the count of a pool frame, with acquire
semantics (R101, R114). -/
def State.scalarReads (s : State) (m : MemSys) (w : Who) (kind : AccessKind) (va : Word) (pa : Nat) : List (Nat × Bool) :=
  if inScratch va then []
  else ((s.walk m w va).2.map (fun ln => (ln, true)))
    ++ (match kind, (s.context w.asid).bind (fun cx => cx.countPa pa) with
        | .store, some at_ => [(at_ / 64, true)]
        | _, _ => [])
/-- The lines that the checks of a scalar access read before one of them failed: none when its address failed by itself. -/
def State.scalarTried (s : State) (m : MemSys) (w : Who) (kind : AccessKind) (va : Word) (align : Nat) : List (Nat × Bool) :=
  if !canonical va then []
  else match s.scalarPa m w kind va with
    | some pa =>
      if va.toNat % align == 0 && (s.keyOf w.keyid).isSome then s.scalarReads m w kind va pa else s.scalarReads m w .load va pa
    | none => s.scalarReads m w .load va 0
/-- The same of a vector-port access. -/
def State.vectorTried (s : State) (m : MemSys) (w : Who) (kind : AccessKind) (va : Word) (align : Nat) : List (Nat × Bool) :=
  match s.context w.asid with
  | none => []
  | some cx =>
    let e := cx.entryFor w va
    let pa := if weMode e == 1 then (s.framePa m e va).getD 0 else weBase e * 4096 + va.toNat % 2 ^ 28
    if !canonical va || va.toNat % align != 0 || inScratch va || decide (2 ^ 42 ≤ va56 va) || !weV e
        || !(if kind == .store then weW e else weR e) || (s.keyOf (if weMode e = 0 then weKey e else cx.keyid)).isNone then []
    else s.vectorReads w (if s.reachable w pa kind then kind else .load) va pa

/-- Where a vector-port address lies, when its entry and its frame are there. -/
def State.vectorPa (s : State) (m : MemSys) (w : Who) (va : Word) : Option Nat :=
  (s.context w.asid).bind (fun cx =>
    let e := cx.entryFor w va
    if weMode e == 1 then s.framePa m e va else some (weBase e * 4096 + va.toNat % 2 ^ 28))
/-- The line at whose home a vector access failed a check: its own for poison, else the last one that its checks read; none where it
failed by its address or its window entry alone. -/
def State.failedLine (s : State) (m : MemSys) (w : Who) (kind : AccessKind) (va : Word) (align code : Nat) : Option Nat :=
  if code = 14 then (s.vectorPa m w va).map (· / 64) else ((s.vectorTried m w kind va align).map (·.1)).getLast?
/-- The line of the frame-table entry of a vector-port address in a FRAMED page (R112). -/
def State.fetchLine (s : State) (w : Who) (va : Word) : Option Nat :=
  (s.context w.asid).bind (fun cx =>
    let e := cx.entryFor w va
    if weMode e == 1 && !inScratch va then some (frameEntryPa e va / 64) else none)

-- Where a load reads -----------------------------------------------------------------------------------------------------

/-- Where a scalar load of n bytes reads, if its access passes. -/
def State.scalarSpans (s : State) (va : Word) (n : Nat) : List (Nat × Nat) :=
  match s.scalarAccess s.view s.me .load va n n false with
  | .ok p => [(p.pa, n)]
  | .error _ => []
/-- Where a range of n units is accessed on the vector port, as far as its accesses pass. -/
def State.vectorSpans (s : State) (kind : AccessKind) (va : Word) (unit n : Nat) : List (Nat × Nat) :=
  (List.range n).filterMap (fun k =>
    match s.vectorAccess s.view s.me kind (va + BitVec.ofNat 64 (k * unit)) unit unit with
    | .ok p => some (p.pa, unit)
    | .error _ => none)

end Sys2Proof.Machine
end

