-- ==== Sys2Proof/Machine/Transcend.lean ====
section
/-!
DEFINITION. exp2 and log2 (R64): a bracket of the exact value in fixed point, narrow enough to decide the rounding. Both
are irrational unless the exact case applies (exp2 of an integer, log2 of a power of two), so a decided bracket rounds
as the exact value does. A bracket that stays open takes a free value (log entry 12).
-/
namespace Sys2Proof.Machine
open Sys2Proof

/-- Fixed-point precision of the brackets. -/
def fxBits : Nat := 320

/-- Lower bound of 2·Σ 1/((2k+1)·3^(2k+1)) from term k on, at fxBits: the series of ln 2. -/
def ln2Terms : Nat → Nat → Nat → Nat
  | 0, _, _ => 0
  | n + 1, k, pow => 2 ^ (fxBits + 1) / ((2 * k + 1) * pow) + ln2Terms n (k + 1) (9 * pow)

/-- ln 2 below, at fxBits; the upper bound is `ln2Lo + 256`: each of 110 terms loses less than 1 and the tail less. -/
def ln2Lo : Nat := ln2Terms 110 0 3

/-- Σ y^k/k! from the term t of index k on, each step rounded down (`up` false) or up. -/
def expTerms (up : Bool) (y : Nat) : Nat → Nat → Nat → Nat
  | 0, _, _ => if up then 2 else 0
  | n + 1, k, t =>
    let d := 2 ^ fxBits * (k + 1)
    let t' := if up then (t * y + d - 1) / d else t * y / d
    t + expTerms up y n (k + 1) t'

/-- 2^(fm / 2^sh) for 0 < fm < 2^sh, as a magnitude of 131 bits; none when the bracket stays open. -/
def exp2Frac (fm sh : Nat) : Option Mag :=
  let ylo := ln2Lo * fm / 2 ^ sh
  let yhi := (ln2Lo + 256) * fm / 2 ^ sh + 1
  let lo := expTerms false ylo 80 0 (2 ^ fxBits) / 2 ^ 190
  let hi := expTerms true yhi 80 0 (2 ^ fxBits) / 2 ^ 190
  if lo = hi then some { m := lo, e := -130, sticky := true } else none

/-- Bits of log2 of a value in [lo, hi) with 1 ≤ lo and hi ≤ 2 at fxBits: square, and halve when it reaches 2. The
accumulator holds the bits so far; none when a bracket straddles 2. -/
def logBits : Nat → Nat → Nat → Nat → Option Nat
  | 0, _, _, acc => some acc
  | n + 1, lo, hi, acc =>
    let l := lo * lo / 2 ^ fxBits
    let h := hi * hi / 2 ^ fxBits + 1
    if 2 ^ (fxBits + 1) ≤ l then logBits n (l / 2) (h / 2 + 1) (2 * acc + 1)
    else if h ≤ 2 ^ (fxBits + 1) then logBits n l h (2 * acc)
    else none

/-- Number of fraction bits of log2 that are found. -/
def logLen : Nat := 120

/-- The fraction of log2 of m, with bitLen m ≤ fxBits, in units of 2^−logLen. -/
def log2Frac (m : Nat) : Option Nat :=
  let x := m * 2 ^ (fxBits + 1 - bitLen m)
  logBits logLen x (x + 1) 0

/-- 2^a (R64). -/
def exp2Op (f : Fmt) (a : FVal) (mode : RMode) (fz : Bool) (fl : Flags) : FRes :=
  match a with
  | .nan => f.result .nan mode fz fl
  | .inf s => f.result (if s then .fin false 0 0 else .inf false) mode fz fl
  | .fin s m e =>
    if m = 0 then f.result (.fin false 1 0) mode fz fl
    else
      let v : Int := if s then -(m : Int) else (m : Int)
      let sh : Nat := (-e).toNat
      let big := (bitLen m : Int) + e > 20
      let n : Int := if big then (if s then -2000 else 2000) else if e ≥ 0 then v * 2 ^ e.toNat else v / 2 ^ sh
      let fm : Nat := if big || e ≥ 0 then 0 else (v % 2 ^ sh).toNat
      if fm = 0 && !big then f.result (.fin false 1 n) mode fz fl
      else if big then f.ofMag false { m := 2 ^ 130, e := n - 130, sticky := true } mode fz fl
      else match exp2Frac fm sh with
        | some x => f.ofMag false { x with e := x.e + n } mode fz fl
        | none => f.ofMag false { m := 2 ^ 130 + (if Config.transcendental m sh then 1 else 0), e := n - 130, sticky := true }
                    mode fz fl

/-- log2 a (R64). -/
def log2Op (f : Fmt) (a : FVal) (mode : RMode) (fz : Bool) (fl : Flags) : FRes :=
  match a with
  | .nan => f.result .nan mode fz fl
  | .inf s => if s then f.result .nan mode fz (fl ||| flINV) else f.result (.inf false) mode fz fl
  | .fin s m e =>
    if m = 0 then f.result (.inf true) mode fz (fl ||| flDZ)
    else if s then f.result .nan mode fz (fl ||| flINV)
    else
      let k : Int := (bitLen m : Int) - 1 + e
      if m = 2 ^ (bitLen m - 1) then f.result (FVal.ofInt k 0 false) mode fz fl
      else
        let fr := match log2Frac m with
          | some x => x
          | none => if Config.transcendental m 0 then 1 else 0
        let neg := decide (k < 0)
        let mag : Nat := if neg then (-k).toNat * 2 ^ logLen - fr - 1 else k.toNat * 2 ^ logLen + fr
        f.ofMag neg { m := mag, e := -(logLen : Int), sticky := true } mode fz fl

/-- One floating operation (R64, R215, R268) on operand values already read under FRM.FZ, with the flags that reading
raised. The third operand is D of the fused forms. -/
def floatOp (f : Fmt) (op : FOp) (a b c : FVal) (mode : RMode) (fz : Bool) (fl : Flags) : FRes :=
  match op with
  | .add => let (v, g) := sumExact mode.isRdn [a, b]; f.result v mode fz (fl ||| g)
  | .sub => let (v, g) := sumExact mode.isRdn [a, b.neg]; f.result v mode fz (fl ||| g)
  | .mul => let (v, g) := mulExact a b; f.result v mode fz (fl ||| g)
  | .fma => fmaOp f a b c mode fz fl
  | .fms => fmaOp f a b c.neg mode fz fl
  | .fnma => fmaOp f a.neg b c mode fz fl
  | .div => divOp f a b mode fz fl
  | .sqrt => sqrtOp f a mode fz fl
  | .rcp => divOp f (.fin false 1 0) a mode fz fl
  | .rsqrt => rsqrtOp f a mode fz fl
  | .exp2 => exp2Op f a mode fz fl
  | .log2 => log2Op f a mode fz fl
  | .min => f.result (minMax false a b) mode fz fl
  | .max => f.result (minMax true a b) mode fz fl
  | .abs => f.result a.abs mode fz fl
  | .neg => f.result a.neg mode fz fl

end Sys2Proof.Machine
end

