-- ==== Sys2Proof/Machine/Spec.lean ====
section
/-!
DEFINITION. How a meaning ends: completion, a trap, a wait. A trap of a thread that runs speculatively first confirms its
probes (R360), so the resolution of Autumn probes (R308), their confirmation and their squash (R312) stand here.
-/
namespace Sys2Proof.Machine
open Sys2Proof

/-- Act as a thread and come back. -/
def State.asHart (s : State) (t : Hart) (f : State → State) : State :=
  let s' := f { s with cur := t }
  { s' with cur := s.cur }

-- Checked ranges on the vector port ------------------------------------------------------------------------------------

/-- The first unit of a range that fails a check of Table 9.5 as a vector access: its trap code and its address. Units of
8 bytes, or of the whole range when it is shorter. -/
def State.vecRange (s : State) (m : MemSys) (w : Who) (kind : AccessKind) (va : Word) (unit : Nat) :
    Nat → Option (Nat × Word)
  | 0 => none
  | n + 1 =>
    match s.vectorAccess m w kind va unit unit with
    | .error c => some (c, va)
    | .ok _ => State.vecRange s m w kind (va + BitVec.ofNat 64 unit) unit n

/-- Bytes of a range read unit by unit; a unit that fails its checks reads as zeros, and is never asked for after
`vecRange` has passed. -/
def State.vecBytes (s : State) (m : MemSys) (w : Who) (va : Word) (unit : Nat) : Nat → List Byte
  | 0 => []
  | n + 1 =>
    (match s.vectorAccess m w .load va unit unit with
     | .error _ => List.replicate unit 0
     | .ok p => s.loadAt m p unit) ++ State.vecBytes s m w (va + BitVec.ofNat 64 unit) unit n

/-- Store effects of a range unit by unit, each at its own place; units that fail are left out. -/
def State.vecStores (s : State) (m : MemSys) (w : Who) (va : Word) (unit : Nat) (bytes : List Byte) : Nat → List Effect
  | 0 => []
  | n + 1 =>
    (match s.vectorAccess m w .store va unit unit with
     | .error _ => []
     | .ok p => [.store p.pa (bytes.take unit) p.key])
      ++ State.vecStores s m w (va + BitVec.ofNat 64 unit) unit (bytes.drop unit) n

/-- The lines that an access of a range reads at their homes, unit by unit: those of its checks, and for a load its own. -/
def State.vecReads (s : State) (m : MemSys) (w : Who) (kind : AccessKind) (acq : Bool) (va : Word) (unit : Nat) :
    Nat → List (Nat × Bool)
  | 0 => []
  | n + 1 =>
    (match s.vectorAccess m w kind va unit unit with
     | .error _ => []
     | .ok p => s.vectorReads w kind va p.pa
         ++ (if kind == .load then dataReads p.pa unit acq else []))
      ++ State.vecReads s m w kind acq (va + BitVec.ofNat 64 unit) unit n
/-- The same as effects, each line once. DESIGN CHOICE: an instruction's reads of one line count as one access of R108, and each of
its stores as one of its own, where the spec does not say how often they count (log entry 57). -/
def State.rangeReads (s : State) (m : MemSys) (kind : AccessKind) (acq : Bool) (va : Word) (unit n : Nat) : List Effect :=
  readsOf (s.vecReads m s.me kind acq va unit n).eraseDups

/-- A range stored unit by unit, after the lines its checks read. -/
def State.rangeStores (s : State) (m : MemSys) (va : Word) (unit : Nat) (bytes : List Byte) : List Effect :=
  let n := bytes.length / unit
  s.rangeReads m .store false va unit n ++ s.vecStores m s.me va unit bytes n

-- The metric (R308) ----------------------------------------------------------------------------------------------------

/-- A non-negative exact fraction n/d · 2^e. -/
structure Frac where
  n : Nat
  d : Nat
  e : Int
  deriving DecidableEq, Repr

/-- The larger of two fractions. -/
def Frac.max (a b : Frac) : Frac :=
  if a.n = 0 then b else if b.n = 0 then a
  else
    let q := min a.e b.e
    if a.n * b.d * 2 ^ (a.e - q).toNat < b.n * a.d * 2 ^ (b.e - q).toNat then b else a

/-- |x − y| as the metric takes it: 0 for equal infinities, none for +∞. -/
def absDiff (x y : FVal) : Option Frac :=
  match x, y with
  | .inf s, .inf t => if s == t then some { n := 0, d := 1, e := 0 } else none
  | .inf _, _ => none
  | _, .inf _ => none
  | x, y =>
    match (sumExact false [x, y.neg]).1 with
    | .fin _ m e => some { n := m, d := 1, e := e }
    | _ => none

/-- One term of the metric: max-abs, max-relative or mean-abs (R308); none for +∞. -/
def metricTerm (met : Nat) (x y : FVal) : Option Frac :=
  if met = 1 then
    match y with
    | .fin _ m e =>
      if m = 0 then (if x.isZero then some { n := 0, d := 1, e := 0 } else none)
      else (absDiff x y).map (fun f => { n := f.n, d := m, e := f.e - e })
    | .inf _ => if x == y then some { n := 0, d := 1, e := 0 } else none
    | .nan => none
  else absDiff x y

/-- The metric of an input against an anchor, rounded once to binary32 in `.rne` (R308). -/
def metricOf (met : Nat) (xs ys : List FVal) : BitVec 32 :=
  if xs.any FVal.isNan || ys.any FVal.isNan then BitVec.ofNat 32 fmtF.nan
  else
    let terms := (xs.zip ys).map (fun (x, y) => metricTerm met x y)
    if terms.any Option.isNone then BitVec.ofNat 32 (fmtF.inf false)
    else
      let fs := terms.filterMap id
      let total : Frac :=
        if met = 2 then
          let v := (sumExact false (fs.map (fun f => .fin false f.n f.e))).1
          { n := v.mag.1, d := xs.length, e := v.mag.2 }
        else fs.foldl Frac.max { n := 0, d := 1, e := 0 }
      if total.n = 0 then 0
      else BitVec.ofNat 32 (fmtF.roundMag false (divMag total.n total.e total.d 0) .rne false false).bits

-- Probes ---------------------------------------------------------------------------------------------------------------

/-- Elements of a list of bytes as exact values of a floating type. -/
def floatsOf (t : Ty) (bytes : List Byte) (len : Nat) : List FVal :=
  let z := t.width / 8
  (List.range len).map (fun i => (fmtOf t).decode (natAt bytes (i * z) z))

/-- Bytes of an Autumn input, and of one part of a slot: L of R305 is rounded up to 64. -/
def acBytes (t : Ty) (len : Nat) : Nat := len * (t.width / 8)
def acPad (t : Ty) (len : Nat) : Nat := roundUp (acBytes t len) 64

/-- Memory as the unit sees it for a probe: with the effects that the thread held before it (R308, R312). -/
def State.probeView (s : State) (p : Probe) : MemSys := s.msys.applyHeld (s.thr.held.take p.heldAt)
/-- The Autumn unit of a slot: on the home die of its header line (R311). -/
def State.unitOf (s : State) (slot : Word) : Nat :=
  match s.vectorAccess s.msys s.me .load slot 8 8 with
  | .ok p => unitOn (s.homeDieOf p.pa)
  | .error _ => unitOn 0

/-- What the match checks say of a probe, from its slot's header and anchor (Table 22.9). -/
def State.matchProbe (s : State) (p : Probe) : ProbeResult :=
  let w := s.me
  let m := s.probeView p
  let h := s.vecBytes m w p.slotVa 8 8
  let valid := (h.getD 14 0).toNat
  let absent := valid != 1 || natAt h 0 8 != p.key.toNat || (h.getD 15 0).toNat != p.ty.code || natAt h 16 4 != p.len
    || natAt h 20 44 != 0
  if absent then { hit := false, reason := 1, metric := 0 }
  else if BitVec.ofNat 32 (natAt h 8 4) != p.step - p.dist.setWidth 32 then { hit := false, reason := 2, metric := 0 }
  else if ¬ natAt h 12 2 < p.maxr.toNat then { hit := false, reason := 4, metric := 0 }
  else
    let anchor := s.vecBytes m w (p.slotVa + 64) 8 (acPad p.ty p.len / 8)
    let x := metricOf p.met.toNat (floatsOf p.ty p.input p.len) (floatsOf p.ty anchor p.len)
    let ok := match FVal.cmp (fmtF.decode x.toNat) (fmtF.decode p.thr.toNat) with
      | some .lt | some .eq => true
      | _ => false
    { hit := ok, reason := if ok then 0 else 3, metric := x }
/-- The lines that the unit reads for it: the header's, and the anchor's when check 4 is reached. -/
def State.matchReads (s : State) (p : Probe) (r : ProbeResult) : List Effect :=
  let m := s.probeView p
  s.rangeReads m .load false p.slotVa 8 8
    ++ (if r.reason == 0 || r.reason == 3 then s.rangeReads m .load false (p.slotVa + 64) 8 (acPad p.ty p.len / 8) else [])

/-- Probe n still runs under an older unconfirmed `.spec` probe (R146). -/
def State.under (s : State) (n : Nat) : Bool := (s.side.probes.take n).any (fun q => q.spec && !q.confirmed)
/-- The change of the entry of probe n on a HIT: STEP := step, RCOUNT + 1, made by the Autumn unit as the entry then stands, where its
header line was when the probe was accepted (R306, R308, R311). It is made at once, or, under an older `.spec` probe, held at the
probe's own place in program order (R146, R312). -/
def State.advanceEntry (s : State) (n : Nat) (p : Probe) : State :=
  let unit := unitOn (s.homeDieOf p.hdrPa)
  let e := Effect.advance (p.hdrPa + 8) p.step p.hdrKey
  if s.under n then
    let held := s.thr.held
    s.setThr { s.thr with
      held := held.take p.heldAt ++ [{ counts := false, unit := some unit, es := [e], ord := .plain }] ++ held.drop p.heldAt,
      side := { s.side with probes := s.side.probes.mapIdx (fun i q => if n < i then { q with heldAt := q.heldAt + 1 } else q) } }
  else s.perform unit e

/-- Count a resolved probe in ACHITS, or in ACMISS and the counter of its reason (R308). -/
def ThreadRegs.countProbe (r : ThreadRegs) (p : ProbeResult) : ThreadRegs :=
  if p.hit then { r with acHits := r.acHits + 1 }
  else
    let k := match p.reason with | 1 => 0 | 2 => 1 | 3 => 2 | _ => 3
    { r with acMiss := r.acMiss + 1, acReason := vset r.acReason k (vget r.acReason k 0 + 1) }

/-- Count a probe in the thread's registers and in every checkpoint taken after it (probes from index n + 1 on). -/
def State.countProbe (s : State) (n : Nat) (p : ProbeResult) : State :=
  let s := s.setRegs (s.regs.countProbe p)
  s.setSide { s.side with probes := s.side.probes.mapIdx (fun i q =>
    if i ≤ n then q else { q with ck := q.ck.map (fun c => { c with regs := c.regs.countProbe p }) }) }

def State.probe? (s : State) (n : Nat) : Option Probe := s.side.probes[n]?
def State.setProbe (s : State) (n : Nat) (p : Probe) : State :=
  s.setSide { s.side with probes := s.side.probes.set n p }

/-- Registers that go back to a checkpoint; RSTART and the fault word, which a copy engine may have written since (R328), and
which no speculative instruction writes, stay. -/
def ThreadRegs.backTo (now old : ThreadRegs) : ThreadRegs := { old with rstart := now.rstart, faultWord := now.faultWord }
/-- The probes that stood when a `.spec` probe issued: an answer that an `acwait` after it had is given again, that of a `.spec` probe
confirmed since then too (R312, R313). -/
def untaken (l : List Probe) : List Probe :=
  let rank := (l.filter (fun p => p.spec)).length
  l.map (fun p => if rank < p.taken then { p with taken := 0 } else p)
/-- The probes after the oldest `.spec` probe, number n, was confirmed: those answered under it alone are done with, and it stays
as an answered plain one while younger `.spec` probes may still discard the `acwait` that had its answer. -/
def settled (l : List Probe) (n count : Nat) : List Probe :=
  let specs := (l.filter (fun p => p.spec)).length
  let l := l.mapIdx (fun i p =>
    if i = n then { p with spec := false, confirmed := false, ck := none, taken := if p.taken = 0 then 0 else specs } else p)
  (l.filter (fun p => p.taken != 1)).map (fun p => { p with heldAt := p.heldAt - count, taken := p.taken - 1 })
/-- A `.spec` probe missed: everything after it is discarded, a wait and outstanding requests included, and the thread restarts
at the miss target as it stood just after the `acprobe` (R312). -/
def State.squash (s : State) (n : Nat) (p : Probe) (c : Checkpoint) (r : ProbeResult) : State :=
  let older := untaken (s.side.probes.take n)
  let stillSpec := older.any (fun q => q.spec)
  let s := s.setThr { s.thr with regs := s.regs.backTo c.regs, specFile := if stillSpec then some c.file else none,
                                 entered := none, waiting := none, stopped := none, held := s.thr.held.take p.heldAt,
                                 acks := c.acks,
                                 side := { s.side with probes := older, resv := c.resv, vresv := c.vresv, linker := c.linker, requests := [],
                                                       arrived := [], rows := [] } }
  let regs := s.regs.countProbe r
  s.setRegs { regs with acSquash := regs.acSquash + 1, pc := p.target }

/-- Resolve probe n if it is not resolved yet (R308): a plain probe changes its entry and is counted at once; a `.spec`
probe that misses is squashed; one that hits waits for its confirmation. -/
def State.resolve (s : State) (n : Nat) : State :=
  match s.probe? n with
  | none => s
  | some p =>
    match p.result with
    | some _ => s
    | none =>
      let r := s.matchProbe p
      let s := s.performAll (unitOn (s.homeDieOf p.hdrPa)) (s.matchReads p r)
      match p.ck with
      | some c => if r.hit then s.setProbe n { p with result := some r } else s.squash n p c r
      | none =>
        let s := if r.hit then s.advanceEntry n p else s
        (s.setProbe n { p with result := some r }).countProbe n r

/-- An accumulator row after what one instruction adds to it: group sums by column, each one W80 step (R303). -/
def AccRow.take (row : AccRow) (clear : Bool) (cols : List (List FVal)) : AccRow :=
  let row : AccRow := if clear then Vector.replicate 128 0 else row
  Vector.ofFn (fun (i : Fin 128) =>
    (cols.getD i.val []).foldl (fun a v => (roundW80 (sumExact false [fmtW80.decode a.toNat, v]).1).1) (vget row i.val 0))
/-- Row r after the held items of a segment. -/
def accReplay (run : List Held) (r : Nat) (row : AccRow) : AccRow :=
  run.foldl (fun row h => h.es.foldl (fun (row : AccRow) e => match e with
    | .accRow q clear cols => if q = r then row.take clear cols else row
    | _ => row) row) row

/-- A segment adds to a row or clears it. -/
def touchesAcc (run : List Held) (r : Nat) : Bool :=
  run.any (fun h => h.es.any (fun e => match e with | .accRow q _ _ => q == r | _ => false))
/-- The registers that a confirmed segment changed, put into the committed files (R312). An accumulator row that another
thread changed meanwhile takes the segment's additions and clearings on top, so that neither is lost (R303). The VDIRTY bits
that the segment set are set (R227). -/
def RegFile.commit (base old new : RegFile) (run : List Held) : RegFile :=
  let pick {α : Type} [DecidableEq α] {n : Nat} (d : α) (b o w : Vector α n) : Vector α n :=
    (List.range n).foldl (fun v i => if vget o i d = vget w i d then v else vset v i (vget w i d)) b
  let zero : AccRow := Vector.replicate 128 0
  { v := pick VReg.zero base.v old.v new.v, k := pick 0 base.k old.k new.k,
    acc := (List.range 8).foldl (fun (v : Vector AccRow 8) r =>
      let b := vget base.acc r zero
      let o := vget old.acc r zero
      let w := vget new.acc r zero
      if o = w && !touchesAcc run r then v else if b = o then vset v r w else vset v r (accReplay run r b)) base.acc,
    b := pick none base.b old.b new.b, dirty := base.dirty ||| new.dirty,
    busy := (base.busy &&& ~~~(old.busy &&& ~~~new.busy)) ||| (new.busy &&& ~~~old.busy) }

/-- The value that the acknowledgement of a versioned tile write leaves in sB (R247). -/
def Ack.word (a : Ack) : Word := if a.done then 0 else BitVec.ofNat 64 (1 + 65536 * a.version.toNat)
/-- A scalar register of saved registers; `s0` stays 0. -/
def ThreadRegs.putS (r : ThreadRegs) (n : BitVec 6) (x : Word) : ThreadRegs :=
  if n = 0 then r else { r with s := vset r.s n.toNat x }
/-- The acknowledgement of a held versioned write arrives: it sets its register, in the checkpoints after it too. -/
def State.acknowledge (s : State) (n : BitVec 6) (a : Ack) : State :=
  let s := s.setThr { s.thr with regs := s.regs.putS n a.word, acks := s.thr.acks.erase n }
  s.setSide { s.side with probes := s.side.probes.map (fun q => { q with ck := q.ck.map (fun c =>
    if c.acks.contains n then { c with regs := c.regs.putS n a.word, acks := c.acks.erase n } else c) }) }
/-- Perform one held effect for its thread or unit. -/
def State.performHeld (s : State) (c : Nat) (e : Effect) : State :=
  match e with
  | .tile _ _ _ _ _ _ _ (some n) =>
    let a := s.msys.ackOf e
    (s.perform c e).acknowledge n a
  | e => s.perform c e

/-- Commit the oldest segment while the oldest `.spec` probe is confirmed (R312): its register copies become the committed
values and its held effects are performed in program order. -/
def State.settle : Nat → State → State
  | 0, s => s
  | fuel + 1, s =>
    match s.side.probes.findIdx? (fun q => q.spec) with
    | none => s
    | some n =>
      match s.probe? n with
      | none => s
      | some p =>
        if !p.confirmed then s
        else
          let next := ((s.side.probes.eraseIdx n).filter (fun q => q.spec)).head?
          let now := s.file
          let old := match p.ck with | some c => c.file | none => now
          let new := match next.bind (fun q => q.ck) with | some c => c.file | none => now
          let count := match next with | some q => q.heldAt | none => s.thr.held.length
          let run := s.thr.held.take count
          let core := s.myCore
          let s := s.setMyCore { core with file := core.file.commit old new run }
          let s := s.setThr { s.thr with
            specFile := if next.isSome then s.thr.specFile else none, held := s.thr.held.drop count,
            side := { s.side with probes := settled s.side.probes n count } }
          let s := run.foldl (fun s h => h.es.foldl (fun s e => s.performHeld (h.unit.getD s.cur.core) e) s) s
          State.settle fuel s

/-- Confirm probe n, already resolved as a hit: its entry changes, it is counted, and what can be committed is (R312). Its answer
is given with that, and again if the instruction that confirmed it is discarded. -/
def State.confirmAt (s : State) (n : Nat) : State :=
  match s.probe? n with
  | none => s
  | some p =>
    match p.result with
    | none => s
    | some r =>
      let s := s.advanceEntry n p
      let specs := (s.side.probes.filter (fun q => q.spec)).length
      let s := (s.setProbe n { p with confirmed := true, taken := specs }).countProbe n r
      State.settle (s.side.probes.length + 1) s

/-- Confirm every unconfirmed `.spec` probe, oldest first, as `acwait` would; true when one of them missed and the thread
now stands at its miss target. -/
def State.confirmFuel : Nat → State → State × Bool
  | 0, s => (s, false)
  | fuel + 1, s =>
    match s.side.probes.findIdx? (fun q => q.spec && !q.confirmed) with
    | none => (s, false)
    | some n =>
      let s' := s.resolve n
      match s'.probe? n with
      | none => (s', true)
      | some _ => State.confirmFuel fuel (s'.confirmAt n)

/-- Confirm the thread's probes before an instruction that needs it (R312). -/
def State.confirm (s : State) : State × Bool := State.confirmFuel (s.side.probes.length + 1) s

/-- The thread runs speculatively. -/
def State.speculative (s : State) : Bool := s.side.probes.any (fun q => q.spec)

-- Endings --------------------------------------------------------------------------------------------------------------

/-- How a meaning ends. `done` carries the state with its PC set, `trap` the state as the trap finds it, `wait` the state
in which the instruction executes again. -/
inductive Done where
  | done (s : State)
  | trap (t : Trap) (s : State)
  | wait (s : State)

/-- Raise a synchronous trap: a speculative thread first confirms its probes, and a squash discards the trap (R360). -/
def State.raise (s : State) (t : Trap) : State :=
  match s.confirm with
  | (s', true) => s'
  | (s', false) => s'.enterTrap t

abbrev Result := Host.Outcome State Fault Refusal

/-- The instruction that the thread has begun and that waits. -/
def State.setEntered (s : State) (x : Option Word) : State := s.setThr { s.thr with entered := x }

/-- The step's outcome: every ending of a meaning is a next state. A `waiti` that waits and a vector instruction or a load
stopped in its midst stand inside their instruction, at no boundary where an asynchronous cause could be taken (R360). -/
def Done.finish (d : Done) : Result :=
  match d with
  | .done s => .next (s.setEntered none)
  | .trap t s => .next ((s.setEntered none).raise t)
  | .wait s => .next (s.setEntered (some s.pc))

/-- A trap of the executing instruction, with TPC at its word. -/
def State.trapHere (s : State) (code : Nat) (val : Word) : Done := .trap (Trap.sync code val s.pc) s
/-- A trap 1 or trap 3 of the executing instruction: TVAL is its word (R182, Table 26.4). -/
def State.illegal (s : State) (i : Instr) (code : Nat) : Done := s.trapHere code (encode i)
/-- Wait at the boundary of the instruction, which then executes again: an asynchronous cause or a pre-emption finds the thread
before it (R360, R363). -/
def State.again (s : State) : Done := .done s
/-- A scalar access of the executing instruction that fails a check: its trap, after the lines that the checks read (R108). -/
def State.failScalar (s : State) (kind : AccessKind) (align code : Nat) (va : Word) : Done :=
  (s.issue (readsOf (s.scalarTried s.view s.me kind va align))).trapHere code va
/-- The same of a vector-port access. -/
def State.failVector (s : State) (kind : AccessKind) (align code : Nat) (va : Word) : Done :=
  if code = 4 then s.trapHere 4 va
  else (s.issue (readsOf (s.vectorTried s.view s.me kind va align))).trapHere code va
/-- Effects that an instruction has beside what ends it, where it stops or traps; one that completes has accounted for them. -/
def Done.besides (d : Done) (es : List Effect) : Done :=
  match d with
  | .done s => .done s
  | .trap t s => .trap t (s.issue es)
  | .wait s => .wait (s.issue es)
/-- Complete and go on at the next word. -/
def State.complete (s : State) : Done := .done s.advance

/-- An instruction that first confirms the thread's probes (R312); a squash discards it. -/
def State.confirming (s : State) (k : State → Done) : Done :=
  match s.confirm with
  | (s', true) => .done s'
  | (s', false) => k s'

/-- Room for one more held instruction: a thread that already holds 16 confirms (R312). -/
def State.holding (s : State) (k : State → Done) : Done :=
  if (s.thr.held.filter (fun h => h.counts)).length < 16 then k s else s.confirming k

/-- `.ar` and `.sc`: release and acquire kinds on a read and on a write alike (Table 11.1). -/
def Ord.both (o : Ord) : Bool := o == .ar || o == .sc
/-- A held item that a later load must not pass: a fence; a write that is an acquire too; any write, for a load that is a release too;
and, for a load that synchronises, a write that does (cases 4 to 7 of R131, R139). -/
def Held.bars (h : Held) (o : Ord) : Bool :=
  h.counts && (h.es.isEmpty || Ord.both h.ord || Ord.both o || (o != .plain && h.ord != .plain))
/-- A load reads memory at once, before what its thread holds is performed. Where it must come after a held item, or would read what
one writes in part (`spans` are the stretches it reads), the thread first confirms its probes (R128, R141-R143, R150, log
entry 42). -/
def State.inOrder (s : State) (o : Ord) (spans : State → List (Nat × Nat)) (k : State → Done) : Done :=
  if s.thr.held.isEmpty then k s
  else if s.thr.held.any (fun h => h.bars o) || s.tears (spans s) then s.confirming k else k s

/-- A member that a user may not execute (trap 3). -/
def State.privileged (s : State) (i : Instr) (k : State → Done) : Done :=
  if s.regs.priv then k s else s.illegal i 3

end Sys2Proof.Machine
end

