-- ==== Sys2Proof/Machine/Flags.lean ====
section
/-!
DEFINITION. The flag and mark computations that every arithmetic meaning shares: the rounding mode in force (R63, R65),
the sticky flags (R66), and the marks of the mask that SATK names (R69).
-/
namespace Sys2Proof.Machine
open Sys2Proof

/-- The mode a code of Table 5.6 names, with the draw of R65 for the stochastic one. -/
def modeOf (code : Nat) (h : Nat) : RMode :=
  match code with
  | 1 => .rtz | 2 => .rdn | 3 => .rup | 4 => .rna | 6 => .sr h | _ => .rne

/-- The mode code in force: Q, or FRM.RM for Q = 5 (R63). -/
def ThreadRegs.modeCode (r : ThreadRegs) (q : Nat) : Nat := if q = 5 then r.frmRm.toNat else q
/-- The rounding mode of element i (R63, R65). -/
def ThreadRegs.mode (r : ThreadRegs) (q i : Nat) : RMode := modeOf (r.modeCode q) (srDraw r.srseed r.strip i)
/-- Rounding is stochastic (R83). -/
def ThreadRegs.stochastic (r : ThreadRegs) (q : Nat) : Bool := r.modeCode q == 6

/-- Set bit i of a mask of VLMAX bits; a mark beyond VLMAX is not recorded (R259). -/
def markBit (vlmax : Nat) (m : BitVec 2048) (i : Nat) : BitVec 2048 :=
  if i < vlmax then m ||| (1#2048 <<< i) else m

/-- Mark elements in the mask SATK names (R69); nothing is written when there is none to mark. -/
def State.markElems (s : State) (l : List Nat) : State :=
  if l.isEmpty then s
  else
    let k := s.regs.satk.toNat
    s.setKreg k (l.foldl (markBit s.vlmax) (s.kreg k))

end Sys2Proof.Machine
end

