-- ==== Sys2Proof/Machine/Operands.lean ====
section
/-!
DEFINITION. Operand forms: integer sources and results (R208, R264), floating sources and results (R215), immediates
(R164, R165, R212), base addresses (R230), the exact integer operations of Tables 17.2 and 20.3, and the elements of a
vector operand in any encoding (R54, R81, R86, R166).
-/
namespace Sys2Proof.Machine
open Sys2Proof

-- Integers -------------------------------------------------------------------------------------------------------------

/-- The low w bits of an integer result extended to a register: signed or unsigned by the type (R208). -/
def extendTo (t : Ty) (x : Nat) : Word := BitVec.ofInt 64 (readInt t x)

/-- The unsigned and the signed reading of the low w bits. -/
def lowU (t : Ty) (x : Nat) : Nat := x % 2 ^ t.width
def lowS (t : Ty) (x : Nat) : Int := sext t.width x

/-- An exact integer operation of a type on two bit patterns. -/
abbrev IntOp := Ty → Nat → Nat → Int

def opAdd : IntOp := fun t a b => readInt t a + readInt t b
def opSub : IntOp := fun t a b => readInt t a - readInt t b
def opMul : IntOp := fun t a b => readInt t a * readInt t b
/-- floor(a × b / 2^w) with the signedness of the type. -/
def opMulh : IntOp := fun t a b => readInt t a * readInt t b / ((2 ^ t.width : Nat) : Int)
/-- a / b truncated towards zero; all ones for b = 0 (R209). -/
def opDiv : IntOp := fun t a b =>
  if readInt t b = 0 then (if t.signed then -1 else ((2 ^ t.width : Nat) : Int) - 1)
  else (readInt t a).tdiv (readInt t b)
/-- a − b × div(a, b); a for b = 0 (R209). -/
def opRem : IntOp := fun t a b => if readInt t b = 0 then readInt t a else (readInt t a).tmod (readInt t b)
def opAnd : IntOp := fun t a b => ((lowU t a &&& lowU t b : Nat) : Int)
def opOr : IntOp := fun t a b => ((lowU t a ||| lowU t b : Nat) : Int)
def opXor : IntOp := fun t a b => ((lowU t a ^^^ lowU t b : Nat) : Int)
/-- The complement of the low w bits. -/
def lowNot (t : Ty) (b : Nat) : Nat := 2 ^ t.width - 1 - lowU t b
def opAndn : IntOp := fun t a b => ((lowU t a &&& lowNot t b : Nat) : Int)
def opOrn : IntOp := fun t a b => ((lowU t a ||| lowNot t b : Nat) : Int)
/-- a × 2^(b mod w), with a read as the type; truncated it is the shift of bits. -/
def opShl : IntOp := fun t a b => readInt t a * ((2 ^ (b % t.width) : Nat) : Int)
def opShr : IntOp := fun t a b => ((lowU t a / 2 ^ (b % t.width) : Nat) : Int)
def opSra : IntOp := fun t a b => lowS t a / ((2 ^ (b % t.width) : Nat) : Int)
def opRot : IntOp := fun t a b =>
  let n := b % t.width
  ((lowU t a * 2 ^ n % 2 ^ t.width + lowU t a / 2 ^ (t.width - n) : Nat) : Int)
def opMin : IntOp := fun t a b => min (readInt t a) (readInt t b)
def opMax : IntOp := fun t a b => max (readInt t a) (readInt t b)

/-- Two-source member of INT3: the exact result, saturated under Q[0] or truncated, extended into D (R208). -/
def State.int3 (s : State) (f : W3) (op : IntOp) : State :=
  let r := intRes f.ty (f.q.getLsbD 0) (op f.ty (s.getS f.a).toNat (s.getS f.b).toNat)
  ((s.setS f.d (extendTo f.ty r.bits)).orFlags r.flags).advance

/-- An INT3 member that writes a truth value or a count, zero-extended whatever the type (R208). -/
def State.int3Count (s : State) (f : W3) (op : Ty → Nat → Nat → Nat) : State :=
  (s.setS f.d (BitVec.ofNat 64 (op f.ty (s.getS f.a).toNat (s.getS f.b).toNat))).advance

/-- sext(IMM32, 32). -/
def wiValue (f : WI) : Word := f.imm.signExtend 64
/-- D := op(A, imm) at 64 bits (R212). -/
def State.intI (s : State) (f : WI) (op : Word → Word → Word) : State :=
  (s.setS f.d (op (s.getS f.a) (wiValue f))).advance

-- Floating point -------------------------------------------------------------------------------------------------------

/-- The low w bits of a register. -/
def State.lowBits (s : State) (t : Ty) (r : BitVec 6) : Nat := (s.getS r).toNat % 2 ^ t.width
/-- A scalar floating operand under FRM.FZ, with the flags of reading it. -/
def State.floatArg (s : State) (t : Ty) (r : BitVec 6) : FVal × Flags := readFloat t s.regs.frmFz (s.lowBits t r)
/-- D := zext(r, w) with the flags of the result (R215). -/
def State.floatOut (s : State) (f : W3) (r : FRes) : State :=
  ((s.setS f.d (BitVec.ofNat 64 r.bits)).orFlags r.flags).advance
/-- The arithmetic members of FLT3 (R215): unary ones have B = `s0`; the third operand is D. -/
def State.float3 (s : State) (f : W3) (op : FOp) (binary fused : Bool) : State :=
  let t := f.ty
  let (x, f1) := s.floatArg t f.a
  let (y, f2) := if binary then s.floatArg t f.b else (.fin false 0 0, 0)
  let (z, f3) := if fused then s.floatArg t f.d else (.fin false 0 0, 0)
  s.floatOut f (floatOp (fmtOf t) op x y z (s.regs.mode f.q.toNat 0) (s.regs.frmFz && fzOf t) (f1 ||| f2 ||| f3))

-- Addresses ------------------------------------------------------------------------------------------------------------

/-- The element size in bytes: 1 for `.q4` (R165). -/
def tySize (t : Ty) : Nat := if t.width < 8 then 1 else t.width / 8
/-- trunc(sA + sext(OFF11, 11) × unit, 64) (R165, R230). -/
def State.base (s : State) (f : WM) (unit : Nat) : Word :=
  s.getS f.a + f.off.signExtend 64 * BitVec.ofNat 64 unit

/-- sext(IMM14, 14). -/
def immS (f : W3) : Word := f.imm.signExtend 64

-- Elements of vector registers -----------------------------------------------------------------------------------------

/-- Bits [w·i + w − 1 : w·i] of the data plane. -/
def VReg.slot (v : VReg) (w i : Nat) : Nat := (v.data >>> (w * i)).toNat % 2 ^ w
/-- Slot i of the index plane. -/
def VReg.idx (v : VReg) (i : Nat) : Nat := (v.index.extractLsb' (16 * i) 16).toNat

/-- The first of p runs whose end exceeds e, from run r on (R81). -/
def VReg.runOf (v : VReg) (e : Nat) : Nat → Nat → Nat
  | 0, r => r
  | n + 1, r => if e < v.idx r then r else VReg.runOf v e n (r + 1)

/-- Σ sext(d(k), 16) for k from i through i + n − 1. -/
def VReg.deltaSum (v : VReg) (i : Nat) : Nat → Int
  | 0 => 0
  | n + 1 => sext 16 (v.idx i) + VReg.deltaSum v (i + 1) n

/-- Element e of a register in its own type of at most 32 bits (R81). -/
def VReg.elem (v : VReg) (e : Nat) : Nat :=
  let w := v.ty.width
  match v.tag with
  | .plain => v.slot w e
  | .run => if e < v.n then v.slot w (v.runOf e v.p 0) else 0
  | .dict => if e < v.n then v.slot w (v.idx e % 256) else 0
  | .delta => if e < v.n then truncI w ((v.slot w 0 : Int) + v.deltaSum 0 (e + 1)) else 0

/-- Differences d(i), d(i + 1), … of a DELTA register summed onto a value: the elements from i on. -/
def VReg.deltaFrom (v : VReg) (w : Nat) (acc : Int) (i : Nat) : Nat → List Nat
  | 0 => []
  | n + 1 =>
    let acc := acc + sext 16 (v.idx i)
    truncI w acc :: VReg.deltaFrom v w acc (i + 1) n

/-- Run values repeated up to their ends, from run r at position e. -/
def VReg.runsFrom (v : VReg) (w : Nat) : Nat → Nat → Nat → List Nat
  | 0, _, _ => []
  | n + 1, r, e => List.replicate (v.idx r - e) (v.slot w r) ++ VReg.runsFrom v w n (r + 1) (max e (v.idx r))

/-- The first n elements of a register in its own type (R81), elements at or beyond N of an encoded one zero. -/
def VReg.elems (v : VReg) (n : Nat) : List Nat :=
  let w := v.ty.width
  let l := match v.tag with
    | .plain => (List.range n).map (v.slot w)
    | .run => v.runsFrom w v.p 0 0
    | .dict => (List.range v.n).map (fun e => v.slot w (v.idx e % 256))
    | .delta => v.deltaFrom w (v.slot w 0) 0 v.n
  l.take n ++ List.replicate (n - l.length) 0

/-- Elements of w bits packed into a plane, element 0 in the low bits. -/
def packElems (w : Nat) (l : List Nat) : Nat := l.foldr (fun x a => x % 2 ^ w + 2 ^ w * a) 0

/-- The data plane of a register's expansion (R86). -/
def VReg.plainData (v : VReg) : BitVec 65536 :=
  match v.tag with
  | .plain => v.data
  | _ => BitVec.ofNat 65536 (packElems v.ty.width (v.elems v.n))

/-- The register expanded in its own type (R86). -/
def VReg.expand (v : VReg) : VReg :=
  match v.tag with
  | .plain => v
  | _ => { v with tag := .plain, p := 0, data := v.plainData, index := 0 }

/-- The register as an operand of type t: its own encoding when the width is the same, else its expansion's bits (R86). -/
def VReg.asTy (v : VReg) (t : Ty) : VReg :=
  if v.ty.width = t.width && !t.wide then { v with ty := t } else { v.expand with ty := t }

/-- The first n elements of vector register r read in type t: a pair for a 64-bit type (R54, R81, R86). -/
def State.velems (s : State) (t : Ty) (r n : Nat) : List Nat :=
  if t.wide then
    let lo := (s.vreg r).plainData
    let hi := (s.vreg (r + 1)).plainData
    (List.range n).map (fun i =>
      (lo >>> (32 * i)).toNat % 2 ^ 32 + (hi >>> (32 * i)).toNat % 2 ^ 32 * 2 ^ 32)
  else ((s.vreg r).asTy t).elems n

/-- Element i of vector register r read in type t. -/
def State.velem (s : State) (t : Ty) (r i : Nat) : Nat :=
  if t.wide then
    (((s.vreg r).plainData >>> (32 * i)).toNat % 2 ^ 32)
      + (((s.vreg (r + 1)).plainData >>> (32 * i)).toNat % 2 ^ 32) * 2 ^ 32
  else ((s.vreg r).asTy t).elem i

/-- The scale words of the first n elements: those of a PLAIN `.q8` or `.q4` register, else 0 (R81). -/
def State.vscales (s : State) (r n : Nat) : List Nat :=
  let v := s.vreg r
  if v.tag == .plain && v.ty.isTile then (List.range n).map (fun i => v.idx i % 2 ^ 12) else List.replicate n 0

/-- cap of a type (R259). -/
def capOf (vlmax : Nat) (t : Ty) : Nat := if t.isTile || t.wide then vlmax else vlmax * 32 / t.width
def State.cap (s : State) (t : Ty) : Nat := capOf s.vlmax t

/-- Element i is active under an execution mask (Table 13.6). -/
def State.active (s : State) (k : Nat) (i : Nat) : Bool := k == 0 || (s.kreg k).getLsbD i

/-- The broadcast value of scalar B in type t (R166). -/
def State.broadcast (s : State) (t : Ty) (r : BitVec 6) : Nat := (s.getS r).toNat % 2 ^ t.width

end Sys2Proof.Machine
end

