-- ==== Sys2Proof/Machine/Strips.lean ====
section
/-!
DEFINITION. Strips and logical cores: which strip a thread takes next (R37, R38), the state a strip and a logical core
begin with (R39, R40), and what follows when a thread, a logical core or a job has no strip left (R36, R41).
-/
namespace Sys2Proof.Machine
open Sys2Proof

/-- first(c) = floor(c·S/C) (R38). -/
def Job.first (j : Job) (c : Nat) : Nat := c * j.strips / j.card.ncores

/-- The next strip for logical core c, and the job after handing it out (R37, R38); a job that ended hands out none
(R43). -/
def Job.take (j : Job) (c : Nat) : Option (Nat × Job) :=
  if j.ended1 then none
  else if j.card.eqx then
    let l := j.lcore c
    let n := max l.next (j.first c)
    if n < j.first (c + 1) then some (n, j.setLcore c { l with next := n + 1 }) else none
  else if j.next < j.strips then some (j.next, { j with next := j.next + 1 }) else none

/-- The registers of a thread when it receives strip n (R39, R40). -/
def ThreadRegs.enterStrip (r : ThreadRegs) (card : Card) (n : Nat) : ThreadRegs :=
  let x := vset (vset (vset r.s 1 card.args) 2 (BitVec.ofNat 64 n)) 3 (card.slen.setWidth 64)
  { r with pc := card.entry, s := x, strip := BitVec.ofNat 32 n, priv := true }

/-- The registers of every thread of a logical core when it starts (R39). -/
def ThreadRegs.start (card : Card) : ThreadRegs := { ThreadRegs.zero with srseed := card.srseed }

/-- VLMAX of a VLREQ code (Table 3.2). -/
def vlOf (code : Nat) : Nat := match code with | 2 => 1024 | 3 => 2048 | _ => 512

/-- The core of a first logical core: its storage split, and its registers zero (R39). VDIRTY, which R39 does not name, is 0 with
them (log entry 58). -/
def Core.fresh (c : Core) (card : Card) : Core :=
  { c with file := RegFile.zero, vlmax := vlOf card.vlreq, scrb := card.scrb }

/-- A thread of a logical core as it starts, with its first strip, or ended when there is none (R39, R41). -/
def startThread (j : Job) (keyid c tid : Nat) : Thread × Job :=
  let t := { Thread.zero with regs := ThreadRegs.start j.card, owner := some { job := j.handle, lcore := c, tid := tid },
                              asid := j.card.asid, keyid := keyid }
  match j.take c with
  | some (n, j) => ({ t with regs := t.regs.enterStrip j.card n }, j)
  | none => ({ t with ended := true }, j)

/-- Start the threads tid, tid + 1, … of logical core c in hardware threads from `base` + tid on: they ask for their first strips
in this order, where R37 leaves it to timing (log entry 58). -/
def startThreads (j : Job) (keyid c base : Nat) : Nat → Nat → Vector Thread 4 → Vector Thread 4 × Job
  | 0, _, v => (v, j)
  | n + 1, tid, v =>
    let (t, j) := startThread j keyid c tid
    startThreads j keyid c base n (tid + 1) (vset v (base + tid) t)

/-- A hardware thread runs some logical core. -/
def Thread.busy (t : Thread) : Bool := t.owner.isSome
/-- No logical core is resident on a core. -/
def Core.free (c : Core) : Bool := c.threads.all (fun t => !t.busy)
/-- Every thread of logical core c of a job on this core has ended. -/
def Core.lcoreOver (c : Core) (h l : Nat) : Bool :=
  c.threads.all (fun t => match t.owner with
    | some o => !(o.job == h && o.lcore == l) || t.ended
    | none => true)

/-- Start logical core c of a job on a core, in hardware threads from `base` on (R39). -/
def State.startLcore (s : State) (h c core base : Nat) : State :=
  match s.job h with
  | none => s
  | some j =>
    let x := s.core core
    let x := if x.free then x.fresh j.card else x
    let keyid := match s.context j.card.asid with | some cx => cx.keyid | none => 0
    let j := { j with started := j.started + 1 }
    let j := j.setLcore c { LCore.zero with st := .resident core base, next := j.first c, base := base }
    let (v, j) := startThreads j keyid c base j.card.threads 0 x.threads
    (s.setCore core { x with threads := v }).setJob j

/-- A logical core has started before. -/
def Job.hasStarted (j : Job) (c : Nat) : Bool :=
  match SMap.find j.lcores c with
  | some l => l.st != .waiting
  | none => false

/-- A logical core that has not started would receive a strip. -/
def Job.hasWork (j : Job) (c : Nat) : Bool :=
  if j.card.eqx then decide (j.first c < j.first (c + 1)) else decide (j.next < j.strips)

/-- The lowest logical core c ≡ g modulo G, from c on, that has not started and has work (R36); one without a strip would
end at its first request. -/
def Job.nextLcore (j : Job) (G : Nat) : Nat → Nat → Option Nat
  | 0, _ => none
  | n + 1, c =>
    if j.card.ncores ≤ c then none
    else if !j.hasStarted c && j.hasWork c then some c
    else if !j.card.eqx && j.strips ≤ j.next then none
    else Job.nextLcore j G n (c + G)

/-- Some logical core waits to start with work left. -/
def Job.wantsStart (j : Job) : Bool :=
  !j.ended1 && j.st == .active && (j.nextLcore 1 j.card.ncores 0).isSome
/-- Some logical core waits to resume. -/
def Job.wantsResume (j : Job) : Bool := j.lcores.any (fun (_, l) => l.st == .saved)
/-- Ready (Table 26.2): a logical core waits to start or to resume. -/
def Job.ready (j : Job) : Bool := j.st == .active && (j.wantsStart || j.wantsResume)

/-- Bring a job's clocks up to date after its cores or logical cores changed (R355, R356). -/
def Job.retime (j : Job) (now : Nat) : Job :=
  let since := fun (b : Bool) (t : Option Nat) => if b then some (t.getD now) else none
  { j with readySince := since j.ready j.readySince, waitSince := since (j.ready && j.cores.isEmpty) j.waitSince,
           heldSince := since (!j.cores.isEmpty) j.heldSince }
def State.retime (s : State) (h : Nat) : State :=
  match s.job h with
  | some j => s.setJob (j.retime s.time)
  | none => s

/-- Winter keeps a core for a stopped logical core, which waits for its replies (R367, R384): nothing else begins there. -/
def State.reserved (s : State) (core : Nat) : Bool :=
  s.jobs.any (fun j => j.lcores.any (fun (_, l) => l.st == .saved && l.kept == some core))
/-- The position of a core in a job's grant. -/
def Job.position (j : Job) (core : Nat) : Option Nat := j.cores.findIdx? (fun c => c == core)
/-- First hardware thread with room for the threads of one more logical core of a job. -/
def Core.room (c : Core) (j : Job) : Option Nat :=
  ((List.range j.card.resident).map (fun i => i * j.card.threads)).find? (fun b =>
    (List.range j.card.threads).all (fun i => !(vget c.threads (b + i) Thread.zero).busy))

/-- Start logical cores on a core of a job's grant while one is left for its position and there is room (R36). Where a grant
that is not a GANG's grows or is pre-empted core by core (R354), R36 does not say which g and G apply: those of the grant
as it stands at each start (log entry 50). -/
def State.fillCore (h core : Nat) : Nat → State → State
  | 0, s => s
  | n + 1, s =>
    match s.job h with
    | none => s
    | some j =>
      match j.position core, (s.core core).room j with
      | some g, some base =>
        if !j.wantsStart || s.reserved core then s
        else match j.nextLcore j.cores.length j.card.ncores g with
          | none => s
          | some c => State.fillCore h core n (s.startLcore h c core base)
      | _, _ => s
/-- Fill every core of a job's grant. -/
def State.fillCores (s : State) (h : Nat) : State :=
  match s.job h with
  | some j => (j.cores.foldl (fun s c => State.fillCore h c 4 s) s).retime h
  | none => s

/-- A logical core whose threads have all ended: its threads and slot are free, and its core starts the next one (R36, R41,
R362). A core with nothing left stays with the grant, which never shrinks, until the job's last strip is complete (R354). -/
def State.lcoreEnd (s : State) (h c core : Nat) : State :=
  match s.job h with
  | none => s
  | some j =>
    let l := j.lcore c
    let x := s.core core
    let x := { x with threads := x.threads.map (fun t => match t.owner with
      | some o => if o.job == h && o.lcore == c then t.vacate else t
      | none => t) }
    let s := s.setCore core x
    let s := s.setJob (j.setLcore c { l with st := .ended, slot := none, threads := [], kept := none })
    let s := match l.slot, s.context j.card.asid with
      | some n, some cx => (s.clearSlot cx n).setContext j.card.asid { cx with slots := SMap.erase cx.slots n }
      | _, _ => s
    if j.st == .completing then (s.dropCores h j.cores).retime h else (State.fillCore h core 4 s).fillCores h

/-- The current thread's strip is complete: count it, and take the next strip or end (R41). What it had stopped in is abandoned. A
job whose last strip is complete goes on to its combine and its record (Table 26.2). -/
def State.endStrip (s : State) : State :=
  let s := s.setSide { s.side.abandon with phend := [] }
  match s.thr.owner with
  | none => s.setThr { s.thr with ended := true }
  | some o =>
    match s.job o.job with
    | none => s.setThr { s.thr with ended := true }
    | some j =>
      let j := { j with finished := j.finished + 1 }
      match j.take o.lcore with
      | some (n, j) => (s.setJob j).setRegs (s.regs.enterStrip j.card n)
      | none =>
        let j := if j.finished = j.strips && !j.ended1 then { j with st := .completing } else j
        let s := s.setJob j
        let s := s.setThr { s.thr with ended := true, side := { s.side with pending := [] } }
        if s.myCore.lcoreOver o.job o.lcore then
          s.lcoreEnd o.job o.lcore s.cur.core
        else s

/-- A copy transfer of an owner is still queued on a quad (R323). -/
def Quad.hasTransfer (q : Quad) (o : Owner) : Bool :=
  q.channels.any (fun c => c.queue.any (fun t => t.owner == o))
/-- The thread has a copy transfer that has not completed. -/
def State.transferring (s : State) : Bool :=
  match s.thr.owner with
  | none => false
  | some o => (s.quad (quadOf s.cur.core)).hasTransfer o
/-- The thread has a probe that has not resolved. -/
def State.probing (s : State) : Bool := s.side.probes.any (fun p => p.result.isNone)

end Sys2Proof.Machine
end

