-- ==== Sys2Proof/Machine/Control.lean ====
section
/-!
DEFINITION. Meanings of BR, JAL, JR (R218-R220) and SYS (R221-R224).
-/
namespace Sys2Proof.Machine
open Sys2Proof

-- Branches and jumps ---------------------------------------------------------------------------------------------------

/-- PC + sext(OFF40, 40) × 8 (Table 13.6). -/
def State.jumpTarget (s : State) (f : WJ) : Word := s.pc + (f.off.signExtend 64 <<< 3)
/-- A branch that is taken when the condition holds (R218). -/
def State.branch (s : State) (f : WJ) (c : Word → Word → Bool) : State :=
  if c (s.getS f.a) (s.getS f.b) then s.setPc (s.jumpTarget f) else s.advance

def execBrEq (f : WJ) (s : State) : Result := .next (s.branch f (fun a b => decide (a = b)))
def execBrNe (f : WJ) (s : State) : Result := .next (s.branch f (fun a b => decide (a ≠ b)))
def execBrLt (f : WJ) (s : State) : Result := .next (s.branch f (fun a b => a.slt b))
def execBrGe (f : WJ) (s : State) : Result := .next (s.branch f (fun a b => !a.slt b))
def execBrLtn (f : WJ) (s : State) : Result := .next (s.branch f (fun a b => a.ult b))
def execBrGen (f : WJ) (s : State) : Result := .next (s.branch f (fun a b => !a.ult b))
/-- A := PC + 8, then the jump (R219). -/
def execJal (f : WJ) (s : State) : Result := .next ((s.setS f.a (s.pc + 8)).setPc (s.jumpTarget f))
/-- target := A + sext(IMM14, 14); a misaligned one is trap 4, and nothing else happens (R220). -/
def execJr (f : W3) (s : State) : Result :=
  let target := s.getS f.a + immS f
  if target.toNat % 8 ≠ 0 then (s.trapHere 4 target).finish
  else .next ((s.setS f.d (s.pc + 8)).setPc target)

-- SYS ------------------------------------------------------------------------------------------------------------------

def execNop (_ : W3) (s : State) : Result := .next s.advance
/-- Trap 12 after completion, or trap 18 at the word for code 16,383 (R221). -/
def execTrap (f : W3) (s : State) : Result :=
  if f.imm.toNat = 16383 then (s.trapHere 18 0).finish
  else (Done.trap (Trap.sync 12 (f.imm.setWidth 64) (s.pc + 8)) s).finish
/-- Return from a trap (R222): trap 3 for a user, trap 4 for a misaligned TPC. -/
def execEret (f : W3) (s : State) : Result :=
  (s.privileged (.eret f) (fun s =>
    if s.regs.tpc.toNat % 8 ≠ 0 then s.trapHere 4 s.regs.tpc
    else .done ((s.setSide (s.side.arm s.regs.tpc)).setRegs s.regs.leave))).finish

/-- A reservation is still held: nothing lost it, and its line has seen no further write (R235). -/
def State.holds (s : State) (r : Reservation) : Bool := !r.lost && (s.view.line (r.pa / 64)).writes == r.writes

/-- End a `waiti` with a result (Table 17.9). -/
def State.endWait (s : State) (d : BitVec 6) (r : Word) : State := ((s.setThr { s.thr with waiting := none }).setS d r).advance

/-- A `waiti` with D register d waits to its deadline (R223): 0 at the deadline, 1 when the reservation is lost; otherwise the
thread waits here. Result 2 is the pre-emption's. -/
def State.waitTo (s : State) (d : BitVec 6) (deadline : Word) : Done :=
  let lost := match s.side.resv with
    | some r => !s.holds r
    | none => false
  if deadline.toNat ≤ s.time then .done (s.endWait d 0)
  else if lost then .done (s.endWait d 1)
  else .wait (s.setThr { s.thr with waiting := some (d, deadline) })
def execWaiti (f : W3) (s : State) : Result := (s.waitTo f.d (s.getS f.a)).finish

/-- `yield` (R224): confirm the probes, wait for transfers and probes, then the next strip or the end. -/
def execYield (_ : W3) (s : State) : Result :=
  (s.confirming (fun s => if s.transferring || s.probing then s.again else .done s.endStrip)).finish

end Sys2Proof.Machine
end

