-- ==== Sys2Proof/Machine/ScalarMem.lean ====
section
/-!
DEFINITION. Meanings of LDS, STS and MEMCTL (R229-R237, R248-R251), and the progress words of R231 that every memory
member may name.
-/
namespace Sys2Proof.Machine
open Sys2Proof

-- Progress words (R231) ------------------------------------------------------------------------------------------------

/-- The check of the progress word at issue, before any element. The lines that it reads count once in an instruction that completes,
with those of the check at its completion, and by themselves in one that stops or traps (R108, log entry 57). -/
def State.progress (s : State) (f : WM) (k : State → Done) : Done :=
  if f.c = 0 then k s
  else match s.scalarAccess s.view s.me .store (s.getS f.c) 8 8 false with
    | .error c => s.failScalar .store 8 c (s.getS f.c)
    | .ok p => (k s).besides (readsOf (s.scalarReads s.view s.me .store (s.getS f.c) p.pa))

/-- The ordering of what an instruction holds: its progress word is raised as a release write at least (R231). -/
def heldOrd (f : WM) : Ord := if f.c != 0 && f.ord == .plain then .rel else f.ord
/-- Complete a memory instruction: its effects are issued, then its progress word rises by 1; a check that fails now
raises its trap with TPC at the next instruction (R231). `pw` is the word's address as it stood at issue. -/
def State.finishMem (s : State) (f : WM) (pw : Word) (es : List Effect) : Done :=
  if f.c = 0 then .done (s.issueAs (heldOrd f) es).advance
  else
    let m := s.view.applyAll es
    match s.scalarAccess m s.me .store pw 8 8 false with
    | .error c => .trap (Trap.sync c pw (s.pc + 8)) (s.issueAs (heldOrd f) (es ++ readsOf (s.scalarTried m s.me .store pw 8))).advance
    | .ok p => .done (s.issueAs (heldOrd f) (es ++ readsOf (s.scalarReads m s.me .store pw p.pa) ++ [.add1 p.pa p.key])).advance

/-- A member that may hold effects: one more needs room among the 16 of R312. -/
def State.memory (s : State) (f : WM) (k : State → Done) : Done := s.holding (fun s => s.progress f k)
/-- A load, which holds an effect only when it names a progress word; `spans` are the stretches of memory it reads. -/
def State.loading (s : State) (f : WM) (spans : State → List (Nat × Nat)) (k : State → Done) : Done :=
  s.inOrder f.ord spans (fun s => if f.c = 0 then k s else s.memory f k)

-- Requests in flight (R366) ----------------------------------------------------------------------------------------------

/-- Put a request out with the answer that its home has for it, and the slice it goes to; fault ids are given in order. -/
def Side.ask (x : Side) (kind reg : Nat) (t : Ty) (elem : Nat) (va : Word) (a : Answer) (slice : Option Nat) : Side :=
  { x with nextFid := (x.nextFid + 1) % 65536,
           requests := x.requests ++ [{ fid := x.nextFid, kind := kind, reg := reg, elem := elem, va := va, ty := t, answer := a,
                                        slice := slice }] }
/-- Requests that one slice has not acknowledged: those of the core's threads, and of every saved thread, whichever core it was
saved from (R144, log entry 53). -/
def State.unacknowledged (s : State) (slice : Nat) : Nat :=
  let of_ := fun (x : Side) => (x.requests.filter (fun r => r.slice == some slice)).length
  let saved := s.jobs.flatMap (fun j => j.lcores.flatMap (fun (_, l) => l.threads))
  (s.myCore.threads.toList.map (fun t => of_ t.side)).foldl (· + ·) 0 + (saved.map (fun t => of_ t.side)).foldl (· + ·) 0
/-- A source has at most this many unacknowledged requests at a slice (R144). -/
def sliceLimit : Nat := 64
/-- How many more requests a thread may have outstanding, its done set counted: 512 entries fill a reply log. -/
def Side.room (x : Side) : Nat := 512 - x.requests.length - (match x.done with | some d => d.elems.length | none => 0)

-- LDS, STS -------------------------------------------------------------------------------------------------------------

/-- ORD is an acquire kind. -/
def Ord.acquires (o : Ord) : Bool := o == .acq || o == .ar || o == .sc

/-- The scalar load stops with its request out (R366): of its data, or, when the turn names 1, of the last entry of its walk, which
stands at that entry's home. -/
def State.askScalar (s : State) (f : WM) (va : Word) (answer : Answer) (slice : Nat) : Done :=
  .wait (s.setSide (if s.await.contains 1 then s.side.ask 3 0 f.ty 0 va { state := 2, code := 0, value := 0 } (some slice)
    else s.side.ask 0 f.d.toNat f.ty 0 va answer (some slice)))
/-- The line whose reply the scalar load awaits: that of its data, or the last one of its walk. -/
def State.askedLine (s : State) (va : Word) (pa : Nat) : Nat :=
  if s.await.contains 1 then ((s.walk s.view s.me va).2.getLast?).getD (pa / 64) else pa / 64

/-- A load of a type at the base, into D (R232); `link` sets the reservation (R235). -/
def State.scalarLoad (s : State) (f : WM) (link : Bool) : Done :=
  let n := f.ty.width / 8
  let va := s.base f n
  let pw := s.getS f.c
  match s.scalarAccess s.view s.me .load va n n false with
  | .error c => s.failScalar .load n c va
  | .ok p =>
    let m := s.view
    let slice := s.sourceKey s.cur.core (s.askedLine va p.pa)
    let x := ofBytes (s.loadAt m p n)
    let reads := readsOf (s.scalarReads m s.me .load va p.pa ++ dataReads p.pa n (Ord.acquires f.ord))
    if !s.await.isEmpty && !link && f.c == 0 && s.thr.specFile.isNone && decide (s.unacknowledged slice < sliceLimit) then
      (s.issue reads).askScalar f va { state := 1, code := 0, value := (extendTo f.ty x).toNat } slice
    else
      let s := if link then
          s.setSide { s.side with resv := some { va := va, pa := p.pa, size := n, writes := (m.line (p.pa / 64)).writes,
                                                 lost := false } }
        else s
      (s.setS f.d (extendTo f.ty x)).finishMem f pw reads

def execLd (f : WM) (s : State) : Result := (s.loading f (fun s => s.scalarSpans (s.base f (f.ty.width / 8)) (f.ty.width / 8)) (fun s => s.scalarLoad f false)).finish
def execLdl (f : WM) (s : State) : Result := (s.loading f (fun s => s.scalarSpans (s.base f (f.ty.width / 8)) (f.ty.width / 8)) (fun s => s.scalarLoad f true)).finish
/-- `pref` makes no event, never faults and writes no register (R234). -/
def execPref (_ : WM) (s : State) : Result := .next s.advance

/-- `st` (R232). -/
def execSt (f : WM) (s : State) : Result :=
  (s.memory f (fun s =>
    let n := f.ty.width / 8
    let va := s.base f n
    match s.scalarAccess s.view s.me .store va n n false with
    | .error c => s.failScalar .store n c va
    | .ok p => s.finishMem f (s.getS f.c)
        (readsOf (s.scalarReads s.view s.me .store va p.pa) ++ [.store p.pa (toBytes n (s.getS f.b).toNat) p.key]))).finish

/-- `stc` (R235): 0 and the store when the reservation names this address and size and still holds, else 1. -/
def execStc (f : WM) (s : State) : Result :=
  (s.confirming (fun s => s.progress f (fun s =>
    let n := f.ty.width / 8
    let va := s.base f n
    let pw := s.getS f.c
    match s.scalarAccess s.view s.me .store va n n false with
    | .error c => s.failScalar .store n c va
    | .ok p =>
      let ok := match s.side.resv with
        | some r => r.va == va && r.size == n && s.holds r
        | none => false
      let bytes := toBytes n (s.getS f.b).toNat
      let reads := readsOf (s.scalarReads s.view s.me .store va p.pa)
      let s := s.setSide { s.side with resv := none }
      (s.setS f.d (if ok then 0 else 1)).finishMem f pw (reads ++ (if ok then [.store p.pa bytes p.key] else []))))).finish

-- MEMCTL ---------------------------------------------------------------------------------------------------------------

/-- `fence` (R143, R248): every earlier access of the thread but those of its probes has been performed at its home already; a
probe that is unresolved resolves first. A speculative thread holds the fence as one of its 16 effects (R312), and no later load
passes it. -/
def execFence (f : WM) (s : State) : Result :=
  (match s.side.probes.findIdx? (fun (p : Probe) => p.result.isNone) with
   | some n => (s.resolve n).again
   | none => s.holding (fun (s : State) =>
    match s.thr.specFile with
    | some _ => (s.setThr { s.thr with held := s.thr.held ++ [({ counts := true, unit := none, es := [], ord := f.ord } : Held)] }).complete
    | none => s.complete)).finish
/-- `cflush` (R249): no copy stands above a line's home in this model, so only the program counter moves. -/
def execCflush (_ : WM) (s : State) : Result := .next s.advance
/-- `cinv` (R250): every load, fetch and translation of this model reads memory as performed, so each form finds its
guarantee met. -/
def execCinvData (_ : WM) (s : State) : Result := .next s.advance
def execCinvInstruction (_ : WM) (s : State) : Result := .next s.advance
def execCinvTranslation (_ : WM) (s : State) : Result := .next s.advance
def execCinvTranslationAll (_ : WM) (s : State) : Result := .next s.advance
/-- `czero` (R251): 64 zero bytes, checked as a scalar store but for poison, which it clears. -/
def execCzero (f : WM) (s : State) : Result :=
  (s.memory f (fun s =>
    let va := s.base f 64
    match s.scalarAccess s.view s.me .store va 64 64 true with
    | .error c => s.failScalar .store 64 c va
    | .ok p => s.finishMem f (s.getS f.c)
        (readsOf (s.scalarReads s.view s.me .store va p.pa) ++ [.store p.pa (List.replicate 64 0) p.key]))).finish

end Sys2Proof.Machine
end

