-- ==== Sys2Proof/Machine/Energy.lean ====
section
/-!
DEFINITION. Ballast (R379): a quad's power estimate in windows of 64 A-cycles, and whom the energy of its ballast is charged to;
and the PC samples that carry the estimate (R380).
-/
namespace Sys2Proof.Machine
open Sys2Proof

-- Ballast ----------------------------------------------------------------------------------------------------------------

/-- Contexts with a thread on a core of a quad. -/
def State.quadContexts (s : State) (q : Nat) : List Nat :=
  ((List.range 4).flatMap (fun i => (s.core (4 * q + i)).threads.toList.filterMap (fun t =>
    if t.owner.isSome then some t.asid else none))).eraseDups

/-- The power of each context's issued work in a window, in mW, the first drawn first. -/
def State.windowPower (s : State) : List Nat → SMap Nat × State
  | [] => ([], s)
  | a :: rest =>
    let (n, s) := s.draw
    let (m, s) := State.windowPower s rest
    (SMap.set m a (Config.issuedPower n).toNat, s)

/-- Share a whole number out in proportion to weights: the parts sum to it, since each one ends where the next begins. -/
def shares (whole all : Nat) : Nat → List (Nat × Nat) → List (Nat × Nat)
  | _, [] => []
  | before, (a, w) :: rest => (a, whole * (before + w) / all - whole * before / all) :: shares whole all (before + w) rest
def totalPower (m : SMap Nat) : Nat := (m.map (fun p => p.2)).foldl (· + ·) 0

/-- Energy of a power in mW through a window of 64 A-cycles of a period in 78ths of a nanosecond, in 78ths of a picojoule. -/
def windowEnergy (mw period : Nat) : Nat := mw * 64 * period

/-- How far each context's issued power fell from one window to the next. -/
def fallsOf (before now : SMap Nat) : SMap Nat :=
  (before.map (fun (a, w) => (a, w - SMap.get now 0 a))).filter (fun p => p.2 != 0)

/-- The ballast of a window whose issued work is given: what raises it to 87.5 % of the window before, in whole mW rounded down,
when it would lie more than 12.5 % below that. -/
def ballastOf (estimate issued : Nat) : Nat := if 8 * issued < 7 * estimate then 7 * estimate / 8 - issued else 0

/-- One window of a quad that is complete (R379): its ballast is charged to the contexts whose issued power fell. Where none fell
in this very window, it is still the ballast of the latest fall, and charged as that was (log entry 54). -/
def State.ballastStep (s : State) (q : Nat) : State :=
  let (now, s) := s.windowPower (s.quadContexts q)
  let x := s.quad q
  let extra := ballastOf x.estimate (totalPower now)
  let new := fallsOf x.issued now
  let falls := if new.isEmpty then x.falls else new
  let s := (shares (windowEnergy extra (opPeriod x.clock)) (totalPower falls) 0 falls).foldl (fun s (a, e) => s.charge a e) s
  s.setQuad q { x with window := x.window + 1, estimate := totalPower now + extra, issued := now, falls := falls }
/-- The next n windows of a quad, each by itself; once nothing is issued and no estimate is left there is no more to do. -/
def State.ballastSteps (q : Nat) : Nat → State → State
  | 0, s => s
  | n + 1, s =>
    let x := s.quad q
    if (s.quadContexts q).isEmpty && x.estimate == 0 then s.setQuad q { x with window := x.window + n + 1, issued := [] }
    else State.ballastSteps q n (s.ballastStep q)
/-- The windows of a quad that are complete when it stands as given (R379). -/
def State.ballastTo (s : State) (q : Nat) (now : Quad) : State := State.ballastSteps q (now.edges / 64 - (s.quad q).window) s
/-- Those that are complete by now. -/
def State.ballast (s : State) (q : Nat) : State := if s.winter then s else s.ballastTo q (s.quadNow q)

-- PC samples (R380) --------------------------------------------------------------------------------------------------------

/-- TIME between two PC samples of a core. -/
def samplePeriod : Nat := 4096
/-- The samples that a core has come to, since none is taken in Winter. -/
def State.sampleNumber (s : State) : Nat := s.time / samplePeriod - s.lostSamples
/-- PCSAMP of a sample (Table 28.4). -/
def sampleWord (t : Thread) (pc : Word) (tid seq : Nat) (pwr : BitVec 16) : Word :=
  BitVec.ofNat 64 (packFields [(pwr.toNat, 0), (tid, 16), (seq % 4, 18), (if t.owner.isSome && !t.ended then 1 else 0, 20),
    (bitsOf pc.toNat 45 3, 21)])
/-- The quad of a core at the instant of the latest sample, on its clock. -/
def State.sampleInstant (s : State) (q : Nat) : Quad :=
  (s.quad q).at (s.lanes q) (78 * (s.time / samplePeriod * samplePeriod) + clockPhase q)
/-- A core takes the samples that are due: PCSAMP keeps the latest, of the thread after the one sampled before it, from thread 0
on, with the estimate that its quad holds at the instant of the sample; its address is that of the thread's oldest instruction that
has not issued all its groups by then, or else of the one it executes next. DESIGN CHOICE: PWR saturates at 65,535 mW (log entry
56). -/
def State.sampleCore (s : State) (core : Nat) : State :=
  let x := s.core core
  let n := s.sampleNumber
  if s.winter || n ≤ x.samples then s
  else
    let q := quadOf core
    let y := s.sampleInstant q
    let s := s.ballastTo q y
    let tid := (n + 3) % 4
    let t := vget x.threads tid Thread.zero
    let w := sampleWord t ((y.oldest (core % 4) tid).getD t.regs.pc) tid n (BitVec.ofNat 16 (min 65535 (s.quad q).estimate))
    s.setCore core { x with pcsamp := w, samples := n }
/-- The cores of a list. -/
def State.sampleCores (s : State) (cores : List Nat) : State := cores.foldl State.sampleCore s
/-- The four cores of a quad. -/
def State.sampleQuad (s : State) (q : Nat) : State := s.sampleCores ((List.range 4).map (fun i => 4 * q + i))
/-- The quads that something is known of. -/
def State.activeQuads (s : State) : List Nat :=
  (s.cores.map (fun x => quadOf x.1) ++ s.quads.map (fun x => x.1)).eraseDups
/-- Every core of theirs that a sample is due of: between two turns the threads stand where they stood at each instant since. -/
def State.sample (s : State) : State := s.activeQuads.foldl State.sampleQuad s
/-- The samples and the ballast windows that are due before anything changes: those of a quad's windows are charged to the contexts
that stood on it then (R379-R381). -/
def State.account (s : State) : State := s.sample.activeQuads.foldl State.ballast s.sample

end Sys2Proof.Machine
end

