-- ==== Sys2Proof/Machine/StateRegs.lean ====
section
/-!
DEFINITION. Meanings of STATE (R172, R226-R228) and VCFG (R262): the registers of Table 13.12, read field by field and
written field by field.
-/
namespace Sys2Proof.Machine
open Sys2Proof

/-- A register made of (value, offset) fields. -/
def regW (l : List (Nat × Nat)) : Word := BitVec.ofNat 64 (packFields l)
def bitN (b : Bool) : Nat := if b then 1 else 0

-- Reads ----------------------------------------------------------------------------------------------------------------

/-- VTYPE (Table 20.2), FRM (Table 5.7), ENCP (Table 7.5), MSHAPE (Table 22.1). -/
def ThreadRegs.vtype (r : ThreadRegs) : Word := regW [(r.vtTy.toNat, 0), (r.vtEw.toNat, 4), (bitN r.vtNeg, 10)]
def ThreadRegs.frm (r : ThreadRegs) : Word := regW [(r.frmRm.toNat, 0), (bitN r.frmFz, 3)]
def ThreadRegs.encp (r : ThreadRegs) : Word := regW [(r.rdiv.toNat, 0), (bitN r.pln, 4)]
/-- TSTATE (Table 26.6) and TVEC (Table 26.7). -/
def ThreadRegs.tstate (r : ThreadRegs) : Word :=
  regW [(bitN r.pprv, 0), (bitN r.priv, 1), (bitN r.te, 2), (bitN r.blk, 3), (bitN r.asy, 4), (r.fid.toNat, 16)]
def ThreadRegs.tvec (r : ThreadRegs) : Word := regW [(bitN r.tvecVm, 0), (r.tvecBase.toNat, 6)]
/-- ACSIZE (Table 22.6). -/
def ThreadRegs.acSize (r : ThreadRegs) : Word := regW [(r.acSlg.toNat, 0), (r.acNslot.toNat, 8)]

/-- PLACE of a hardware thread (Table 1.2). -/
def State.place (s : State) (t : Hart) : Word :=
  regW [(t.core % 4, 0), (t.core / 4 % 64, 2), (t.core / 256, 8), (s.pkg.toNat, 10), (t.thread, 23)]
/-- DRSTAT of a quad as it stands (Table 28.3). -/
def Quad.drstat (q : Quad) : Word :=
  regW [(q.drCnt.toNat, 0), (q.drSag.toNat, 32), (bitN (q.stretch != 0), 40), (bitN (q.halved != 0), 41), (bitN q.drEv, 42)]
/-- The rail of a quad at a TIME: that of its point, and between those of two points while it moves, where the spec does not
say how far it has come (R375, log entry 47). -/
def Quad.vlog (q : Quad) (time : Nat) : Nat :=
  match q.moving with
  | some p =>
    let lo := min (opVlog q.op) (opVlog p)
    lo + Config.railMoving time % (max (opVlog q.op) (opVlog p) - lo + 1)
  | none => opVlog q.op
/-- RAILQ of a quad (Table 28.2). -/
def Quad.railq (q : Quad) (time : Nat) : Word :=
  regW [(q.vlog time, 0), (q.op, 8), (q.alclim.toNat, 16), (opMhz q.clock, 20)]
/-- A lease is in force (R382). -/
def State.leased (s : State) : Option (Nat × Nat) := s.capLease.filter (fun l => decide (s.time < l.2))
/-- PCAP (Table 28.6). -/
def State.pcap (s : State) : Word :=
  match s.leased with
  | some (w, until_) =>
    regW [(w, 0), (1, 16), (min 65535 ((until_ - s.time) / 1000000), 32), (s.capFloor, 48)]
  | none => regW [(s.capFloor, 0), (s.capFloor, 48)]
/-- EACC of a thread: µJ charged to its context since binding (Table 28.5). -/
def State.eacc (s : State) : Word :=
  match s.context s.thr.asid with
  | some c => microjoules c.energy
  | none => 0

/-- VDIRTY as the current thread finds it: the core's, with the bits that its own speculative segments have set (R227, R312). -/
def State.vdirty (s : State) : BitVec 32 :=
  match s.thr.specFile with
  | none => s.myCore.file.dirty
  | some f =>
    s.side.probes.foldl (fun d p => match p.ck with | some c => d ||| c.file.dirty | none => d) (s.myCore.file.dirty ||| f.dirty)
/-- The core with the counts that the thread holds (R312). -/
def State.countedCore (s : State) : Core := s.thr.held.foldl (fun c h => h.es.foldl Core.count c) s.myCore
/-- The value of a state register of the current thread (Table 13.12). -/
def State.readReg (s : State) (n : Nat) : Word :=
  let r := s.regs
  let c := s.myCore
  let q := s.quadNow (quadOf s.cur.core)
  let o := s.thr.owner
  let job := o.bind (fun o => s.job o.job)
  match n with
  | 0x000 => BitVec.ofNat 64 r.vl
  | 0x001 => BitVec.ofNat 64 c.vlmax
  | 0x002 => r.vtype
  | 0x003 => BitVec.ofNat 64 r.vstart
  | 0x004 => r.encp
  | 0x005 => zextW r.satk
  | 0x006 => r.frm
  | 0x007 => zextW r.fflg
  | 0x008 => zextW s.vdirty
  | 0x009 => BitVec.ofNat 64 (s.alc s.cur.core)
  | 0x00A => zextW c.slip
  | 0x00B => regW [(s.countedCore.resyncReg.toNat, 0), (s.countedCore.resyncMem.toNat, 32)]
  | 0x00C => r.srseed
  | 0x00D => zextW c.mshape
  | 0x010 => BitVec.ofNat 64 (match o with | some o => o.lcore | none => 0)
  | 0x011 => BitVec.ofNat 64 (match job with | some j => j.card.ncores | none => 0)
  | 0x012 => s.place s.cur
  | 0x013 => BitVec.ofNat 64 (match o with | some o => o.tid | none => 0)
  | 0x014 => zextW r.strip
  | 0x020 => zextW r.tcause
  | 0x021 => r.tval
  | 0x022 => r.tpc
  | 0x023 => r.tstate
  | 0x024 => r.tvec
  | 0x025 => r.tscratch
  | 0x030 => BitVec.ofNat 64 s.time
  | 0x031 => s.cyc (quadOf s.cur.core)
  | 0x032 => s.eacc
  | 0x033 => c.pcsamp
  | 0x040 => zextW q.drth
  | 0x041 => q.drstat
  | 0x042 => s.pcap
  | 0x043 => q.railq s.time
  | 0x050 => zextW r.acBase
  | 0x051 => r.acSize
  | 0x052 => zextW r.acThr
  | 0x053 => zextW r.acMet
  | 0x054 => zextW r.acDist
  | 0x055 => zextW r.acMaxr
  | 0x056 => r.acHits
  | 0x057 => r.acMiss
  | 0x060 => s.accepted.extractLsb' 0 64
  | 0x061 => s.accepted.extractLsb' 64 64
  | 0x062 => s.accepted.extractLsb' 128 64
  | 0x063 => s.accepted.extractLsb' 192 64
  | 0x070 => BitVec.ofNat 64 s.thr.asid
  | 0x071 => BitVec.ofNat 64 s.thr.keyid
  | _ => 0

/-- Registers that a user may not access at all (Table 13.12). -/
def userBarred (n : Nat) : Bool := [0x020, 0x021, 0x022, 0x023, 0x024, 0x025, 0x033, 0x040, 0x041, 0x042, 0x043].contains n
/-- Registers that a user may only read; a user `wrs` of one is discarded. -/
def userReadOnly (n : Nat) : Bool := [0x000, 0x001, 0x002, 0x008].contains n
/-- Registers held per thread (Table 13.12): a `wrs` of any other confirms the thread's probes first (R312). -/
def perThread (n : Nat) : Bool :=
  [0x000, 0x002, 0x003, 0x004, 0x005, 0x006, 0x007, 0x00C, 0x010, 0x011, 0x012, 0x013, 0x014, 0x020, 0x021, 0x022,
   0x023, 0x024, 0x025, 0x050, 0x051, 0x052, 0x053, 0x054, 0x055, 0x056, 0x057, 0x070, 0x071].contains n

/-- `rds` (R226): trap 3 for a register barred to users. EACC holds every charge of the windows that are complete (R381). The
resynchronisations that the read itself makes are counted before it (`State.stall`). -/
def execRds (f : W3) (s : State) : Result :=
  if userBarred f.stateReg && !s.regs.priv then (s.illegal (.rds f) 3).finish
  else if f.stateReg = 0x032 then
    let s := s.ballast (quadOf s.cur.core)
    .next (s.setS f.d (s.readReg 0x032)).advance
  else .next (s.setS f.d (s.readReg f.stateReg)).advance

-- Writes ---------------------------------------------------------------------------------------------------------------

/-- VL by a supervisor's `wrs`: min(value, VLMAX×32/EW), 0 when EW is 0 (Tables 13.13, 20.2). -/
def State.writeVl (s : State) (x : Word) : State :=
  let ew := s.regs.vtEw.toNat
  s.setRegs { s.regs with vl := if ew = 0 then 0 else min (x.toNat % 65536) (s.vlmax * 32 / ew) }

/-- The valid shapes of R291. -/
def shapeOk (x : BitVec 19) : Bool :=
  let kg := (x.extractLsb' 0 5).toNat
  let ng := (x.extractLsb' 5 4).toNat
  let a := (x.extractLsb' 9 4).toNat
  let b := (x.extractLsb' 13 4).toNat
  decide (1 ≤ kg) && decide (1 ≤ ng) && decide (ng ≤ 8) && [0, 1, 8, 9, 12, 13].contains a && [8, 9, 12, 13].contains b
    && (x.extractLsb' 17 2 == 0) && decide (kg ≤ (if a == 13 && b == 13 then 16 else 8))

/-- VSTART by `wrs`; the done set is cleared (R227, R367), and what a stopped instruction had read. -/
def State.writeVstart (s : State) (x : Word) : State :=
  (s.setVstart (x.toNat % 65536)).setSide s.side.abandon
def State.writeFflg (s : State) (x : Word) : State := s.setRegs { s.regs with fflg := x.setWidth 6 }
/-- MSHAPE by `wrs`: a valid shape or zero, else unchanged (R291). -/
def State.writeMshape (s : State) (x : Word) : State :=
  let m : BitVec 19 := x.setWidth 19
  if shapeOk m || m == 0 then s.setMyCore { s.myCore with mshape := m } else s
/-- The current thread's quad. -/
def State.myQuad (s : State) : Quad := s.quad (quadOf s.cur.core)
def State.setMyQuad (s : State) (q : Quad) : State := s.setQuad (quadOf s.cur.core) q
/-- DRTH.MV: 10..150, else unchanged (Table 28.3). -/
def State.writeDrth (s : State) (x : Word) : State :=
  let mv := x.toNat % 256
  if 10 ≤ mv && mv ≤ 150 then s.setMyQuad { s.myQuad with drth := BitVec.ofNat 8 mv } else s
/-- DRSTAT.EV is W1C (Table 28.3). -/
def State.writeDrstat (s : State) (x : Word) : State :=
  if x.getLsbD 42 then s.setMyQuad { s.myQuad with drEv := false } else s
/-- RAILQ.ALCLIM: 0..3, else unchanged (Table 28.2). -/
def State.writeRailq (s : State) (x : Word) : State :=
  let n := bitsOf x.toNat 18 16
  if n < 4 then
    let s := s.bringQuad (quadOf s.cur.core)
    s.setMyQuad { s.myQuad with alclim := BitVec.ofNat 3 n }
  else s

/-- A per-thread register written field by field (R172, Tables 5.7, 5.10, 7.5, 20.2, 22.6, 26.5-26.7). -/
def ThreadRegs.write (r : ThreadRegs) (n : Nat) (x : Word) : ThreadRegs :=
  match n with
  | 0x002 =>
    let ew := bitsOf x.toNat 9 4
    { r with vtTy := x.setWidth 4, vtEw := if [4, 8, 16, 32].contains ew then BitVec.ofNat 6 ew else r.vtEw,
             vtNeg := x.getLsbD 10 }
  | 0x004 => { r with rdiv := if x.toNat % 16 = 0 then r.rdiv else x.setWidth 4, pln := x.getLsbD 4 }
  | 0x005 => { r with satk := x.setWidth 3 }
  | 0x006 =>
    { r with frmRm := if x.toNat % 8 = 5 || x.toNat % 8 = 7 then r.frmRm else x.setWidth 3, frmFz := x.getLsbD 3 }
  | 0x00C => { r with srseed := x }
  | 0x020 => { r with tcause := x.setWidth 8 }
  | 0x021 => { r with tval := x }
  | 0x022 => { r with tpc := x }
  | 0x023 =>
    { r with pprv := x.getLsbD 0, te := x.getLsbD 2, blk := x.getLsbD 3, asy := x.getLsbD 4, fid := x.extractLsb' 16 16 }
  | 0x024 => { r with tvecVm := x.getLsbD 0, tvecBase := x.extractLsb' 6 50 }
  | 0x025 => { r with tscratch := x }
  | 0x050 => { r with acBase := x.setWidth 56 }
  | 0x051 =>
    let slg := x.toNat % 32
    { r with acSlg := if 12 ≤ slg && slg ≤ 24 then BitVec.ofNat 5 slg else r.acSlg, acNslot := x.extractLsb' 8 24 }
  | 0x052 => { r with acThr := x.setWidth 32 }
  | 0x053 => { r with acMet := if x.toNat % 4 = 3 then r.acMet else x.setWidth 2 }
  | 0x054 => { r with acDist := x.setWidth 16 }
  | 0x055 => { r with acMaxr := x.setWidth 16 }
  | 0x056 => { r with acHits := x }
  | 0x057 => { r with acMiss := x }
  | _ => r

/-- A register of the rows that `wrs` keeps: those of the thread, VDIRTY, SLIP and RESYNC; an RO register discards the
write (R172). A write of TPC clears the done set (R367). -/
def State.writeReg (s : State) (n : Nat) (x : Word) : State :=
  match n with
  | 0x008 => s.setFile { s.file with dirty := x.setWidth 32 }
  | 0x00A =>
    let v := x.toNat % 16
    if 1 ≤ v && v ≤ 8 then s.setMyCore { s.myCore with slip := BitVec.ofNat 4 v } else s
  | 0x00B => s.setMyCore { s.myCore with resyncReg := x.setWidth 32, resyncMem := x.extractLsb' 32 32 }
  | 0x022 => (s.setRegs (s.regs.write n x)).setSide s.side.abandon
  | _ => s.setRegs (s.regs.write n x)

/-- The form of every `wrs` (R172, R312): trap 3 where a user has no access, confirmation where the register is not held
per thread, no effect where a user may only read. -/
def State.wrsForm (s : State) (i : Instr) (f : W3) (write : State → Word → State) : Done :=
  let n := f.stateReg
  if userBarred n && !s.regs.priv then s.illegal i 3
  else
    let go := fun (s : State) =>
      Done.done (if userReadOnly n && !s.regs.priv then s.advance else (write s (s.getS f.a)).advance)
    if perThread n then go s else s.confirming go

def execWrs (f : W3) (s : State) : Result := (s.wrsForm (.wrs f) f (fun s x => s.writeReg f.stateReg x)).finish
def execVlWrite (f : W3) (s : State) : Result := (s.wrsForm (.vlWrite f) f State.writeVl).finish
def execVstartWrite (f : W3) (s : State) : Result := (s.wrsForm (.vstartWrite f) f State.writeVstart).finish
def execFflgWrite (f : W3) (s : State) : Result := (s.wrsForm (.fflgWrite f) f State.writeFflg).finish
def execMshapeWrite (f : W3) (s : State) : Result := (s.wrsForm (.mshapeWrite f) f State.writeMshape).finish
def execDrthWrite (f : W3) (s : State) : Result := (s.wrsForm (.drthWrite f) f State.writeDrth).finish
def execDrstatWrite (f : W3) (s : State) : Result := (s.wrsForm (.drstatWrite f) f State.writeDrstat).finish
def execRailqWrite (f : W3) (s : State) : Result := (s.wrsForm (.railqWrite f) f State.writeRailq).finish

/-- No other thread of the core runs. -/
def State.alone (s : State) : Bool :=
  (List.range 4).all (fun i => i == s.cur.thread
    || (let t := s.thread { core := s.cur.core, thread := i }
        t.owner.isNone || t.ended))
/-- Every earlier instruction of the thread has completed, with its accesses performed, so that no scalar read waits for one (R49,
R228). What other threads of the core may have written is known to be complete only where none runs. -/
def State.completed (s : State) : State :=
  let t := s.thr
  let s := s.setThr { t with reads := if s.alone then 0 else t.reads &&& 12, stores := [] }
  if s.alone then s.setFile { s.file with busy := 0 } else s
/-- D := TIME and B := CYC, both at one A-clock edge from now on, which TIME has then reached (R228): with `wait` the first at which
all that the thread has issued is final, and what it holds is performed, which confirms its probes (log entry 42), else the next. A
thread whose edge lies beyond what another's vector work allows waits for that (R385). PC samples on the way are taken as the thread
stands at it (R380). -/
def State.timestamp (s : State) (f : W3) (wait : Bool) : Done :=
  let q := quadOf s.cur.core
  let (x, e) := match s.dryEdge s.cur with
    | some y => if wait then y else s.nextEdge q
    | none => s.nextEdge q
  let time := max s.time (timeFrom q e)
  if (s.setThr { s.thr with burst := false }).timeCap.any (fun t => decide (t < time)) then s.again
  else
    let s := { s with time := time }.sample
    let s := if wait then s.completed else s
    .done ((s.setS f.d (BitVec.ofNat 64 (timeAt q e))).setS f.b (BitVec.ofNat 64 x.edges)).advance
def execTstamp (f : W3) (s : State) : Result :=
  (if f.imm.getLsbD 0 && !s.thr.held.isEmpty then s.confirming (fun s => s.timestamp f true)
   else s.timestamp f (f.imm.getLsbD 0)).finish

-- VCFG -----------------------------------------------------------------------------------------------------------------

/-- Banks of the vector register file (R18). -/
def vrfBanks (vlmax : Nat) : Nat := if vlmax = 2048 then 12 else if vlmax = 1024 then 6 else 3
/-- VLMAX request of IMM14[5:4] (R262). -/
def vlRequest (f : W3) : Option Nat :=
  match f.immBits 5 4 with
  | 1 => some 512 | 2 => some 1024 | 3 => some 2048 | _ => none

/-- VL within the cap of a VLMAX (R262); with EW = 0, for which the spec gives no cap, VL stays (log entry 58). -/
def ThreadRegs.clamp (r : ThreadRegs) (n : Nat) : ThreadRegs :=
  if r.vtEw = 0 then r else { r with vl := min r.vl (n * 32 / r.vtEw.toNat) }
/-- Vector and mask registers zero, VDIRTY all ones (R119). -/
def RegFile.cleared (r : RegFile) : RegFile :=
  { r with v := Vector.replicate 32 VReg.zero, k := Vector.replicate 8 0, dirty := 0xFFFFFFFF }
/-- A thread of a core whose VLMAX changes: its registers, and its speculative copies and checkpoints with them (R119, R263). -/
def Thread.resize (t : Thread) (n : Nat) : Thread :=
  let copy := fun (f : RegFile) => { f.cleared with dirty := 0 }
  { t with regs := t.regs.clamp n, specFile := t.specFile.map copy,
           side := { t.side with probes := t.side.probes.map (fun p =>
             { p with ck := p.ck.map (fun c => { c with regs := c.regs.clamp n, file := copy c.file }) }) } }
/-- A granted change of VLMAX (R119, R262): vector and mask registers zero, every thread's VL clamped. -/
def Core.resize (c : Core) (n : Nat) : Core :=
  { c with vlmax := n, file := c.file.cleared, threads := c.threads.map (fun t => t.resize n) }

/-- VL, VTYPE and D of a granted `setvl` (R262). -/
def State.setLength (s : State) (f : W3) : State :=
  let t := (Ty.ofCode (f.immBits 3 0)).getD .i8
  let ew := min t.width 32
  let vl := min (s.getS f.a).toNat (s.vlmax * 32 / ew)
  let s := s.setRegs { s.regs with vl := vl, vtTy := BitVec.ofNat 4 t.code, vtEw := BitVec.ofNat 6 ew, vtNeg := false,
                                   vstart := 0 }
  s.setS f.d (BitVec.ofNat 64 vl)

/-- A thread is inside a vector, matrix or memory instruction that has not completed: it stopped between two of its elements, or a
request of it is out (R119). -/
def Thread.inside (t : Thread) : Bool := t.owner.isSome && !t.ended && (t.stopped.isSome || !t.side.requests.isEmpty)
/-- Another thread of the current core is. -/
def State.othersInside (s : State) : Bool :=
  (List.range 4).any (fun i => i != s.cur.thread && (s.thread { core := s.cur.core, thread := i }).inside)
/-- `setvl` (R262): a request for another VLMAX confirms the probes and is refused when its banks do not fit; a granted one waits
until no other thread of the core is inside an instruction (R119). -/
def execSetvl (f : W3) (s : State) : Result :=
  let keep := (s.setLength f).complete
  (match vlRequest f with
   | none => keep
   | some n =>
     if n = s.vlmax then keep
     else s.confirming (fun s =>
       if vrfBanks n + s.myCore.scrb ≤ 23 then
         (if s.othersInside then s.again else ((s.setMyCore (s.myCore.resize n)).setLength f).complete)
       else (s.setRegs { s.regs with vtNeg := true }).complete)).finish

end Sys2Proof.Machine
end

