-- ==== Sys2Proof/Machine/VecRegs.lean ====
section
/-!
DEFINITION. Writing vector registers: a complete PLAIN result (R82), and the state a stop leaves (R93); and the checks
of R259 that every vector meaning makes first.
-/
namespace Sys2Proof.Machine
open Sys2Proof

/-- A PLAIN register of n elements of a type of at most 32 bits, with scale words for a tile type. -/
def plainReg (t : Ty) (n prog : Nat) (elems scales : List Nat) : VReg :=
  { tag := .plain, ty := t, n := n, p := 0, prog := prog, data := BitVec.ofNat 65536 (packElems t.width elems),
    index := if t.isTile then BitVec.ofNat 32768 (packElems 16 scales) else 0 }

/-- Write elements [0, n) of register d as PLAIN, zero above: a pair for a 64-bit type (R54, R82). -/
def State.writePlain (s : State) (t : Ty) (d n : Nat) (elems scales : List Nat) : State :=
  if t.wide then
    let half := fun (sh : Nat) => elems.map (fun x => x / 2 ^ sh % 2 ^ 32)
    let reg := fun (l : List Nat) =>
      { plainReg .n32 n n l [] with ty := t }
    (s.setVreg d (reg (half 0))).setVreg (d + 1) (reg (half 32))
  else s.setVreg d (plainReg t n n elems scales)

/-- The low n·w bits of a plane replaced. -/
def lowReplaced (old : Nat) (w n : Nat) (l : List Nat) : Nat :=
  old / 2 ^ (w * n) * 2 ^ (w * n) + packElems w (l.take n)

/-- A register stopped at element i with a PLAIN result: elements [0, i) given, the others as they read before (R93); N is the
VL of the instruction, which wrote it last (Table 7.1), so PROG does not exceed N (R341). -/
def stopReg (v : VReg) (t : Ty) (w n i : Nat) (elems scales : List Nat) : VReg :=
  { tag := .plain, ty := t, n := n, p := 0, prog := i,
    data := BitVec.ofNat 65536 (lowReplaced v.plainData.toNat w i elems),
    index := if t.isTile then
        BitVec.ofNat 32768 (lowReplaced (if v.tag == .plain && v.ty.isTile then v.index.toNat else 0) 16 i scales)
      else 0 }

/-- Stop a PLAIN result of register d at element i (R93). -/
def State.writeStop (s : State) (t : Ty) (d i : Nat) (elems scales : List Nat) : State :=
  if t.wide then
    let half := fun (sh : Nat) => elems.map (fun x => x / 2 ^ sh % 2 ^ 32)
    let s := s.setVreg d (stopReg (s.vreg d) t 32 s.vl i (half 0) [])
    s.setVreg (d + 1) (stopReg (s.vreg (d + 1)) t 32 s.vl i (half 32) [])
  else s.setVreg d (stopReg (s.vreg d) t t.width s.vl i elems scales)

/-- PROG of register d, of both of a pair (R366). -/
def State.setProg (s : State) (t : Ty) (d prog : Nat) : State :=
  let s := s.setVreg d { s.vreg d with prog := prog }
  if t.wide then s.setVreg (d + 1) { s.vreg (d + 1) with prog := prog } else s

/-- R259: VL within the capacity of every named type, and within VLMAX when a mask is read or written by element. -/
def State.fits (s : State) (ts : List Ty) (mask : Bool) : Bool :=
  ts.all (fun t => decide (s.vl ≤ s.cap t)) && (!mask || decide (s.vl ≤ s.vlmax))

/-- The checks of R259 before anything else: trap 1 with no state changed. -/
def State.fitting (s : State) (i : Instr) (ts : List Ty) (mask : Bool) (k : State → Done) : Done :=
  if s.fits ts mask then k s else s.illegal i 1

/-- A register, or one of a pair, is not PLAIN. -/
def State.encodedAt (s : State) (t : Ty) (r : BitVec 6) : Bool :=
  (s.vreg r.toNat).tag != .plain || (t.wide && (s.vreg (r.toNat + 1)).tag != .plain)
/-- Nothing to do: VL = 0 or VSTART ≥ VL (R82). -/
def State.nothing (s : State) : Bool := decide (s.vl ≤ s.vstart)

/-- The elements of register d below VSTART, which an instruction keeps. -/
def State.keptElems (s : State) (t : Ty) (d : Nat) : List Nat := if s.vstart = 0 then [] else s.velems t d s.vstart
/-- Their scale words. -/
def State.keptScales (s : State) (t : Ty) (d : Nat) : List Nat :=
  if t.isTile && s.vstart != 0 then s.vscales d s.vstart else List.replicate s.vstart 0

end Sys2Proof.Machine
end

