-- ==== Sys2Proof/Machine/VecMem.lean ====
section
/-!
DEFINITION. Meanings of the element-wise members of VLD and VST (R238-R242): unit-stride, strided and indexed accesses,
linked gathers and conditional scatters, with their stops at a fault (R93, R240) or at a pre-emption (R51, R366), and
the done set of R367.
-/
namespace Sys2Proof.Machine
open Sys2Proof

/-- One element of a vector access: its address, its size in bytes and the half byte of a `.q4` element. -/
structure Elem where
  va : Word
  size : Nat
  high : Bool
  deriving DecidableEq, Repr

/-- Element addresses of the unit-stride members (Table 18.2). -/
def unitElem (base : Word) (t : Ty) (i : Nat) : Elem :=
  if t.width < 8 then { va := base + BitVec.ofNat 64 (i / 2), size := 1, high := i % 2 == 1 }
  else { va := base + BitVec.ofNat 64 (i * tySize t), size := tySize t, high := false }
/-- Of the strided members: base + i × sB. -/
def stridedElem (base stride : Word) (t : Ty) (i : Nat) : Elem :=
  { va := base + BitVec.ofNat 64 i * stride, size := tySize t, high := false }
/-- Of the indexed members: base + sext(index, 32) × size. -/
def indexedElem (base : Word) (idx : List Nat) (t : Ty) (i : Nat) : Elem :=
  { va := base + BitVec.ofInt 64 (sext 32 (idx.getD i 0)) * BitVec.ofNat 64 (tySize t), size := tySize t, high := false }

/-- How a run over elements ended: all of them, a failed check at an element, or a pre-emption before one. -/
inductive Stop where
  | none
  | fault (i code : Nat)
  | pause (i : Nat)
  deriving DecidableEq, Repr

/-- Elements that a restart does not perform again: the done set of the word at PC, to which an `eret` has gone back (R367), with
those whose replies had come before the stop (R145). -/
def State.doneElems (s : State) : List Nat :=
  match s.side.done with
  | some d => if d.armed && d.pc == s.pc then d.elems ++ d.more else []
  | none => []
/-- The request of an awaited element: its answer, and the slice it goes to, if it reaches one (R144, R366). -/
abbrev Asked := List (Nat × Answer × Option Nat)
/-- One more request fits at a slice beside those that stand there and those of this instruction (R144). -/
def State.roomAt (s : State) (slice : Nat) (asked : Asked) : Bool :=
  decide (s.unacknowledged slice + (asked.filter (fun x => x.2.2 == some slice)).length < sliceLimit)

/-- What a vector load has read: values of elements VSTART.. in reverse, the physical place of each active one, the answers
of those whose replies are still on their way, and how it ended. -/
structure LoadRun where
  vals : List Nat
  places : List (Nat × Place)
  answers : Asked
  stop : Stop
  deriving DecidableEq, Repr
def LoadRun.start : LoadRun := { vals := [], places := [], answers := [], stop := .none }

/-- How a load reads elements: their addresses, which are active, which are in the done set and which are awaited (R366), the
value an element holds already, and the bytes that a stopped gather had read (R124). -/
structure LoadPlan where
  el : Nat → Elem
  act : Nat → Bool
  done : List Nat
  await : List Nat
  old : Nat → Nat
  rows : SMap Byte

/-- The bytes of an element at a place: those the instruction has read already, else what memory gives (R124). -/
def State.rowBytes (s : State) (m : MemSys) (rows : SMap Byte) (p : Place) (n : Nat) : List Byte :=
  (s.loadAt m p n).mapIdx (fun i b => (SMap.find rows (p.pa + i)).getD b)
def Elem.value (e : Elem) (b : List Byte) : Nat := if e.high then ofBytes b / 16 else ofBytes b

/-- Read elements i, i + 1, … (R238). An awaited element keeps the value it holds, and its answer, that of a check that failed at a
home included, goes with its request; one whose slice has no room for a request has its reply already. -/
def State.loadFrom (s : State) (m : MemSys) (q : LoadPlan) : Nat → Nat → LoadRun → LoadRun
  | 0, _, r => r
  | n + 1, i, r =>
    if s.stopAt = some i then { r with stop := .pause i }
    else if !q.act i then State.loadFrom s m q n (i + 1) { r with vals := 0 :: r.vals }
    else if q.done.contains i then State.loadFrom s m q n (i + 1) { r with vals := q.old i :: r.vals }
    else
      let e := q.el i
      match s.vectorAccess m s.me .load e.va e.size e.size with
      | .error c =>
        let slice := (s.failedLine m s.me .load e.va e.size c).map (s.sourceKey s.cur.core)
        if q.await.contains i && slice.any (fun k => s.roomAt k r.answers) then
          State.loadFrom s m q n (i + 1)
            { r with vals := q.old i :: r.vals, answers := (i, { state := 3, code := c, value := e.va.toNat }, slice) :: r.answers }
        else { r with stop := .fault i c }
      | .ok p =>
        let x := e.value (s.rowBytes m q.rows p e.size)
        let slice := s.sourceKey s.cur.core (p.pa / 64)
        if q.await.contains i && s.roomAt slice r.answers then
          State.loadFrom s m q n (i + 1)
            { r with vals := q.old i :: r.vals, places := (i, p) :: r.places,
                     answers := (i, { state := 1, code := 0, value := x }, some slice) :: r.answers }
        else State.loadFrom s m q n (i + 1) { r with vals := x :: r.vals, places := (i, p) :: r.places }

/-- A run ends in a pre-emption. -/
def Stop.pauses : Stop → Bool
  | .pause _ => true
  | _ => false
/-- Read elements from i on. Only a stop leaves replies on their way: an instruction that completes or faults has had them all
(R366). -/
def State.loadRun (s : State) (m : MemSys) (q : LoadPlan) (n i : Nat) (r : LoadRun) : LoadRun :=
  let x := s.loadFrom m q n i r
  if x.stop.pauses || q.await.isEmpty then x else s.loadFrom m { q with await := [] } n i r

/-- The store effects of elements i, i + 1, … in order (R239), newest first, with the lines their checks read; the elements
stored and the answers of the awaited ones; and how the run ended. -/
structure StoreRun where
  es : List Effect
  stored : List Nat
  answers : Asked
  stop : Stop
  deriving DecidableEq, Repr
def StoreRun.start : StoreRun := { es := [], stored := [], answers := [], stop := .none }

/-- The effect of storing element value x. -/
def Elem.effect (e : Elem) (t : Ty) (p : Place) (x : Nat) : Effect :=
  if t.width < 8 then .nibble p.pa e.high (BitVec.ofNat 4 x) p.key else .store p.pa (toBytes e.size x) p.key

/-- Check and store elements i, i + 1, …; `vals` are the values of elements from i on. An awaited element is stored and
acknowledged, or its failed check goes with its request. -/
def State.storeFrom (s : State) (m : MemSys) (t : Ty) (el : Nat → Elem) (act : Nat → Bool) (done await : List Nat) :
    Nat → List Nat → StoreRun → StoreRun
  | _, [], r => r
  | i, x :: vals, r =>
    if s.stopAt = some i then { r with stop := .pause i }
    else if !act i || done.contains i then State.storeFrom s m t el act done await (i + 1) vals r
    else
      let e := el i
      match s.vectorAccess m s.me .store e.va e.size e.size with
      | .error c =>
        let slice := (s.failedLine m s.me .store e.va e.size c).map (s.sourceKey s.cur.core)
        if await.contains i && slice.any (fun k => s.roomAt k r.answers) then
          State.storeFrom s m t el act done await (i + 1) vals
            { r with answers := (i, { state := 3, code := c, value := e.va.toNat }, slice) :: r.answers }
        else { r with stop := .fault i c }
      | .ok p =>
        let reads := readsOf (s.vectorReads s.me .store e.va p.pa)
        let slice := s.sourceKey s.cur.core (p.pa / 64)
        State.storeFrom s m t el act done await (i + 1) vals
          { r with es := e.effect t p x :: (reads.reverse ++ r.es), stored := i :: r.stored,
                   answers := if await.contains i && s.roomAt slice r.answers then
                       (i, { state := 2, code := 0, value := 0 }, some slice) :: r.answers
                     else r.answers }
/-- Check and store elements from i on. Only a stop leaves acknowledgements on their way (R366). -/
def State.storeRun (s : State) (m : MemSys) (t : Ty) (el : Nat → Elem) (act : Nat → Bool) (done await : List Nat) (i : Nat)
    (vals : List Nat) (r : StoreRun) : StoreRun :=
  let x := s.storeFrom m t el act done await i vals r
  if x.stop.pauses || await.isEmpty then x else s.storeFrom m t el act done [] i vals r

-- Endings ---------------------------------------------------------------------------------------------------------------

/-- What a vector memory instruction that completes clears of the word at PC: its done set and its rows (R367, R124). -/
def Side.forget (x : Side) (pc : Word) : Side :=
  { x with done := x.done.filter (fun d => d.pc != pc), rows := x.rows.filter (fun (r : RowsRead) => r.pc != pc) }
/-- VSTART and the done set as a completed vector memory instruction leaves them. -/
def State.vdone (s : State) : State := (s.setVstart 0).setSide (s.side.forget s.pc)

/-- Put out the requests of awaited elements at a stop (R366), in element order. -/
def Side.askAll (x : Side) (kind reg : Nat) (t : Ty) (el : Nat → Elem) : Asked → Side
  | [] => x
  | (i, a, slice) :: rest => Side.askAll (x.ask kind reg t i (el i).va a slice) kind reg t el rest
/-- The lowest element of a run of requests, or the stop. -/
def lowest (asked : Asked) (i : Nat) : Nat := (asked.map (·.1)).foldl min i
/-- Leave a stop: the requests of awaited elements, and which elements above the lowest of them have been performed. -/
def Side.leave (x : Side) (kind reg : Nat) (t : Ty) (el : Nat → Elem) (asked : Asked) (performed : List Nat) (i : Nat) : Side :=
  { x.askAll kind reg t el asked.reverse with
    arrived := performed.filter (fun e => decide (lowest asked i < e) && !(asked.map (·.1)).contains e) }

/-- The elements of this instruction below its stop whose replies are awaited: active ones from VSTART on outside the core's
own scratch, as many as may be outstanding. Only a thread that commits its effects at once stops with requests out, and only
where it stops before VL. -/
def State.awaited (s : State) (f : WM) (el : Nat → Elem) : List Nat :=
  match s.stopAt, s.thr.specFile with
  | some i, none =>
    if s.vl ≤ i then [] else (s.await.eraseDups.filter (fun a => decide (s.vstart ≤ a) && decide (a < i) && s.active f.k.toNat a
      && !s.doneElems.contains a && !inScratch (el a).va)).take s.side.room
  | _, _ => []
/-- The fetch of a frame-table entry for the element at the stop, when the turn names it too and its slice has room (R144, R366). -/
def State.askFetch (s : State) (f : WM) (el : Nat → Elem) (i : Nat) : State :=
  match s.fetchLine s.me (el i).va with
  | none => s
  | some ln =>
    let slice := s.sourceKey s.cur.core ln
    if s.await.contains i && decide (i < s.vl) && decide (0 < s.side.room) && decide (s.unacknowledged slice < sliceLimit)
        && s.thr.specFile.isNone then
      s.setSide (s.side.ask 3 0 f.ty i (el i).va { state := 2, code := 0, value := 0 } (some slice))
    else s

/-- Distinct lines of a load in the order they are read, with those its checks read: one access of each, however many elements it
serves (log entry 57). -/
def State.loadReads (s : State) (f : WM) (el : Nat → Elem) (r : LoadRun) : List Effect :=
  readsOf ((r.places.reverse.flatMap (fun (i, p) =>
    s.vectorReads s.me .load (el i).va p.pa ++ dataReads p.pa (el i).size (Ord.acquires f.ord))).eraseDups)

/-- Put a load's elements into vD and end it: completion, a fault at element i, or a pre-emption there (R93, R238,
R240, R366). -/
def State.endLoad (s : State) (f : WM) (q : LoadPlan) (r : LoadRun) : Done :=
  let d := f.d.toNat
  let elems := s.keptElems f.ty d ++ r.vals.reverse
  let scales := s.keptScales f.ty d
  let pw := s.getS f.c
  let reads := s.loadReads f q.el r
  match r.stop with
  | .none =>
    ((s.writePlain f.ty d s.vl elems (scales ++ List.replicate (s.vl - scales.length) 0)).vdone).finishMem f pw reads
  | .fault i c =>
    let s := s.issue reads
    let s := (s.writeStop f.ty d i elems (scales ++ List.replicate (i - scales.length) 0)).setVstart i
    s.failVector .load (q.el i).size c (q.el i).va
  | .pause i =>
    let s := s.issue reads
    let s := s.writeStop f.ty d i elems (scales ++ List.replicate (i - scales.length) 0)
    let s := if r.answers.isEmpty then s
      else (s.setThr { s.thr with stopped := some (s.pc, some d) }).setProg f.ty d (lowest r.answers i)
    let s := (s.setSide (s.side.leave 1 d f.ty q.el r.answers (r.places.map (·.1)) i)).askFetch f q.el i
    .wait (s.setVstart i)

/-- The bytes a stopped gather or strided load at PC had read, when this is its restart (R124, R140). -/
def State.rowsHere (s : State) : SMap Byte :=
  match s.side.rows.find? (fun r => r.pc == s.pc && r.next == s.vstart) with
  | some r => r.bytes
  | none => []
/-- What it leaves at a stop: every byte its elements have read. -/
def State.keepRows (s : State) (m : MemSys) (q : LoadPlan) (r : LoadRun) : State :=
  let bytes := r.places.foldl (fun b (i, p) =>
    ((s.rowBytes m q.rows p (q.el i).size).mapIdx (fun j x => (j, x))).foldl (fun b (j, x) => SMap.set b (p.pa + j) x) b) q.rows
  match r.stop with
  | .none => s
  | .fault i _ | .pause i => s.setSide { s.side with rows := { pc := s.pc, next := i, bytes := bytes } :: s.side.rows.filter (fun r => r.pc != s.pc) }

/-- A gather whose vD is among its index registers, with either encoded, has no pre-emption point inside (R92). -/
def State.noGatherStop (s : State) (f : WM) : State :=
  if overlaps f.d f.ty f.b .i32 && (s.encodedAt f.ty f.d || s.encodedAt .i32 f.b) then { s with stopAt := none } else s
/-- How this load reads its elements. -/
def State.plan (s : State) (f : WM) (el : Nat → Elem) (rows : Bool) : LoadPlan :=
  { el := el, act := s.active f.k.toNat, done := s.doneElems, await := s.awaited f el,
    old := fun j => s.velem f.ty f.d.toNat j, rows := if rows then s.rowsHere else [] }
/-- Where the active elements of an access from VSTART on, below `last`, lie. -/
def State.elemSpans (s : State) (kind : AccessKind) (f : WM) (el : Nat → Elem) (last : Nat) : List (Nat × Nat) :=
  ((List.range last).filter (fun k => decide (s.vstart ≤ k) && s.active f.k.toNat k)).flatMap (fun k =>
    s.vectorSpans kind (el k).va (el k).size 1)
/-- A vector load of elements at given addresses (R238); `gather` marks one that passes through the gather engine, and `rows` one
whose elements that read the same byte read the same write, across a stop too (R124, R140). -/
def State.vload (s : State) (i : Instr) (f : WM) (gather rows : Bool) (el : State → Nat → Elem) : Done :=
  s.fitting i [f.ty] (f.k != 0) (fun s => s.loading f (fun s => s.elemSpans .load f (el s) s.vl) (fun s =>
    if s.nothing then s.vdone.finishMem f (s.getS f.c) []
    else
      let s := if gather then s.noGatherStop f else s
      let q := s.plan f (el s) rows
      let r := s.loadRun s.view q (s.vl - s.vstart) s.vstart LoadRun.start
      (if rows then s.keepRows s.view q r else s).endLoad f q r))

/-- End a vector store: its effects are issued; completion, fault or pre-emption (R239, R240). -/
def State.endStore (s : State) (f : WM) (el : Nat → Elem) (r : StoreRun) : Done :=
  let es := r.es.reverse
  let pw := s.getS f.c
  match r.stop with
  | .none => s.vdone.finishMem f pw es
  | .fault i c => ((s.issueAs f.ord es).setVstart i).failVector .store (el i).size c (el i).va
  | .pause i =>
    let s := s.issueAs f.ord es
    .wait (((s.setSide (s.side.leave 2 f.d.toNat f.ty el r.answers r.stored i)).askFetch f el i).setVstart i)

/-- A vector store of the active elements of vD (R239). -/
def State.vstore (s : State) (i : Instr) (f : WM) (el : State → Nat → Elem) : Done :=
  s.fitting i [f.ty] (f.k != 0) (fun s => s.memory f (fun s =>
    if s.nothing then s.vdone.finishMem f (s.getS f.c) []
    else
      let at_ := el s
      let vals := (s.velems f.ty f.d.toNat s.vl).drop s.vstart
      s.endStore f at_ (s.storeRun s.view f.ty at_ (s.active f.k.toNat) s.doneElems (s.awaited f at_) s.vstart vals
        StoreRun.start)))

/-- The element addresses of each form. -/
def State.unitAt (f : WM) (s : State) (i : Nat) : Elem := unitElem (s.base f (tySize f.ty)) f.ty i
def State.stridedAt (f : WM) (s : State) (i : Nat) : Elem := stridedElem (s.base f (tySize f.ty)) (s.getS f.b) f.ty i
/-- Index elements at or beyond VLMAX, which vB cannot hold as `.i32`, read as the bits above the plane, 0 (log entry 18). -/
def State.indexedAt (f : WM) (s : State) : Nat → Elem :=
  let idx := s.velems .i32 f.b.toNat s.vl
  let base := s.base f (tySize f.ty)
  fun i => indexedElem base idx f.ty i

def execVld (f : WM) (s : State) : Result := (s.vload (.vld f) f false false (State.unitAt f)).finish
def execVlds (f : WM) (s : State) : Result := (s.vload (.vlds f) f false true (State.stridedAt f)).finish
def execVldg (f : WM) (s : State) : Result := (s.vload (.vldg f) f true true (State.indexedAt f)).finish
def execVst (f : WM) (s : State) : Result := (s.vstore (.vst f) f (State.unitAt f)).finish
def execVsts (f : WM) (s : State) : Result := (s.vstore (.vsts f) f (State.stridedAt f)).finish
def execVstg (f : WM) (s : State) : Result := (s.vstore (.vstg f) f (State.indexedAt f)).finish

-- Linked gathers and conditional scatters (R242) -------------------------------------------------------------------------

/-- The reservations of the elements a linked gather read: a new set, or, at the restart of a stopped one, with those of the
elements below VSTART (R242); a set that another `vldl` has made since, in a trap handler, is not this one's. -/
def State.link (s : State) (t : Ty) (el : Nat → Elem) (m : MemSys) (places : List (Nat × Place)) : State :=
  let restart := s.vstart != 0 && s.side.rows.any (fun r => r.pc == s.pc && r.next == s.vstart)
  let kept := if restart && s.side.linker == s.pc then s.side.vresv else []
  let reserve := fun (x : Nat × Place) (r : SMap Reservation) =>
    SMap.set r x.1 { va := (el x.1).va, pa := x.2.pa, size := t.width / 8, writes := (m.line (x.2.pa / 64)).writes,
                     lost := false }
  s.setSide { s.side with vresv := places.foldr reserve kept, linker := s.pc }

def execVldl (f : WM) (s : State) : Result :=
  (s.fitting (.vldl f) [f.ty] (f.k != 0) (fun s => s.loading f (fun s => s.elemSpans .load f (State.indexedAt f s) s.vl) (fun s =>
    if s.nothing then s.vdone.finishMem f (s.getS f.c) []
    else
      let s := s.noGatherStop f
      let q := s.plan f (State.indexedAt f s) true
      let m := s.view
      let r := s.loadRun m q (s.vl - s.vstart) s.vstart LoadRun.start
      ((s.link f.ty q.el m r.places).keepRows m q r).endLoad f q r))).finish

/-- Element i of a `vstc` succeeds: it holds a reservation of its address and size, and no active element of higher index
names the same address. -/
def State.scatterOk (s : State) (t : Ty) (el : Nat → Elem) (act : Nat → Bool) (i : Nat) : Bool :=
  let va := (el i).va
  (match SMap.find s.side.vresv i with
   | some r => r.va == va && r.size == t.width / 8 && s.holds r
   | none => false)
    && !(List.range s.vl).any (fun j => decide (i < j) && act j && (el j).va == va)

/-- Bits of a list of element indices. -/
def bitsFor (l : List Nat) : BitVec 2048 := l.foldl (fun m i => m ||| (1#2048 <<< i)) 0

/-- The outcomes that a stopped `vstc` at PC kept, at its restart. -/
def State.keptFails (s : State) : BitVec 2048 :=
  match s.side.vstcFail.find? (fun x => x.1 == s.pc && x.2.1 == s.vstart) with
  | some (_, _, k) => k
  | none => 0
/-- Those of every other `vstc`. -/
def State.otherFails (s : State) : List (Word × Nat × BitVec 2048) := s.side.vstcFail.filter (fun x => x.1 != s.pc)
/-- Stop a `vstc` at element i: the outcomes below it are kept, and the reservations above stand as they were decided,
whatever its own elements have written since (R242). -/
def State.stopScatter (s : State) (es : List Effect) (fails : BitVec 2048) (good : List Nat) (i : Nat) : State :=
  let s := (s.setSide { s.side with vstcFail := (s.pc, i, fails) :: s.otherFails }).issue es
  let again := fun (x : Nat × Reservation) =>
    (x.1, if good.contains x.1 then { x.2 with writes := (s.msys.line (x.2.pa / 64)).writes } else x.2.lose)
  (s.setSide { s.side with vresv := s.side.vresv.map again }).setVstart i

def execVstc (f : WM) (s : State) : Result :=
  (s.fitting (.vstc f) [f.ty] true (fun s => s.confirming (fun s => s.progress f (fun s =>
    let at_ := State.indexedAt f s
    let act := s.active f.k.toNat
    let todo := (List.range s.vl).filter (fun i => decide (s.vstart ≤ i) && act i)
    let good := todo.filter (s.scatterOk f.ty at_ act)
    let kept := s.keptFails
    let fails := fun (l : List Nat) => kept ||| bitsFor (l.filter (fun i => !good.contains i))
    let vals := (s.velems f.ty f.d.toNat s.vl).drop s.vstart
    let r := s.storeRun s.view f.ty at_ good.contains [] [] s.vstart vals StoreRun.start
    match r.stop with
    | .none =>
      let s := s.setSide { s.side with vresv := [], vstcFail := s.otherFails }
      ((s.setKreg f.k.toNat (fails todo)).vdone).finishMem f (s.getS f.c) r.es.reverse
    | .fault i c => (s.stopScatter r.es.reverse (fails (todo.filter (fun j => decide (j < i)))) good i).failVector .store (at_ i).size c (at_ i).va
    | .pause i => .wait (s.stopScatter r.es.reverse (fails (todo.filter (fun j => decide (j < i)))) good i))))).finish

end Sys2Proof.Machine
end

