-- ==== Sys2Proof/Machine/Tiles.lean ====
section
/-!
DEFINITION. Tile records: reading one (R141), and the meanings of `vldt`, `vldtt` and `vstt` (R244-R247).
-/
namespace Sys2Proof.Machine
open Sys2Proof

/-- The alignment that R244 asks of payload and header, before any tile. -/
def tileAligned (pay hdr : Word) (psz : Nat) : Option (Nat × Word) :=
  if pay.toNat % psz != 0 then some (4, pay) else if hdr.toNat % 16 != 0 then some (4, hdr) else none

/-- The first failed check of two parts of a tile record, in the order they are accessed: each 8-byte unit. -/
def State.tileCheck (s : State) (m : MemSys) (kind : AccessKind) (a : Word) (n : Nat) (b : Word) (k : Nat) :
    Option (Nat × Word) :=
  match s.vecRange m s.me kind a 8 n with
  | some e => some e
  | none => s.vecRange m s.me kind b 8 k

/-- A tile record's header and payload, from one version (R141), or its failed check. -/
def State.readTile (s : State) (m : MemSys) (hdr pay : Word) (psz : Nat) : Except (Nat × Word) (List Byte × List Byte) :=
  match s.tileCheck m .load hdr 2 pay (psz / 8) with
  | some e => .error e
  | none => .ok (s.vecBytes m s.me hdr 8 2, s.vecBytes m s.me pay 8 (psz / 8))

/-- The lines that reading it reads: its header, its payload and its header again (R141). -/
def State.tileReads (s : State) (m : MemSys) (acq : Bool) (hdr pay : Word) (psz : Nat) : List Effect :=
  let h := s.rangeReads m .load acq hdr 8 2
  h ++ s.rangeReads m .load acq pay 8 (psz / 8) ++ h

/-- A tile load so far: element codes, scale words and line reads, newest first, the flags, and how it ended. -/
structure TileRun where
  vals : List Nat
  scales : List Nat
  reads : List Effect
  flags : Flags
  stop : Stop
  failed : Word
  deriving DecidableEq, Repr

/-- Elements e, e + 1, … of tile t from its record (R244). -/
def tileElems (ty : Ty) (hdr pay : List Byte) (tr : Bool) (act : Nat → Bool) : Nat → Nat → TileRun → TileRun
  | 0, _, r => r
  | n + 1, e, r =>
    if !act e then tileElems ty hdr pay tr act n (e + 1) { r with vals := 0 :: r.vals, scales := 0 :: r.scales }
    else
      let i := e % 256 / 16
      let j := e % 16
      let p := if tr then j else i
      let q := if tr then i else j
      tileElems ty hdr pay tr act n (e + 1)
        { r with vals := payloadCode ty pay p q :: r.vals, scales := tileScale ty hdr p q :: r.scales,
                 flags := r.flags ||| (if hdrBad ty hdr then flINV else 0) }

/-- Read tiles t, t + 1, … (R244, R245). -/
def State.tileRun (s : State) (m : MemSys) (ty : Ty) (acq : Bool) (hdrs pays : Word) (tr : Bool) (act : Nat → Bool) :
    Nat → Nat → TileRun → TileRun
  | 0, _, r => r
  | n + 1, t, r =>
    if s.stopAt = some (256 * t) then { r with stop := .pause (256 * t) }
    else
      let psz := payloadSize ty
      let hdr := hdrs + BitVec.ofNat 64 (16 * t)
      let pay := pays + BitVec.ofNat 64 (psz * t)
      match s.readTile m hdr pay psz with
      | .error (c, a) => { r with stop := .fault (256 * t) c, failed := a }
      | .ok (h, p) =>
        State.tileRun s m ty acq hdrs pays tr act n (t + 1)
          (tileElems ty h p tr act (min 256 (s.vl - 256 * t)) (256 * t)
            { r with reads := (s.tileReads m acq hdr pay psz).reverse ++ r.reads })

/-- Where the tiles from VSTART on lie. -/
def State.tileSpans (s : State) (f : WM) : List (Nat × Nat) :=
  let psz := payloadSize f.ty
  ((List.range (ceilDiv s.vl 256)).filter (fun t => decide (s.vstart / 256 ≤ t))).flatMap (fun t =>
    s.vectorSpans .load (s.getS f.b + BitVec.ofNat 64 (16 * t)) 8 2
      ++ s.vectorSpans .load (s.base f psz + BitVec.ofNat 64 (psz * t)) 8 (psz / 8))

/-- `vldt` and `vldtt`. -/
def State.tileLoad (s : State) (i : Instr) (f : WM) (tr : Bool) : Done :=
  s.fitting i [f.ty] (f.k != 0) (fun s =>
    if s.vstart % 256 != 0 then s.illegal i 1
    else s.loading f (fun s => s.tileSpans f) (fun s =>
      let pw := s.getS f.c
      match tileAligned (s.base f (payloadSize f.ty)) (s.getS f.b) (payloadSize f.ty) with
      | some (code, bad) => s.trapHere code bad
      | none =>
      if s.nothing then s.vdone.finishMem f pw []
      else
        let t := f.ty
        let d := f.d.toNat
        let r := s.tileRun s.view t (Ord.acquires f.ord) (s.getS f.b) (s.base f (payloadSize t)) tr (s.active f.k.toNat)
          (ceilDiv s.vl 256 - s.vstart / 256) (s.vstart / 256)
          { vals := [], scales := [], reads := [], flags := 0, stop := .none, failed := 0 }
        let elems := s.keptElems t d ++ r.vals.reverse
        let scales := s.keptScales t d ++ r.scales.reverse
        let s := s.orFlags r.flags
        match r.stop with
        | .none => ((s.writePlain t d s.vl elems scales).vdone).finishMem f pw r.reads.reverse
        | .fault n c => (((s.issue r.reads.reverse).writeStop t d n elems scales).setVstart n).failVector .load 8 c r.failed
        | .pause n => .wait (((s.issue r.reads.reverse).writeStop t d n elems scales).setVstart n)))

def execVldt (f : WM) (s : State) : Result := (s.tileLoad (.vldt f) f false).finish
def execVldtt (f : WM) (s : State) : Result := (s.tileLoad (.vldtt f) f true).finish

-- vstt (R246, R247) ------------------------------------------------------------------------------------------------------

/-- The control word of `vstt` (Table 18.4). -/
structure TileControl where
  ct : Nat
  sty : Ty
  rnd : Nat
  vers : Bool
  ev : Nat
  deriving DecidableEq, Repr

/-- The control word in sB, or none for trap 1. -/
def tileControl (x : Word) (t : Ty) (vl : Nat) : Option TileControl :=
  let n := x.toNat
  match Ty.ofCode (bitsOf n 5 2) with
  | none => none
  | some sty =>
    let c : TileControl := { ct := n % 4, sty := sty, rnd := bitsOf n 8 6, vers := bitOf n 9, ev := bitsOf n 25 10 }
    if n / 2 ^ 26 != 0 || !sty.isVFloat || (c.ct == 3 && t == .q8) || c.rnd == 7 || (c.vers && decide (256 < vl)) then none
    else some c

/-- The block of tile t of vD read as STY: +0 where an element is masked off or at or beyond VL (R246). -/
def State.block (s : State) (sty : Ty) (d t : Nat) (act : Nat → Bool) : List FVal × Flags :=
  let src := s.velems sty d s.vl
  let one := fun (n : Nat) =>
    let e := 256 * t + n
    if e < s.vl && act e then readFloat sty s.regs.frmFz (src.getD e 0) else (.fin false 0 0, 0)
  let l := (List.range 256).map one
  (l.map (·.1), l.foldl (fun a x => a ||| x.2) 0)

/-- The header, payload and flags of one tile (R73, R74). -/
def State.makeTile (s : State) (f : WM) (c : TileControl) (t : Nat) : List Byte × List Byte × Flags :=
  let (x, fl) := s.block c.sty f.d.toNat t (s.active f.k.toNat)
  let (h, p, g) := quantise (f.ty == .q4) c.ct x (s.regs.mode c.rnd) (BitVec.ofNat 16 (c.ev + 1))
  (h, p, fl ||| g)

/-- Store tiles t, t + 1, … as plain writes, payload then header (R246): effects newest first, flags, stop, address. -/
def State.tileStores (s : State) (m : MemSys) (f : WM) (c : TileControl) (pays hdrs : Word) :
    Nat → Nat → List Effect × Flags × Stop × Word → List Effect × Flags × Stop × Word
  | 0, _, r => r
  | n + 1, t, (es, fl, st, a) =>
    if s.stopAt = some (256 * t) then (es, fl, .pause (256 * t), a)
    else
      let psz := payloadSize f.ty
      let hdr := hdrs + BitVec.ofNat 64 (16 * t)
      let pay := pays + BitVec.ofNat 64 (psz * t)
      match s.tileCheck m .store pay (psz / 8) hdr 2 with
      | some (code, bad) => (es, fl, .fault (256 * t) code, bad)
      | none =>
        let (h, p, g) := s.makeTile f c t
        let new := s.rangeStores m pay 8 p ++ s.rangeStores m hdr 8 h
        State.tileStores s m f c pays hdrs n (t + 1) (new.reverse ++ es, fl ||| g, st, a)

/-- The versioned form: one tile write, which its home accepts when the header's version is EV (R142, R246). A speculative
thread holds it, and its acknowledgement sets sB when it is performed (R247, R312). -/
def State.versionedTile (s : State) (f : WM) (c : TileControl) : Done :=
  if s.nothing then .done ((s.vdone).setS f.b 0).advance
  else
    let psz := payloadSize f.ty
    let hdr := s.getS f.c
    let pay := s.base f psz
    let m := s.view
    match s.vectorAccess m s.me .store pay psz psz, s.vectorAccess m s.me .store hdr 16 16 with
    | .ok pp, .ok ph =>
      let (h, p, g) := s.makeTile f c 0
      let reads := readsOf (s.vectorReads s.me .store pay pp.pa ++ s.vectorReads s.me .store hdr ph.pa).eraseDups
      let write := fun (ack : Option (BitVec 6)) =>
        Effect.tile ph.pa h pp.pa p (BitVec.ofNat 16 c.ev) ph.key pp.key ack
      let s := (s.orFlags g).vdone
      match s.thr.specFile with
      | some _ =>
        let s := s.issueAs f.ord (reads ++ [write (some f.b)])
        .done (s.setThr { s.thr with acks := s.thr.acks ++ [f.b] }).advance
      | none =>
        let s := s.performAll s.cur.core reads
        let ack := s.msys.ackOf (write none)
        .done ((s.perform s.cur.core (write none)).setS f.b ack.word).advance
    | .error code, _ => s.failVector .store psz code pay
    | _, .error code => s.failVector .store 16 code hdr

def execVstt (f : WM) (s : State) : Result :=
  (match tileControl (s.getS f.b) f.ty s.vl with
   | none => s.illegal (.vstt f) 1
   | some c =>
     s.fitting (.vstt f) [f.ty, c.sty] (f.k != 0) (fun s =>
       if s.vstart % 256 != 0 then s.illegal (.vstt f) 1
       else s.holding (fun s =>
         match tileAligned (s.base f (payloadSize f.ty)) (s.getS f.c) (payloadSize f.ty) with
         | some (code, bad) => s.trapHere code bad
         | none =>
         if c.vers then s.versionedTile f c
         else if s.nothing then .done s.vdone.advance
         else
           let (es, fl, st, a) := s.tileStores s.view f c (s.base f (payloadSize f.ty)) (s.getS f.c)
             (ceilDiv s.vl 256 - s.vstart / 256) (s.vstart / 256) ([], 0, .none, 0)
           let s := (s.orFlags fl).issueAs f.ord es.reverse
           match st with
           | .none => .done s.vdone.advance
           | .fault n code => (s.setVstart n).failVector .store 8 code a
           | .pause n => .wait (s.setVstart n)))).finish

end Sys2Proof.Machine
end

