-- ==== Sys2Proof/Machine/Elementwise.lean ====
section
/-!
DEFINITION. Element-wise evaluation (R82-R93): operands in any encoding, the result of each element with its flags and
its mark, the encoding of the result (Table 7.4, R407), and stops at an element (R93). An instruction is a
specification of its operands and of one element's result; VP blocks and vector halves use the same specifications.
-/
namespace Sys2Proof.Machine
open Sys2Proof

/-- The second operand: absent, a vector register in a type, or a scalar register broadcast in a type (R166). -/
inductive OpB where
  | none
  | vec (t : Ty) (r : BitVec 6)
  | scalar (t : Ty) (r : BitVec 6)
  deriving DecidableEq, Repr

/-- The third operand: absent, D in the destination type, or the bits of mask kC (R266). -/
inductive OpC where
  | none
  | dest
  | mask (r : BitVec 6)
  deriving DecidableEq, Repr

/-- One element's result from its index and its operand values. -/
abbrev ElemFn := Nat → Nat → Nat → Nat → FRes

/-- An element-wise member: types, registers, and how Table 7.4 treats it. `delta` is the sign of a DELTA-preserving
addition. -/
structure ElemSpec where
  td : Ty
  ta : Ty
  d : BitVec 6
  a : BitVec 6
  b : OpB
  c : OpC
  k : BitVec 3
  narrowing : Bool
  stochastic : Bool
  delta : Bool
  fn : ElemFn

/-- A type as one operand value: a tile element carries its scale word above its code (R81). A register of one tile type read
as the other gives its own index slots as scale words, which the spec leaves open (log entry 45). -/
def State.vvals (s : State) (t : Ty) (r n : Nat) : List Nat :=
  if t.isTile then (s.velems t r n).zipWith (fun x sc => x + 256 * sc) (s.vscales r n) else s.velems t r n
/-- One element's operand value. -/
def State.vval (s : State) (t : Ty) (r i : Nat) : Nat :=
  if t.isTile then
    s.velem t r i + 256 * (if (s.vreg r).tag == .plain && (s.vreg r).ty.isTile then (s.vreg r).idx i % 2 ^ 12 else 0)
  else s.velem t r i

/-- Types an instruction names, for R259. -/
def ElemSpec.types (e : ElemSpec) : List Ty :=
  [e.td, e.ta] ++ (match e.b with | .vec t _ | .scalar t _ => [t] | .none => [])

/-- Values of the second and third operand for elements 0..n−1. -/
def State.valsB (s : State) (b : OpB) (n : Nat) : List Nat :=
  match b with
  | .none => List.replicate n 0
  | .vec t r => s.vvals t r.toNat n
  | .scalar t r => List.replicate n (s.broadcast t r)
def State.valsC (s : State) (e : ElemSpec) (n : Nat) : List Nat :=
  match e.c with
  | .none => List.replicate n 0
  | .dest => s.vvals e.td e.d.toNat n
  | .mask r => (List.range n).map (fun i => bitN ((s.kreg r.toNat).getLsbD i))

/-- Results of elements e, e + 1, …; a masked-off element is zero (R82). -/
def elemResults (act : Nat → Bool) (fn : ElemFn) : Nat → List Nat → List Nat → List Nat → List FRes
  | _, [], _, _ => []
  | e, a :: as, bs, cs =>
    (if act e then fn e a (bs.headD 0) (cs.headD 0) else { bits := 0, flags := 0, mark := false })
      :: elemResults act fn (e + 1) as bs.tail cs.tail

/-- Results of elements [VSTART, VL). -/
def State.results (s : State) (e : ElemSpec) : List FRes :=
  let n := s.vl
  let v := s.vstart
  elemResults (s.active e.k.toNat) e.fn v ((s.vvals e.ta e.a.toNat n).drop v) ((s.valsB e.b n).drop v)
    ((s.valsC e n).drop v)

/-- Flags of a list of results (R66), and the elements to mark, counted from an index (R69). -/
def flagsOf (l : List FRes) : Flags := l.foldl (fun a r => a ||| r.flags) 0
def marksFrom : Nat → List FRes → List Nat
  | _, [] => []
  | i, r :: rest => if r.mark then i :: marksFrom (i + 1) rest else marksFrom (i + 1) rest

-- Result encoding (Table 7.4) -------------------------------------------------------------------------------------------

/-- The tag with which an operand counts: PLAIN when read at another width or as a pair (R86). -/
def State.opTag (s : State) (t : Ty) (r : Nat) : Tag :=
  if t.wide || (s.vreg r).ty.width != t.width then .plain else (s.vreg r).tag

/-- Tags of the vector operands; a mask that decides elements counts as RUN (R85, R266). DESIGN CHOICE: the mask kC of `vsel` so
counts whether or not it changes in [VSTART, VL), where R85 counts the K mask alone and R266 says that kC breaks segments (log entry
46). -/
def State.opTags (s : State) (e : ElemSpec) : List Tag :=
  [s.opTag e.ta e.a.toNat]
    ++ (match e.b with | .vec t r => [s.opTag t r.toNat] | _ => [])
    ++ (match e.c with | .dest => [s.opTag e.td e.d.toNat] | .mask _ => [.run] | .none => [])

/-- At least one element of [VSTART, VL) is masked off. -/
def State.someMasked (s : State) (k : Nat) : Bool :=
  k != 0 && (List.range (s.vl - s.vstart)).any (fun i => !(s.kreg k).getLsbD (s.vstart + i))

/-- Which row of Table 7.4 decides the result. -/
inductive Row where
  | plain | run | dict | delta | ratio
  deriving DecidableEq, Repr

def State.row (s : State) (e : ElemSpec) : Row :=
  let tags := s.opTags e ++ (if s.someMasked e.k.toNat then [Tag.run] else [])
  let src := s.vreg e.a.toNat
  let whole := tags.length == 1 && s.vstart == 0 && src.n == s.vl
  if s.regs.pln || e.td.isTile || e.td.wide || e.stochastic then .plain
  else if e.narrowing then .plain
  else if tags.contains .plain then .plain
  else if tags.all (· == .run) then .run
  else if tags == [.dict] && whole then .dict
  else if tags == [.delta] && whole && e.delta then .delta
  else if tags.contains .delta then .plain
  else .ratio

/-- Maximal runs of equal values as (exclusive end, value), from a position on. -/
def runsOf : Nat → List Nat → List (Nat × Nat)
  | _, [] => []
  | i, x :: rest =>
    match runsOf (i + 1) rest with
    | [] => [(i + 1, x)]
    | (e, y) :: more => if x = y then (e, y) :: more else (i + 1, x) :: (e, y) :: more

/-- The runs a RUN register stores. -/
def VReg.storedRuns (v : VReg) : List (Nat × Nat) :=
  (List.range v.p).map (fun r => (v.idx r, v.slot v.ty.width r))

/-- New runs after stored ones, coalesced where they meet (R93). -/
def joinRuns (old new : List (Nat × Nat)) : List (Nat × Nat) :=
  match old.getLast?, new with
  | some (_, x), (e, y) :: more => if x = y then old.dropLast ++ (e, y) :: more else old ++ new
  | _, _ => old ++ new

/-- A RUN register. -/
def runReg (t : Ty) (n prog : Nat) (runs : List (Nat × Nat)) : VReg :=
  { tag := .run, ty := t, n := n, p := runs.length, prog := prog,
    data := BitVec.ofNat 65536 (packElems t.width (runs.map (·.2))),
    index := BitVec.ofNat 32768 (packElems 16 (runs.map (·.1))) }

/-- d continues a RUN result: VSTART = 0, or d is RUN with N = VSTART (R85, R93). -/
def State.continues (s : State) (d : Nat) : Bool :=
  s.vstart == 0 || ((s.vreg d).tag == .run && (s.vreg d).n == s.vstart)

/-- Runs of [0, i) when the results of [VSTART, i) are given. Runs that d holds in a type of another width are carried over as
values of the destination type, which the spec leaves open (log entry 45). -/
def State.allRuns (s : State) (d : Nat) (bits : List Nat) : List (Nat × Nat) :=
  joinRuns (if s.vstart = 0 then [] else (s.vreg d).storedRuns) (runsOf s.vstart bits)

/-- The code and the scale word of a tile operand value. -/
def splitTile (t : Ty) (bits : List Nat) : List Nat × List Nat :=
  if t.isTile then (bits.map (· % 256), bits.map (· / 256)) else (bits, [])

/-- Write the whole result as PLAIN (R82). -/
def State.putPlain (s : State) (t : Ty) (d : Nat) (bits : List Nat) : State :=
  let (codes, scales) := splitTile t bits
  s.writePlain t d s.vl (s.keptElems t d ++ codes) (s.keptScales t d ++ scales)

/-- The completed vector result of an element-wise instruction. The condition of the last row of Table 7.4 binds a RUN result
of a restart too (R93, R97, log entry 46). -/
def State.putResult (s : State) (e : ElemSpec) (row : Row) (bits : List Nat) : State :=
  let d := e.d.toNat
  let src := s.vreg e.a.toNat
  let runs := s.allRuns d bits
  match row with
  | .plain => s.putPlain e.td d bits
  | .dict =>
    let entry := fun (p : Nat) => (e.fn 0 (src.slot src.ty.width p) ((s.valsB e.b 1).headD 0) 0).bits
    if s.vlmax < s.vl then s.putPlain e.td d bits
    else s.setVreg d { tag := .dict, ty := e.td, n := s.vl, p := src.p, prog := s.vl,
                       data := BitVec.ofNat 65536 (packElems e.td.width ((List.range src.p).map entry)),
                       index := src.index }
  | .delta =>
    let base := (e.fn 0 (src.slot src.ty.width 0) ((s.valsB e.b 1).headD 0) 0).bits
    if s.vlmax < s.vl then s.putPlain e.td d bits
    else s.setVreg d { tag := .delta, ty := e.td, n := s.vl, p := 1, prog := s.vl,
                       data := BitVec.ofNat 65536 base, index := src.index }
  | .run =>
    if s.continues d && decide (runs.length ≤ s.vlmax)
        && (s.vstart == 0 || decide (runs.length * s.regs.rdiv.toNat ≤ s.vl)) then
      s.setVreg d (runReg e.td s.vl s.vl runs)
    else s.putPlain e.td d bits
  | .ratio =>
    if s.continues d && decide (runs.length ≤ s.vlmax) && decide (runs.length * s.regs.rdiv.toNat ≤ s.vl) then
      s.setVreg d (runReg e.td s.vl s.vl runs)
    else s.putPlain e.td d bits

/-- The register as a pre-emption at element i leaves it (R93). With more than VLMAX runs so far no RUN register can hold them,
and the spec names no stop state: it stops as a PLAIN result (R407, log entry 45). -/
def State.putStopped (s : State) (e : ElemSpec) (row : Row) (i : Nat) (bits : List Nat) : State :=
  let d := e.d.toNat
  let runs := s.allRuns d bits
  if (row == .run || row == .ratio) && s.continues d && decide (runs.length ≤ s.vlmax) then
    let s := s.setVreg d (runReg e.td i i runs)
    s.setThr { s.thr with stopped := some (s.pc, some d) }
  else
    let (codes, scales) := splitTile e.td bits
    s.writeStop e.td d i (s.keptElems e.td d ++ codes) (s.keptScales e.td d ++ scales)

/-- No pre-emption point inside (R92): a DICT or DELTA result, or d among the sources with either not PLAIN. -/
def State.noInside (s : State) (e : ElemSpec) (row : Row) : Bool :=
  let srcs := [(e.a, e.ta)] ++ (match e.b with | .vec t r => [(r, t)] | _ => [])
    ++ (match e.c with | .dest => [(e.d, e.td)] | _ => [])
  row == .dict || row == .delta
    || srcs.any (fun (r, t) => overlaps e.d e.td r t
        && (s.encodedAt e.td e.d || s.encodedAt t r))

/-- An element-wise instruction that writes a vector register, whole or up to a pre-emption (R82, R93). -/
def State.elementwise (s : State) (e : ElemSpec) : Done :=
  if s.nothing then (s.setVstart 0).complete
  else
    let row := s.row e
    let all := s.results e
    let stop := s.stopAt.filter (fun i => decide (s.vstart ≤ i) && decide (i < s.vl) && !s.noInside e row)
    match stop with
    | some i =>
      let part := all.take (i - s.vstart)
      let s' := (s.putStopped e row i (part.map (·.bits))).orFlags (flagsOf part)
      .wait ((s'.markElems (marksFrom s.vstart part)).setVstart i)
    | none =>
      let s' := (s.putResult e row (all.map (·.bits))).orFlags (flagsOf all)
      ((s'.markElems (marksFrom s.vstart all)).setVstart 0).complete

/-- The meaning of an element-wise member (R259, R261). -/
def State.elemInstr (s : State) (i : Instr) (e : ElemSpec) : Done :=
  let mask := e.k != 0 || (match e.c with | .mask _ => true | _ => false)
  s.fitting i e.types mask (fun s => s.elementwise e)

end Sys2Proof.Machine
end

