-- ==== Sys2Proof/Machine/VecOps.lean ====
section
/-!
DEFINITION. Meanings of VINT (R264-R267), VFLT (R268), VCVT (R270, R271) and VCMP (R272): the specification of each
element-wise member, and its instruction.
-/
namespace Sys2Proof.Machine
open Sys2Proof

/-- B as "v or s" in a type (R166). -/
def vsOp (f : W3) (t : Ty) : OpB := if f.bScalar then .scalar t f.b else .vec t f.b

-- VINT -------------------------------------------------------------------------------------------------------------------

/-- A binary VINT member (R264). -/
def vintSpec (f : W3) (op : IntOp) (delta : Bool) : ElemSpec :=
  { td := f.ty, ta := f.ty, d := f.d, a := f.a, b := vsOp f f.ty, c := .none, k := f.k, narrowing := false,
    stochastic := false, delta := delta && f.bScalar && !f.q.getLsbD 0,
    fn := fun _ a b _ => intRes f.ty (f.q.getLsbD 0) (op f.ty a b) }
/-- A unary VINT member. -/
def vintUnary (f : W3) (op : Int → Int) : ElemSpec :=
  { vintSpec f (fun t a _ => op (readInt t a)) false with b := .none }

def specVadd (f : W3) : ElemSpec := vintSpec f opAdd true
def specVsub (f : W3) : ElemSpec := vintSpec f opSub true
def specVmul (f : W3) : ElemSpec := vintSpec f opMul false
def specVmulh (f : W3) : ElemSpec := vintSpec f opMulh false
def specVmin (f : W3) : ElemSpec := vintSpec f opMin false
def specVmax (f : W3) : ElemSpec := vintSpec f opMax false
def specVand (f : W3) : ElemSpec := vintSpec f opAnd false
def specVor (f : W3) : ElemSpec := vintSpec f opOr false
def specVxor (f : W3) : ElemSpec := vintSpec f opXor false
def specVshl (f : W3) : ElemSpec := vintSpec f opShl false
def specVshr (f : W3) : ElemSpec := vintSpec f opShr false
def specVsra (f : W3) : ElemSpec := vintSpec f opSra false
def specVabs (f : W3) : ElemSpec := vintUnary f (fun a => (a.natAbs : Int))
def specVneg (f : W3) : ElemSpec := vintUnary f (fun a => -a)

/-- `vsel` (R266): A where bit i of kC is 1, else B. -/
def specVsel (f : W3) : ElemSpec :=
  { td := f.ty, ta := f.ty, d := f.d, a := f.a, b := vsOp f f.ty, c := .mask f.c, k := f.k, narrowing := false,
    stochastic := false, delta := false,
    fn := fun _ a b c => { bits := if c = 1 then a else b, flags := 0, mark := false } }

/-- The type of B and the destination type of the widening members (R265). -/
def wideB (f : W3) : Ty := (Ty.ofCode (f.immBits 3 0)).getD .i8
def wideD (f : W3) : Ty := (wideTy f.ty (wideB f)).getD .i64
/-- `vmulw`: the exact product. -/
def specVmulw (f : W3) : ElemSpec :=
  { td := wideD f, ta := f.ty, d := f.d, a := f.a, b := vsOp f (wideB f), c := .none, k := f.k, narrowing := false,
    stochastic := false, delta := false,
    fn := fun _ a b _ => intRes (wideD f) false (readInt f.ty a * readInt (wideB f) b) }
/-- `vmacw`: D + a × b, wrapping or clamped. -/
def specVmacw (f : W3) : ElemSpec :=
  { specVmulw f with c := .dest,
                     fn := fun _ a b c => intRes (wideD f) (f.q.getLsbD 0)
                       (readInt (wideD f) c + readInt f.ty a * readInt (wideB f) b) }

-- VFLT -------------------------------------------------------------------------------------------------------------------

/-- A VFLT member (R268). -/
def vfltSpec (r : ThreadRegs) (f : W3) (op : FOp) (b : OpB) (c : OpC) (rounds : Bool) : ElemSpec :=
  let t := f.ty
  let fz := r.frmFz && fzOf t
  { td := t, ta := t, d := f.d, a := f.a, b := b, c := c, k := f.k, narrowing := false,
    stochastic := rounds && r.stochastic f.q.toNat, delta := false,
    fn := fun i a b' c' =>
      let (x, f1) := readFloat t fz a
      let (y, f2) := if b = .none then (.fin false 0 0, 0) else readFloat t fz b'
      let (z, f3) := if c = .none then (.fin false 0 0, 0) else readFloat t fz c'
      floatOp (fmtOf t) op x y z (r.mode f.q.toNat i) fz (f1 ||| f2 ||| f3) }

def specVfadd (r : ThreadRegs) (f : W3) : ElemSpec := vfltSpec r f .add (vsOp f f.ty) .none true
def specVfsub (r : ThreadRegs) (f : W3) : ElemSpec := vfltSpec r f .sub (vsOp f f.ty) .none true
def specVfmul (r : ThreadRegs) (f : W3) : ElemSpec := vfltSpec r f .mul (vsOp f f.ty) .none true
def specVffma (r : ThreadRegs) (f : W3) : ElemSpec := vfltSpec r f .fma (vsOp f f.ty) .dest true
def specVffms (r : ThreadRegs) (f : W3) : ElemSpec := vfltSpec r f .fms (vsOp f f.ty) .dest true
def specVfnma (r : ThreadRegs) (f : W3) : ElemSpec := vfltSpec r f .fnma (vsOp f f.ty) .dest true
def specVfdiv (r : ThreadRegs) (f : W3) : ElemSpec := vfltSpec r f .div (vsOp f f.ty) .none true
def specVfsqrt (r : ThreadRegs) (f : W3) : ElemSpec := vfltSpec r f .sqrt .none .none true
def specVfrcp (r : ThreadRegs) (f : W3) : ElemSpec := vfltSpec r f .rcp .none .none true
def specVfrsqrt (r : ThreadRegs) (f : W3) : ElemSpec := vfltSpec r f .rsqrt .none .none true
def specVfexp2 (r : ThreadRegs) (f : W3) : ElemSpec := vfltSpec r f .exp2 .none .none true
def specVflog2 (r : ThreadRegs) (f : W3) : ElemSpec := vfltSpec r f .log2 .none .none true
def specVfmin (r : ThreadRegs) (f : W3) : ElemSpec := vfltSpec r f .min (vsOp f f.ty) .none false
def specVfmax (r : ThreadRegs) (f : W3) : ElemSpec := vfltSpec r f .max (vsOp f f.ty) .none false
def specVfabs (r : ThreadRegs) (f : W3) : ElemSpec := vfltSpec r f .abs .none .none false
def specVfneg (r : ThreadRegs) (f : W3) : ElemSpec := vfltSpec r f .neg .none .none false
/-- `vfclass`: the class mask of the bits as they stand, as `.n16` or `.n32` elements. -/
def specVfclass (f : W3) : ElemSpec :=
  { td := if f.ty.width = 16 then .n16 else .n32, ta := f.ty, d := f.d, a := f.a, b := .none, c := .none, k := f.k,
    narrowing := false, stochastic := false, delta := false,
    fn := fun _ a _ _ => { bits := fclassOf (fmtOf f.ty) a, flags := 0, mark := false } }

-- VCVT -------------------------------------------------------------------------------------------------------------------

/-- The conversions of R68 that are narrowing. -/
def narrows (st dt : Ty) : Bool :=
  if st.isTile then true
  else if st == .e8 then dt == .h
  else if dt.isInt then st.isFloat || decide (maxOf dt < maxOf st) || decide (minOf st < minOf dt)
  else if st.isFloat then decide (dt.width < st.width) || decide (dt.width = st.width)
  else false

/-- The exact value of a conversion's source element, with the flags of reading it under FRM.FZ. -/
def sourceVal (t : Ty) (fz : Bool) (x : Nat) : FVal × Flags :=
  if t.isInt then (FVal.ofInt (readInt t x) 0 false, 0)
  else if t.isTile then
    (tileVal t (x % 256) (x / 256), tileFlags t (x / 256))
  else if t == .e8 then (e8Val x, 0)
  else readFloat t fz x

def cvtFrom (f : W3) : Ty := (Ty.ofCode (f.immBits 3 0)).getD .i8
/-- `vcvt` (R270). -/
def specVcvt (r : ThreadRegs) (f : W3) : ElemSpec :=
  let st := cvtFrom f
  { td := f.ty, ta := st, d := f.d, a := f.a, b := .none, c := .none, k := f.k, narrowing := narrows st f.ty,
    stochastic := r.stochastic f.q.toNat, delta := false,
    fn := fun i a _ _ =>
      let (x, fl) := sourceVal st r.frmFz a
      let o := narrowTo f.ty x (r.mode f.q.toNat i) r.frmFz
      { o with flags := o.flags ||| fl } }

-- Meanings ----------------------------------------------------------------------------------------------------------------

def execVadd (f : W3) (s : State) : Result := (s.elemInstr (.vadd f) (specVadd f)).finish
def execVsub (f : W3) (s : State) : Result := (s.elemInstr (.vsub f) (specVsub f)).finish
def execVmul (f : W3) (s : State) : Result := (s.elemInstr (.vmul f) (specVmul f)).finish
def execVmulh (f : W3) (s : State) : Result := (s.elemInstr (.vmulh f) (specVmulh f)).finish
def execVmin (f : W3) (s : State) : Result := (s.elemInstr (.vmin f) (specVmin f)).finish
def execVmax (f : W3) (s : State) : Result := (s.elemInstr (.vmax f) (specVmax f)).finish
def execVand (f : W3) (s : State) : Result := (s.elemInstr (.vand f) (specVand f)).finish
def execVor (f : W3) (s : State) : Result := (s.elemInstr (.vor f) (specVor f)).finish
def execVxor (f : W3) (s : State) : Result := (s.elemInstr (.vxor f) (specVxor f)).finish
def execVshl (f : W3) (s : State) : Result := (s.elemInstr (.vshl f) (specVshl f)).finish
def execVshr (f : W3) (s : State) : Result := (s.elemInstr (.vshr f) (specVshr f)).finish
def execVsra (f : W3) (s : State) : Result := (s.elemInstr (.vsra f) (specVsra f)).finish
def execVabs (f : W3) (s : State) : Result := (s.elemInstr (.vabs f) (specVabs f)).finish
def execVneg (f : W3) (s : State) : Result := (s.elemInstr (.vneg f) (specVneg f)).finish
def execVsel (f : W3) (s : State) : Result := (s.elemInstr (.vsel f) (specVsel f)).finish
def execVmulw (f : W3) (s : State) : Result := (s.elemInstr (.vmulw f) (specVmulw f)).finish
def execVmacw (f : W3) (s : State) : Result := (s.elemInstr (.vmacw f) (specVmacw f)).finish
def execVfadd (f : W3) (s : State) : Result := (s.elemInstr (.vfadd f) (specVfadd s.regs f)).finish
def execVfsub (f : W3) (s : State) : Result := (s.elemInstr (.vfsub f) (specVfsub s.regs f)).finish
def execVfmul (f : W3) (s : State) : Result := (s.elemInstr (.vfmul f) (specVfmul s.regs f)).finish
def execVffma (f : W3) (s : State) : Result := (s.elemInstr (.vffma f) (specVffma s.regs f)).finish
def execVffms (f : W3) (s : State) : Result := (s.elemInstr (.vffms f) (specVffms s.regs f)).finish
def execVfnma (f : W3) (s : State) : Result := (s.elemInstr (.vfnma f) (specVfnma s.regs f)).finish
def execVfdiv (f : W3) (s : State) : Result := (s.elemInstr (.vfdiv f) (specVfdiv s.regs f)).finish
def execVfsqrt (f : W3) (s : State) : Result := (s.elemInstr (.vfsqrt f) (specVfsqrt s.regs f)).finish
def execVfrcp (f : W3) (s : State) : Result := (s.elemInstr (.vfrcp f) (specVfrcp s.regs f)).finish
def execVfrsqrt (f : W3) (s : State) : Result := (s.elemInstr (.vfrsqrt f) (specVfrsqrt s.regs f)).finish
def execVfexp2 (f : W3) (s : State) : Result := (s.elemInstr (.vfexp2 f) (specVfexp2 s.regs f)).finish
def execVflog2 (f : W3) (s : State) : Result := (s.elemInstr (.vflog2 f) (specVflog2 s.regs f)).finish
def execVfmin (f : W3) (s : State) : Result := (s.elemInstr (.vfmin f) (specVfmin s.regs f)).finish
def execVfmax (f : W3) (s : State) : Result := (s.elemInstr (.vfmax f) (specVfmax s.regs f)).finish
def execVfabs (f : W3) (s : State) : Result := (s.elemInstr (.vfabs f) (specVfabs s.regs f)).finish
def execVfneg (f : W3) (s : State) : Result := (s.elemInstr (.vfneg f) (specVfneg s.regs f)).finish
def execVfclass (f : W3) (s : State) : Result := (s.elemInstr (.vfclass f) (specVfclass f)).finish
def execVcvt (f : W3) (s : State) : Result := (s.elemInstr (.vcvt f) (specVcvt s.regs f)).finish

-- VCMP --------------------------------------------------------------------------------------------------------------------

/-- The integer conditions of R272. -/
def icond (code : Nat) (a b : Int) : Bool :=
  match code with
  | 0 => decide (a = b) | 1 => decide (a ≠ b) | 2 => decide (a < b) | 3 => decide (a ≤ b) | 4 => decide (b < a)
  | _ => decide (b ≤ a)

/-- One bit of a comparison from two operand values. -/
abbrev CmpFn := Nat → Nat → Bool
def cmpInt (f : W3) : CmpFn := fun a b => icond (f.immBits 2 0) (readInt f.ty a) (readInt f.ty b)
def cmpFloat (r : ThreadRegs) (f : W3) : CmpFn := fun a b =>
  fcond (f.immBits 2 0) (readFloat f.ty r.frmFz a).1 (readFloat f.ty r.frmFz b).1

/-- Bits of elements i, i + 1, … of a comparison, in order. -/
def cmpBits (act : Nat → Bool) (c : CmpFn) : Nat → List Nat → List Nat → List Bool
  | _, [], _ => []
  | i, a :: as, bs => (act i && c a (bs.headD 0)) :: cmpBits act c (i + 1) as bs.tail
/-- A mask from bits, the first in bit i. -/
def maskFrom : Nat → List Bool → BitVec 2048
  | _, [] => 0
  | i, b :: rest => (if b then 1#2048 <<< i else 0) ||| maskFrom (i + 1) rest

/-- Bits below i of a mask. -/
def lowMask (m : BitVec 2048) (i : Nat) : BitVec 2048 := BitVec.ofNat 2048 (m.toNat % 2 ^ i)

/-- A comparison (R272): bits below VSTART stay, bits at or above VL become 0; a pre-emption leaves the bits it has not
reached as they were. -/
def State.compare (s : State) (i : Instr) (f : W3) (c : CmpFn) : Done :=
  s.fitting i [f.ty] true (fun s =>
    if s.nothing then (s.setVstart 0).complete
    else
      let n := s.vl
      let v := s.vstart
      let d := f.d.toNat
      let bits := cmpBits (s.active f.k.toNat) c v ((s.vvals f.ty f.a.toNat n).drop v) ((s.valsB (vsOp f f.ty) n).drop v)
      let kept := lowMask (s.kreg d) v
      match s.stopAt.filter (fun i => decide (v ≤ i) && decide (i < n)) with
      | some i =>
        let high := s.kreg d ^^^ lowMask (s.kreg d) i
        .wait ((s.setKreg d (kept ||| maskFrom v (bits.take (i - v)) ||| high)).setVstart i)
      | none => ((s.setKreg d (kept ||| maskFrom v bits)).setVstart 0).complete)

def execVcmp (f : W3) (s : State) : Result := (s.compare (.vcmp f) f (cmpInt f)).finish
def execVfcmp (f : W3) (s : State) : Result := (s.compare (.vfcmp f) f (cmpFloat s.regs f)).finish

end Sys2Proof.Machine
end

