-- ==== Sys2Proof/Machine/Matrix.lean ====
section
/-!
DEFINITION. Meanings of MTX (R290-R303): the shape, the stationary operand, rows by the exact K-groups of R75, the drain,
clearing and status.
-/
namespace Sys2Proof.Machine
open Sys2Proof

-- The shape (Table 22.1) --------------------------------------------------------------------------------------------------

def shapeKg (m : BitVec 19) : Nat := (m.extractLsb' 0 5).toNat
def shapeNg (m : BitVec 19) : Nat := (m.extractLsb' 5 4).toNat
def shapeA (m : BitVec 19) : Option Ty := Ty.ofCode (m.extractLsb' 9 4).toNat
def shapeB (m : BitVec 19) : Option Ty := Ty.ofCode (m.extractLsb' 13 4).toNat
/-- MSHAPE holds a shape. -/
def shaped (m : BitVec 19) : Bool := shapeKg m != 0

/-- `mshape` (R292): trap 1 unless sA[18:0] is a valid shape. -/
def execMshape (f : W3) (s : State) : Result :=
  (s.confirming (fun s =>
    let m : BitVec 19 := (s.getS f.a).setWidth 19
    if shapeOk m then (s.setMyCore { s.myCore with mshape := m }).complete else s.illegal (.mshape f) 1)).finish

-- Stationary operands ------------------------------------------------------------------------------------------------------

/-- The value b(k, n) of a loaded register (R295, R340). -/
def BReg.value (b : BReg) (k n : Nat) : FVal :=
  if b.bty.isTile then
    let psz := payloadSize b.bty
    let off := ((k / 16) * b.ng + n / 16) * (16 + psz)
    let hdr := bytesAt b.image off 16
    let i := k % 16
    let j := n % 16
    let p := if b.tr then j else i
    let q := if b.tr then i else j
    let code :=
      if b.bty == .q4 then
        let x := (b.image.getD (off + 16 + p * 8 + q / 2) 0).toNat
        if q % 2 = 0 then x % 16 else x / 16
      else (b.image.getD (off + 16 + p * 16 + q) 0).toNat
    tileVal b.bty code (tileScale b.bty hdr p q)
  else (fmtOf b.bty).decode (natAt b.image (2 * (k * 16 * b.ng + n)) 2)

/-- Rows k of a tile-coded register, computed tile by tile: the values of b in row order. -/
def BReg.values (b : BReg) : Array FVal :=
  let K := 16 * b.kg
  let N := 16 * b.ng
  if b.bty.isTile then
    let psz := payloadSize b.bty
    let im := b.image.toArray
    let tile := fun (t : Nat) =>
      let off := t * (16 + psz)
      let hdr := (List.range 16).map (fun i => im.getD (off + i) 0)
      let pay := (List.range psz).map (fun i => im.getD (off + 16 + i) 0)
      ((List.range 256).map (fun e =>
        let p := if b.tr then e % 16 else e / 16
        let q := if b.tr then e / 16 else e % 16
        tileVal b.bty (payloadCode b.bty pay p q) (tileScale b.bty hdr p q))).toArray
    let tiles := ((List.range (b.kg * b.ng)).map tile).toArray
    ((List.range (K * N)).map (fun x =>
      let k := x / N
      let n := x % N
      (tiles.getD ((k / 16) * b.ng + n / 16) #[]).getD ((k % 16) * 16 + n % 16) .nan)).toArray
  else
    let im := b.image.toArray
    ((List.range (K * N)).map (fun x =>
      (fmtOf b.bty).decode ((im.getD (2 * x) 0).toNat + 256 * (im.getD (2 * x + 1) 0).toNat))).toArray

/-- Chunks whose 16 values are every one +0 (R296). -/
def droppedChunks (v : Array FVal) (kg N : Nat) : Nat :=
  ((List.range (kg * N)).filter (fun x =>
    (List.range 16).all (fun i =>
      match v.getD ((16 * (x / N) + i) * N + x % N) .nan with
      | .fin false 0 _ => true
      | _ => false))).length

/-- An operand read so far: its bytes in parts and its line reads, newest first, whether R244's INV arises, and the check that
failed. -/
structure OperandRun where
  parts : List (List Byte)
  reads : List Effect
  inv : Bool
  failed : Option (Nat × Word)
  deriving DecidableEq, Repr
def OperandRun.start : OperandRun := { parts := [], reads := [], inv := false, failed := none }
def OperandRun.image (r : OperandRun) : List Byte := r.parts.reverse.flatten
def OperandRun.add (r : OperandRun) (part : List Byte) (reads : List Effect) (inv : Bool) : OperandRun :=
  { r with parts := part :: r.parts, reads := reads.reverse ++ r.reads, inv := r.inv || inv }

/-- Read the tile records of an operand in order kt·NG + nt. -/
def State.readTiles (s : State) (t : Ty) (hdrs pays : Word) (kg ng stride : Nat) (tr : Bool) :
    Nat → Nat → OperandRun → OperandRun
  | 0, _, r => r
  | n + 1, x, r =>
    let kt := x / ng
    let nt := x % ng
    let idx := if tr then nt * stride + kt else kt * stride + nt
    let psz := payloadSize t
    let hdr := hdrs + BitVec.ofNat 64 (16 * idx)
    let pay := pays + BitVec.ofNat 64 (psz * idx)
    match s.readTile s.view hdr pay psz with
    | .error e => { r with failed := some e }
    | .ok (h, p) =>
      State.readTiles s t hdrs pays kg ng stride tr n (x + 1)
        (r.add (h ++ p) (s.tileReads s.view false hdr pay psz) (hdrBad t h))

/-- Read the rows of a 16-bit operand from memory: rows of `len` values, a byte stride apart. -/
def State.readRows (s : State) (base : Word) (stride len : Nat) : Nat → Nat → OperandRun → OperandRun
  | 0, _, r => r
  | n + 1, i, r =>
    let va := base + BitVec.ofNat 64 (i * stride)
    match s.vecRange s.view s.me .load va 2 len with
    | some e => { r with failed := some e }
    | none =>
      State.readRows s base stride len n (i + 1)
        (r.add (s.vecBytes s.view s.me va 2 len) (s.rangeReads s.view .load false va 2 len) false)

/-- Swap rows and columns of 16-bit values: `rows` × `cols` becomes `cols` × `rows`. -/
def transpose16 (l : List Byte) (rows cols : Nat) : List Byte :=
  let a := l.toArray
  (List.range (rows * cols * 2)).map (fun x =>
    let e := x / 2
    a.getD (2 * ((e % rows) * cols + e / rows) + x % 2) 0)

/-- Where an operand of kg × ng tiles, or of 16·kg × 16·ng values of 16 bits, lies (R295, R296). -/
def State.operandSpans (s : State) (f : W3) (kg ng stride : Nat) : List (Nat × Nat) :=
  let tr := f.imm.getLsbD 0
  if f.ty.isTile then
    let psz := payloadSize f.ty
    (List.range (kg * ng)).flatMap (fun x =>
      let idx := if tr then x % ng * stride + x / ng else x / ng * stride + x % ng
      s.vectorSpans .load (s.getS f.b + BitVec.ofNat 64 (16 * idx)) 8 2
        ++ s.vectorSpans .load (s.getS f.a + BitVec.ofNat 64 (psz * idx)) 8 (psz / 8))
  else
    (List.range (16 * if tr then ng else kg)).flatMap (fun i =>
      s.vectorSpans .load (s.getS f.a + BitVec.ofNat 64 (i * stride)) 2 (16 * if tr then kg else ng))

/-- `mldb` (R295-R297): a stride that is too small is trap 1, a misaligned base trap 4; a fault leaves b empty. DESIGN CHOICE: the
trap 4 is such a fault and the trap 1 is not, so that bD then stays (log entry 59). -/
def execMldb (f : W3) (s : State) : Result :=
  let m := s.myCore.mshape
  let kg := shapeKg m
  let ng := shapeNg m
  let tr := f.imm.getLsbD 0
  let stride := (s.getS f.c).toNat
  let d := f.d.toNat
  let tile := f.ty.isTile
  let least := if tile then (if tr then kg else ng) else 2 * (if tr then 16 * kg else 16 * ng)
  (if !shaped m || shapeB m != some f.ty || decide (stride < least) || (!tile && stride % 2 != 0) then
    s.illegal (.mldb f) 1
  else s.inOrder .plain (fun s => s.operandSpans f kg ng stride) (fun s =>
    let bad := if tile then tileAligned (s.getS f.a) (s.getS f.b) (payloadSize f.ty)
      else if (s.getS f.a).toNat % 2 ≠ 0 then some (4, s.getS f.a) else none
    let got : OperandRun :=
      match bad with
      | some e => { OperandRun.start with failed := some e }
      | none =>
        if tile then s.readTiles f.ty (s.getS f.b) (s.getS f.a) kg ng stride tr (kg * ng) 0 OperandRun.start
        else if tr then s.readRows (s.getS f.a) stride (16 * kg) (16 * ng) 0 OperandRun.start
        else s.readRows (s.getS f.a) stride (16 * ng) (16 * kg) 0 OperandRun.start
    let s := s.issue got.reads.reverse
    match got.failed with
    | some (c, a) => (s.setB d none).failVector .load (if tile then 8 else 2) c a
    | none =>
      let image := if !tile && tr then transpose16 got.image (16 * ng) (16 * kg) else got.image
      ((s.setB d (some { kg := kg, ng := ng, bty := f.ty, tr := tr, image := image })).orFlags
        (if got.inv then flINV else 0)).complete)).finish

-- Rows ---------------------------------------------------------------------------------------------------------------------

/-- A product in the array: a zero that meets ±∞ or a NaN is invalid (R72). -/
def arrayProduct (a b : FVal) : FVal × Flags :=
  let (p, f) := mulExact a b
  (p, f ||| (if (a.isZero && b.isNan) || (b.isZero && a.isNan) then flINV else 0))

/-- The exact sum of one K-group, rows k.. of column n (R75). -/
def groupSum (a b : Array FVal) (N k n : Nat) : FVal × Flags :=
  let ps := (List.range 16).map (fun i => arrayProduct (a.getD (k + i) .nan) (b.getD ((k + i) * N + n) .nan))
  let (v, f) := sumExact false (ps.map (·.1))
  (v, ps.foldl (fun x p => x ||| p.2) f)

/-- The exact sums of groups g, g + 1, … of column n, in order. -/
def groupSums (a b : Array FVal) (N n : Nat) : Nat → Nat → List (FVal × Flags)
  | 0, _ => []
  | c + 1, g => groupSum a b N (16 * g) n :: groupSums a b N n c (g + 1)
/-- Add group sums to a column, each as one W80 step (R75). -/
def accumulate (l : List (FVal × Flags)) (r : BitVec 80 × Flags) : BitVec 80 × Flags :=
  l.foldl (fun (acc, fl) (v, f1) =>
    let (x, f2) := sumExact false [fmtW80.decode acc.toNat, v]
    let (y, f3) := roundW80 x
    (y, fl ||| f1 ||| f2 ||| f3)) r

/-- The values of an A row: elements off .. off + K − 1 of vA in a type (R298), and the flags that decoding tile codes raises (R59). -/
def State.aRow (s : State) (t : Ty) (r off K : Nat) : Array FVal × Flags :=
  let l := ((s.vvals t r (off + K)).drop off).map (fun x => sourceVal t false x)
  ((l.map (fun x => x.1)).toArray, if t.isTile then l.foldl (fun f x => f ||| x.2) 0 else 0)

/-- trunc(zext(sC, 64) + zext(IMM14[12:0], 13), 64). -/
def State.rowOffset (s : State) (f : W3) : Nat := (s.getS f.c + BitVec.ofNat 64 (f.immBits 12 0)).toNat

/-- `mma` and `mmaz` (R298): the row product added to accD; `clear` sets the row to +0 first. -/
def State.mmaRow (s : State) (i : Instr) (f : W3) (clear : Bool) : Done :=
  let m := s.myCore.mshape
  let kg := shapeKg m
  let ng := shapeNg m
  let off := s.rowOffset f
  match s.bReg f.b.toNat with
  | none => s.illegal i 1
  | some b =>
    if !shaped m || shapeA m != some f.ty || b.kg != kg || b.ng != ng || shapeB m != some b.bty
        || decide (s.cap f.ty < off + 16 * kg) then s.illegal i 1
    else
      let N := 16 * ng
      let bv := b.values
      let (av, fa) := s.aRow f.ty f.a.toNat off (16 * kg)
      let old : AccRow := if clear then Vector.replicate 128 0 else s.accReg f.d.toNat
      let sums := (List.range N).map (fun n => groupSums av bv N n kg 0)
      let cols := sums.mapIdx (fun n l => accumulate l (vget old n 0, 0))
      let new : AccRow := Vector.ofFn (fun (n : Fin 128) =>
        match cols[n.val]? with
        | some c => c.1
        | none => vget old n.val 0)
      let fl := cols.foldl (fun x c => x ||| c.2) fa
      let (k, s) := s.draw
      let s := s.issue [.rowIssued (BitVec.ofNat 64 (Config.bubbles k)) (BitVec.ofNat 64 (droppedChunks bv kg N)),
        .accRow f.d.toNat clear (sums.map (fun l => l.map (·.1)))]
      ((s.setAcc f.d.toNat new).orFlags (fl &&& (flINV ||| flOF))).complete

def execMma (f : W3) (s : State) : Result := (s.mmaRow (.mma f) f false).finish
def execMmaz (f : W3) (s : State) : Result := (s.mmaRow (.mmaz f) f true).finish

-- Drain, clear, status -----------------------------------------------------------------------------------------------------

/-- An accumulator row set to +0 (R301, R303). -/
def State.clearAcc (s : State) (r : Nat) : State := (s.issue [.accRow r true []]).setAcc r (Vector.replicate 128 0)
/-- `mdrain` (R300). -/
def execMdrain (f : W3) (s : State) : Result :=
  let m := s.myCore.mshape
  let N := 16 * shapeNg m
  let off := s.rowOffset f
  (if !shaped m || decide (s.cap f.ty < s.vl) || decide (s.vl < off + N) then s.illegal (.mdrain f) 1
  else
    let row := s.accReg f.a.toNat
    let rs := (List.range N).map (fun n =>
      (fmtOf f.ty).round (fmtW80.decode (vget row n 0).toNat) (s.regs.mode f.q.toNat n) (s.regs.frmFz && fzOf f.ty) true)
    let old := s.velems f.ty f.d.toNat s.vl
    let elems := old.take off ++ rs.map (·.bits) ++ old.drop (off + N)
    let s := if f.bScalar then s.clearAcc f.a.toNat else s
    (((s.writePlain f.ty f.d.toNat s.vl elems []).orFlags (flagsOf rs)).markElems (marksFrom off rs)).complete).finish

def execMclrAcc (f : W3) (s : State) : Result := .next (s.clearAcc f.d.toNat).advance
def execMclrB (f : W3) (s : State) : Result := .next (s.setB f.d.toNat none).advance

/-- The descriptor of a stationary register (Tables 22.5, 24.10); `dropped` is added in bits [31:16]. -/
def bWord (b : Option BReg) (dropped : Bool) : Word :=
  match b with
  | none => 0
  | some b =>
    regW [(1, 0), (b.kg, 1), (b.ng, 6), (b.bty.code, 10), (bitN b.tr, 14),
          (if dropped then droppedChunks b.values b.kg (16 * b.ng) else 0, 16)]

/-- An item of `mstat` (Table 22.5). Every issued row has left the elastic queue. -/
def State.matrixItem (s : State) (n : Nat) : Word :=
  match n with
  | 0x01 => s.countedCore.bubbles
  | 0x02 => s.countedCore.rows
  | 0x03 => s.countedCore.dropped
  | 0x10 | 0x11 | 0x12 | 0x13 => bWord (s.bReg (n - 0x10)) true
  | 0x20 | 0x21 | 0x22 | 0x23 => vget s.regs.acReason (n - 0x20) 0
  | 0x24 => s.regs.acSquash
  | 0x25 =>
    regW [((s.side.probes.filter (fun p => p.result.isNone)).length, 0),
          ((s.side.probes.filter (fun p => p.spec && !p.confirmed)).length, 5)]
  | _ => 0
/-- Set an item to 0. -/
def State.clearItem (s : State) (n : Nat) : State :=
  match n with
  | 0x01 | 0x02 | 0x03 => s.issue [.clearCount n]
  | 0x20 | 0x21 | 0x22 | 0x23 => s.setRegs { s.regs with acReason := vset s.regs.acReason (n - 0x20) 0 }
  | 0x24 => s.setRegs { s.regs with acSquash := 0 }
  | _ => s
/-- `mstat` (R302). -/
def execMstat (f : W3) (s : State) : Result :=
  let n := f.immBits 7 0
  let x := s.matrixItem n
  let s := if f.bScalar then s.clearItem n else s
  .next (s.setS f.d x).advance

end Sys2Proof.Machine
end

