-- ==== Sys2Proof/Machine/Autumn.lean ====
section
/-!
DEFINITION. Meanings of AUTUMN (R304-R313) and the resolution of a probe as an event of the Autumn unit (R308).
-/
namespace Sys2Proof.Machine
open Sys2Proof

/-- len and step of the packed register, or the immediate step (R306, R307). -/
def State.acLen (s : State) (f : W3) : Nat := (s.getS f.c).toNat % 2 ^ 32
def State.acStep (s : State) (f : W3) (immStep : Bool) : BitVec 32 :=
  if immStep && f.bScalar then BitVec.ofNat 32 (f.immBits 12 0) else (s.getS f.c).extractLsb' 32 32

/-- Slot of a key: ACBASE + (k mod NSLOT)·2^SLG (R305). -/
def ThreadRegs.slotVa (r : ThreadRegs) (key : Word) : Word :=
  r.acBase.setWidth 64 + BitVec.ofNat 64 (key.toNat % r.acNslot.toNat * 2 ^ r.acSlg.toNat)
/-- NSLOT = 0, len = 0 or a slot smaller than the entry needs (R306). -/
def ThreadRegs.acBad (r : ThreadRegs) (t : Ty) (len : Nat) : Bool :=
  r.acNslot == 0 || len == 0 || decide (2 ^ r.acSlg.toNat < 64 + 2 * acPad t len)

/-- The first failed check among ranges of a kind, each (address, unit, count). -/
def State.rangesBad (s : State) (kind : AccessKind) : List (Word × Nat × Nat) → Option (Nat × Word)
  | [] => none
  | (va, unit, n) :: rest =>
    match s.vecRange s.view s.me kind va unit n with
    | some e => some e
    | none => State.rangesBad s kind rest

/-- Header line, anchor and output of a slot. -/
def slotRanges (slot : Word) (t : Ty) (len : Nat) : List (Word × Nat × Nat) :=
  let z := t.width / 8
  [(slot, 8, 8), (slot + 64, z, len), (slot + 64 + BitVec.ofNat 64 (acPad t len), z, len)]

/-- The physical place of a slot's header line, which its checks have passed. -/
def State.headerPlace (s : State) (slot : Word) : Option Place :=
  match s.vectorAccess s.view s.me .load slot 8 8 with
  | .ok p => some p
  | .error _ => none
/-- Probes that count against the limit of 16 (R307). -/
def Probe.open_ (p : Probe) : Bool := p.result.isNone || (p.spec && !p.confirmed)

/-- The probe that must resolve or be confirmed before a new one of this slot may issue (R307). -/
def State.probeBlocker (s : State) (hdr : Place) : Option Nat :=
  let ps := s.side.probes
  match ps.findIdx? (fun p => p.hdrPa == hdr.pa && p.result.isNone) with
  | some n => some n
  | none =>
    if 16 ≤ (ps.filter Probe.open_).length then ps.findIdx? (fun p => p.result.isNone) else none

/-- The record of a new probe, and the thread after its D is written: the unit has read the input (R307). -/
def State.newProbe (s : State) (f : W3) (spec : Bool) (slot : Word) (hdr : Place) (target : Word) : State :=
  let r := s.regs
  let len := s.acLen f
  let z := f.ty.width / 8
  let ticket := slot + 64 + BitVec.ofNat 64 (acPad f.ty len)
  let input := s.vecBytes s.view s.me (s.getS f.b) z len
  let s := s.performAll (unitOn (s.homeDieOf hdr.pa)) (s.rangeReads s.view .load false (s.getS f.b) z len)
  let p : Probe :=
    { ticket := ticket, slotVa := slot, key := s.getS f.a, len := len, step := s.acStep f (!spec), ty := f.ty,
      dist := r.acDist, maxr := r.acMaxr, thr := r.acThr, met := r.acMet,
      input := input, target := target, spec := spec, confirmed := false, taken := 0, heldAt := s.thr.held.length, hdrPa := hdr.pa, hdrKey := hdr.key, result := none,
      ck := none }
  let s := (s.setS f.d ticket).advance
  if spec then
    let file := if s.thr.specFile.isSome then s.file else { s.file with dirty := 0 }
    let p := { p with ck := some { regs := s.regs, file := file, acks := s.thr.acks, resv := s.side.resv,
                                   vresv := s.side.vresv, linker := s.side.linker } }
    s.setThr { s.thr with specFile := some { file with dirty := 0 }, side := { s.side with probes := s.side.probes ++ [p] } }
  else s.setSide { s.side with probes := s.side.probes ++ [p] }

/-- Issue of a probe (R306, R307): trap 1, then the checks of what the unit reads, then the waits. -/
def State.probeIssue (s : State) (i : Instr) (f : W3) (spec : Bool) (go : State → Word → Place → Done) : Done :=
  let len := s.acLen f
  if s.regs.acBad f.ty len then s.illegal i 1
  else
    let slot := s.regs.slotVa (s.getS f.a)
    let z := f.ty.width / 8
    match s.rangesBad .load ((s.getS f.b, z, len) :: slotRanges slot f.ty len), s.headerPlace slot with
    | some (c, a), _ => s.failVector .load 1 c a
    | none, none => s.failVector .load 1 7 slot
    | none, some hdr =>
      match s.probeBlocker hdr with
      | some n => (s.resolve n).again
      | none => s.inOrder .plain (fun s => s.vectorSpans .load (s.getS f.b) z len ++ s.vectorSpans .load slot 8 8
            ++ s.vectorSpans .load (slot + 64) z len) (fun s =>
        let specs := s.side.probes.findIdx? (fun p => p.spec && !p.confirmed)
        match spec && decide (4 ≤ (s.side.probes.filter (fun p => p.spec && !p.confirmed)).length), specs with
        | true, some n =>
          let s' := s.resolve n
          match s'.probe? n with
          | none => .done s'
          | some _ => (s'.confirmAt n).again
        | _, _ => go s slot hdr)

def execAcprobe (f : W3) (s : State) : Result :=
  (s.probeIssue (.acprobe f) f false (fun s slot hdr => .done (s.newProbe f false slot hdr 0))).finish
/-- With `.spec` the thread goes on as if the probe had hit (R312). -/
def execAcprobeSpec (f : W3) (s : State) : Result :=
  (s.probeIssue (.acprobeSpec f) f true (fun s slot hdr =>
    .done (s.newProbe f true slot hdr (s.pc + (immS f <<< 3))))).finish

/-- The Autumn unit resolves probe n of a thread (R308). -/
def execProbeResolve (t : Hart) (n : Nat) (s : State) : Result :=
  .next (if s.winter then s else s.asHart t (fun s => s.resolve n))

/-- The status word of Table 22.10. -/
def ProbeResult.word (r : ProbeResult) : Word := regW [(bitN r.hit, 0), (r.reason, 1), (r.metric.toNat, 32)]

/-- `acwait` (R309): the oldest probe with this ticket that is not answered; a HIT of a `.spec` probe is confirmed, and each probe is
answered once, and given its answer again after a squash or a pre-emption that undoes this `acwait` (R312, R313). -/
def execAcwait (f : W3) (s : State) : Result :=
  let ticket := s.getS f.a
  (match s.side.probes.findIdx? (fun (p : Probe) => p.ticket == ticket && p.taken == 0) with
   | none => (s.setS f.d 10).complete
   | some n =>
     let s := s.resolve n
     match s.probe? n with
     | none => .done s
     | some p =>
       match p.result with
       | none => s.again
       | some r =>
         let s := if p.spec && !p.confirmed then s.confirmAt n
           else if s.speculative then s.setProbe n { p with taken := (s.side.probes.filter (fun (q : Probe) => q.spec)).length }
           else s.setSide { s.side with probes := s.side.probes.eraseIdx n }
         (s.setS f.d r.word).complete).finish

-- acstore, acdrop (R310) ------------------------------------------------------------------------------------------------------

/-- A thread holds a slot by a probe from its acceptance to its resolution, or its confirmation, and until a HIT has changed the
entry, which under an older `.spec` probe is not before that one is confirmed (R146, R308). -/
def Side.holdsSlot (x : Side) (mine : Nat → Bool) : Bool :=
  (x.probes.mapIdx (fun n p => mine p.hdrPa && (p.open_ || (x.probes.take n).any (fun q => q.spec && !q.confirmed)))).any id
/-- Some thread holds a slot, by whatever address and in whatever context it names it, a pre-empted one included (R308, R313). -/
def State.slotHeld (s : State) (mine : Nat → Bool) : Bool :=
  s.cores.any (fun (_, c) => c.threads.any (fun t => t.side.holdsSlot mine))
    || s.jobs.any (fun j => j.lcores.any (fun (_, l) => l.threads.any (fun t => t.side.holdsSlot mine)))
/-- Wait for a held slot; a probe of this thread is resolved meanwhile. -/
def State.slotFree (s : State) (mine : Nat → Bool) (k : State → Done) : Done :=
  if s.slotHeld mine then
    match s.side.probes.findIdx? (fun (p : Probe) => mine p.hdrPa && p.result.isNone) with
    | some n => (s.resolve n).again
    | none => s.again
  else k s

def execAcstore (f : W3) (s : State) : Result :=
  (s.confirming (fun s =>
    let len := s.acLen f
    let t := f.ty
    let z := t.width / 8
    if s.regs.acBad t len then s.illegal (.acstore f) 1
    else
      let key := s.getS f.a
      let slot := s.regs.slotVa key
      match s.rangesBad .load [(s.getS f.b, z, len), (s.getS f.d, z, len)] with
      | some (c, a) => s.failVector .load 1 c a
      | none =>
        match s.rangesBad .store (slotRanges slot t len) with
        | some (c, a) => s.failVector .store 1 c a
        | none => s.slotFree (fun pa => (s.headerPlace slot).any (·.pa == pa)) (fun s =>
          let m := s.msys
          let anchor := s.vecBytes m s.me (s.getS f.b) z len
          let out := s.vecBytes m s.me (s.getS f.d) z len
          let hdr := toBytes 8 key.toNat ++ toBytes 4 (s.acStep f true).toNat ++ toBytes 2 0 ++ toBytes 1 1
            ++ toBytes 1 t.code ++ toBytes 4 len ++ toBytes 44 0
          (s.performAll (s.unitOf slot) (s.rangeReads m .load false (s.getS f.b) z len
            ++ s.rangeReads m .load false (s.getS f.d) z len ++ s.rangeStores m (slot + 64) z anchor
            ++ s.rangeStores m (slot + 64 + BitVec.ofNat 64 (acPad t len)) z out
            ++ s.rangeStores m slot 8 hdr)).complete))).finish

/-- Clear VALID in a slot's header when its key passes a test. -/
def State.dropSlot (s : State) (slot : Word) (test : Nat → Bool) : State :=
  let h := s.vecBytes s.msys s.me slot 8 2
  s.performAll (s.unitOf slot) (s.rangeReads s.msys .load false slot 8 2
    ++ (if test (natAt h 0 8) then
          s.rangeStores s.msys (slot + 8) 8 (bytesAt h 8 6 ++ toBytes 1 (natAt h 14 1 / 2 * 2) ++ bytesAt h 15 1)
        else []))

/-- `acdrop` (R310); with no region there is nothing to clear. DESIGN CHOICE: the header line is checked as a store, where R306
speaks of `acprobe` and `acstore` alone (log entry 59). -/
def execAcdrop (f : W3) (s : State) : Result :=
  (s.confirming (fun s =>
    if s.regs.acNslot = 0 then s.complete
    else
      let key := s.getS f.a
      let slot := s.regs.slotVa key
      match s.rangesBad .store [(slot, 8, 8)] with
      | some (c, a) => s.failVector .store 8 c a
      | none => s.slotFree (fun pa => (s.headerPlace slot).any (·.pa == pa)) (fun s => (s.dropSlot slot (· == key.toNat)).complete))).finish

/-- Slot numbers of the region from n on: the first failed check of a header line. -/
def State.regionBad (s : State) : Nat → Nat → Option (Nat × Word)
  | 0, _ => none
  | c + 1, n =>
    match s.rangesBad .store [(s.regs.slotVa (BitVec.ofNat 64 n), 8, 8)] with
    | some e => some e
    | none => State.regionBad s c (n + 1)
/-- Clear VALID in slots n, n + 1, …. -/
def State.dropAll : Nat → Nat → State → State
  | 0, _, s => s
  | c + 1, n, s => State.dropAll c (n + 1) (s.dropSlot (s.regs.slotVa (BitVec.ofNat 64 n)) (fun _ => true))
/-- The header line of a slot of the region stands at a physical address. -/
def State.inRegion (s : State) (pa : Nat) : Bool :=
  (List.range s.regs.acNslot.toNat).any (fun n => (s.headerPlace (s.regs.slotVa (BitVec.ofNat 64 n))).any (·.pa == pa))

/-- `acdrop.all` (R310). DESIGN CHOICE: the header line of every slot passes the checks of a store before any VALID is cleared (log
entry 59). -/
def execAcdropAll (f : W3) (s : State) : Result :=
  (s.confirming (fun s =>
    let _ := f
    let n := s.regs.acNslot.toNat
    match s.regionBad n 0 with
    | some (c, a) => s.failVector .store 8 c a
    | none => s.slotFree s.inRegion (fun s => (State.dropAll n 0 s).complete))).finish

end Sys2Proof.Machine
end

