-- ==== Sys2Proof/Machine/Barriers.lean ====
section
/-!
DEFINITION. Barriers (R332-R336): which barrier an id names, the actions on one, and the meanings of BAR and of a phase
message from another member of the pod.
-/
namespace Sys2Proof.Machine
open Sys2Proof

/-- A barrier by scope code, instance and index. `pod` barriers are the package's own (Table 24.6). -/
def barrierKey (scope inst idx : Nat) : Nat := (scope * 1024 + inst) * 512 + idx
/-- The barrier a scope and index name for an agent on a core: the instance that contains it (R332). -/
def barrierOf (core scope idx : Nat) : Nat :=
  match scope with
  | 1 => barrierKey 1 core idx
  | 2 => barrierKey 2 (quadOf core) idx
  | 3 => barrierKey 3 (dieOf core) idx
  | _ => barrierKey 4 0 idx

/-- Scope [13:11] and index [8:0] of an id. -/
def idScope (id : Nat) : Nat := id / 2 ^ 11 % 8
def idIndex (id : Nat) : Nat := id % 2 ^ 9

/-- The context holds a barrier (R332). -/
def Context.holds (c : Context) (scope idx : Nat) : Bool :=
  match scope with
  | 1 => c.bcore.getLsbD idx
  | 2 => c.bquad.getLsbD idx
  | 3 => c.bdie.getLsbD idx
  | 4 => c.bpkg.getLsbD idx
  | 5 => c.pod && c.bpkg.getLsbD idx
  | _ => false
def State.holdsBarrier (s : State) (asid scope idx : Nat) : Bool :=
  match s.context asid with
  | some c => c.holds scope idx
  | none => false

def State.barrier (s : State) (k : Nat) : Barrier := SMap.get s.barriers Barrier.zero k
def State.setBarrier (s : State) (k : Nat) (b : Barrier) : State := { s with barriers := SMap.set s.barriers k b }

/-- The other packages whose completions the `pod` barrier of an index joins (R336, R400): the members of this package's pod
table on which the context that holds it here is bound with its POD flag. -/
def State.otherMembers (s : State) (idx : Nat) : List Nat :=
  match s.contexts.find? (fun (_, c) => c.holds 5 idx) with
  | some (_, c) => c.peers.filter (fun p => p != s.pkg.toNat && s.member p)
  | none => []
/-- Let the phases of a `pod` barrier complete that this package and every other member have reached (R336). -/
def Barrier.podAdvance (b : Barrier) (others : List Nat) : Barrier :=
  let n := others.foldl (fun m p => min m (SMap.get b.members 0 p)) b.reached
  { b with phase := b.phase + BitVec.ofNat 64 n, reached := b.reached - n,
           members := others.foldl (fun m p => SMap.set m p (SMap.get m 0 p - n)) b.members }

/-- The members of the pod have changed (R336): the phases that only a member now gone held open complete. -/
def State.podSettle (s : State) : State :=
  s.contexts.foldl (fun s (_, c) => (List.range 512).foldl (fun s idx =>
    let b := s.barrier (barrierKey 4 0 idx)
    if c.holds 5 idx && b.reached != 0 then s.setBarrier (barrierKey 4 0 idx) (b.podAdvance (s.otherMembers idx)) else s) s) s
/-- The pod announces that a context is bound with its POD flag on another package, or is not (R336). -/
def State.peer (s : State) (asid pkg : Nat) (bound : Bool) : State :=
  match s.context asid with
  | some c =>
    let rest := c.peers.filter (fun p => p != pkg)
    (s.setContext asid { c with peers := if bound then rest ++ [pkg] else rest }).podSettle
  | none => s

/-- A number of completed phases: of this barrier, or of its part of a `pod` phase. -/
def Barrier.completed (b : Barrier) (pod : Option (List Nat)) (n : Nat) : Barrier :=
  match pod with
  | none => { b with phase := b.phase + BitVec.ofNat 64 n }
  | some others => { b with reached := b.reached + n }.podAdvance others

/-- One arrival or byte credit (R334), and whether it overran. `pod` lists the other members of a `pod` barrier. DESIGN CHOICE: where
its counts here reach zero before those of another member they are loaded again at once, so that an arrival or credit after that
counts to the next phase and does not overrun; R336 does not say how it counts (log entry 28). -/
def Barrier.act (b : Barrier) (na nb : Nat) (pod : Option (List Nat)) : Barrier × Bool :=
  let ra := b.ra - na
  let rb := b.rb - nb
  if ra ≤ 0 && rb ≤ 0 then
    let ex := ra < 0 || rb < 0
    let b := { b with excess := b.excess || ex }
    let ra := b.ea + ra
    let rb := b.eb + rb
    if ra ≤ 0 && rb ≤ 0 then ({ b with ra := b.ea, rb := b.eb }.completed pod 2, ex)
    else ({ b with ra := ra, rb := rb }.completed pod 1, ex)
  else ({ b with ra := ra, rb := rb }, false)

/-- Apply an action at the barrier's home: the state, and whether an overrun trap follows. -/
def State.actBarrier (s : State) (core scope idx na nb : Nat) : State × Bool :=
  let k := barrierOf core scope idx
  let b := s.barrier k
  let (b', ex) := b.act na nb (if scope = 5 then some (s.otherMembers idx) else none)
  (s.setBarrier k b', ex && b.ot)

-- BAR ------------------------------------------------------------------------------------------------------------------

/-- A BAR member names a barrier its context holds (trap 3); each first confirms the thread's probes. -/
def State.barrierForm (s : State) (i : Instr) (f : W3) (k : State → Done) : Done :=
  s.confirming (fun s =>
    if s.holdsBarrier s.thr.asid (idScope f.imm.toNat) (idIndex f.imm.toNat) then k s else s.illegal i 3)

/-- The barrier of this instruction. -/
def State.myBarrier (s : State) (f : W3) : Nat := barrierOf s.cur.core (idScope f.imm.toNat) (idIndex f.imm.toNat)

/-- `barinit` (R333): trap 3 for a barrier not held goes before trap 1 for its operands (R183); arrivals of the phase in
progress are discarded, those that had brought the counts to zero in a `pod` phase still open too. -/
def execBarinit (f : W3) (s : State) : Result :=
  let ea := (s.getS f.a).toNat
  let eb := (s.getS f.b).toNat
  let ctl := (s.getS f.c).toNat
  (s.barrierForm (.barinit f) f (fun s =>
    if 2 ^ 32 ≤ ea || 2 ^ 48 ≤ eb || 2 ≤ ctl || (ea = 0 && eb = 0) then s.illegal (.barinit f) 1
    else
      let k := s.myBarrier f
      let b := s.barrier k
      (s.setBarrier k { b with ea := ea, eb := eb, ra := ea, rb := eb, ot := ctl == 1, excess := false,
                               reached := 0 }).complete)).finish

/-- `barrive` (R335): D := PHASE before its own arrival; an overrun trap follows the arrival (R334). -/
def execBarrive (f : W3) (s : State) : Result :=
  (s.barrierForm (.barrive f) f (fun s =>
    let phase := (s.barrier (s.myBarrier f)).phase
    let (s, excess) := s.actBarrier s.cur.core (idScope f.imm.toNat) (idIndex f.imm.toNat) 1 0
    let s := (s.setS f.d phase).advance
    if excess then .trap (Trap.sync 11 (f.imm.setWidth 64) s.pc) s else .done s)).finish

/-- `barwait` (R335). -/
def execBarwait (f : W3) (s : State) : Result :=
  (s.barrierForm (.barwait f) f (fun s =>
    let phase := (s.barrier (s.myBarrier f)).phase
    if s.getS f.a < phase then (s.setS f.d phase).complete else s.again)).finish

/-- The mark of a `phend` that has arrived: PHASE at its arrival. -/
def Side.phendMark (x : Side) (pc : Word) (k : Nat) : Option Word :=
  (x.phend.find? (fun (p, j, _) => p == pc && j == k)).map (fun (_, _, ph) => ph)
def Side.clearMark (x : Side) (pc : Word) (k : Nat) : Side :=
  { x with phend := x.phend.filter (fun (p, j, _) => !(p == pc && j == k)) }

/-- `phend` (R335): it arrives once, and waits until its phase has completed. DESIGN CHOICE: one whose arrival overruns traps at once
with D the PHASE that the arrival left, which for a `pod` barrier whose phase another member holds open has not advanced; R334 does
not say what D is then (log entry 28). -/
def execPhend (f : W3) (s : State) : Result :=
  (s.barrierForm (.phend f) f (fun s =>
    let k := s.myBarrier f
    match s.side.phendMark s.pc k with
    | some from_ =>
      let phase := (s.barrier k).phase
      if from_ < phase then ((s.setSide (s.side.clearMark s.pc k)).setS f.d phase).complete else s.again
    | none =>
      let from_ := (s.barrier k).phase
      let (s, excess) := s.actBarrier s.cur.core (idScope f.imm.toNat) (idIndex f.imm.toNat) 1 0
      let phase := (s.barrier k).phase
      if excess then
        let s := (s.setS f.d phase).advance
        .trap (Trap.sync 11 (f.imm.setWidth 64) s.pc) s
      else if from_ < phase then (s.setS f.d phase).complete
      else (s.setSide { s.side with phend := s.side.phend ++ [(s.pc, k, from_)] }).again)).finish

/-- A completion of another member's part of a `pod` phase (R336); one from a package that is no member is discarded. One that
arrives in Winter is held for retry by the transport (R383). -/
def execPodPhaseMessage (pkg idx : Nat) (s : State) : Result :=
  if s.winter then .next { s with inbox := s.inbox ++ [.event (.podPhaseMessage pkg idx)] }
  else if (s.otherMembers idx).contains pkg && idx < 512 then
    let k := barrierKey 4 0 idx
    let b := s.barrier k
    .next (s.setBarrier k ({ b with members := SMap.set b.members pkg (SMap.get b.members 0 pkg + 1) }.podAdvance
      (s.otherMembers idx)))
  else .next s

end Sys2Proof.Machine
end

