-- ==== Sys2Proof/Machine/Pair.lean ====
section
/-!
DEFINITION. Paired words (R168-R170): what each half does, read from the state before either half writes, and the one
instruction the two make.
-/
namespace Sys2Proof.Machine
open Sys2Proof

/-- Register of a half: its slot's bank, or the other one (R169). Scalar banks hold 32 registers, vector banks 16. -/
def halfReg (vec slotB other : Bool) (n : BitVec 5) : BitVec 6 :=
  n.setWidth 6 + (if slotB != other then (if vec then 16 else 32) else 0)

/-- D5, S5 and T5 as register numbers. -/
def halfD (h : Half) (slotB : Bool) : BitVec 6 := halfReg h.op.isVector slotB false h.d
def halfS (h : Half) (slotB : Bool) : BitVec 6 := halfReg h.op.isVector slotB (h.x == 1) h.s
def halfT (h : Half) (slotB : Bool) : BitVec 6 := halfReg h.op.isVector slotB false h.t5
/-- sext(IMM14, 14). -/
def halfImm (h : Half) : Word := h.low.signExtend 64

/-- The fields of the full instruction a register-form half stands for. -/
def halfFields (h : Half) (slotB : Bool) (t : Ty) : W3 :=
  { d := halfD h slotB, a := halfS h slotB, b := halfT h slotB, c := 0, ty := t, k := 0, q := 0, imm := 0 }

/-- The element-wise member of a vector half (Table 13.9). -/
def halfSpec (h : Half) (slotB : Bool) (r : ThreadRegs) : ElemSpec :=
  match h.op with
  | .vadd => specVadd (halfFields h slotB .i32)
  | .vsub => specVsub (halfFields h slotB .i32)
  | .vmul => specVmul (halfFields h slotB .i32)
  | .vfadd => specVfadd r (halfFields h slotB .f)
  | .vfmul => specVfmul r (halfFields h slotB .f)
  | _ => specVffma r (halfFields h slotB .f)

/-- The INT3 operation of a scalar register-form half, at `.i64`. -/
def hopInt : HOp → IntOp
  | .add => opAdd | .sub => opSub | .and => opAnd | .or => opOr | .xor => opXor | .shl => opShl | .shr => opShr
  | .sra => opSra | .min => opMin | .max => opMax
  | _ => fun t a b => if lowS t a < lowS t b then 1 else 0

/-- The scalar value of a half that writes one without memory. -/
def State.halfValue (s : State) (h : Half) (slotB : Bool) : Word :=
  let x := s.getS (halfS h slotB)
  match h.op with
  | .mov => x
  | .addi => x + halfImm h
  | .li => halfImm h
  | op => extendTo .i64 (intRes .i64 false (hopInt op .i64 x.toNat (s.getS (halfT h slotB)).toNat)).bits

/-- The marks that one state's mask register has beyond another's, added to it. -/
def State.addMarks (s : State) (k : Nat) (m : BitVec 2048) : State :=
  if m = s.kreg k then s else s.setKreg k (s.kreg k ||| m)

/-- The address of a memory half. -/
def State.halfAddress (s : State) (h : Half) (slotB : Bool) : Word := s.getS (halfS h slotB) + (halfImm h <<< 3)

/-- What a half does to the state, computed from the state before the word, or the trap it raises with its TVAL. -/
def State.half (s : State) (h : Half) (slotB : Bool) (word : Word) : Except (Nat × Word) (State → State) :=
  match h.op with
  | .nop => .ok id
  | .ld =>
    let va := s.halfAddress h slotB
    match s.scalarAccess s.view s.me .load va 8 8 false with
    | .error c => .error (c, va)
    | .ok p =>
      let x := BitVec.ofNat 64 (ofBytes (s.loadAt s.view p 8))
      let reads := readsOf (s.scalarReads s.view s.me .load va p.pa ++ dataReads p.pa 8 false)
      .ok (fun t => (t.issue reads).setS (halfD h slotB) x)
  | .st =>
    let va := s.halfAddress h slotB
    match s.scalarAccess s.view s.me .store va 8 8 false with
    | .error c => .error (c, va)
    | .ok p =>
      let e := Effect.store p.pa (toBytes 8 (s.getS (halfD h slotB)).toNat) p.key
      .ok (fun t => t.issue (readsOf (s.scalarReads s.view s.me .store va p.pa) ++ [e]))
  | .brz =>
    let target := s.pc + (halfImm h <<< 3)
    .ok (fun t => if s.getS (halfS h slotB) = 0 then t.setPc target else t)
  | .brnz =>
    let target := s.pc + (halfImm h <<< 3)
    .ok (fun t => if s.getS (halfS h slotB) = 0 then t else t.setPc target)
  | .vadd | .vsub | .vmul | .vfadd | .vfmul | .vffma =>
    let e := halfSpec h slotB s.regs
    if !s.fits e.types false then .error (1, word)
    else if s.nothing then .ok (fun t => t.setVstart 0)
    else match ({ s with stopAt := none }).elementwise e with
      | .done r | .wait r | .trap _ r =>
        let k := s.regs.satk.toNat
        .ok (fun t => (((t.setVreg e.d.toNat (r.vreg e.d.toNat)).orFlags r.regs.fflg).addMarks k (r.kreg k)).setVstart 0)
  | .mov | .add | .sub | .and | .or | .xor | .shl | .shr | .sra | .min | .max | .slt | .addi | .li =>
    let x := s.halfValue h slotB
    .ok (fun t => t.setS (halfD h slotB) x)

/-- The trap of a half, after the lines that the checks of its access read. -/
def State.failHalf (s : State) (h : Half) (code : Nat) (val : Word) : Done :=
  match h.op with
  | .ld => s.failScalar .load 8 code val
  | .st => s.failScalar .store 8 code val
  | _ => s.trapHere code val
/-- The word after its checks: slot B reads before slot A writes, and a trap of either half leaves neither (R170). -/
def State.pair (s : State) (a b : Half) : Done :=
  let word := encode (.pairedWord a b)
  match s.half a false word, s.half b true word with
  | .error (c, v), _ => s.failHalf a c v
  | .ok _, .error (c, v) => s.failHalf b c v
  | .ok g, .ok k => .done (k (g s.advance))

/-- A paired word (R170). One that stores counts among the held instructions of R312; one that loads passes no held fence. -/
def execPairedWord (a b : Half) (s : State) : Result :=
  (if a.op = .st then s.holding (fun s => s.pair a b)
   else if a.op = .ld then s.inOrder .plain (fun s => s.scalarSpans (s.halfAddress a false) 8) (fun s => s.pair a b)
   else s.pair a b).finish

end Sys2Proof.Machine
end

