-- ==== Sys2Proof/Machine/Block.lean ====
section
/-!
DEFINITION. Virtual-processor blocks (R44-R48, R225): `vfetch` runs the active VPs of a block one after another in index
order, each on its own copy of the registers and of memory, and commits them together. The order in which cohorts run
is timing (R46).
-/
namespace Sys2Proof.Machine
open Sys2Proof

-- Fetching ---------------------------------------------------------------------------------------------------------------

/-- The word at an address as the thread fetches it, or the trap code. -/
def State.fetchWord (s : State) (a : Word) : Except Nat Word :=
  match s.scalarAccess s.view s.me .fetch a 8 8 false with
  | .error c => .error c
  | .ok p => .ok (BitVec.ofNat 64 (ofBytes (s.loadAt s.view p 8)))

/-- The lines that the fetch of a word reads: those of its walk, and its own if it succeeds (R102, R108). -/
def State.fetchLines (s : State) (a : Word) : List (Nat × Bool) :=
  match s.scalarAccess s.view s.me .fetch a 8 8 false with
  | .error _ => s.scalarTried s.view s.me .fetch a 8
  | .ok p => s.scalarReads s.view s.me .fetch a p.pa ++ dataReads p.pa 8 false

/-- The address of the first `vpend` among the n words from an address on, or the trap
code and the address of one that cannot be fetched. -/
def State.vpendFrom (s : State) : Nat → Word → Except (Nat × Word) (Option Word)
  | 0, _ => .ok none
  | n + 1, a =>
    match s.fetchWord a with
    | .error c => .error (c, a)
    | .ok w => if decodeVp w = some .vpend then .ok (some a) else State.vpendFrom s n (a + 8)

-- One VP -----------------------------------------------------------------------------------------------------------------

/-- A write of a VP that its block holds back: its element of a vector register, or its bit of a mask. -/
inductive VpWrite where
  | elem (t : Ty) (d : Nat) (x : Nat)
  | bit (k : Nat) (b : Bool)
  deriving DecidableEq, Repr

/-- A VP: its index, its PC, its block from its first word to its `vpend`, its own view of the register files and of
memory, and what it holds back, newest first, with the lines it has read; `pushed` is oldest first. -/
structure Vp where
  idx : Nat
  pc : Word
  start : Word
  last : Word
  file : RegFile
  mem : MemSys
  writes : List VpWrite
  es : List Effect
  lines : List (Nat × Bool)
  flags : Flags
  pushed : List Nat
  popped : Nat

/-- Bits [w·i + w − 1 : w·i] of a plane replaced. -/
def putSlot (old w i x : Nat) : Nat :=
  old - old / 2 ^ (w * i) % 2 ^ w * 2 ^ (w * i) + x % 2 ^ w * 2 ^ (w * i)

/-- Element i of a register written by a block (R46): the register is PLAIN with PROG = VL, and every other element
stays as it reads. -/
def VReg.putElem (v : VReg) (t : Ty) (w i x scale vl : Nat) : VReg :=
  let planes := if v.tag == .plain && v.ty.isTile then v.index.toNat else 0
  { tag := .plain, ty := t, n := vl, p := 0, prog := vl, data := BitVec.ofNat 65536 (putSlot v.plainData.toNat w i x),
    index := if t.isTile then BitVec.ofNat 32768 (putSlot planes 16 i scale) else 0 }

/-- One held-back write put into a register file, with VDIRTY. -/
def RegFile.put (r : RegFile) (vlmax vl i : Nat) (x : VpWrite) : RegFile :=
  let reg := fun (r : RegFile) (d : Nat) (v : VReg) => r.putV d v
  let old := fun (d : Nat) => vget r.v d VReg.zero
  match x with
  | .elem t d x =>
    if t.wide then
      reg (reg r d ((old d).putElem t 32 i (x % 2 ^ 32) 0 vl)) (d + 1) ((old (d + 1)).putElem t 32 i (x / 2 ^ 32) 0 vl)
    else if t.isTile then reg r d ((old d).putElem t t.width i (x % 256) (x / 256) vl)
    else reg r d ((old d).putElem t t.width i x 0 vl)
  | .bit k b =>
    if i < vlmax then
      let m := vget r.k k 0
      { r with k := vset r.k k (if b then m ||| (1#2048 <<< i) else m &&& ~~~(1#2048 <<< i)), busy := r.busy ||| busyK k }
    else r

/-- How one instruction of a VP ends; one that traps leaves the lines it has read, newest first. -/
inductive VpEnd where
  | go (p : Vp)
  | trap (code : Nat) (val : Word) (lines : List (Nat × Bool))

/-- Hold back a write and go on. -/
def Vp.put (p : Vp) (vlmax vl : Nat) (x : VpWrite) : Vp :=
  { p with file := p.file.put vlmax vl p.idx x, writes := x :: p.writes }
/-- Hold back a memory effect. -/
def Vp.hold (p : Vp) (e : Effect) : Vp := { p with mem := p.mem.apply e, es := e :: p.es }
/-- Lines read at their homes. -/
def Vp.reads (p : Vp) (l : List (Nat × Bool)) : Vp := { p with lines := l.reverse ++ p.lines }
/-- A trap, after the lines that its checks read. -/
def Vp.fails (p : Vp) (code : Nat) (val : Word) (l : List (Nat × Bool)) : VpEnd := .trap code val (p.reads l).lines
/-- The next word. -/
def Vp.step (p : Vp) : Vp := { p with pc := p.pc + 8 }

/-- The state as a VP reads registers. -/
def State.asVp (s : State) (p : Vp) : State := s.setFile p.file

/-- One operand value of a VP's element. -/
def State.vpB (s : State) (b : OpB) (i : Nat) : Nat :=
  match b with
  | .none => 0
  | .vec t r => s.vval t r.toNat i
  | .scalar t r => s.broadcast t r
def State.vpC (s : State) (e : ElemSpec) (i : Nat) : Nat :=
  match e.c with
  | .none => 0
  | .dest => s.vval e.td e.d.toNat i
  | .mask r => bitN ((s.kreg r.toNat).getLsbD i)

/-- The result of an element-wise member for a VP; a VP that the execution mask turns off gets zero, as an element does
outside a block (R82). -/
def State.vpResult (s : State) (e : ElemSpec) (i : Nat) : FRes :=
  if s.active e.k.toNat i then e.fn i (s.vval e.ta e.a.toNat i) (s.vpB e.b i) (s.vpC e i)
  else { bits := 0, flags := 0, mark := false }

/-- Hold back a result: the element, its flags, and its mark (R69). -/
def Vp.result (p : Vp) (s : State) (e : ElemSpec) (r : FRes) : Vp :=
  let p := { (p.put s.vlmax s.vl (.elem e.td e.d.toNat r.bits)) with flags := p.flags ||| r.flags }
  if r.mark then p.put s.vlmax s.vl (.bit s.regs.satk.toNat true) else p

/-- The element-wise members that write a vector register, as they execute. -/
def elemSpecOf (r : ThreadRegs) : Instr → Option ElemSpec
  | .vadd f => some (specVadd f) | .vsub f => some (specVsub f) | .vmul f => some (specVmul f)
  | .vmulh f => some (specVmulh f) | .vmin f => some (specVmin f) | .vmax f => some (specVmax f)
  | .vand f => some (specVand f) | .vor f => some (specVor f) | .vxor f => some (specVxor f)
  | .vshl f => some (specVshl f) | .vshr f => some (specVshr f) | .vsra f => some (specVsra f)
  | .vabs f => some (specVabs f) | .vneg f => some (specVneg f) | .vsel f => some (specVsel f)
  | .vmulw f => some (specVmulw f) | .vmacw f => some (specVmacw f)
  | .vfadd f => some (specVfadd r f) | .vfsub f => some (specVfsub r f) | .vfmul f => some (specVfmul r f)
  | .vffma f => some (specVffma r f) | .vffms f => some (specVffms r f) | .vfnma f => some (specVfnma r f)
  | .vfdiv f => some (specVfdiv r f) | .vfsqrt f => some (specVfsqrt r f) | .vfrcp f => some (specVfrcp r f)
  | .vfrsqrt f => some (specVfrsqrt r f) | .vfexp2 f => some (specVfexp2 r f) | .vflog2 f => some (specVflog2 r f)
  | .vfmin f => some (specVfmin r f) | .vfmax f => some (specVfmax r f) | .vfabs f => some (specVfabs r f)
  | .vfneg f => some (specVfneg r f) | .vfclass f => some (specVfclass f) | .vcvt f => some (specVcvt r f)
  | _ => none

/-- The comparisons. -/
def cmpOf (r : ThreadRegs) : Instr → Option (W3 × CmpFn)
  | .vcmp f => some (f, cmpInt f)
  | .vfcmp f => some (f, cmpFloat r f)
  | _ => none

/-- The address of a VP's one element access. -/
inductive VpMem where
  | unit | strided | indexed
  deriving DecidableEq, Repr
/-- The memory members a VP may execute: its fields, how it addresses, and whether it stores. -/
def memOf : Instr → Option (WM × VpMem × Bool)
  | .vld f => some (f, .unit, false) | .vlds f => some (f, .strided, false) | .vldg f => some (f, .indexed, false)
  | .vst f => some (f, .unit, true) | .vsts f => some (f, .strided, true) | .vstg f => some (f, .indexed, true)
  | _ => none

/-- The element a VP accesses (Table 18.2). -/
def State.vpElem (s : State) (f : WM) (m : VpMem) (i : Nat) : Elem :=
  let base := s.base f (tySize f.ty)
  match m with
  | .unit => unitElem base f.ty i
  | .strided => stridedElem base (s.getS f.b) f.ty i
  | .indexed =>
    { va := base + BitVec.ofInt 64 (sext 32 (s.velem .i32 f.b.toNat i)) * BitVec.ofNat 64 (tySize f.ty),
      size := tySize f.ty, high := false }

/-- A memory member that has completed for a VP: its progress word (R231) rises once for the VP. -/
def State.vpProgress (s : State) (f : WM) (p : Vp) : VpEnd :=
  if f.c = 0 then .go p.step
  else match s.scalarAccess p.mem s.me .store (s.getS f.c) 8 8 false with
    | .error c => p.fails c (s.getS f.c) (s.scalarTried p.mem s.me .store (s.getS f.c) 8)
    | .ok w => .go ((p.reads (s.scalarReads p.mem s.me .store (s.getS f.c) w.pa)).hold (.add1 w.pa w.key)).step

/-- The one element access of a VP, after its checks (R238, R239). `s` reads as the VP does. -/
def State.vpAccess (s : State) (f : WM) (m : VpMem) (store : Bool) (p : Vp) : VpEnd :=
  let pw := s.vpProgress f p
  match pw with
  | .trap c v l => .trap c v l
  | .go _ =>
    if !s.active f.k.toNat p.idx then
      s.vpProgress f (if store then p else p.put s.vlmax s.vl (.elem f.ty f.d.toNat 0))
    else
      let e := s.vpElem f m p.idx
      match s.vectorAccess p.mem s.me (if store then .store else .load) e.va e.size e.size with
      | .error c => p.fails c e.va (s.vectorTried p.mem s.me (if store then .store else .load) e.va e.size)
      | .ok q =>
        let p := p.reads (s.vectorReads s.me (if store then .store else .load) e.va q.pa)
        if store then s.vpProgress f (p.hold (e.effect f.ty q (s.velem f.ty f.d.toNat p.idx)))
        else
          let b := ofBytes (s.loadAt p.mem q e.size)
          let x := if f.ty.width < 8 then (if e.high then b / 16 else b % 16) else b
          s.vpProgress f ((p.put s.vlmax s.vl (.elem f.ty f.d.toNat x)).reads (dataReads q.pa e.size (Ord.acquires f.ord)))

/-- A half that a VP may execute. -/
def vpHalf (h : Half) : Bool := h.op.isVector || h.op == .nop
/-- A vector half's result for a VP, put into its held-back writes; `s` reads as the VP did before the word. -/
def State.vpHalfPut (s : State) (h : Half) (slotB : Bool) (p : Vp) : Vp :=
  if h.op.isVector then
    let e := halfSpec h slotB s.regs
    p.result s e (s.vpResult e p.idx)
  else p

/-- An instruction of R45 executed by a VP; any other raises trap 1. -/
def State.vpInstr (s : State) (w : Word) (i : Instr) (p : Vp) : VpEnd :=
  let illegal := p.fails 1 w []
  let t := s.asVp p
  match i with
  | .nop _ => .go p.step
  | .pairedWord a b =>
    if !vpHalf a || !vpHalf b then illegal
    else if ((a.op.isVector || b.op.isVector) && !s.fits [.i32] false) then illegal
    else .go (t.vpHalfPut b true (t.vpHalfPut a false p)).step
  | i =>
    match elemSpecOf s.regs i, cmpOf s.regs i, memOf i with
    | some e, _, _ =>
      let mask := e.k != 0 || (match e.c with | .mask _ => true | _ => false)
      if s.fits e.types mask then .go (p.result t e (t.vpResult e p.idx)).step else illegal
    | _, some (f, c), _ =>
      if s.fits [f.ty] true then
        let b := t.active f.k.toNat p.idx && c (t.vval f.ty f.a.toNat p.idx) (t.vpB (vsOp f f.ty) p.idx)
        .go (p.put s.vlmax s.vl (.bit f.d.toNat b)).step
      else illegal
    | _, _, some (f, m, store) =>
      if s.fits [f.ty] (f.k != 0) then t.vpAccess f m store p else illegal
    | none, none, none => illegal

/-- The condition of a `vpbr` (R225): `.eq`, `.ne`, `.lt`, `.ge`. -/
def vpCond (r : ThreadRegs) (f : W3) (a b : Nat) : Bool :=
  let code := [0, 1, 2, 5].getD f.c.toNat 0
  if f.ty.isInt then icond code (readInt f.ty a) (readInt f.ty b)
  else fcond code (readFloat f.ty r.frmFz a).1 (readFloat f.ty r.frmFz b).1

/-- The k-th value of a link (R48): that of the highest active VP below, its last one, or the scalar operand. -/
def linkValue (below : Option (List Nat)) (k scalar : Nat) : Nat :=
  match below with
  | none => scalar
  | some l => match l[k]? with
    | some x => x
    | none => l.getLast?.getD scalar

/-- A BLOCK member executed by a VP (R225). -/
def State.vpControl (s : State) (w : Word) (below : Option (List Nat)) (i : VpInstr) (p : Vp) : VpEnd :=
  let t := s.asVp p
  match i with
  | .vpend => .go p
  | .vpbr f =>
    if !s.fits [f.ty] false then p.fails 1 w []
    else if vpCond s.regs f (t.velem f.ty f.a.toNat p.idx) (t.vpB (vsOp f f.ty) p.idx) then
      let target := p.pc + ((f.imm.setWidth 13).signExtend 64 <<< 3)
      if p.start ≤ target && target ≤ p.last then .go { p with pc := target } else p.fails 1 w []
    else .go p.step
  | .vpj f =>
    let target := p.pc + (immS f <<< 3)
    match s.vpendFrom 32 target with
    | .error (c, a) => p.fails c a (s.scalarTried s.view s.me .fetch a 8)
    | .ok none => p.fails 1 w []
    | .ok (some last) => .go { p with pc := target, start := target, last := last }
  | .xqpush f =>
    if s.fits [f.ty] false then .go { p with pushed := p.pushed ++ [t.velem f.ty f.a.toNat p.idx] }.step else p.fails 1 w []
  | .xqpop f =>
    if s.fits [f.ty] false then
      let x := linkValue below p.popped (s.getS f.a).toNat % 2 ^ f.ty.width
      .go { (p.put s.vlmax s.vl (.elem f.ty f.d.toNat x)) with popped := p.popped + 1 }.step
    else p.fails 1 w []

/-- Run a VP to its `vpend`: at most n − 1 instructions before it (R44). -/
def State.vpRun (s : State) (below : Option (List Nat)) : Nat → Vp → VpEnd
  | 0, p => p.fails 1 p.pc []
  | n + 1, p =>
    match s.fetchWord p.pc with
    | .error c => p.fails c p.pc (s.fetchLines p.pc)
    | .ok w =>
      let p := p.reads (s.fetchLines p.pc)
      match decodeVp w with
      | some .vpend => .go p
      | some i =>
        if n = 0 then p.fails 1 w []
        else match s.vpControl w below i p with
          | .trap c v l => .trap c v l
          | .go p => State.vpRun s below n p
      | none =>
        match decodeWord w with
        | .error _ => p.fails (if w.getLsbD 63 then 2 else 1) w []
        | .ok i =>
          if n = 0 then p.fails 1 w []
          else match s.vpInstr w i p with
            | .trap c v l => .trap c v l
            | .go p => State.vpRun s below n p

-- The block --------------------------------------------------------------------------------------------------------------

/-- Run the active VPs in index order: the lowest one that faults, with its trap and the lines that the VPs read till then, or all
of them at their `vpend`. -/
def State.vpAll (s : State) (start last : Word) : Option (List Nat) → List Nat →
    Except (Nat × Nat × Word × List (Nat × Bool)) (List Vp)
  | _, [] => .ok []
  | below, i :: rest =>
    let p : Vp := { idx := i, pc := start, start := start, last := last, file := s.file, mem := s.view, writes := [],
                    es := [], lines := [], flags := 0, pushed := [], popped := 0 }
    match s.vpRun below 1025 p with
    | .trap c v l => .error (i, c, v, l.reverse)
    | .go p =>
      match State.vpAll s start last (some p.pushed) rest with
      | .error (j, c, v, l) => .error (j, c, v, p.lines.reverse ++ l)
      | .ok l => .ok (p :: l)

/-- Active VPs (R44). -/
def State.activeVps (s : State) (k : Nat) : List Nat := (List.range s.vl).filter (s.active k)

/-- The commit of a block (R46): register writes, flags, loads and stores of its VPs in index order, VSTART 0. Held, its stores
count as synchronising ones (R139). -/
def State.commitBlock (s : State) (l : List Vp) : State :=
  let file := l.foldl (fun (r : RegFile) p => p.writes.foldr (fun x r => r.put s.vlmax s.vl p.idx x) r) s.file
  let s := (s.setFile file).orFlags (l.foldl (fun a p => a ||| p.flags) 0)
  let reads := readsOf (l.flatMap (fun p => p.lines.reverse)).eraseDups
  (s.issueAs .ar (reads ++ l.flatMap (fun p => p.es.reverse))).setVstart 0

/-- Where a `vfetch` starts its block. -/
def State.blockTarget (s : State) (f : W3) : Word := (if f.a = 0 then s.pc else s.getS f.a) + (immS f <<< 3)

/-- `vfetch`, a failed block with the lines that it read (R108), with what to do once its block has run: `again` is asked when a
speculative thread has no room to hold the block's stores. -/
def State.vpBlock (s : State) (f : W3) (again : Option (State → Done)) : Done :=
  let target := s.blockTarget f
  if target.toNat % 8 ≠ 0 then s.trapHere 4 target
  else match s.vpendFrom 32 target with
    | .error (c, a) => s.failScalar .fetch 8 c a
    | .ok none => s.illegal (.vfetch f) 1
    | .ok (some last) =>
      match s.vpAll target last none (s.activeVps f.k.toNat) with
      | .error (i, c, v, l) =>
        .trap { code := c, val := v, point := s.pc, asy := false, blk := true, fid := 0 }
          ((s.issue (readsOf l.eraseDups)).setVstart i)
      | .ok l =>
        match again with
        | none => (s.commitBlock l).complete
        | some k =>
          if l.any (fun p => !p.es.isEmpty) && decide (16 ≤ (s.thr.held.filter (fun h => h.counts)).length) then s.confirming k
          else (s.commitBlock l).complete

/-- Where the stores of its VPs go, if every one of them reaches its `vpend`. -/
def State.blockSpans (s : State) (f : W3) : List (Nat × Nat) :=
  let target := s.blockTarget f
  match s.vpendFrom 32 target with
  | .ok (some last) =>
    match s.vpAll target last none (s.activeVps f.k.toNat) with
    | .ok l => l.flatMap (fun p => p.es.flatMap Effect.span)
    | .error _ => []
  | _ => []
/-- Where the thread's held effects write: a block, whose loads run before its stores are performed, passes none of them. -/
def State.heldSpans (s : State) : List (Nat × Nat) := s.thr.held.flatMap (fun h => h.es.flatMap Effect.span)
/-- `vfetch` (R225): a thread that holds 16 effects and would hold the block's stores confirms its probes and runs the
block again (R312). -/
def execVfetch (f : W3) (s : State) : Result :=
  (s.inOrder .ar State.heldSpans (fun s => s.vpBlock f (some (fun s => s.vpBlock f none)))).finish

end Sys2Proof.Machine
end

