-- ==== Sys2Proof/Machine/Images.lean ====
section
/-!
DEFINITION. Stored vector images (R94-R96) and the meanings of `vlde` and `vste` (R243).
-/
namespace Sys2Proof.Machine
open Sys2Proof

-- Images (Tables 7.8, 7.9) ----------------------------------------------------------------------------------------------

/-- An image header. -/
structure ImageHeader where
  tag : Nat
  ty : Nat
  n : Nat
  p : Nat
  dw : Nat
  deriving DecidableEq, Repr

def Tag.code : Tag → Nat
  | .plain => 0 | .run => 1 | .dict => 2 | .delta => 3
def tagOf (n : Nat) : Tag := match n with | 1 => .run | 2 => .dict | 3 => .delta | _ => .plain

/-- The header in 16 bytes, or none when a reserved byte or bit is set (R96). -/
def imageHeader (b : List Byte) : Option ImageHeader :=
  let tag := natAt b 0 1
  let ty := natAt b 1 1
  if tag ≥ 4 || ty ≥ 16 || natAt b 7 9 != 0 then none
  else some { tag := tag, ty := ty, n := natAt b 2 2, p := natAt b 4 2, dw := natAt b 6 1 }

/-- Bytes of n values of w bits, padded to 8. -/
def partBytes (n w : Nat) : Nat := roundUp (ceilDiv (n * w) 8) 8

/-- Sizes of the two parts of an image (Table 7.9). -/
def imageParts (t : Ty) (tag : Tag) (n p dw : Nat) : Nat × Nat :=
  match tag with
  | .plain => (partBytes n t.width, if t.isTile then partBytes n 16 else 0)
  | .run => (partBytes p t.width, partBytes p 16)
  | .dict => (partBytes p t.width, partBytes n 8)
  | .delta => (partBytes 1 t.width, partBytes n dw)

/-- The largest N of R96: VLMAX × 32 / w, or VLMAX for the tile types. -/
def imageCap (vlmax : Nat) (t : Ty) : Nat := if t.isTile then vlmax else vlmax * 32 / t.width
/-- The conditions of R96 on a header, for a register of at most `cap` elements of type `t`. -/
def imageHeaderOk (h : ImageHeader) (t : Ty) (cap : Nat) : Bool :=
  let tag := tagOf h.tag
  h.ty == t.code && decide (h.n ≤ cap)
    && (match tag with
        | .plain => h.p == 0
        | .run => decide (1 ≤ h.p) && decide (h.p ≤ h.n)
        | .dict => decide (1 ≤ h.p) && decide (h.p ≤ 256)
        | .delta => h.p == 1)
    && (if tag == .delta then t.isInt && (h.dw == 8 || h.dw == 16) else h.dw == 0)
    && (tag == .plain || !(t.isTile || t.wide))

/-- n values of w bits packed in bytes from an offset (R54). -/
def unpack (b : List Byte) (off n w : Nat) : List Nat :=
  let x := natAt b off (ceilDiv (n * w) 8)
  (List.range n).map (fun i => x / 2 ^ (w * i) % 2 ^ w)

/-- The bytes that pad n values of w bits are zero (R95). -/
def padded (b : List Byte) (off n w : Nat) : Bool := natAt b off (partBytes n w) / 2 ^ (n * w) == 0

/-- Strictly increasing. -/
def rising : List Nat → Bool
  | x :: y :: r => decide (x < y) && rising (y :: r)
  | _ => true

/-- The conditions of R96 on the planes. -/
def planesOk (t : Ty) (tag : Tag) (n p : Nat) (idx : List Nat) : Bool :=
  match tag with
  | .plain => !t.isTile || idx.all (fun x => decide (x < 4096))
  | .run => rising idx && idx.getLast? == some n
  | .dict => idx.all (fun c => decide (c < p))
  | .delta => true

/-- An encoded register that breaks a limit of R407. -/
def overLimit (vlmax : Nat) (tag : Tag) (n p : Nat) : Bool :=
  match tag with
  | .plain => false
  | .run => decide (vlmax < p)
  | .dict | .delta => decide (vlmax < n)

/-- Values of runs from a position on, up to each run's end. -/
def runElems : Nat → List (Nat × Nat) → List Nat
  | _, [] => []
  | i, (x, e) :: r => List.replicate (e - i) x ++ runElems (max i e) r
/-- A base and its differences summed up. -/
def sumElems (w : Nat) : Nat → List Nat → List Nat
  | _, [] => []
  | a, d :: r => truncI w ((a : Int) + sext 16 d) :: sumElems w (truncI w ((a : Int) + sext 16 d)) r
/-- The elements that an image's parts stand for (Table 7.2). -/
def imageElems (w : Nat) (tag : Tag) (vals idx : List Nat) : List Nat :=
  match tag with
  | .plain => vals
  | .run => runElems 0 (vals.zip idx)
  | .dict => let a := vals.toArray; idx.map (fun c => a.getD c 0)
  | .delta => sumElems w (vals.headD 0) idx

/-- The register, of a type of at most 32 bits, in a checked image's planes (R95, R96), PLAIN when R407 says so; none when
the planes are not well formed. -/
def imageReg (vlmax : Nat) (t : Ty) (h : ImageHeader) (planes : List Byte) : Option VReg :=
  let tag := tagOf h.tag
  let (a, _) := imageParts t tag h.n h.p h.dw
  let count := match tag with | .plain => h.n | .run | .dict => h.p | .delta => 1
  let vals := unpack planes 0 count t.width
  let idx := match tag with
    | .plain => if t.isTile then unpack planes a h.n 16 else []
    | .run => unpack planes a h.p 16
    | .dict => unpack planes a h.n 8
    | .delta => (unpack planes a h.n h.dw).map (fun x => truncI 16 (sext h.dw x))
  let width2 := match tag with | .plain | .run => 16 | .dict => 8 | .delta => h.dw
  let count2 := match tag with | .plain => if t.isTile then h.n else 0 | .run => h.p | _ => h.n
  if !planesOk t tag h.n h.p idx || !padded planes 0 count t.width || !padded planes a count2 width2 then none
  else if overLimit vlmax tag h.n h.p then some (plainReg t h.n h.n (imageElems t.width tag vals idx) [])
  else
    some { tag := tag, ty := t, n := h.n, p := h.p, prog := h.n,
           data := BitVec.ofNat 65536 (packElems t.width vals), index := BitVec.ofNat 32768 (packElems 16 idx) }

/-- Values packed into bytes and padded to 8. -/
def packBytes (w : Nat) (l : List Nat) : List Byte := toBytes (partBytes l.length w) (packElems w l)

/-- An image from its fields. -/
def imageOf (t : Ty) (tag : Tag) (n p : Nat) (vals idx : List Nat) : List Byte :=
  toBytes 1 tag.code ++ toBytes 1 t.code ++ toBytes 2 n ++ toBytes 2 p ++ toBytes 1 (if tag == .delta then 16 else 0)
    ++ toBytes 9 0 ++ packBytes t.width vals
    ++ (match tag with
        | .plain => if t.isTile then packBytes 16 idx else []
        | .run | .delta => packBytes 16 idx
        | .dict => packBytes 8 idx)

/-- The image that `vste` writes of register d in type t (R95). For a register of the other tile type the scale words are
written as 0, which the spec leaves open (log entry 45). -/
def State.image (s : State) (t : Ty) (d : Nat) : List Byte :=
  let v := s.vreg d
  let n := s.vl
  if v.tag == .plain || v.n != n || v.ty != t || t.wide then
    imageOf t .plain n 0 (s.velems t d n) (if v.ty == t then s.vscales d n else List.replicate n 0)
  else
    let count := match v.tag with | .delta => 1 | _ => v.p
    imageOf t v.tag n v.p ((List.range count).map (v.slot t.width))
      ((List.range (match v.tag with | .run => v.p | _ => n)).map
        (fun i => if v.tag == .dict then v.idx i % 256 else v.idx i))

-- vlde, vste ------------------------------------------------------------------------------------------------------------

/-- Read an image at an address: its header, and its planes when the header is well formed; or the failed check. -/
def State.readImage (s : State) (m : MemSys) (va : Word) (t : Ty) (n : Nat) :
    Except (Nat × Word) (Option (ImageHeader × List Byte)) :=
  match s.vecRange m s.me .load va 8 2 with
  | some e => .error e
  | none =>
    match imageHeader (s.vecBytes m s.me va 8 2) with
    | none => .ok none
    | some h =>
      if h.n != n || !imageHeaderOk h t (imageCap s.vlmax t) then .ok none
      else
        let (a, b) := imageParts t (tagOf h.tag) h.n h.p h.dw
        let units := (a + b) / 8
        match s.vecRange m s.me .load (va + 16) 8 units with
        | some e => .error e
        | none => .ok (some (h, s.vecBytes m s.me (va + 16) 8 units))

/-- Put a loaded image into vD; one that is not well formed gives zeros and INV (R96). -/
def State.putImage (s : State) (t : Ty) (d : Nat) (img : Option (ImageHeader × List Byte)) : State :=
  let zeros := List.replicate s.vl 0
  match img with
  | none => (s.writePlain t d s.vl zeros zeros).orFlags flINV
  | some (h, planes) =>
    if t.wide then s.writePlain t d s.vl (unpack planes 0 h.n 64) []
    else match imageReg s.vlmax t h planes with
      | none => (s.writePlain t d s.vl zeros zeros).orFlags flINV
      | some v => s.setVreg d v

/-- The lines that a load of an image reads: its header, and its planes when the header is well formed. -/
def State.imageReads (s : State) (f : WM) (va : Word) (img : Option (ImageHeader × List Byte)) : List Effect :=
  let acq := Ord.acquires f.ord
  s.rangeReads s.view .load acq va 8 2
    ++ (match img with
        | some (_, planes) => s.rangeReads s.view .load acq (va + 16) 8 (planes.length / 8)
        | none => [])

/-- Where it lies. -/
def State.imageSpans (s : State) (f : WM) : List (Nat × Nat) :=
  let va := s.base f 16
  s.vectorSpans .load va 8 2
    ++ (match s.readImage s.view va f.ty s.vl with
        | .ok (some (_, planes)) => s.vectorSpans .load (va + 16) 8 (planes.length / 8)
        | _ => [])

/-- A base that is not a multiple of 16 is trap 4 before R98's check of it (log entry 14). -/
def execVlde (f : WM) (s : State) : Result :=
  (s.fitting (.vlde f) [f.ty] false (fun s => s.loading f (fun s => s.imageSpans f) (fun s =>
    let va := s.base f 16
    if va.toNat % 16 ≠ 0 then s.trapHere 4 va
    else
      let s := s.vdone
      match s.readImage s.view va f.ty s.vl with
      | .error (c, a) => s.failVector .load 8 c a
      | .ok img => (s.putImage f.ty f.d.toNat img).finishMem f (s.getS f.c) (s.imageReads f va img)))).finish

/-- The base as `vlde`'s. -/
def execVste (f : WM) (s : State) : Result :=
  (s.fitting (.vste f) [f.ty] false (fun s => s.memory f (fun s =>
    let va := s.base f 16
    if va.toNat % 16 ≠ 0 then s.trapHere 4 va
    else
      let s := s.vdone
      let img := s.image f.ty f.d.toNat
      match s.vecRange s.view s.me .store va 8 (img.length / 8) with
      | some (c, a) =>
        (s.issueAs f.ord (s.rangeStores s.view va 8 (img.take ((a - va).toNat / 8 * 8)))).failVector .store 8 c a
      | none => s.finishMem f (s.getS f.c) (s.rangeStores s.view va 8 img)))).finish

end Sys2Proof.Machine
end

