-- ==== Sys2Proof/Machine/VecEnc.lean ====
section
/-!
DEFINITION. Meanings of VENC (R280-R282) and MASK (R283).
-/
namespace Sys2Proof.Machine
open Sys2Proof

-- VENC -------------------------------------------------------------------------------------------------------------------

/-- The distinct patterns of a list in order of first appearance. -/
def distinct (l : List Nat) : List Nat := l.foldl (fun a x => if a.contains x then a else a ++ [x]) []

/-- Differences of consecutive elements read as signed w-bit numbers, the first 0 (Table 7.2). -/
def deltas (w : Nat) : Nat → List Nat → List Int
  | _, [] => []
  | p, x :: rest => sext w (truncI w ((x : Int) - (p : Int))) :: deltas w x rest

/-- Elements as RUN (R280), or PLAIN beyond R407's limit. -/
def encodeRun (vlmax : Nat) (t : Ty) (l : List Nat) : VReg :=
  let runs := runsOf 0 l
  let n := l.length
  if vlmax < runs.length then plainReg t n n l [] else runReg t n n runs
/-- Elements as DICT, or PLAIN with more than 256 patterns or beyond R407's limit. -/
def encodeDict (vlmax : Nat) (t : Ty) (l : List Nat) : VReg :=
  let entries := distinct l
  let n := l.length
  if 256 < entries.length || vlmax < n then plainReg t n n l []
  else
    { tag := .dict, ty := t, n := n, p := entries.length, prog := n,
      data := BitVec.ofNat 65536 (packElems t.width entries),
      index := BitVec.ofNat 32768 (packElems 16 (l.map (fun x => entries.idxOf x))) }
/-- Elements as DELTA, or PLAIN when a difference needs more than 16 bits or beyond R407's limit. -/
def encodeDelta (vlmax : Nat) (t : Ty) (l : List Nat) : VReg :=
  let n := l.length
  let base := l.headD 0
  let ds := deltas t.width base l
  if vlmax < n || ds.any (fun d => decide (d < -32768) || decide (32767 < d)) then plainReg t n n l []
  else
    { tag := .delta, ty := t, n := n, p := 1, prog := n, data := BitVec.ofNat 65536 base,
      index := BitVec.ofNat 32768 (packElems 16 (ds.map (truncI 16))) }
/-- `.auto` (R280). -/
def encodeAuto (vlmax rdiv : Nat) (t : Ty) (l : List Nat) : VReg :=
  let n := l.length
  if (runsOf 0 l).length * rdiv ≤ n then encodeRun vlmax t l else encodeDict vlmax t l

/-- Re-encode elements [0, VL) of A into D (R280); VL = 0 gives PLAIN with N = 0. -/
def State.reencode (s : State) (i : Instr) (f : W3) (enc : State → List Nat → VReg) : Done :=
  s.fitting i [f.ty] false (fun s =>
    let l := s.velems f.ty f.a.toNat s.vl
    let v := if s.vl = 0 then plainReg f.ty 0 0 [] [] else enc s l
    ((s.setVreg f.d.toNat v).setVstart 0).complete)

def execVencAuto (f : W3) (s : State) : Result :=
  (s.reencode (.vencAuto f) f (fun s l => encodeAuto s.vlmax s.regs.rdiv.toNat f.ty l)).finish
def execVencRun (f : W3) (s : State) : Result :=
  (s.reencode (.vencRun f) f (fun s l => encodeRun s.vlmax f.ty l)).finish
def execVencDict (f : W3) (s : State) : Result :=
  (s.reencode (.vencDict f) f (fun s l => encodeDict s.vlmax f.ty l)).finish
def execVencDelta (f : W3) (s : State) : Result :=
  (s.reencode (.vencDelta f) f (fun s l => encodeDelta s.vlmax f.ty l)).finish

/-- `vexpand` (R281). DESIGN CHOICE: it sets VSTART to 0, as R273 and R280 say of theirs and R281 does not (log entry 58). -/
def execVexpand (f : W3) (s : State) : Result :=
  (s.fitting (.vexpand f) [f.ty] false (fun s =>
    let (codes, scales) := splitTile f.ty (s.vvals f.ty f.a.toNat s.vl)
    ((s.writePlain f.ty f.d.toNat s.vl codes scales).setVstart 0).complete)).finish

/-- The descriptor of Table 7.1. -/
def VReg.descriptor (v : VReg) : Word :=
  regW [((match v.tag with | .plain => 0 | .run => 1 | .dict => 2 | .delta => 3), 0), (v.ty.code, 4), (v.n, 8), (v.p, 24),
        (v.prog, 40)]
/-- VL of another thread of the core that is inside an instruction which writes register r, if there is one (R91). -/
def State.writerVl (s : State) (r : Nat) : Option Nat :=
  (List.range 4).findSome? (fun i =>
    let t := s.thread { core := s.cur.core, thread := i }
    match t.stopped with
    | some (_, some d) => if i != s.cur.thread && d == r && t.specFile.isNone then some t.regs.vl else none
    | _ => none)
/-- `vinfo` (R282): of a register that another thread of the core is writing it shows N as that write will leave it, and its PROG. -/
def execVinfo (f : W3) (s : State) : Result :=
  let v := s.vreg f.a.toNat
  let v := match s.thr.specFile, s.writerVl f.a.toNat with
    | none, some n => { v with n := n }
    | _, _ => v
  .next (s.setS f.d v.descriptor).advance

-- MASK (R283) --------------------------------------------------------------------------------------------------------------

/-- kD := op(kA, kB) over all VLMAX bits. -/
def State.maskOp (s : State) (f : W3) (op : BitVec 2048 → BitVec 2048 → BitVec 2048) : State :=
  (s.setKreg f.d.toNat (op (s.kreg f.a.toNat) (s.kreg f.b.toNat))).advance

def execKand (f : W3) (s : State) : Result := .next (s.maskOp f (· &&& ·))
def execKor (f : W3) (s : State) : Result := .next (s.maskOp f (· ||| ·))
def execKxor (f : W3) (s : State) : Result := .next (s.maskOp f (· ^^^ ·))
def execKnot (f : W3) (s : State) : Result := .next (s.maskOp f (fun a _ => ~~~a))
def execKmov (f : W3) (s : State) : Result := .next (s.maskOp f (fun a _ => a))
/-- Set bits of kA below min(VL, VLMAX). -/
def execKpopc (f : W3) (s : State) : Result :=
  .next (s.setS f.d (BitVec.ofNat 64 (popCount (min s.vl s.vlmax) (s.kreg f.a.toNat).toNat))).advance
/-- The lowest set index below min(VL, VLMAX), or all ones. -/
def execKfirst (f : W3) (s : State) : Result :=
  .next (s.setS f.d (match lowestSet (min s.vl s.vlmax) 0 (s.kreg f.a.toNat).toNat with
    | some i => BitVec.ofNat 64 i
    | none => BitVec.allOnes 64)).advance

end Sys2Proof.Machine
end

