-- ==== Sys2Proof/Machine/Context.lean ====
section
/-!
DEFINITION. The save areas of R340 and R342 as bytes, and the meanings of CTX (R321, R341, R342).
-/
namespace Sys2Proof.Machine
open Sys2Proof

-- The vector save area (Table 24.10) -------------------------------------------------------------------------------------

/-- Bytes of one register slot, and the offsets of the parts after the slots. -/
def slotBytes (vm : Nat) : Nat := 64 + 6 * vm
def maskOffset (vm : Nat) : Nat := 64 + 32 * slotBytes vm
def accOffset (vm : Nat) : Nat := maskOffset vm + vm
def bOffset (vm : Nat) : Nat := accOffset vm + 16384
/-- Bytes of the whole area. -/
def areaBytes (vm : Nat) : Nat := bOffset vm + 131072

/-- The descriptor of a stationary register. -/
def bDescriptor (b : Option BReg) : Nat :=
  match b with
  | none => 0
  | some b => packFields [(1, 0), (b.kg, 1), (b.ng, 6), (b.bty.code, 10), (bitN b.tr, 14)]

/-- The 64 header bytes with VALID = 1. -/
def vectorHeader (f : RegFile) (vm : Nat) (mshape : BitVec 19) (slip : BitVec 4) (asid : Nat) : List Byte :=
  toBytes 4 1 ++ toBytes 4 1 ++ toBytes 2 vm ++ toBytes 2 asid ++ toBytes 4 f.dirty.toNat ++ toBytes 8 mshape.toNat
    ++ toBytes 8 slip.toNat ++ ((List.range 4).map (fun n => toBytes 8 (bDescriptor (vget f.b n none)))).flatten

/-- A register's slot: descriptor, data plane and index plane. -/
def VReg.slotImage (v : VReg) (vm : Nat) : List Byte :=
  toBytes 64 v.descriptor.toNat ++ toBytes (4 * vm) v.data.toNat ++ toBytes (2 * vm) v.index.toNat

/-- A W80 value in the 16-byte form of R57: significand, then exponent and sign. -/
def w80Bytes (x : BitVec 80) : List Byte := toBytes 16 x.toNat

/-- The parts of the area that a save writes, as offset and bytes: every slot when `full`, else those VDIRTY names. -/
def vectorParts (f : RegFile) (vm : Nat) (mshape : BitVec 19) (slip : BitVec 4) (asid : Nat) (full : Bool) :
    List (Nat × List Byte) :=
  [(0, vectorHeader f vm mshape slip asid)]
    ++ ((List.range 32).filter (fun n => full || f.dirty.getLsbD n)).map (fun n =>
        (64 + n * slotBytes vm, (vget f.v n VReg.zero).slotImage vm))
    ++ [(maskOffset vm, ((List.range 8).map (fun n => toBytes (vm / 8) (vget f.k n 0).toNat)).flatten),
        (accOffset vm, ((List.range 8).map (fun n =>
          ((vget f.acc n (Vector.replicate 128 0)).toList.map w80Bytes).flatten)).flatten)]
    ++ (List.range 4).map (fun n =>
        let im := match vget f.b n none with | some b => b.image | none => []
        (bOffset vm + 32768 * n, im ++ List.replicate (32768 - im.length) 0))

/-- The area's first 12 bytes call for every slot (R341): VALID was 0, or another context or VLMAX. -/
def saveFull (hdr : List Byte) (vm asid : Nat) : Bool :=
  natAt hdr 4 1 % 2 == 0 || natAt hdr 10 2 != asid || natAt hdr 8 2 != vm

/-- A register slot read back, under the conditions of R96 as R341 changes them; none when it fails them. A RUN that a stop at
element 0 left with no runs is restored as it was; an encoded slot fails where `enc`, feature bit 4, was not accepted (R181,
log entry 45). DESIGN CHOICE: bits [15:8] of the indices of a DICT are not checked and are loaded as they are stored; R96 asks only
that codes be less than P (log entry 45). -/
def slotReg (vm : Nat) (enc : Bool) (b : List Byte) : Option VReg :=
  let d := natAt b 0 8
  let tag := tagOf (bitsOf d 1 0)
  let n := bitsOf d 23 8
  let p := bitsOf d 39 24
  let prog := bitsOf d 55 40
  match Ty.ofCode (bitsOf d 7 4) with
  | none => none
  | some t =>
    let idx := (List.range (match tag with | .plain => if t.isTile then n else 0 | .run => p | _ => n)).map
      (fun i => natAt b (64 + 4 * vm + 2 * i) 2)
    let reserved := bitsOf d 3 2 != 0 || bitsOf d 63 56 != 0 || natAt b 8 56 != 0
    let counts := match tag with
      | .plain => p == 0
      | .run => (decide (1 ≤ p) && decide (p ≤ n)) || (p == 0 && n == 0)
      | .dict => decide (1 ≤ p) && decide (p ≤ 256)
      | .delta => p == 1 && t.isInt
    let ends := match tag with
      | .dict => idx.all (fun c => decide (c % 256 < p))
      | _ => planesOk t tag n p idx || (tag == .run && n == 0)
    if reserved || (tag != .plain && !enc) || capOf vm t < n || n < prog || !counts || (tag != .plain && (t.isTile || t.wide)) || overLimit vm tag n p
        || !ends then none
    else
      some { tag := tag, ty := t, n := n, p := p, prog := prog, data := BitVec.ofNat 65536 (natAt b 64 (4 * vm)),
             index := if tag == .plain && !t.isTile then 0 else BitVec.ofNat 32768 (natAt b (64 + 4 * vm) (2 * vm)) }

/-- A W80 value read back (R57), and whether it was replaced by the default NaN. Exponent 0 with integer bit 1 is named neither
valid nor replaced: it is loaded as it stands (log entry 45). -/
def w80Read (b : List Byte) : BitVec 80 × Bool :=
  let x := natAt b 0 10
  let e := bitsOf x 78 64
  if natAt b 10 6 != 0 || (e != 0 && e != 0x7FFF && !bitOf x 63) then (BitVec.ofNat 80 fmtW80.nan, true)
  else (BitVec.ofNat 80 x, false)

/-- A stationary register read back; the flag tells an image that is not well formed (R341). -/
def bRead (d : Nat) (image : List Byte) : Option BReg × Bool :=
  if !bitOf d 0 then (none, d != 0)
  else
    let kg := bitsOf d 5 1
    let ng := bitsOf d 9 6
    match Ty.ofCode (bitsOf d 13 10) with
    | none => (none, true)
    | some t =>
      let size := if t.isTile then kg * ng * (16 + payloadSize t) else 512 * kg * ng
      if d ≥ 2 ^ 15 || kg = 0 || ng = 0 || 8 < ng || (if t == .q4 then 16 else 8) < kg || !(t.isTile || t == .h || t == .bf)
      then (none, true)
      else (some { kg := kg, ng := ng, bty := t, tr := bitOf d 14, image := image.take size }, false)

/-- Some list element by index with a default, over functions of 0..n − 1. -/
def vecOf {α : Type} {n : Nat} (f : Nat → α) : Vector α n := Vector.ofFn (fun i => f i.val)

/-- The registers that an area holds (R341), read through `get` (offset, length), and whether FFLG.INV is set. -/
def vectorLoad (vm : Nat) (enc : Bool) (get : Nat → Nat → List Byte) : RegFile × Bool :=
  let hdr := get 0 64
  let slots := (List.range 32).map (fun n => slotReg vm enc (get (64 + n * slotBytes vm) (slotBytes vm)))
  let masks := (List.range 8).map (fun n => BitVec.ofNat 2048 (natAt (get (maskOffset vm + n * (vm / 8)) (vm / 8)) 0 (vm / 8)))
  let accs := (List.range 8).map (fun n => (List.range 128).map (fun i => w80Read (get (accOffset vm + 2048 * n + 16 * i) 16)))
  let bs := (List.range 4).map (fun n => bRead (natAt hdr (32 + 8 * n) 8) (get (bOffset vm + 32768 * n) 32768))
  ({ v := vecOf (fun n => ((slots.getD n none).getD VReg.zero)), k := vecOf (fun n => masks.getD n 0),
     acc := vecOf (fun n => vecOf (fun i => ((accs.getD n []).getD i (0, false)).1)),
     b := vecOf (fun n => (bs.getD n (none, false)).1), dirty := 0, busy := 0 },
   slots.any Option.isNone || accs.any (fun l => l.any (fun x => x.2)) || bs.any (fun x => x.2))

/-- MSHAPE and SLIP as an area holds them, put into a core by the rules of their fields. -/
def Core.loadShape (c : Core) (hdr : List Byte) : Core :=
  let m := BitVec.ofNat 19 (natAt hdr 16 8)
  let l := natAt hdr 24 1 % 16
  { c with mshape := if shapeOk m || m == 0 then m else c.mshape,
           slip := if 1 ≤ l && l ≤ 8 then BitVec.ofNat 4 l else c.slip }

-- The thread save area (R342) --------------------------------------------------------------------------------------------

/-- The 30 saved registers in order. -/
def ThreadRegs.savedList (r : ThreadRegs) : List Word :=
  [BitVec.ofNat 64 r.vl, r.vtype, BitVec.ofNat 64 r.vstart, r.encp, zextW r.satk, r.frm, zextW r.fflg, r.srseed,
   zextW r.acBase, r.acSize, zextW r.acThr, zextW r.acMet, zextW r.acDist, zextW r.acMaxr, r.acHits, r.acMiss,
   zextW r.tcause, r.tval, r.tpc, r.tstate, vget r.acReason 0 0, vget r.acReason 1 0, vget r.acReason 2 0,
   vget r.acReason 3 0, r.acSquash, zextW r.strip, r.tvec, r.tscratch, r.rstart, r.faultWord]

/-- Bytes of a list of words. -/
def wordBytes (l : List Word) : List Byte := (l.map (fun w => toBytes 8 w.toNat)).flatten

/-- The parts of a thread area that a save writes: all but the pending-reply header. -/
def threadParts (r : ThreadRegs) (asid : Nat) : List (Nat × List Byte) :=
  [(0, toBytes 4 1 ++ toBytes 4 asid ++ wordBytes (r.s.toList.drop 1) ++ wordBytes r.savedList ++ toBytes 16 0),
   (0x340, wordBytes r.shadow.toList ++ toBytes 96 0)]

/-- Registers restored from a thread area (R342): PC and the privilege stand, and ACSIZE is loaded as `csave` stored it, the SLG of
reset among its values (Table 22.6). -/
def ThreadRegs.restore (r : ThreadRegs) (b : List Byte) : ThreadRegs :=
  let w := fun (off : Nat) => BitVec.ofNat 64 (natAt b off 8)
  let j := fun (n : Nat) => w (0x200 + 8 * n)
  let r := { r with
    s := vecOf (fun n => if n = 0 then 0 else w (8 * n)),
    vl := (j 0).toNat % 65536, vtTy := (j 1).setWidth 4, vtEw := (j 1).extractLsb' 4 6, vtNeg := (j 1).getLsbD 10,
    vstart := (j 2).toNat % 65536, satk := (j 4).setWidth 3, fflg := (j 6).setWidth 6, srseed := j 7,
    acSlg := (j 9).setWidth 5, acNslot := (j 9).extractLsb' 8 24, acReason := vecOf (fun n => j (20 + n)), acSquash := j 24, strip := (j 25).setWidth 32, rstart := j 28, faultWord := j 29,
    shadow := vecOf (fun n => w (0x340 + 8 * n)) }
  [(0x004, 3), (0x006, 5), (0x050, 8), (0x052, 10), (0x053, 11), (0x054, 12), (0x055, 13), (0x056, 14),
   (0x057, 15), (0x020, 16), (0x021, 17), (0x022, 18), (0x023, 19), (0x024, 26), (0x025, 27)].foldl
    (fun r (x : Nat × Nat) => r.write x.1 (j x.2)) r

-- CTX --------------------------------------------------------------------------------------------------------------------

/-- The form of CTX (R321): probes confirmed, trap 3 for a user, and a base aligned to 64. -/
def State.ctxForm (s : State) (i : Instr) (f : W3) (k : State → Word → Done) : Done :=
  s.confirming (fun s => s.privileged i (fun s =>
    let base := s.getS f.a
    if base.toNat % 64 ≠ 0 then s.trapHere 4 base else k s base))

/-- The first failed check of parts to be stored, and their effects. -/
def State.partsBad (s : State) (base : Word) : List (Nat × List Byte) → Option (Nat × Word)
  | [] => none
  | (off, b) :: rest =>
    match s.vecRange s.msys s.me .store (base + BitVec.ofNat 64 off) 8 (b.length / 8) with
    | some e => some e
    | none => State.partsBad s base rest
def State.partEffects (s : State) (base : Word) (l : List (Nat × List Byte)) : List Effect :=
  l.flatMap (fun (off, b) => s.rangeStores s.msys (base + BitVec.ofNat 64 off) 8 b)

/-- Store the parts of an area (R341): a failed check raises its trap before anything is written. -/
def State.saveParts (s : State) (base : Word) (l : List (Nat × List Byte)) : Done :=
  match s.partsBad base l with
  | some (c, a) => s.failVector .store 8 c a
  | none => ((s.issue (s.partEffects base l)).chargeFree s.thr.asid).complete

/-- `vsave` (R341). -/
def execVsave (f : W3) (s : State) : Result :=
  (s.ctxForm (.vsave f) f (fun s base =>
    match s.vecRange s.msys s.me .load base 8 2 with
    | some (c, a) => s.failVector .load 8 c a
    | none =>
      let full := saveFull (s.vecBytes s.msys s.me base 8 2) s.vlmax s.thr.asid
      let s := s.issue (s.rangeReads s.msys .load false base 8 2)
      s.saveParts base (vectorParts s.file s.vlmax s.myCore.mshape s.myCore.slip s.thr.asid full))).finish

/-- `vrest` (R341). -/
def execVrest (f : W3) (s : State) : Result :=
  (s.ctxForm (.vrest f) f (fun s base =>
    match s.vecRange s.msys s.me .load base 8 8 with
    | some (c, a) => s.failVector .load 8 c a
    | none =>
      let hdr := s.vecBytes s.msys s.me base 8 8
      if natAt hdr 0 4 ≠ 1 || natAt hdr 4 1 % 2 ≠ 1 || natAt hdr 8 2 ≠ s.vlmax then s.illegal (.vrest f) 1
      else match s.vecRange s.msys s.me .load base 8 (areaBytes s.vlmax / 8) with
        | some (c, a) => s.failVector .load 8 c a
        | none =>
          let (file, inv) := vectorLoad s.vlmax (s.accepted.getLsbD 4) (fun off n =>
            (s.vecBytes s.msys s.me (base + BitVec.ofNat 64 off) 8 (n / 8)))
          let s := s.issue (s.rangeReads s.msys .load false base 8 (areaBytes s.vlmax / 8))
          let s := (s.setFile file).setMyCore ((s.setFile file).myCore.loadShape hdr)
          let s := if inv then s.orFlags flINV else s
          (s.chargeFree (natAt hdr 10 2)).complete)).finish

/-- `csave` (R342). -/
def execCsave (f : W3) (s : State) : Result :=
  (s.ctxForm (.csave f) f (fun s base => s.saveParts base (threadParts s.regs s.thr.asid))).finish

/-- `crest` (R342): the thread's reservations are cleared, and as VSTART and TPC are written, its done set is (R367). -/
def execCrest (f : W3) (s : State) : Result :=
  (s.ctxForm (.crest f) f (fun s base =>
    match s.vecRange s.msys s.me .load base 8 128 with
    | some (c, a) => s.failVector .load 8 c a
    | none =>
      let b := s.vecBytes s.msys s.me base 8 128
      if natAt b 0 4 ≠ 1 then s.illegal (.crest f) 1
      else
        let s := s.issue (s.rangeReads s.msys .load false base 8 128)
        let s := (s.setRegs (s.regs.restore b)).setSide { s.side.abandon with resv := none, vresv := [] }
        (s.chargeFree (natAt b 4 2)).complete)).finish

end Sys2Proof.Machine
end

