-- ==== Sys2Proof/Machine/Copy.lean ====
section
/-!
DEFINITION. The copy engine (R322-R328) and the circular buffers (R120, R330, R331): the meanings of COPY and CBUF, and
the six modes of a transfer. One event of a channel performs one row, one 64-byte line or tile record, or one page of the
transfer at its head.
-/
namespace Sys2Proof.Machine
open Sys2Proof

-- Shadow registers and MODE (Tables 24.3, 24.4) --------------------------------------------------------------------------

/-- A field of a shadow set. -/
def shGet (v : Vector Word 12) (i : Nat) : Nat := (vget v i 0).toNat
def shOpm (v : Vector Word 12) : Nat := bitsOf (shGet v 6) 2 0
def shCb (v : Vector Word 12) : Bool := bitOf (shGet v 6) 3
def shRty (v : Vector Word 12) : Nat := bitsOf (shGet v 6) 11 8
def shTrec (v : Vector Word 12) : Bool := bitOf (shGet v 6) 12
/-- BAR: its EN bit and the barrier id it names. -/
def shBarEn (v : Vector Word 12) : Bool := bitOf (shGet v 8) 15
def shBarId (v : Vector Word 12) : Nat := shGet v 8 % 2 ^ 15

/-- The first set of conditions of R323: what one shadow set may not hold. -/
def shadowBad (v : Vector Word 12) : Bool :=
  let opm := shOpm v
  let len := shGet v 2
  let rows := shGet v 5
  decide (2 ^ 13 ≤ shGet v 6) || decide (6 ≤ opm)
    || (shCb v && (!([0, 1, 4].contains opm) || shGet v 1 != 0))
    || (opm == 1 && shGet v 7 == 0)
    || ((opm == 2 || opm == 3) && (len % 64 != 0 || shGet v 0 % 64 != 0 || shGet v 1 % 64 != 0))
    || (opm == 3 && !([4, 5, 6, 7, 10].contains (shRty v)))
    || (shTrec v && (opm != 2 || rows != 1 || !(len == 128 || len == 256)))
    || (opm == 5 && (len % 4096 != 0 || rows != 1 || shGet v 0 % 4096 != 0 || shGet v 1 % 4096 != 0 || shGet v 10 == 0))
    || len == 0 || decide (2 ^ 32 < len) || decide (2 ^ 32 < rows) || decide (16 ≤ shGet v 7)
    || decide (2 ^ 16 ≤ shGet v 8) || bitOf (shGet v 8) 14 || bitsOf (shGet v 8) 10 9 != 0
    || (shBarEn v && !barrierIdOk (shBarId v))
    || decide (2 ^ 16 ≤ shGet v 9) || shGet v 10 % 16 != 0 || decide (3 < shGet v 11)

-- COPY -----------------------------------------------------------------------------------------------------------------

/-- `cpset` (R322): it clears RSTART and checks no value. -/
def execCpset (f : W3) (s : State) : Result :=
  (s.confirming (fun s =>
    (s.setRegs { s.regs with shadow := vset s.regs.shadow (f.immBits 3 0) (s.getS f.a), rstart := 0 }).complete)).finish

/-- W of a channel (R327): 4·q + CHAN of the lowest launch that has not completed, or of the next. -/
def Channel.mark (c : Channel) (chan : Nat) : Word :=
  BitVec.ofNat 64 (4 * (match c.queue with | t :: _ => t.count | [] => c.launched + 1) + chan)
def Quad.chan (q : Quad) (n : Nat) : Channel := vget q.channels n { launched := 0, queue := [] }
def Quad.setChan (q : Quad) (n : Nat) (c : Channel) : Quad := { q with channels := vset q.channels n c }

/-- The owner of the current thread; job 0 stands for no job. -/
def State.owner (s : State) : Owner := s.thr.owner.getD { job := 0, lcore := 0, tid := s.cur.thread }

/-- `cpstart` (R323): the checks, a barrier that is not held first (R183), then a wait for queue space, then the launch. -/
def execCpstart (f : W3) (s : State) : Result :=
  (s.confirming (fun s =>
    let v := s.regs.shadow
    if shBarEn v && barrierIdOk (shBarId v) && !s.holdsBarrier s.thr.asid (idScope (shBarId v)) (idIndex (shBarId v)) then
      s.illegal (.cpstart f) 3
    else if shadowBad v then s.illegal (.cpstart f) 1
    else
      let n := shGet v 11
      let c := s.myQuad.chan n
      if 8 ≤ c.queue.length then s.again
      else
        let t : Transfer := { count := c.launched + 1, owner := s.owner, core := s.cur.core, asid := s.thr.asid, shadow := v,
                              begun := s.regs.rstart.toNat, pos := s.regs.rstart.toNat, claims := [] }
        let s := s.setMyQuad (s.myQuad.setChan n { launched := c.launched + 1, queue := c.queue ++ [t] })
        let s := s.setRegs { s.regs with rstart := 0 }
        (s.setS f.d (BitVec.ofNat 64 (4 * (c.launched + 1) + n))).complete)).finish

/-- `cpwait` (R327). -/
def execCpwait (f : W3) (s : State) : Result :=
  (s.confirming (fun s =>
    let id := s.getS f.a
    let n := id.toNat % 4
    let w := (s.myQuad.chan n).mark n
    if id < w then (s.setS f.d w).complete else s.again)).finish

/-- `cpstat` (R327): W, RSTART or the fault word; item 3 is trap 1. -/
def execCpstat (f : W3) (s : State) : Result :=
  (s.confirming (fun s =>
    let n := f.immBits 1 0
    match f.immBits 3 2 with
    | 0 => (s.setS f.d ((s.myQuad.chan n).mark n)).complete
    | 1 => (s.setS f.d s.regs.rstart).complete
    | 2 => (s.setS f.d s.regs.faultWord).complete
    | _ => s.illegal (.cpstat f) 1)).finish

-- CBUF -----------------------------------------------------------------------------------------------------------------

/-- Scratch-window address of an offset (Table 9.3). -/
def scratchVa (off : Nat) : Word := 0x007FFFFFFFF00000 + BitVec.ofNat 64 off

/-- `cbinit` (R330). -/
def execCbinit (f : W3) (s : State) : Result :=
  (s.confirming (fun s =>
    let n := f.immBits 3 0
    let x := (s.getS f.a).toNat
    let base := x % 2 ^ 20
    let slotsz := bitsOf x 35 20
    let nslot := bitsOf x 43 36
    let size := s.scratchSize s.cur.core
    if !(s.myCore.cbuf n).transit.isEmpty then s.again
    else if 2 ^ 44 ≤ x || base % 64 ≠ 0 || slotsz = 0 || 1024 < slotsz then s.illegal (.cbinit f) 1
    else if size < base + nslot * slotsz * 64 then s.trapHere 7 (scratchVa size)
    else
      (s.setMyCore (s.myCore.setCbuf n { CBuf.zero with base := base, slotsz := slotsz, nslot := nslot })).complete)).finish

/-- Offset of a slot. -/
def CBuf.slotOffset (b : CBuf) (slot : Nat) : Nat := b.base + slot * b.slotsz * 64

/-- `cbwait` (R331). -/
def execCbwait (f : W3) (s : State) : Result :=
  (s.confirming (fun s =>
    let b := s.myCore.cbuf (f.immBits 3 0)
    let n := (s.getS f.a).toNat
    if b.nslot = 0 || b.nslot < n then s.illegal (.cbwait f) 1
    else if b.filled.length < n then s.again
    else (s.setS f.d (scratchVa (b.slotOffset (b.filled.headD b.readPos)))).complete)).finish

/-- `cbrel` (R331). -/
def execCbrel (f : W3) (s : State) : Result :=
  (s.confirming (fun s =>
    let k := f.immBits 3 0
    let b := s.myCore.cbuf k
    let n := (s.getS f.a).toNat
    if b.nslot = 0 || b.filled.length < n then s.illegal (.cbrel f) 1
    else
      let last := ((b.filled.take n).getLast?).map (fun x => (x + 1) % b.nslot)
      let b := { b with filled := b.filled.drop n, readPos := last.getD b.readPos }
      (s.setMyCore (s.myCore.setCbuf k b)).complete)).finish

/-- The first slot from a position on that is neither filled nor claimed, among n slots. -/
def CBuf.nextFree (b : CBuf) : Nat → Nat → Option Nat
  | 0, _ => none
  | n + 1, p => if b.filled.contains p || b.transit.contains p then CBuf.nextFree b n ((p + 1) % b.nslot) else some p
/-- Claim a slot (R120): none while FREE is 0. -/
def CBuf.claim (b : CBuf) : Option (Nat × CBuf) :=
  match b.nextFree b.nslot b.fillPos with
  | none => none
  | some p => some (p, { b with transit := b.transit ++ [p], fillPos := (p + 1) % b.nslot })
/-- A claimed slot is filled. -/
def CBuf.complete (b : CBuf) (slot : Nat) : CBuf :=
  { b with transit := b.transit.erase slot, filled := b.filled ++ [slot] }

-- Accesses of a transfer ------------------------------------------------------------------------------------------------

/-- The engine as an agent: the launching context and core. -/
def State.engine (s : State) (t : Transfer) : Who :=
  { asid := t.asid, keyid := match s.context t.asid with | some c => c.keyid | none => 0, core := t.core, user := false,
    engine := true }
/-- The unit that performs its accesses: the engine of its quad, which keeps no logical clock (R123). -/
def Transfer.unit (t : Transfer) : Nat := unitOn (dieOf t.core)

/-- A core runs a job. -/
def Core.runs (c : Core) (h : Nat) : Bool :=
  c.threads.any (fun t => match t.owner with | some o => o.job == h | none => false)
/-- A core is a job's: it runs it, or Winter has kept it for a logical core of the job, whose scratch and buffers stand there (R384). -/
def State.runsJob (s : State) (c h : Nat) : Bool :=
  (s.core c).runs h || s.jobs.any (fun j => j.handle == h && j.lcores.any (fun (_, l) => l.st == .saved && l.kept == some c))

/-- A failed check of a transfer: its trap code and address, and the lines read until then. -/
abbrev Failed := Nat × Word × List (Nat × Bool)

/-- Read n bytes in units that cross no 8-byte boundary (R324): the bytes below the first unit that fails, the lines read, and
that failure. -/
def State.readUnits (s : State) (w : Who) : Nat → Nat → Word → List Byte × List (Nat × Bool) × Option Failed
  | 0, _, _ => ([], [], none)
  | fuel + 1, n, va =>
    if n = 0 then ([], [], none)
    else
      let k := min n (8 - va.toNat % 8)
      match s.vectorAccess s.msys w .load va k 1 with
      | .error c => ([], [], some (c, va, s.vectorTried s.msys w .load va 1))
      | .ok p =>
        let (l, ls, e) := State.readUnits s w fuel (n - k) (va + BitVec.ofNat 64 k)
        (s.loadAt s.msys p k ++ l, s.vectorReads w .load va p.pa ++ dataReads p.pa k false ++ ls, e)
/-- All n bytes, or the failure. -/
def State.engineRead (s : State) (w : Who) (fuel n : Nat) (va : Word) : Except Failed (List Byte × List (Nat × Bool)) :=
  match s.readUnits w fuel n va with
  | (l, ls, none) => .ok (l, ls)
  | (_, ls, some (c, a, more)) => .error (c, a, ls ++ more)

/-- Where a row goes: memory, or the scratch of a core from an offset. -/
inductive Target where
  | memory
  | scratch (core off : Nat)
  deriving DecidableEq, Repr

/-- The place is the scratch of a core of this package that does not run the launching job (R323). -/
def State.strange (s : State) (t : Transfer) (pa : Nat) : Bool :=
  scratchRange pa && pa / 2 ^ 47 == s.pkg.toNat && !s.runsJob (scratchCore pa) t.owner.job
/-- Where the engine stores n bytes at a virtual address (R323): scratch, named by the window or by its physical address, whose
core does not run the launching job fails check 2. -/
def State.engineStore (s : State) (t : Transfer) (a : Word) (n align : Nat) : Except Failed Place :=
  if inScratch a && canonical a && !s.runsJob t.core t.owner.job then .error (7, a, [])
  else match s.vectorAccess s.msys (s.engine t) .store a n align with
    | .error c => .error (c, a, s.vectorTried s.msys (s.engine t) .store a align)
    | .ok p => if s.strange t p.pa then .error (7, a, []) else .ok p
/-- The place of k bytes at byte o of a row, whose destination address is `va`, and the lines its checks read (R323). -/
def State.targetPlace (s : State) (t : Transfer) (g : Target) (va : Word) (o k : Nat) :
    Except Failed (Place × List (Nat × Bool)) :=
  match g with
  | .memory =>
    let a := va + BitVec.ofNat 64 o
    match s.engineStore t a k 1 with
    | .error e => .error e
    | .ok p => .ok (p, s.vectorReads (s.engine t) .store a p.pa)
  | .scratch c off =>
    if !s.runsJob c t.owner.job || s.scratchSize c < off + o + k then .error (7, scratchVa (off + o), [])
    else .ok ({ pa := s.scratchPa c (off + o), key := 0 }, [])

/-- The places of one unit in every target. -/
def State.targetPlaces (s : State) (t : Transfer) (va : Word) (o k : Nat) :
    List Target → Except Failed (List (Place × List (Nat × Bool)))
  | [] => .ok []
  | g :: rest =>
    match s.targetPlace t g va o k with
    | .error e => .error e
    | .ok p =>
      match State.targetPlaces s t va o k rest with
      | .error e => .error e
      | .ok l => .ok (p :: l)

/-- A transfer's failure at a byte. -/
structure Fail where
  at_ : Nat
  code : Nat
  va : Word
  deriving DecidableEq, Repr

/-- An engine's reads at the homes of their lines (R108, R123). -/
def State.engineTouch (s : State) (t : Transfer) (lines : List (Nat × Bool)) : State :=
  s.performAll t.unit (readsOf lines.eraseDups)

-- Modes 0, 1 and 4 ------------------------------------------------------------------------------------------------------

/-- Bytes o to LEN − 1 of a row, all of them before any is written (R324): the source's, up to the first that cannot be read, or
the fill pattern; and what was read. -/
def State.rowData (s : State) (t : Transfer) (src : Word) (o : Nat) : List Byte × List (Nat × Bool) × Option Failed :=
  let n := shGet t.shadow 2 - o
  if shOpm t.shadow = 4 then
    ((List.range n).map (fun i => ((vget t.shadow 0 0) >>> (8 * ((o + i) % 8))).setWidth 8), [], none)
  else s.readUnits (s.engine t) n n (src + BitVec.ofNat 64 o)
/-- Write a row's bytes from byte o on to every target, unit by unit (R324): the byte reached, and a failure there. -/
def State.writeRow (t : Transfer) (gs : List Target) (dst : Word) :
    Nat → Nat → List Byte → State → State × Nat × Option Failed
  | 0, o, _, s => (s, o, none)
  | fuel + 1, o, bytes, s =>
    if bytes.isEmpty then (s, o, none)
    else
      let k := min bytes.length (8 - (dst + BitVec.ofNat 64 o).toNat % 8)
      match s.targetPlaces t dst o k gs with
      | .error e => (s.engineTouch t e.2.2, o, some e)
      | .ok ps =>
        let s := s.engineTouch t (ps.flatMap (·.2))
        let s := ps.foldl (fun s p => s.perform t.unit (.store p.1.pa (bytes.take k) p.1.key)) s
        State.writeRow t gs dst fuel (o + k) (bytes.drop k) s
/-- One row from byte o on (R324): all of it read, then what was read written. A failure names the byte of the row at which the
transfer stops (R328), below which all is written. -/
def State.moveRow (s : State) (t : Transfer) (gs : List Target) (src dst : Word) (o : Nat) : State × Option (Nat × Failed) :=
  let (bytes, lines, e) := s.rowData t src o
  let s := s.engineTouch t (lines ++ match e with | some e => e.2.2 | none => [])
  match State.writeRow t gs dst bytes.length o bytes s with
  | (s, b, some e) => (s, some (b, e))
  | (s, b, none) => (s, e.map (fun e => (b, e)))

/-- Claim a slot in each target that has none yet, in order (R324); false while one waits. -/
def State.claimSlots (t : Transfer) : List Nat → State → Transfer × State × Bool
  | [], s => (t, s, true)
  | c :: rest, s =>
    if t.claims.any (fun (d, _) => d == c) then State.claimSlots t rest s
    else match ((s.core c).cbuf t.cbn).claim with
      | none => (t, s, false)
      | some (slot, b) =>
        State.claimSlots { t with claims := t.claims ++ [(c, slot)] } rest (s.setCore c ((s.core c).setCbuf t.cbn b))

/-- The cores of a transfer's targets: those of MCAST in mode 1, else the launching core. -/
def Transfer.targetCores (t : Transfer) : List Nat :=
  if shOpm t.shadow = 1 then
    ((List.range 4).filter (fun i => bitOf (shGet t.shadow 7) i)).map (fun i => 4 * quadOf t.core + i)
  else [t.core]

/-- Credit bytes to the barrier of a transfer (R334): an overrun trap becomes pending in the launching thread. -/
def State.findThread (s : State) (o : Owner) : Option Hart :=
  (s.cores.findSome? (fun (c, x) =>
    ((List.range 4).find? (fun i => (vget x.threads i Thread.zero).owner == some o)).map
      (fun i => { core := c, thread := i })))

/-- Change what the device keeps with a thread, wherever it stands: resident, or saved with its logical core. -/
def State.updateSide (s : State) (o : Owner) (f : Side → Side) : State :=
  match s.findThread o with
  | some t => s.setThread t { s.thread t with side := f (s.thread t).side }
  | none =>
    match s.job o.job with
    | none => s
    | some j =>
      let l := j.lcore o.lcore
      s.setJob (j.setLcore o.lcore { l with threads := l.threads.mapIdx (fun i x =>
        if i = o.tid then { x with side := f x.side } else x) })

/-- Make an asynchronous cause pending in a thread. -/
def State.post (s : State) (o : Owner) (p : Pending) : State :=
  s.updateSide o (fun x => { x with pending := x.pending ++ [p] })

def State.creditBar (s : State) (t : Transfer) (n : Nat) : State :=
  if !shBarEn t.shadow || n = 0 then s
  else
    let id := shBarId t.shadow
    let (s, excess) := s.actBarrier t.core (idScope id) (idIndex id) 0 n
    if excess then s.post t.owner { code := 11, val := BitVec.ofNat 64 id, fid := 0 } else s

/-- Report a stop to the launcher (R328): RSTART, the fault word, and trap 16 at its next boundary. -/
def State.reportStop (s : State) (t : Transfer) (e : Fail) : State :=
  let r : Word × Word := (BitVec.ofNat 64 e.at_, BitVec.ofNat 64 e.code)
  let s := match s.findThread t.owner with
    | some h =>
      let x := s.thread h
      s.setThread h { x with regs := { x.regs with rstart := r.1, faultWord := r.2 } }
    | none => s.updateSide t.owner (fun x => { x with report := some r })
  s.post t.owner { code := 16, val := e.va, fid := 0 }

/-- Replace the transfer at the head of a channel, or remove it when it has completed. -/
def State.setHead (s : State) (quad chan : Nat) (t : Option Transfer) : State :=
  let q := s.quad quad
  let c := q.chan chan
  s.setQuad quad (q.setChan chan { c with queue := t.toList ++ c.queue.tail })

/-- Go on at a byte: the transfer completes at its last. -/
def State.transferTo (s : State) (quad chan : Nat) (t : Transfer) (pos : Nat) : State :=
  let t := { t with pos := pos, claims := [] }
  s.setHead quad chan (if shGet t.shadow 2 * shGet t.shadow 5 ≤ pos then none else some t)
/-- Stop a transfer (R328): it counts complete, and its claimed slots return to FREE. -/
def State.transferStop (s : State) (quad chan : Nat) (t : Transfer) (e : Fail) : State :=
  ((s.giveBackAll t).setHead quad chan none).reportStop t e

/-- One row of a copy, multicast or fill (R324), from the byte that RSTART or the row before left (R323). -/
def State.copyRow (s : State) (quad chan : Nat) (t : Transfer) : State :=
  let v := t.shadow
  let len := shGet v 2
  if len * shGet v 5 ≤ t.pos then s.transferTo quad chan t t.pos
  else
    let r := t.pos / len
    let o := t.pos % len
    let src := vget v 0 0 + BitVec.ofNat 64 r * vget v 3 0
    let dst := vget v 1 0 + BitVec.ofNat 64 r * vget v 4 0
    let cores := t.targetCores
    let credit := fun (s : State) (n : Nat) => cores.foldl (fun s _ => s.creditBar t n) s
    if shCb v then
      match cores.find? (fun c => !s.runsJob c t.owner.job) with
      | some c =>
        let b := (s.core c).cbuf t.cbn
        s.transferStop quad chan t { at_ := r * len, code := 7, va := scratchVa (b.slotOffset b.fillPos) }
      | none =>
        let (t, s, ready) := State.claimSlots t cores s
        if !ready then s.setHead quad chan (some t)
        else match t.claims.find? (fun (c, _) => ((s.core c).cbuf t.cbn).slotsz * 64 < len) with
          | some (c, slot) =>
            s.transferStop quad chan t { at_ := r * len, code := 7, va := scratchVa (((s.core c).cbuf t.cbn).slotOffset slot) }
          | none =>
            let gs := t.claims.map (fun (c, slot) => Target.scratch c (((s.core c).cbuf t.cbn).slotOffset slot))
            match s.moveRow t gs src 0 o with
            | (s, some (_, c, va, _)) => s.transferStop quad chan t { at_ := r * len, code := c, va := va }
            | (s, none) =>
              let s := t.claims.foldl (fun s (c, slot) =>
                s.setCore c ((s.core c).setCbuf t.cbn (((s.core c).cbuf t.cbn).complete slot))) s
              (credit s (len - o)).transferTo quad chan t ((r + 1) * len)
    else
      let gs := if shOpm v = 1 then cores.map (fun c => Target.scratch c dst.toNat) else [.memory]
      match s.moveRow t gs src dst o with
      | (s, some (b, c, va, _)) =>
        (credit s (b - o)).transferStop quad chan t { at_ := r * len + b, code := c, va := va }
      | (s, none) => (credit s (len - o)).transferTo quad chan t ((r + 1) * len)

/-- The transfer at the head of a channel, when it is of a mode and the engine runs (R383: not in Winter). -/
def State.headOf (s : State) (quad chan mode : Nat) : Option Transfer :=
  if s.winter then none
  else match ((s.quad quad).chan chan).queue with
    | [] => none
    | t :: _ => if shOpm t.shadow = mode then some t else none

def execCopyModeCopy (quad chan : Nat) (s : State) : Result :=
  match s.headOf quad chan 0 with
  | some t => .next (s.copyRow quad chan t)
  | none => .next s
def execCopyModeMulticast (quad chan : Nat) (s : State) : Result :=
  match s.headOf quad chan 1 with
  | some t => .next (s.copyRow quad chan t)
  | none => .next s
def execCopyModeFill (quad chan : Nat) (s : State) : Result :=
  match s.headOf quad chan 4 with
  | some t => .next (s.copyRow quad chan t)
  | none => .next s

-- Modes 2 and 3 (R325) --------------------------------------------------------------------------------------------------

/-- Set or clear bit m of the bitmap at FPOUT. -/
def State.outcomeBit (s : State) (t : Transfer) (m : Nat) (rejected : Bool) : Except Failed (List Effect) :=
  let base := vget t.shadow 10 0
  if base = 0 then .ok []
  else
    let va := base + BitVec.ofNat 64 (m / 8)
    match s.engineStore t va 1 1 with
    | .error e => .error e
    | .ok p =>
      let old := ofBytes (s.loadAt s.msys p 1)
      let bit := 2 ^ (m % 8)
      let new := if rejected then old ||| bit else old - (if bitOf old (m % 8) then bit else 0)
      .ok (readsOf (s.vectorReads (s.engine t) .store va p.pa) ++ [.store p.pa [BitVec.ofNat 8 new] p.key])

/-- Elements of two byte lists added in a type: wrapping integers, or binary32 in `.rne` (Table 24.4). -/
def addElems (t : Ty) (a b : List Byte) (n : Nat) : List Byte :=
  let z := t.width / 8
  (List.range n).flatMap (fun i =>
    let x := natAt a (i * z) z
    let y := natAt b (i * z) z
    toBytes z (if t.isInt then x + y
      else (floatOp (fmtOf t) .add ((fmtOf t).decode x) ((fmtOf t).decode y) (.fin false 0 0) .rne false 0).bits))

/-- A versioned write that its home rejects: it answers with the current version, and nothing else changes (R142, R144). -/
def State.rejected (s : State) (unit ln : Nat) (version : BitVec 16) : State :=
  (s.countAccess (64 * ln) (some (agentDie unit))).request unit ln false { done := false, version := version }
/-- One destination line, from byte o of it on: a versioned write of the source's bytes, or of their sum with the line (R142,
R325). Byte o is 0 but where `crest` loaded an RSTART inside a line: the write then leaves the bytes below, which the transfer
does not move (R323, log entry 25). -/
def State.versionedLine (s : State) (t : Transfer) (src dst : Word) (o : Nat) : Except Failed (State × Bool) :=
  let w := s.engine t
  let add := shOpm t.shadow = 3
  match s.engineRead w (64 - o) (64 - o) (src + BitVec.ofNat 64 o) with
  | .error e => .error e
  | .ok (bytes, lines) =>
    match s.engineStore t dst 64 64,
      (if add then s.vectorAccess s.msys w .load dst 64 64 else .ok { pa := 0, key := 0 }) with
      | .error e, _ => .error (e.1, e.2.1, lines ++ e.2.2)
      | _, .error c => .error (c, dst, lines ++ s.vectorTried s.msys w .load dst 64)
      | .ok p, .ok _ =>
        let s := s.engineTouch t (lines ++ s.vectorReads w .store dst p.pa)
        let l := s.msys.line (p.pa / 64)
        if l.version.toNat ≠ shGet t.shadow 9 then .ok (s.rejected t.unit (p.pa / 64) l.version, true)
        else
          let ty := (Ty.ofCode (shRty t.shadow)).getD .i32
          let new := if add then (addElems ty (s.loadAt s.msys p 64) (List.replicate o 0 ++ bytes) (64 / (ty.width / 8))).drop o
            else bytes
          let s := s.perform t.unit (.store (p.pa + o) new p.key)
          let l := s.msys.line (p.pa / 64)
          .ok ({ s with msys := s.msys.setLine (p.pa / 64) { l with version := l.version + 1 } }, false)

/-- One tile record: header and payload as one tile write while the destination's VERSION is the expected one. The source's
header goes over whole but for VERSION, its reserved bits with it, where R4 and R325 do not say which (log entry 26). The payload
goes from byte o on (R323). DESIGN CHOICE: a header off a multiple of 16, or a destination payload off a multiple of LEN, stops the
transfer with code 4, and the source payload has no alignment of its own; R325 asks for none (log entry 26). -/
def State.versionedRecord (s : State) (t : Transfer) (o : Nat) : Except Failed (State × Bool) :=
  let v := t.shadow
  let w := s.engine t
  let len := shGet v 2
  let src := vget v 0 0 + BitVec.ofNat 64 o
  let dst := vget v 1 0
  let srcH := vget v 3 0
  let dstH := vget v 4 0
  if srcH.toNat % 16 ≠ 0 then .error (4, srcH, [])
  else match s.engineRead w 16 16 srcH, s.engineRead w (len - o) (len - o) src with
    | .error e, _ => .error e
    | .ok (_, l1), .error e => .error (e.1, e.2.1, l1 ++ e.2.2)
    | .ok (hb, l1), .ok (pb, l2) =>
      match s.engineStore t dstH 16 16, s.engineStore t dst len len with
      | .error e, _ => .error (e.1, e.2.1, l1 ++ l2 ++ e.2.2)
      | _, .error e => .error (e.1, e.2.1, l1 ++ l2 ++ e.2.2)
      | .ok ph, .ok pp =>
        let s := s.engineTouch t (l1 ++ l2 ++ s.vectorReads w .store dstH ph.pa ++ s.vectorReads w .store dst pp.pa)
        let ver := shGet v 9
        let now := natAt (s.loadAt s.msys ph 16) 10 2
        if now ≠ ver then .ok (s.rejected t.unit (ph.pa / 64) (BitVec.ofNat 16 now), true)
        else
          let new := hb.take 10 ++ toBytes 2 (ver + 1) ++ hb.drop 12
          .ok (s.perform t.unit (.tile ph.pa new (pp.pa + o) pb (BitVec.ofNat 16 ver) ph.key pp.key none), false)

/-- Bytes of a row, up to byte `upTo` of the transfer, that this transfer has moved. -/
def Transfer.moved (t : Transfer) (rowStart upTo : Nat) : Nat := upTo - max t.begun rowStart

/-- One line or record of a versioned or reduce-add transfer (R325). DESIGN CHOICE: its FPOUT byte is checked before the line or
record is written, so that one that fails stops the transfer there with FPOUT's address; R325 gives the two no order (log entry 26).
-/
def State.copyVersioned (s : State) (quad chan : Nat) (t : Transfer) : State :=
  let v := t.shadow
  let len := shGet v 2
  if len * shGet v 5 ≤ t.pos then s.transferTo quad chan t t.pos
  else
    let r := t.pos / len
    let o := t.pos % len
    let unit := if shTrec v then len else 64
    let line := BitVec.ofNat 64 (o / 64 * 64)
    let src := vget v 0 0 + BitVec.ofNat 64 r * vget v 3 0 + line
    let dst := vget v 1 0 + BitVec.ofNat 64 r * vget v 4 0 + line
    let start := t.pos / unit * unit
    let fail := fun (s : State) (e : Failed) =>
      ((s.engineTouch t e.2.2).creditBar t (t.moved (r * len) start)).transferStop quad chan t
        { at_ := start, code := e.1, va := e.2.1 }
    match s.outcomeBit t (if shTrec v then 0 else t.pos / 64) false with
    | .error e => fail s e
    | .ok _ =>
      match (if shTrec v then s.versionedRecord t o else s.versionedLine t src dst (o % 64)) with
      | .error e => fail s e
      | .ok (s, rejected) =>
        let s := match s.outcomeBit t (if shTrec v then 0 else t.pos / 64) rejected with
          | .error _ => s
          | .ok es => s.performAll t.unit es
        let pos := start + unit
        (if pos % len = 0 then s.creditBar t (t.moved (r * len) pos) else s).transferTo quad chan t pos

def execCopyModeVersioned (quad chan : Nat) (s : State) : Result :=
  match s.headOf quad chan 2 with
  | some t => .next (s.copyVersioned quad chan t)
  | none => .next s
def execCopyModeReduceAdd (quad chan : Nat) (s : State) : Result :=
  match s.headOf quad chan 3 with
  | some t => .next (s.copyVersioned quad chan t)
  | none => .next s

-- Mode 5 (R326) ---------------------------------------------------------------------------------------------------------

/-- FOLD64 of a page: the sum over its words of word i exclusive-or i. -/
def foldPage (l : List Byte) : Word :=
  (List.range 512).foldl (fun a i => a + (BitVec.ofNat 64 (natAt l (8 * i) 8) ^^^ BitVec.ofNat 64 i)) 0

/-- A frame's reference count and fingerprint, and where they lie (R113, R326). -/
def Context.countAt (c : Context) (h : Nat) : Nat := c.cntBase + 2 * h
def Context.printAt (c : Context) (h : Nat) : Nat := c.fpBase + 16 * h
def State.poolCount (s : State) (c : Context) (h : Nat) : Nat := ofBytes (s.msys.load s.key0 (c.countAt h) 2)
def State.poolPrint (s : State) (c : Context) (h : Nat) : Nat := ofBytes (s.msys.load 0 (c.printAt h) 8)
def State.setPoolCount (s : State) (unit : Nat) (c : Context) (h n : Nat) : State :=
  s.perform unit (.store (c.countAt h) (toBytes 2 n) s.key0)

/-- A stretch of memory that a page's deduplication reads or writes. -/
abbrev Span := AccessKind × Nat × Nat
/-- The lowest frame from h on that holds the page, whether a fingerprint match before it was rejected, and what was read. -/
def State.matchFrame (s : State) (c : Context) (key : BitVec 256) (page : List Byte) (print : Nat) :
    Nat → Nat → Bool → Option Nat × Bool × List Span
  | 0, _, coll => (none, coll, [])
  | n + 1, h, coll =>
    let cnt := s.poolCount c h
    let counted := 1 ≤ cnt && cnt < 65535
    let alike := counted && s.poolPrint c h == print
    let spans : List Span := [(.load, c.countAt h, 2)] ++ (if counted then [(.load, c.printAt h, 8)] else [])
      ++ (if alike then [(.load, c.poolBase + 4096 * h, 4096)] else [])
    if alike && s.msys.load key (c.poolBase + 4096 * h) 4096 = page then (some h, coll, spans)
    else
      let (g, coll, more) := State.matchFrame s c key page print n (h + 1) (coll || alike)
      (g, coll, spans ++ more)
/-- The lowest frame from h on with count 0. -/
def State.freePoolFrame (s : State) (c : Context) : Nat → Nat → Option Nat
  | 0, _ => none
  | n + 1, h => if s.poolCount c h = 0 then some h else State.freePoolFrame s c n (h + 1)

/-- A page that can be deduplicated: its context, key and window entry, its content, the lines read for it, the place of its
record, its frame and that frame's outcome (OUT of Table 24.5), whether a fingerprint match was rejected, and the frame that
its entry names now. -/
structure Page where
  c : Context
  key : BitVec 256
  e : BitVec 128
  dst : Word
  bytes : List Byte
  lines : List (Nat × Bool)
  out : Place
  frame : Option Nat
  kind : Nat
  coll : Bool
  old : Option Nat
  deriving DecidableEq, Repr

/-- The pool frame that the frame-table entry of an address names while its P is 1 and its reserved bits are 0 (Table 9.7). -/
def State.namedFrame (s : State) (c : Context) (e : BitVec 128) (va : Word) : Option Nat :=
  match s.framePa s.msys e va with
  | some pa => if c.poolBase ≤ pa && pa < c.poolBase + c.poolCnt * 4096 then some ((pa - c.poolBase) / 4096) else none
  | none => none

/-- What a page writes in the pool and in the frame table. -/
def Page.writes (p : Page) : List Span :=
  match p.frame with
  | none => []
  | some h =>
    [(.store, p.c.countAt h, 2)]
      ++ (if p.kind = 0 then [(.store, p.c.poolBase + 4096 * h, 4096), (.store, p.c.printAt h, 8)] else [])
      ++ (match p.old with | some o => [(.store, p.c.countAt o, 2)] | none => [])
      ++ [(.store, frameEntryPa p.e p.dst, 8)]

/-- A page before any effect (R326): the checks of its source, destination and record, then check 6 of whatever the engine reads
or writes for it in the pool and the frame table (R117, R374). A failure there names the page's destination address, for which
the spec gives no other (log entry 48). Byte o is 0 but where `crest` loaded an RSTART inside a page: the transfer then moves no
byte below, and the page keeps those its destination holds (R323, log entry 25). -/
def State.dedupReady (s : State) (t : Transfer) (p o : Nat) : Except Failed Page :=
  let v := t.shadow
  let w := s.engine t
  let dst := vget v 1 0 + BitVec.ofNat 64 (4096 * p)
  let out := vget v 10 0 + BitVec.ofNat 64 (16 * p)
  match s.engineRead w (4096 - o) (4096 - o) (vget v 0 0 + BitVec.ofNat 64 (4096 * p + o)), s.engineRead w o o dst with
  | .error e, _ => .error e
  | .ok (_, l1), .error e => .error (e.1, e.2.1, l1 ++ e.2.2)
  | .ok (moved, l1), .ok (kept, l2) =>
    let page := kept ++ moved
    let lines := l1 ++ l2
    match s.context t.asid with
    | none => .error (7, dst, lines)
    | some c =>
      let e := c.entryFor w dst
      match s.keyOf c.keyid with
      | none => .error (7, dst, lines)
      | some key =>
        if !canonical dst || 2 ^ 42 ≤ va56 dst || !weV e || !weW e || weMode e != 1 || c.poolBase == 0 then .error (7, dst, lines)
        else match s.engineStore t out 16 16 with
          | .error e => .error (e.1, e.2.1, lines ++ e.2.2)
          | .ok q =>
            let (found, coll, spans) := s.matchFrame c key page (foldPage page).toNat c.poolCnt 0 false
            let (frame, kind) : Option Nat × Nat := match found with
              | some h => (some h, 1)
              | none => match s.freePoolFrame c c.poolCnt 0 with
                | some h => (some h, 0)
                | none => (none, 2)
            let reads := spans ++ (if frame.isSome then [(AccessKind.load, frameEntryPa e dst, 8)] else [])
            let pg : Page := { c := c, key := key, e := e, dst := dst, bytes := page,
                               lines := lines ++ reads.flatMap (fun x => dataReads x.2.1 x.2.2 false)
                                 ++ s.vectorReads w .store out q.pa,
                               out := q, frame := frame, kind := kind, coll := coll, old := s.namedFrame c e dst }
            if (reads ++ pg.writes).any (fun x => s.poisoned s.msys x.1 x.2.1 x.2.2) then .error (14, dst, pg.lines)
            else .ok pg

/-- The effects of a page on the pool and the frame table, in the order of R326: a share or a new frame, a reference less for
the frame named before, and the entry. -/
def State.dedupPage (s : State) (unit : Nat) (p : Page) : State :=
  match p.frame with
  | none => s
  | some h =>
    let s := if p.kind = 1 then s.setPoolCount unit p.c h (s.poolCount p.c h + 1)
      else
        let s := s.perform unit (.store (p.c.poolBase + 4096 * h) p.bytes p.key)
        let s := s.setPoolCount unit p.c h 1
        s.perform unit (.store (p.c.printAt h) (toBytes 8 (foldPage p.bytes).toNat) 0)
    let s := match p.old with
      | some o => s.setPoolCount unit p.c o ((s.poolCount p.c o + 65535) % 65536)
      | none => s
    s.perform unit (.store (frameEntryPa p.e p.dst) (toBytes 8 (p.c.poolBase + 4096 * h + 1)) s.key0)

/-- One page of a deduplication (R326). -/
def State.copyPage (s : State) (quad chan : Nat) (t : Transfer) : State :=
  let v := t.shadow
  let n := t.pos / 4096
  match s.dedupReady t n (t.pos % 4096) with
  | .error (code, va, lines) =>
    ((s.engineTouch t lines).creditBar t (t.moved 0 (4096 * n))).transferStop quad chan t { at_ := 4096 * n, code := code, va := va }
  | .ok p =>
    let s := (s.engineTouch t p.lines).dedupPage t.unit p
    let (k, s) := s.draw
    let count := match p.frame with | some h => s.poolCount p.c h | none => (Config.unstated k).toNat
    let rec_ := toBytes 8 (foldPage p.bytes).toNat ++ toBytes 4 (p.frame.getD 0xFFFFFFFF) ++ toBytes 2 count
      ++ [BitVec.ofNat 8 p.kind, if p.coll then 1 else 0]
    let s := s.perform t.unit (.store p.out.pa rec_ p.out.key)
    let pos := 4096 * (n + 1)
    (if shGet v 2 ≤ pos then s.creditBar t (t.moved 0 pos) else s).transferTo quad chan t pos

def execCopyModeDedup (quad chan : Nat) (s : State) : Result :=
  match s.headOf quad chan 5 with
  | some t => if shGet t.shadow 2 ≤ t.pos then .next (s.transferTo quad chan t t.pos) else .next (s.copyPage quad chan t)
  | none => .next s

end Sys2Proof.Machine
end

