-- ==== Sys2Proof/Machine/Float3.lean ====
section
/-!
DEFINITION. Meanings of FLT3 (R215-R217).
-/
namespace Sys2Proof.Machine
open Sys2Proof

def execFadd (f : W3) (s : State) : Result := .next (s.float3 f .add true false)
def execFsub (f : W3) (s : State) : Result := .next (s.float3 f .sub true false)
def execFmul (f : W3) (s : State) : Result := .next (s.float3 f .mul true false)
def execFfma (f : W3) (s : State) : Result := .next (s.float3 f .fma true true)
def execFdiv (f : W3) (s : State) : Result := .next (s.float3 f .div true false)
def execFsqrt (f : W3) (s : State) : Result := .next (s.float3 f .sqrt false false)
def execFmin (f : W3) (s : State) : Result := .next (s.float3 f .min true false)
def execFmax (f : W3) (s : State) : Result := .next (s.float3 f .max true false)
def execFabs (f : W3) (s : State) : Result := .next (s.float3 f .abs false false)
def execFneg (f : W3) (s : State) : Result := .next (s.float3 f .neg false false)

/-- 1 if the condition holds, else 0; the flush raises no flag (R216). -/
def execFcmp (f : W3) (s : State) : Result :=
  .next (s.setS f.d (boolW (fcond (f.immBits 2 0) (s.floatArg f.ty f.a).1 (s.floatArg f.ty f.b).1))).advance

/-- The class mask of the bits as they stand (Table 17.7). -/
def execFclass (f : W3) (s : State) : Result :=
  .next (s.setS f.d (BitVec.ofNat 64 (fclassOf (fmtOf f.ty) (s.lowBits f.ty f.a)))).advance

/-- A value of type t in a register: an integer or a floating value under FRM.FZ, with the flags of reading it (R217). -/
def State.numberArg (s : State) (t : Ty) (r : BitVec 6) : FVal × Flags :=
  if t.isInt then (FVal.ofInt (readInt t (s.getS r).toNat) 0 false, 0) else s.floatArg t r

/-- A delivered to the destination type: exact, rounded once, or a narrowing conversion that clamps (R217). -/
def execFcvt (f : W3) (s : State) : Result :=
  let st := (Ty.ofCode (f.immBits 3 0)).getD .i8
  let (x, fl) := s.numberArg st f.a
  let r := narrowTo f.ty x (s.regs.mode f.q.toNat 0) s.regs.frmFz
  .next ((s.setS f.d (if f.ty.isInt then extendTo f.ty r.bits else BitVec.ofNat 64 r.bits)).orFlags
    (r.flags ||| fl)).advance

end Sys2Proof.Machine
end

