-- ==== Sys2Proof/Machine/Migration.lean ====
section
/-!
DEFINITION. What the memory system does beside the threads: the migration engines and the counts that pin a sub-block
(R109-R111), poison (R117), the clock of R123, and what other packages ask of the lines homed here (R400). Of these only
an error in stored data comes while the package is in Winter.
-/
namespace Sys2Proof.Machine
open Sys2Proof

-- Frames (R29, R107) ----------------------------------------------------------------------------------------------------

/-- Where a sub-block is moving to. -/
def Residence.target (r : Residence) : Option (BitVec 2 × BitVec 2 × BitVec 25) := if r.moving then r.dest else none
/-- A record holds a frame of a tier of this package, or is moving to it; an LPDDR frame is named by its number alone. -/
def Residence.uses (r : Residence) (tier die : BitVec 2) (frame : Nat) : Bool :=
  (r.tier == tier && (tier == 1 || r.die == die) && r.dframe.toNat == frame)
    || (match r.target with
        | some (t, d, f) => t == tier && (tier == 1 || d == die) && f.toNat == frame
        | none => false)
/-- The sub-block that held a frame at reset. -/
def MemSys.firstHolder (m : MemSys) (tier die : BitVec 2) (frame : Nat) : Option Nat :=
  if m.lpddr then (if tier = 1 then some frame else none)
  else if frame < hbmPart then some (die.toNat * hbmPart + frame) else none
/-- A frame that no sub-block holds: no record names it, and the sub-block that had it at reset has left it. There is none of LPDDR
where that tier is absent (R30). -/
def MemSys.frameFree (m : MemSys) (tier die : BitVec 2) (frame : Nat) : Bool :=
  decide (frame < (if tier = 0 then hbmFrames else if m.lpddr then lpddrFrames else 0))
    && !(m.records.any (fun (_, r) => r.uses tier die frame))
    && (match m.firstHolder tier die frame with | some n => (SMap.find m.records n).isSome | none => true)
/-- The frame above every frame that the records name. -/
def MemSys.topFrame (m : MemSys) : Nat :=
  m.records.foldl (fun n (_, r) => max (max n (r.dframe.toNat + 1)) (match r.target with | some (_, _, f) => f.toNat + 1 | none => 0)) 0
/-- A free frame of a die's HBM4: the one chosen, or else the one above all, or else the lowest. -/
def MemSys.freeHbm (m : MemSys) (die : BitVec 2) (choice : Nat) : Option (BitVec 25) :=
  let near := List.range (2 * m.records.length + 1)
  ((choice % hbmFrames :: m.topFrame :: near ++ near.map (hbmPart + ·)).find? (fun f => m.frameFree 0 die f)).map
    (BitVec.ofNat 25)
/-- A free frame of an LPDDR half: the one chosen, or else one that a listed sub-block has left. -/
def MemSys.freeLpddr (m : MemSys) (half : Bool) (choice : Nat) : Option (BitVec 25) :=
  ((choice % lpddrFrames :: m.records.map (fun x => x.1)).find? (fun f =>
    (f / 2 ^ 24 % 2 == (if half then 1 else 0)) && m.frameFree 1 0 f)).map (BitVec.ofNat 25)
/-- Fewer than 1/64 of a die's HBM4 frames are free (R109). -/
def MemSys.hbmShort (m : MemSys) (die : BitVec 2) : Bool :=
  let listed := (m.records.filter (fun (_, r) => (r.tier == 0 && r.die == die)
    || (match r.target with | some (t, d, _) => t == 0 && d == die | none => false))).length
  let unlisted := if m.lpddr then 0 else hbmPart - (m.records.filter (fun (n, _) => n / hbmPart == die.toNat)).length
  let used := listed + unlisted
  decide ((hbmFrames - used) * 64 < hbmFrames)

-- An epoch (R109) --------------------------------------------------------------------------------------------------------

/-- Every counter halved, and how many epochs they have all been zero. -/
def Residence.halve (r : Residence) : Residence :=
  let r := { r with cnt := r.cnt.map (fun (x : BitVec 8) => x >>> 1), cntr := r.cntr >>> 1 }
  { r with quiet := if r.cnt.all (· == 0) && r.cntr == 0 then r.quiet + 1 else 0 }

/-- The die with the largest counter, the lower number winning a tie. -/
def Residence.busiest (r : Residence) : Nat :=
  (List.range 4).foldl (fun b d => if vget r.cnt b 0 < vget r.cnt d 0 then d else b) 0

/-- A move that starts: its destination. -/
def Residence.begin (r : Residence) (tier die : BitVec 2) (frame : BitVec 25) : Residence :=
  { r with moving := true, dest := some (tier, die, frame), moved := 0 }

/-- One sub-block of the epoch of its home die: its record. A demotion goes to the half on the I/O die of its home die, at the epoch
that follows as many with all counters zero as the threshold names (R109, Table 10.1). -/
def State.epochRecord (s : State) (die : Nat) (r : Residence) : Residence × State :=
  let quiet := r.quiet
  let r := r.halve
  if r.pinned || r.moving then (r, s)
  else
    let d := r.busiest
    let most := (vget r.cnt d 0).toNat
    if s.thPromote ≤ most && s.thRatio * (vget r.cnt die 0).toNat ≤ most && d ≠ die then
      let (k, s) := s.draw
      match s.msys.freeHbm (BitVec.ofNat 2 d) (Config.frameChoice k) with
      | some f => (r.begin 0 (BitVec.ofNat 2 d) f, s)
      | none => (r, s)
    else if r.tier = 0 && r.quiet != 0 && s.thQuiet ≤ quiet && s.accepted.getLsbD 5 && s.msys.hbmShort r.die then
      let (k, s) := s.draw
      match s.msys.freeLpddr (die % 2 == 1) (Config.frameChoice k) with
      | some f => (r.begin 1 r.die f, s)
      | none => (r, s)
    else (r, s)

/-- The sub-blocks homed in a die, record by record. -/
def State.epochRecords (s : State) (die : Nat) : State :=
  (s.msys.records.map (fun x => x.1)).eraseDups.foldl (fun s n =>
    let r := s.msys.record n
    if r.home s.pkg.toNat n = some (s.pkg.toNat, die) then
      let (r, s) := s.epochRecord die r
      { s with msys := s.msys.setRecord n r }
    else s) s

/-- The epoch of a die, once each ms of TIME outside Winter (R109). -/
def execMigrationEpoch (die : Nat) (s : State) : Result :=
  let due := vget s.epochAt die 0
  if s.winter || s.time < due then .next s
  else .next { s.epochRecords die with epochAt := vset s.epochAt die (due + msNs) }

-- Moves (R110, R111) -----------------------------------------------------------------------------------------------------

/-- 16 ms of TIME. -/
def movesWindow : Nat := 16000000

/-- Count a completed move by the engine, in the window that stands open or in a new one; the fourth of its window pins the
sub-block. True when it does. -/
def Residence.countMove (r : Residence) (now : Nat) : Residence × Bool :=
  let opens := r.moves == 0 || decide (r.windowAt + movesWindow ≤ now)
  let r := { r with windowAt := if opens then now else r.windowAt, moves := if opens then 1 else min 4 (r.moves + 1) }
  if r.moves = 4 && !r.pinned then ({ r with pinned := true, pinleft := 256, pinAt := now }, true) else (r, false)

/-- The next line of a sub-block's move has passed to its new frame; the last one gives the record its new placement. The run of
epochs whose counters are all zero then begins anew, where the spec does not say whether it survives (log entry 34). -/
def execMigrationLineDone (n line : Nat) (s : State) : Result :=
  let r := s.msys.record n
  match r.dest with
  | none => .next s
  | some (tier, die, frame) =>
    if s.winter || !r.moving || line ≠ r.moved then .next s
    else if line + 1 < 1024 then .next { s with msys := s.msys.setRecord n { r with moved := line + 1 } }
    else
      let r := { r with tier := tier, die := die, dframe := frame, moving := false, dest := none, moved := 0, quiet := 0 }
      let (r, pin) := r.countMove s.time
      .next { s with msys := s.msys.setRecord n r, pinEvents := if pin then s.pinEvents + 1 else s.pinEvents }

/-- The window of 16 ms closes: MOVES returns to 0. -/
def execMovesWindowClose (n : Nat) (s : State) : Result :=
  let r := s.msys.record n
  if s.winter || r.moves = 0 || s.time < r.windowAt + movesWindow then .next s
  else .next { s with msys := s.msys.setRecord n { r with moves := 0 } }

/-- One ms of pinning has passed since the pin or the tick before: at 0 the pin is cleared. -/
def execPinleftTick (n : Nat) (s : State) : Result :=
  let r := s.msys.record n
  if s.winter || !r.pinned || s.time < r.pinAt + msNs then .next s
  else .next { s with msys := s.msys.setRecord n { r with pinleft := r.pinleft - 1, pinned := decide (1 < r.pinleft.toNat),
                                                          pinAt := r.pinAt + msNs } }

-- The map command (R107, R109, R111) ----------------------------------------------------------------------------------------

/-- A sub-block that a map command moves, by itself or from or to another package: the move is not counted, and it clears PINNED
and MOVES (R111). A placement outside the tiers, in a frame that is not free, or in a package that is no member, is none. -/
def State.mapMove (s : State) (n : Nat) (tier die : BitVec 2) (rtier : Bool) (frame : BitVec 25) (pkg : BitVec 13) : State :=
  let r := s.msys.record n
  let ok := match tier.toNat with
    | 0 => s.msys.frameFree 0 die frame.toNat
    | 1 => s.accepted.getLsbD 5 && s.msys.frameFree 1 die frame.toNat
    | 2 => s.member pkg.toNat && pkg != s.pkg
    | _ => false
  if r.tier == 3 || !ok then s
  else
    let r := { r with tier := tier, die := die, rtier := rtier, dframe := frame, rpkg := pkg, moving := false, dest := none,
                      moved := 0, pinned := false, pinleft := 0, moves := 0 }
    { s with msys := s.msys.setRecord n r }
/-- The moves of sub-blocks in a huge page that stand next on the agenda: what a map command of the page does with them. -/
def State.mapMoves (page : Nat) : Nat → State → State
  | 0, s => s
  | n + 1, s =>
    match s.agenda with
    | .mapMove b tier die rtier frame pkg :: rest =>
      let s := { s with agenda := rest }
      State.mapMoves page n (if b / 4096 = page then s.mapMove b tier die rtier frame pkg else s)
    | _ => s

-- Poison, the clock of a core ----------------------------------------------------------------------------------------------

/-- An uncorrectable error in a line's stored data (R117). -/
def execLinePoisoned (line : Nat) (s : State) : Result :=
  .next { s with msys := s.msys.setLine line { s.msys.line line with poison := true } }

/-- PT rises by 1 for every 64 A-cycles of its quad's clock (R123): by those that have passed since it last did. -/
def execPtAdvance (core : Nat) (s : State) : Result :=
  let k := s.clockCore core
  let x := s.core k
  let n := (s.quadNow (quadOf k)).edges / 64
  if s.winter || n ≤ x.ptTicks then .next s
  else .next (s.setCore k { x with pt := x.pt + (n - x.ptTicks), ptTicks := n })

-- Other packages (R400) ----------------------------------------------------------------------------------------------------

/-- The number of another package as a source of requests (R144). -/
def otherPackage (pkg : Nat) : Nat := 2048 + pkg
/-- A line of a request from another member, at its home here: its counter rises, the request takes its sequence, and a write
follows every lease of the line (R108, R123, R144). -/
def State.remoteLine (s : State) (pkg : Nat) (write : Bool) (ln : Nat) : State :=
  let s := s.countAccess (64 * ln) none
  let l := s.msys.line ln
  let s := if write then { s with msys := s.msys.setLine ln { l with wt := l.rt + 1, rt := l.rt + 1 } } else s
  s.request (otherPackage pkg) ln write { done := true, version := l.version }
/-- A request from another member: a part of a poisoned line is not written (R117). -/
def State.remoteAccess (s : State) (pkg pa : Nat) (op : RemoteOp) : State :=
  match op with
  | .read n => (homedLines pa n).foldl (fun s ln => s.remoteLine pkg false ln) s
  | .write bytes =>
    let n := bytes.length
    if n = 0 || s.poisoned s.msys .store pa n then (homedLines pa n).foldl (fun s ln => s.remoteLine pkg false ln) s
    else (homedLines pa n).foldl (fun s ln => s.remoteLine pkg true ln) { s with msys := s.msys.store pa bytes 0 }

/-- A request from another package: performed when that package is a member and the address is managed memory here. One that
arrives in Winter is held for retry by the transport (R383): it then stands in `State.inbox`. -/
def execAccessFromOtherPackage (pkg pa : Nat) (op : RemoteOp) (s : State) : Result :=
  if s.winter then .next { s with inbox := s.inbox ++ [.event (.accessFromOtherPackage pkg pa op)] }
  else if pkg = s.pkg.toNat || !s.member pkg || (s.subBlock pa).isNone || !s.holderIn pa then .next s
  else .next (s.remoteAccess pkg pa op)

end Sys2Proof.Machine
end

