-- ==== Sys2Proof/Machine/Hash.lean ====
section
/-!
DEFINITION. SHA-256 and SHA-512 (R401), the making and the verification of an SLH-DSA-SHA2-256s signature (FIPS 205) and AES key unwrap
(RFC 3394, R403): what the boot ROM and the management core compute over firmware images and key bodies.
-/
namespace Sys2Proof.Machine
open Sys2Proof

-- SHA-2 over words of w bits ---------------------------------------------------------------------------------------------

/-- The n lowest primes. -/
def isPrime (n : Nat) : Bool := decide (2 ≤ n) && (List.range n).all (fun d => d < 2 || n % d != 0)
def primes (n : Nat) : List Nat := ((List.range 420).filter isPrime).take n
/-- Floor of the k-th root of x, below 2^bits. -/
def rootFloor (k x : Nat) : Nat → Nat → Nat
  | 0, r => r
  | bits + 1, r => rootFloor k x bits (if (r + 2 ^ bits) ^ k ≤ x then r + 2 ^ bits else r)
/-- The first w bits of the fraction of the k-th root of a prime. -/
def rootBits (w k p : Nat) : Nat := rootFloor k (p * 2 ^ (k * w)) (w + 5) 0 % 2 ^ w

/-- Round constants and initial value of each width. -/
def shaConst256 : List Nat := (primes 64).map (rootBits 32 3)
def shaConst512 : List Nat := (primes 80).map (rootBits 64 3)
def shaInit256 : List Nat := (primes 8).map (rootBits 32 2)
def shaInit512 : List Nat := (primes 8).map (rootBits 64 2)

/-- A SHA-2 function: its word width, its rotation amounts, its round constants and its initial value. -/
structure Sha where
  w : Nat
  rots : List Nat
  consts : List Nat
  init : List Nat

def sha256Of : Sha := { w := 32, rots := [2, 13, 22, 6, 11, 25, 7, 18, 3, 17, 19, 10], consts := shaConst256, init := shaInit256 }
def sha512Of : Sha := { w := 64, rots := [28, 34, 39, 14, 18, 41, 1, 8, 7, 19, 61, 6], consts := shaConst512, init := shaInit512 }

def Sha.rotr (h : Sha) (x k : Nat) : Nat := x / 2 ^ k ||| (x * 2 ^ (h.w - k)) % 2 ^ h.w
/-- Exclusive or of three rotations from place i of `rots`, the last a shift when asked. -/
def Sha.mix (h : Sha) (i : Nat) (shift : Bool) (x : Nat) : Nat :=
  let r := fun j => h.rots.getD (i + j) 0
  h.rotr x (r 0) ^^^ h.rotr x (r 1) ^^^ (if shift then x / 2 ^ r 2 else h.rotr x (r 2))

/-- The message schedule, newest word first. -/
def Sha.schedule (h : Sha) : Nat → List Nat → List Nat
  | 0, ws => ws
  | n + 1, ws =>
    let x := h.mix 9 true (ws.getD 1 0) + ws.getD 6 0 + h.mix 6 true (ws.getD 14 0) + ws.getD 15 0
    Sha.schedule h n (x % 2 ^ h.w :: ws)

/-- One round on the eight working words. -/
def Sha.round (h : Sha) (v : List Nat) (kw : Nat × Nat) : List Nat :=
  let m := 2 ^ h.w
  let at_ := fun i => v.getD i 0
  let ch := (at_ 4 &&& at_ 5) ^^^ ((m - 1 - at_ 4) &&& at_ 6)
  let maj := (at_ 0 &&& at_ 1) ^^^ (at_ 0 &&& at_ 2) ^^^ (at_ 1 &&& at_ 2)
  let t := at_ 7 + h.mix 3 false (at_ 4) + ch + kw.1 + kw.2
  [(t + h.mix 0 false (at_ 0) + maj) % m, at_ 0, at_ 1, at_ 2, (at_ 3 + t) % m, at_ 4, at_ 5, at_ 6]

/-- Big-endian value of bytes, and bytes of a value. -/
def beNat (l : List Byte) : Nat := ofBytes l.reverse
def beBytes (n x : Nat) : List Byte := (toBytes n x).reverse

/-- Absorb whole blocks. -/
def Sha.blocks (h : Sha) : Nat → List Byte → List Nat → List Nat
  | 0, _, v => v
  | n + 1, l, v =>
    let z := h.w / 8
    let ws := (List.range 16).map (fun i => beNat ((l.drop (z * i)).take z))
    let all := (h.schedule (h.consts.length - 16) ws.reverse).reverse
    let x := (h.consts.zip all).foldl h.round v
    Sha.blocks h n (l.drop (16 * z)) ((v.zip x).map (fun (a, b) => (a + b) % 2 ^ h.w))

/-- The digest of a message. -/
def Sha.digest (h : Sha) (l : List Byte) : List Byte :=
  let b := 2 * h.w
  let tail := h.w / 4
  let pad := (b - (l.length + 1 + tail) % b) % b
  let m := l ++ [0x80] ++ List.replicate pad 0 ++ beBytes tail (8 * l.length)
  (h.blocks (m.length / b) m h.init).flatMap (beBytes (h.w / 8))

def sha256 (l : List Byte) : List Byte := sha256Of.digest l
def sha512 (l : List Byte) : List Byte := sha512Of.digest l

-- SLH-DSA-SHA2-256s ------------------------------------------------------------------------------------------------------

/-- An address of FIPS 205 in its compressed form: layer, tree, type and three words. -/
structure SlhAddr where
  layer : Nat
  tree : Nat
  kind : Nat
  pair : Nat
  x : Nat
  y : Nat
  deriving DecidableEq, Repr

def SlhAddr.bytes (a : SlhAddr) : List Byte :=
  beBytes 1 a.layer ++ beBytes 8 a.tree ++ beBytes 1 a.kind ++ beBytes 4 a.pair ++ beBytes 4 a.x ++ beBytes 4 a.y

/-- F, and H with T: one value, or several, under the public seed. -/
def slhF (seed : List Byte) (a : SlhAddr) (m : List Byte) : List Byte :=
  sha256 (seed ++ List.replicate 32 0 ++ a.bytes ++ m)
def slhT (seed : List Byte) (a : SlhAddr) (m : List Byte) : List Byte :=
  (sha512 (seed ++ List.replicate 96 0 ++ a.bytes ++ m)).take 32

/-- n digits of b bits of a byte string, from its most significant bit on. -/
def digits (l : List Byte) (b n : Nat) : List Nat :=
  let x := beNat l
  (List.range n).map (fun i => x / 2 ^ (8 * l.length - b * (i + 1)) % 2 ^ b)

/-- A WOTS+ chain from step i on. -/
def slhChain (seed : List Byte) (a : SlhAddr) : Nat → Nat → List Byte → List Byte
  | 0, _, v => v
  | n + 1, i, v => slhChain seed a n (i + 1) (slhF seed { a with y := i } v)

/-- The WOTS+ public key that a signature of a 32-byte value gives. -/
def wotsKey (seed : List Byte) (a : SlhAddr) (sig m : List Byte) : List Byte :=
  let ds := digits m 4 64
  let sum := ds.foldl (fun s x => s + (15 - x)) 0
  let all := ds ++ digits (beBytes 2 (16 * sum)) 4 3
  let ends := (all.mapIdx (fun i x =>
    slhChain seed { a with kind := 0, x := i } (15 - x) x ((sig.drop (32 * i)).take 32))).flatten
  slhT seed { a with kind := 1, x := 0, y := 0 } ends

/-- Climb an authentication path: levels from `lvl` up to a root, at index `idx`. -/
def slhClimb (seed : List Byte) (a : SlhAddr) : Nat → Nat → Nat → List Byte → List Byte → List Byte
  | 0, _, _, _, v => v
  | n + 1, lvl, idx, path, v =>
    let sib := path.take 32
    let here := { a with x := lvl + 1, y := idx / 2 }
    slhClimb seed a n (lvl + 1) (idx / 2) (path.drop 32) (slhT seed here (if idx % 2 = 0 then v ++ sib else sib ++ v))

/-- Bytes of one XMSS signature. -/
def xmssLen : Nat := 32 * (67 + 8)
/-- The root that an XMSS signature gives. -/
def xmssRoot (seed : List Byte) (layer tree leaf : Nat) (sig m : List Byte) : List Byte :=
  let a : SlhAddr := { layer := layer, tree := tree, kind := 0, pair := leaf, x := 0, y := 0 }
  slhClimb seed { a with kind := 2, pair := 0 } 8 0 leaf (sig.drop (32 * 67)) (wotsKey seed a sig m)
/-- The root of the hypertree from a layer on. -/
def hyperRoot (seed : List Byte) : Nat → Nat → Nat → Nat → List Byte → List Byte → List Byte
  | 0, _, _, _, _, v => v
  | n + 1, layer, tree, leaf, sig, v =>
    hyperRoot seed n (layer + 1) (tree / 256) (tree % 256) (sig.drop xmssLen) (xmssRoot seed layer tree leaf sig v)

/-- The FORS public key that a signature of 22 indices gives. -/
def forsKey (seed : List Byte) (tree leaf : Nat) (sig md : List Byte) : List Byte :=
  let a : SlhAddr := { layer := 0, tree := tree, kind := 3, pair := leaf, x := 0, y := 0 }
  let roots := ((digits md 14 22).mapIdx (fun i idx =>
    let part := sig.drop (32 * 15 * i)
    let at_ := i * 2 ^ 14 + idx
    slhClimb seed a 14 0 at_ (part.drop 32) (slhF seed { a with x := 0, y := at_ } (part.take 32)))).flatten
  slhT seed { a with kind := 4, x := 0, y := 0 } roots

/-- Length of a signature (R401). -/
def sigLen : Nat := 29792

/-- A signature of a message verifies under a 64-byte public key (FIPS 205, the pure form with an empty context). -/
def slhVerify (pk : List Byte) (m sig : List Byte) : Bool :=
  let seed := pk.take 32
  let root := (pk.drop 32).take 32
  let r := sig.take 32
  let inner := sha512 (r ++ seed ++ root ++ [0, 0] ++ m)
  let digest := (sha512 (r ++ seed ++ inner ++ beBytes 4 0)).take 47
  let tree := beNat ((digest.drop 39).take 7)
  let leaf := beNat (digest.drop 46)
  let fors := forsKey seed tree leaf (sig.drop 32) (digest.take 39)
  sig.length == sigLen && hyperRoot seed 8 0 tree leaf (sig.drop (32 + 32 * 15 * 22)) fors == root

-- Signing (FIPS 205, R401) -----------------------------------------------------------------------------------------------

/-- A private key: the secret seed, the secret of its randomness, the public seed and the root, 32 bytes each. -/
structure SlhKey where
  seed : List Byte
  prf : List Byte
  pub : List Byte
  root : List Byte
  deriving DecidableEq, Repr

/-- PRF: the secret value at an address; the address's own type is replaced by `kind`. -/
def slhPrf (pub seed : List Byte) (a : SlhAddr) (kind : Nat) : List Byte :=
  sha256 (pub ++ List.replicate 32 0 ++ { a with kind := kind }.bytes ++ seed)
/-- HMAC-SHA-512 under a key of at most 128 bytes. -/
def hmac512 (key m : List Byte) : List Byte :=
  let k := key ++ List.replicate (128 - key.length) 0
  sha512 (k.map (fun b => b ^^^ 0x5C) ++ sha512 (k.map (fun b => b ^^^ 0x36) ++ m))

/-- The WOTS+ signature of a 32-byte value. -/
def wotsSign (seed pub : List Byte) (a : SlhAddr) (m : List Byte) : List Byte :=
  let ds := digits m 4 64
  let sum := ds.foldl (fun s x => s + (15 - x)) 0
  ((ds ++ digits (beBytes 2 (16 * sum)) 4 3).mapIdx (fun i x =>
    let c := { a with kind := 0, x := i, y := 0 }
    slhChain pub c x 0 (slhPrf pub seed c 5))).flatten
/-- The WOTS+ public key at an address. -/
def wotsPublic (seed pub : List Byte) (a : SlhAddr) : List Byte :=
  slhT pub { a with kind := 1, x := 0, y := 0 } ((List.range 67).flatMap (fun i =>
    let c := { a with kind := 0, x := i, y := 0 }
    slhChain pub c 15 0 (slhPrf pub seed c 5)))
/-- The node at a height and index of an XMSS tree, and of the FORS trees. -/
def xmssNode (seed pub : List Byte) (a : SlhAddr) : Nat → Nat → List Byte
  | 0, i => wotsPublic seed pub { a with pair := i }
  | z + 1, i => slhT pub { a with kind := 2, pair := 0, x := z + 1, y := i }
      (xmssNode seed pub a z (2 * i) ++ xmssNode seed pub a z (2 * i + 1))
def forsNode (seed pub : List Byte) (a : SlhAddr) : Nat → Nat → List Byte
  | 0, i => slhF pub { a with x := 0, y := i } (slhPrf pub seed { a with x := 0, y := i } 6)
  | z + 1, i => slhT pub { a with x := z + 1, y := i } (forsNode seed pub a z (2 * i) ++ forsNode seed pub a z (2 * i + 1))
/-- The authentication path of a leaf: at each height the node beside the path. -/
def authPath (node : Nat → Nat → List Byte) (n leaf : Nat) : List Byte :=
  (List.range n).flatMap (fun j => node j ((leaf / 2 ^ j) ^^^ 1))

/-- The signature of one XMSS tree, and of the hypertree from a layer on. -/
def xmssSign (seed pub : List Byte) (layer tree leaf : Nat) (m : List Byte) : List Byte :=
  let a : SlhAddr := { layer := layer, tree := tree, kind := 0, pair := leaf, x := 0, y := 0 }
  wotsSign seed pub a m ++ authPath (xmssNode seed pub a) 8 leaf
def hyperSign (seed pub : List Byte) : Nat → Nat → Nat → Nat → List Byte → List Byte
  | 0, _, _, _, _ => []
  | n + 1, layer, tree, leaf, m =>
    let sig := xmssSign seed pub layer tree leaf m
    sig ++ hyperSign seed pub n (layer + 1) (tree / 256) (tree % 256) (xmssRoot pub layer tree leaf sig m)
/-- The FORS signature of 22 indices. -/
def forsSign (seed pub : List Byte) (tree leaf : Nat) (md : List Byte) : List Byte :=
  let a : SlhAddr := { layer := 0, tree := tree, kind := 3, pair := leaf, x := 0, y := 0 }
  ((digits md 14 22).mapIdx (fun i idx =>
    let at_ := i * 2 ^ 14 + idx
    slhPrf pub seed { a with x := 0, y := at_ } 6 ++ authPath (forsNode seed pub a) 14 at_)).flatten

/-- The signature of a message under a private key and 32 random bytes (FIPS 205, the pure form with an empty context). -/
def slhSign (k : SlhKey) (random m : List Byte) : List Byte :=
  let m := [0, 0] ++ m
  let r := (hmac512 k.prf (random ++ m)).take 32
  let digest := (sha512 (r ++ k.pub ++ sha512 (r ++ k.pub ++ k.root ++ m) ++ beBytes 4 0)).take 47
  let tree := beNat ((digest.drop 39).take 7)
  let leaf := beNat (digest.drop 46)
  let fors := forsSign k.seed k.pub tree leaf (digest.take 39)
  r ++ fors ++ hyperSign k.seed k.pub 8 0 tree leaf (forsKey k.pub tree leaf fors (digest.take 39))

/-- A key from its three seeds: the root is that of the topmost XMSS tree. -/
def slhKeyOf (seed prf pub : List Byte) : SlhKey :=
  { seed := seed, prf := prf, pub := pub,
    root := xmssNode seed pub { layer := 7, tree := 0, kind := 0, pair := 0, x := 0, y := 0 } 8 0 }
/-- The identity key of the package (R401, R403), and its 64-byte public half. -/
def identityKey : SlhKey :=
  slhKeyOf (beBytes 32 Config.identitySeed.toNat) (beBytes 32 Config.identityPrf.toNat) (beBytes 32 Config.identityPublicSeed.toNat)
def SlhKey.public (k : SlhKey) : List Byte := k.pub ++ k.root

-- Key unwrap (RFC 3394) --------------------------------------------------------------------------------------------------

/-- Undo steps t, t − 1, … 1 of a wrap of four words: A and the words. -/
def unwrapSteps (ks : List (List Nat)) : Nat → List Nat → List (List Nat) → List Nat × List (List Nat)
  | 0, a, r => (a, r)
  | t + 1, a, r =>
    let i := t % 4
    let b := aesDecrypt ks (xorBytes a ((beBytes 8 (t + 1)).map BitVec.toNat) ++ r.getD i [])
    unwrapSteps ks t (b.take 8) (r.set i (b.drop 8))
/-- The 256-bit key in 40 wrapped bytes, or none when its check value is wrong. -/
def keyUnwrap (kek : BitVec 256) (l : List Byte) : Option (BitVec 256) :=
  let w := l.map BitVec.toNat
  let (a, r) := unwrapSteps (roundKeys kek) 24 (w.take 8) ((List.range 4).map (fun i => (w.drop (8 + 8 * i)).take 8))
  if a = List.replicate 8 0xA6 then some (BitVec.ofNat 256 (ofBytes (r.flatten.map (BitVec.ofNat 8)))) else none

end Sys2Proof.Machine
end

