-- ==== Sys2Proof/Machine/Kem.lean ====
section
/-!
DEFINITION. ML-KEM-1024 of FIPS 203 (R403), over the SHA-3 functions of FIPS 202: the key pair that a package makes of its two
seeds, the decapsulation of a ciphertext and, for the host's side of a load-key body, the encryption that decapsulation repeats.
-/
namespace Sys2Proof.Machine
open Sys2Proof

-- Keccak (FIPS 202) ------------------------------------------------------------------------------------------------------

/-- Offsets of the rotations, by lane x + 5·y, and the constants of the 24 rounds. -/
def keccakTurns : List Nat :=
  [0, 1, 62, 28, 27, 36, 44, 6, 55, 20, 3, 10, 43, 25, 39, 41, 45, 15, 21, 8, 18, 2, 61, 56, 14]
def keccakConsts : List Nat :=
  [0x0000000000000001, 0x0000000000008082, 0x800000000000808A, 0x8000000080008000, 0x000000000000808B, 0x0000000080000001,
   0x8000000080008081, 0x8000000000008009, 0x000000000000008A, 0x0000000000000088, 0x0000000080008009, 0x000000008000000A]
  ++ [0x000000008000808B, 0x800000000000008B, 0x8000000000008089, 0x8000000000008003, 0x8000000000008002, 0x8000000000000080,
   0x000000000000800A, 0x800000008000000A, 0x8000000080008081, 0x8000000000008080, 0x0000000080000001, 0x8000000080008008]

/-- A lane rotated left. -/
def lane64 (x k : Nat) : Nat := (x * 2 ^ k) % 2 ^ 64 ||| x / 2 ^ (64 - k)
/-- One round on the 25 lanes. -/
def keccakRound (a : List Nat) (rc : Nat) : List Nat :=
  let col := (List.range 5).map (fun x => (List.range 5).foldl (fun n y => n ^^^ a.getD (x + 5 * y) 0) 0)
  let d := (List.range 5).map (fun x => col.getD ((x + 4) % 5) 0 ^^^ lane64 (col.getD ((x + 1) % 5) 0) 1)
  let b := (List.range 25).map (fun i =>
    let x := (i % 5 + 3 * (i / 5)) % 5
    let from_ := x + 5 * (i % 5)
    lane64 (a.getD from_ 0 ^^^ d.getD x 0) (keccakTurns.getD from_ 0))
  (List.range 25).map (fun i =>
    let row := fun x => b.getD (x % 5 + 5 * (i / 5)) 0
    row (i % 5) ^^^ ((2 ^ 64 - 1 - row (i % 5 + 1)) &&& row (i % 5 + 2)) ^^^ (if i = 0 then rc else 0))
def keccak (a : List Nat) : List Nat := keccakConsts.foldl keccakRound a

/-- Absorb n blocks of `rate` bytes; squeeze n blocks. -/
def keccakAbsorb (rate : Nat) : Nat → List Byte → List Nat → List Nat
  | 0, _, a => a
  | n + 1, l, a =>
    keccakAbsorb rate n (l.drop rate) (keccak (a.mapIdx (fun i x => if i < rate / 8 then x ^^^ ofBytes ((l.drop (8 * i)).take 8) else x)))
def keccakSqueeze (rate : Nat) : Nat → List Nat → List Byte
  | 0, _ => []
  | n + 1, a => (a.take (rate / 8)).flatMap (toBytes 8) ++ keccakSqueeze rate n (keccak a)
/-- The sponge: the first `n` bytes for a message, with the bits that mark the function put after it. -/
def sponge (rate : Nat) (mark : Byte) (n : Nat) (l : List Byte) : List Byte :=
  let m := l ++ [mark]
  let pad := (rate - m.length % rate) % rate
  let m := m ++ List.replicate pad 0
  let m := m.set (m.length - 1) (m.getD (m.length - 1) 0 ||| 0x80)
  (keccakSqueeze rate ((n + rate - 1) / rate) (keccakAbsorb rate (m.length / rate) m (List.replicate 25 0))).take n

def sha3x256 : List Byte → List Byte := sponge 136 0x06 32
def sha3x512 : List Byte → List Byte := sponge 72 0x06 64
def shake128 (n : Nat) : List Byte → List Byte := sponge 168 0x1F n
def shake256 (n : Nat) : List Byte → List Byte := sponge 136 0x1F n

-- Polynomials of 256 coefficients modulo 3329 -----------------------------------------------------------------------------

def kemQ : Nat := 3329
/-- Seven bits in the other order. -/
def rev7 (i : Nat) : Nat := (List.range 7).foldl (fun n k => 2 * n + i / 2 ^ k % 2) 0
/-- A power of 17, a root of unity of order 256. -/
def kemRoot (e : Nat) : Nat := 17 ^ (e % 256) % kemQ
/-- The transform: the remainders modulo X² − 17^(2·rev7(i)+1), and its inverse (3303 is the inverse of 128). -/
def ntt (f : List Nat) : List Nat :=
  (List.range 256).map (fun i => (List.range 128).foldl (fun n j =>
    n + f.getD (2 * j + i % 2) 0 * kemRoot ((2 * rev7 (i / 2) + 1) * j)) 0 % kemQ)
def nttInv (f : List Nat) : List Nat :=
  (List.range 256).map (fun i => (List.range 128).foldl (fun n j =>
    n + f.getD (2 * j + i % 2) 0 * kemRoot (256 * 256 - (2 * rev7 j + 1) * (i / 2))) 0 * 3303 % kemQ)
def polyAdd (f g : List Nat) : List Nat := List.zipWith (fun a b => (a + b) % kemQ) f g
def polySub (f g : List Nat) : List Nat := List.zipWith (fun a b => (a + kemQ - b) % kemQ) f g
/-- The product in the transformed domain. -/
def polyMul (f g : List Nat) : List Nat :=
  (List.range 256).map (fun i =>
    let k := i / 2 * 2
    let at_ := fun (l : List Nat) (d : Nat) => l.getD (k + d) 0
    (if i % 2 = 0 then at_ f 0 * at_ g 0 + at_ f 1 * at_ g 1 * kemRoot (2 * rev7 (i / 2) + 1)
      else at_ f 0 * at_ g 1 + at_ f 1 * at_ g 0) % kemQ)
/-- The sum of the products of two vectors. -/
def polyDot (u v : List (List Nat)) : List Nat :=
  (u.zip v).foldl (fun s (f, g) => polyAdd s (polyMul f g)) (List.replicate 256 0)

/-- Coefficients of d bits as bytes, and n of them from bytes. -/
def packCoeffs (d : Nat) (f : List Nat) : List Byte := toBytes (32 * d) (f.foldr (fun x n => n * 2 ^ d + x) 0)
def unpackCoeffs (d n : Nat) (l : List Byte) : List Nat :=
  let x := ofBytes l
  (List.range n).map (fun i => x / 2 ^ (d * i) % 2 ^ d)
/-- The polynomials in a string of bytes. -/
def unpackPolys (d n : Nat) (l : List Byte) : List (List Nat) :=
  (List.range n).map (fun i => unpackCoeffs d 256 ((l.drop (32 * d * i)).take (32 * d)))
/-- Compression to d bits, to the nearest, and back. -/
def compressCoeff (d x : Nat) : Nat := (2 * x * 2 ^ d + kemQ) / (2 * kemQ) % 2 ^ d
def expandCoeff (d y : Nat) : Nat := (2 * kemQ * y + 2 ^ d) / 2 ^ (d + 1)

/-- The coefficients below 3329 of a stream of three-byte groups. -/
def rejectionSample : List Byte → List Nat
  | a :: b :: c :: r =>
    let x := a.toNat + 256 * (b.toNat % 16)
    let y := b.toNat / 16 + 16 * c.toNat
    (if x < kemQ then [x] else []) ++ (if y < kemQ then [y] else []) ++ rejectionSample r
  | _ => []
/-- A uniform polynomial from 34 bytes. FIPS 203 lets an implementation end the rejection loop after 280 rounds, 840 bytes. -/
def uniformPoly (seed : List Byte) : List Nat :=
  let l := (rejectionSample (shake128 840 seed)).take 256
  l ++ List.replicate (256 - l.length) 0
/-- A small polynomial: the difference of two sums of two bits each, from 128 bytes of the function of a seed and a number. -/
def smallPoly (seed : List Byte) (n : Nat) : List Nat :=
  let b := unpackCoeffs 1 1024 (shake256 128 (seed ++ [BitVec.ofNat 8 n]))
  (List.range 256).map (fun i =>
    (b.getD (4 * i) 0 + b.getD (4 * i + 1) 0 + kemQ - b.getD (4 * i + 2) 0 - b.getD (4 * i + 3) 0) % kemQ)
/-- Row i of the public matrix, or column i. -/
def kemRow (rho : List Byte) (column : Bool) (i : Nat) : List (List Nat) :=
  (List.range 4).map (fun j =>
    let (r, c) := if column then (j, i) else (i, j)
    uniformPoly (rho ++ [BitVec.ofNat 8 c, BitVec.ofNat 8 r]))

-- ML-KEM-1024 ------------------------------------------------------------------------------------------------------------

/-- A key pair: the transformed secret, the encapsulation key's 1,568 bytes and the 32 bytes of implicit rejection. -/
structure KemKey where
  sk : List (List Nat)
  ek : List Byte
  reject : List Byte
  deriving DecidableEq, Repr

/-- The key pair of two 32-byte seeds. -/
def kemKeyOf (d z : List Byte) : KemKey :=
  let g := sha3x512 (d ++ [4])
  let rho := g.take 32
  let small := fun n => ntt (smallPoly (g.drop 32) n)
  let s := (List.range 4).map small
  let t := (List.range 4).map (fun i => polyAdd (polyDot (kemRow rho false i) s) (small (4 + i)))
  { sk := s, ek := t.flatMap (packCoeffs 12) ++ rho, reject := z }

/-- The encryption of a 32-byte message under an encapsulation key with 32 bytes of randomness. -/
def kemEncrypt (ek m r : List Byte) : List Byte :=
  let t := (unpackPolys 12 4 ek).map (fun f => f.map (· % kemQ))
  let rho := ek.drop 1536
  let y := (List.range 4).map (fun i => ntt (smallPoly r i))
  let u := (List.range 4).map (fun i => polyAdd (nttInv (polyDot (kemRow rho true i) y)) (smallPoly r (4 + i)))
  let v := polyAdd (polyAdd (nttInv (polyDot t y)) (smallPoly r 8)) ((unpackCoeffs 1 256 m).map (expandCoeff 1))
  u.flatMap (fun f => packCoeffs 11 (f.map (compressCoeff 11))) ++ packCoeffs 5 (v.map (compressCoeff 5))
/-- The message in a ciphertext. -/
def KemKey.decrypt (k : KemKey) (c : List Byte) : List Byte :=
  let u := (unpackPolys 11 4 c).map (fun f => f.map (expandCoeff 11))
  let v := (unpackCoeffs 5 256 (c.drop 1408)).map (expandCoeff 5)
  packCoeffs 1 ((polySub v (nttInv (polyDot k.sk (u.map ntt)))).map (compressCoeff 1))

/-- The 32-byte shared secret of a ciphertext: its own where the ciphertext is one that the key gives, else one of implicit
rejection. -/
def KemKey.decapsulate (k : KemKey) (c : List Byte) : List Byte :=
  let m := k.decrypt c
  let g := sha3x512 (m ++ sha3x256 k.ek)
  if kemEncrypt k.ek m (g.drop 32) = c then g.take 32 else shake256 32 (k.reject ++ c)
/-- The host's side: the shared secret and the ciphertext for 32 random bytes. -/
def kemEncapsulate (ek m : List Byte) : List Byte × List Byte :=
  let g := sha3x512 (m ++ sha3x256 ek)
  (g.take 32, kemEncrypt ek m (g.drop 32))

/-- The ML-KEM key pair of the package, made of its seeds at manufacture (R403). -/
def packageKem : KemKey := kemKeyOf (beBytes 32 Config.kemSeed.toNat) (beBytes 32 Config.kemReject.toNat)
/-- The identity key's signature of its public half (R403), with the randomness of manufacture. -/
def packageKemSignature : List Byte := slhSign identityKey (beBytes 32 Config.kemSignRandom.toNat) packageKem.ek
/-- The shared secret of a ciphertext under the package's key, as the wrapping key of a load-key body (R403). -/
def kemSecret (c : List Byte) : BitVec 256 := BitVec.ofNat 256 (ofBytes (packageKem.decapsulate c))

end Sys2Proof.Machine
end

