-- ==== Sys2Proof/Machine/VecCross.lean ====
section
/-!
DEFINITION. Meanings of VRED and VPERM (R273-R279): reductions and scans by the canonical tree (R76-R78), and the
members that move elements between lanes.
-/
namespace Sys2Proof.Machine
open Sys2Proof

-- The canonical tree (R76-R78) -------------------------------------------------------------------------------------------

/-- A node: a W80 value and the flags raised under it. -/
structure Node where
  v : BitVec 80
  fl : Flags
  deriving DecidableEq, Repr

/-- What two nodes combine to. -/
inductive TreeOp where
  | sum | max | min
  deriving DecidableEq, Repr

/-- The W80 pattern of an exact value. -/
def w80Of (v : FVal) : BitVec 80 := BitVec.ofNat 80 (fmtW80.round v .rne false false).bits

/-- Combine two nodes (R76, R77). -/
def TreeOp.node (op : TreeOp) (a b : Node) : Node :=
  match op with
  | .sum => let (r, f) := addW80 a.v b.v; { v := r, fl := a.fl ||| b.fl ||| f }
  | .max => { v := w80Of (minMax true (fmtW80.decode a.v.toNat) (fmtW80.decode b.v.toNat)), fl := a.fl ||| b.fl }
  | .min => { v := w80Of (minMax false (fmtW80.decode a.v.toNat) (fmtW80.decode b.v.toNat)), fl := a.fl ||| b.fl }
/-- The identity: −0, −∞ or +∞. -/
def TreeOp.id (op : TreeOp) : Node :=
  match op with
  | .sum => { v := w80NegZero, fl := 0 }
  | .max => { v := w80Of (.inf true), fl := 0 }
  | .min => { v := w80Of (.inf false), fl := 0 }

/-- A complete binary tree with the combined node of each subtree. -/
inductive Tree where
  | leaf (n : Node)
  | node (l r : Tree) (n : Node)
  deriving DecidableEq, Repr

def Tree.top : Tree → Node
  | .leaf n => n
  | .node _ _ n => n

/-- The tree of 2^depth leaves taken from a list, padded with the identity. -/
def Tree.build (op : TreeOp) : Nat → List Node → Tree
  | 0, l => .leaf (l.headD op.id)
  | d + 1, l =>
    let a := Tree.build op d (l.take (2 ^ d))
    let b := Tree.build op d (l.drop (2 ^ d))
    .node a b (op.node a.top b.top)

/-- Depth of the tree of L leaves: groups of 64, their number padded to a power of two (R76). -/
def treeDepth (L : Nat) : Nat :=
  let g := ceilDiv L 64
  6 + (if g ≤ 1 then 0 else log2Fuel 64 (g - 1) + 1)

/-- The node of the tree whose leaves from index n on are replaced by the identity (R78). -/
def Tree.upTo (op : TreeOp) : Nat → Nat → Tree → Node
  | _, n, .leaf x => if n = 0 then op.id else x
  | d, n, .node l r x =>
    if n = 0 then op.id
    else if 2 ^ d ≤ n then x
    else
      let h := 2 ^ (d - 1)
      if n ≤ h then op.node (Tree.upTo op (d - 1) n l) op.id
      else op.node l.top (Tree.upTo op (d - 1) (n - h) r)

/-- Leaves of a reduction: active elements under FRM.FZ, others the identity (R76). -/
def leavesFrom (op : TreeOp) (t : Ty) (fz : Bool) (act : Nat → Bool) : Nat → List Nat → List Node
  | _, [] => []
  | i, x :: rest =>
    (if act i then let (v, f) := readFloat t fz x; { v := w80Of v, fl := f } else op.id)
      :: leavesFrom op t fz act (i + 1) rest

/-- Combine exact integers of active elements: the fold over a list from element i. -/
def intFold (op : TreeOp) (t : Ty) (act : Nat → Bool) : Nat → List Nat → Int → Int
  | _, [], a => a
  | i, x :: rest, a =>
    let v := readInt t x
    intFold op t act (i + 1) rest
      (if act i then (match op with | .sum => a + v | .max => max a v | .min => min a v) else a)
/-- The identity of an integer operation. -/
def TreeOp.intId (op : TreeOp) (t : Ty) : Int := match op with | .sum => 0 | .max => minOf t | .min => maxOf t

-- Reductions (R274, R275) -------------------------------------------------------------------------------------------------

/-- Round a top node to the type: a narrowing conversion that clamps (R68, R76). -/
def State.roundNode (s : State) (t : Ty) (q i : Nat) (n : Node) : FRes :=
  let r := (fmtOf t).round (fmtW80.decode n.v.toNat) (s.regs.mode q i) (s.regs.frmFz && fzOf t) true
  { r with flags := r.flags ||| n.fl }

/-- The result of a reduction of elements [0, VL). -/
def State.reduced (s : State) (f : W3) (op : TreeOp) : FRes :=
  let t := f.ty
  let act := s.active f.k.toNat
  let vals := s.velems t f.a.toNat s.vl
  if t.isVFloat then
    s.roundNode t f.q.toNat 0 (Tree.build op (treeDepth s.vl) (leavesFrom op t s.regs.frmFz act 0 vals)).top
  else intRes t (f.q.getLsbD 0) (intFold op t act 0 vals (op.intId t))

/-- A reduction into element 0, zero in elements 1 to VL − 1; N is 1 when VL = 0. -/
def State.reduce (s : State) (i : Instr) (f : W3) (op : TreeOp) : Done :=
  s.fitting i [f.ty] (f.k != 0) (fun s =>
    let r := s.reduced f op
    let s' := (s.writePlain f.ty f.d.toNat (max s.vl 1) [r.bits] [0]).orFlags r.flags
    ((s'.markElems (if r.mark then [0] else [])).setVstart 0).complete)

/-- `vrsum`: with `.w` the top node as three `.n32` elements (R275). -/
def execVrsum (f : W3) (s : State) : Result :=
  (if f.imm.getLsbD 0 then
    s.fitting (.vrsum f) [f.ty] (f.k != 0) (fun s =>
      let vals := s.velems f.ty f.a.toNat s.vl
      let n := (Tree.build .sum (treeDepth s.vl) (leavesFrom .sum f.ty s.regs.frmFz (s.active f.k.toNat) 0 vals)).top
      let x := n.v.toNat
      let s' := (s.writePlain .n32 f.d.toNat 3 [x % 2 ^ 32, x / 2 ^ 32 % 2 ^ 32, x / 2 ^ 64] []).orFlags n.fl
      (s'.setVstart 0).complete)
  else s.reduce (.vrsum f) f .sum).finish
def execVrmax (f : W3) (s : State) : Result := (s.reduce (.vrmax f) f .max).finish
def execVrmin (f : W3) (s : State) : Result := (s.reduce (.vrmin f) f .min).finish

-- Scans (R276) -------------------------------------------------------------------------------------------------------------

/-- Integer prefix results of elements i, i + 1, …, with the exact value so far. -/
def intScan (op : TreeOp) (t : Ty) (sat : Bool) (act : Nat → Bool) : Nat → List Nat → Int → List FRes
  | _, [], _ => []
  | i, x :: rest, a =>
    if act i then
      let v := readInt t x
      let a := match op with | .sum => a + v | .max => max a v | .min => min a v
      intRes t sat a :: intScan op t sat act (i + 1) rest a
    else { bits := 0, flags := 0, mark := false } :: intScan op t sat act (i + 1) rest a

/-- Elements of a scan. -/
def State.scanned (s : State) (f : W3) (op : TreeOp) : List FRes :=
  let t := f.ty
  let act := s.active f.k.toNat
  let vals := s.velems t f.a.toNat s.vl
  if t.isVFloat then
    let depth := treeDepth s.vl
    let tree := Tree.build op depth (leavesFrom op t s.regs.frmFz act 0 vals)
    (List.range s.vl).map (fun i =>
      if act i then s.roundNode t f.q.toNat i (tree.upTo op depth (i + 1)) else { bits := 0, flags := 0, mark := false })
  else intScan op t (f.q.getLsbD 0) act 0 vals (op.intId t)

def State.scan (s : State) (i : Instr) (f : W3) (op : TreeOp) : Done :=
  s.fitting i [f.ty] (f.k != 0) (fun s =>
    let r := s.scanned f op
    let s' := (s.writePlain f.ty f.d.toNat s.vl (r.map (·.bits)) []).orFlags (flagsOf r)
    ((s'.markElems (marksFrom 0 r)).setVstart 0).complete)

def execVscanSum (f : W3) (s : State) : Result := (s.scan (.vscanSum f) f .sum).finish
def execVscanMax (f : W3) (s : State) : Result := (s.scan (.vscanMax f) f .max).finish
def execVscanMin (f : W3) (s : State) : Result := (s.scan (.vscanMin f) f .min).finish

-- Moves (R277-R279) ---------------------------------------------------------------------------------------------------------

/-- A cross-lane member that writes elements [0, VL) of D, given as operand values with their scale words (R273). -/
def State.moveInto (s : State) (i : Instr) (f : W3) (vals : State → List Nat) : Done :=
  s.fitting i [f.ty] (f.k != 0) (fun s =>
    let (codes, scales) := splitTile f.ty (vals s)
    ((s.writePlain f.ty f.d.toNat s.vl codes scales).setVstart 0).complete)

/-- Values of an operand list by index. -/
def atIdx (l : Array Nat) (i : Nat) : Nat := l.getD i 0
/-- Elements [0, VL) of vector A in TY. -/
def State.sourceA (s : State) (f : W3) : Array Nat := (s.vvals f.ty f.a.toNat s.vl).toArray
/-- Active elements below VL, in increasing index. -/
def State.activeList (s : State) (k : Nat) : List Nat := (List.range s.vl).filter (s.active k)
/-- Element i of D for each i below VL: zero where masked off (R278). -/
def State.permuted (s : State) (f : W3) (g : Nat → Nat) : List Nat :=
  (List.range s.vl).map (fun i => if s.active f.k.toNat i then g i else 0)

def execVcompress (f : W3) (s : State) : Result :=
  (s.moveInto (.vcompress f) f (fun s =>
    let a := s.sourceA f
    (s.activeList f.k.toNat).map (atIdx a))).finish

/-- The j-th active element receives A[j]; inactive elements keep D. -/
def spread (act : Nat → Bool) (a : Array Nat) : Nat → Nat → List Nat → List Nat
  | _, _, [] => []
  | i, j, d :: rest => if act i then atIdx a j :: spread act a (i + 1) (j + 1) rest else d :: spread act a (i + 1) j rest
def execVspread (f : W3) (s : State) : Result :=
  (s.moveInto (.vspread f) f (fun s =>
    spread (s.active f.k.toNat) (s.sourceA f) 0 0 (s.vvals f.ty f.d.toNat s.vl))).finish

/-- A[j], or zero when j ≥ VL. -/
def execVperm (f : W3) (s : State) : Result :=
  (s.moveInto (.vperm f) f (fun s =>
    let a := s.sourceA f
    let idx := (if f.bScalar then [] else s.velems .n32 f.b.toNat s.vl).toArray
    let one := (s.getS f.b).toNat % 2 ^ 32
    s.permuted f (fun i => let j := if f.bScalar then one else atIdx idx i; if j < s.vl then atIdx a j else 0))).finish

/-- The offset s of R278: IMM14[12:0], or zext(sB, 64). -/
def State.offset (s : State) (f : W3) : Nat := if f.bScalar then (s.getS f.b).toNat else f.immBits 12 0

def execVslideup (f : W3) (s : State) : Result :=
  (s.moveInto (.vslideup f) f (fun s =>
    let a := s.sourceA f
    s.permuted f (fun i => if s.offset f ≤ i then atIdx a (i - s.offset f) else 0))).finish
def execVslidedn (f : W3) (s : State) : Result :=
  (s.moveInto (.vslidedn f) f (fun s =>
    let a := s.sourceA f
    s.permuted f (fun i => if i + s.offset f < s.vl then atIdx a (i + s.offset f) else 0))).finish
def execVbcastScalar (f : W3) (s : State) : Result :=
  (s.moveInto (.vbcastScalar f) f (fun s => s.permuted f (fun _ => s.broadcast f.ty f.b))).finish
def execVbcastElementIndexed (f : W3) (s : State) : Result :=
  (s.moveInto (.vbcastElementIndexed f) f (fun s =>
    let j := (s.getS f.b).toNat
    let x := if j < s.vl then s.vval f.ty f.a.toNat j else 0
    s.permuted f (fun _ => x))).finish
def execVbcastElement (f : W3) (s : State) : Result :=
  (s.moveInto (.vbcastElement f) f (fun s =>
    let j := f.immBits 12 0
    let x := if j < s.vl then s.vval f.ty f.a.toNat j else 0
    s.permuted f (fun _ => x))).finish
/-- The number of active elements below i, for every element below VL. -/
def countBelow (act : Nat → Bool) : Nat → Nat → Nat → List Nat
  | 0, _, _ => []
  | n + 1, i, c => c :: countBelow act n (i + 1) (if act i then c + 1 else c)
def execViota (f : W3) (s : State) : Result :=
  (s.moveInto (.viota f) f (fun s => countBelow (s.active f.k.toNat) s.vl 0 0)).finish
def execVrev (f : W3) (s : State) : Result :=
  (s.moveInto (.vrev f) f (fun s =>
    let a := s.sourceA f
    s.permuted f (fun i => atIdx a (s.vl - 1 - i)))).finish

/-- `vextr` (R279): element s of A, extended, or 0 beyond VL. -/
def execVextr (f : W3) (s : State) : Result :=
  (s.fitting (.vextr f) [f.ty] false (fun s =>
    let j := s.offset f
    let x := if j < s.vl then extendTo f.ty (s.velem f.ty f.a.toNat j) else 0
    ((s.setS f.d x).setVstart 0).complete)).finish
/-- `vins` (R279): element s of D replaced when s < VL. -/
def execVins (f : W3) (s : State) : Result :=
  (s.fitting (.vins f) [f.ty] false (fun s =>
    let j := s.offset f
    let d := f.d.toNat
    if j < s.vl then
      let elems := (s.velems f.ty d s.vl).set j ((s.getS f.a).toNat % 2 ^ f.ty.width)
      let scales := (s.vscales d s.vl).set j 0
      ((s.writePlain f.ty d s.vl elems scales).setVstart 0).complete
    else (s.setVstart 0).complete)).finish

end Sys2Proof.Machine
end

