-- ==== Sys2Proof/Machine/Jobs.lean ====
section
/-!
DEFINITION. Jobs: the card and its refusal (R32-R34), the dependence stage (R35, R136, R353), `jlaunch` and `jwait` (R338,
R339), the combine (R42), the completion record (R43), a supervisor's end of a job, and the levels of R355.
-/
namespace Sys2Proof.Machine
open Sys2Proof

-- The card (Tables 3.1, 3.2) ---------------------------------------------------------------------------------------------

/-- A card from its 128 bytes. -/
def cardOf (b : List Byte) : Card :=
  let w := fun (off n k : Nat) => BitVec.ofNat k (natAt b off n)
  { entry := w 0x00 8 64, args := w 0x08 8 64, scount := w 0x10 8 64, slen := w 0x18 4 32, nlog := w 0x1C 4 32,
    ctrl := w 0x20 8 64, fptr := w 0x28 8 64, srseed := w 0x30 8 64, cmbsrc := w 0x38 8 64, cmbdst := w 0x40 8 64,
    cmbstr := w 0x48 4 32, cmblen := w 0x4C 4 32, featreq := w 0x50 32 256, doneAt := w 0x70 8 64, rsvd := w 0x78 8 64 }

/-- CMBTY as a type, when it is a number type. -/
def Card.cmbTy (c : Card) : Option Ty := (Ty.ofCode c.cmbty).filter Ty.isNumber

/-- A footprint entry from its 16 bytes, and whether its fields are allowed (R33). -/
def footprintOf (b : List Byte) : Footprint × Bool :=
  let base := natAt b 0 8
  let l := natAt b 8 8
  let f : Footprint := { base := BitVec.ofNat 64 base, len := l % 2 ^ 48, reads := bitOf l 48, writes := bitOf l 49 }
  (f, decide (base < 2 ^ 56) && f.len != 0 && (f.reads || f.writes) && decide (l < 2 ^ 50))

/-- ceil(C/H): the cores a job needs at most (R36). -/
def Card.coresNeeded (c : Card) : Nat := (c.ncores + c.resident - 1) / c.resident
/-- Cores in one instance of a SCOPE code (Table 3.3). -/
def coresInScope (scope : Nat) : Nat := match scope with | 2 => 4 | 3 => 256 | 4 => 1024 | _ => 8388608

/-- The lowest refusal code that applies (Table 3.3): `fpOk` says of each entry read whether its fields are allowed,
`bound` whether the ASID is bound, `fpFail` whether a read of the table failed; 0 when none applies. -/
def State.refusal (s : State) (c : Card) (fpOk : List Bool) (mayTop bound fpFail : Bool) : Nat :=
  let misaligned := c.entry.toNat % 8 != 0 || (c.indirect && c.scount.toNat % 4 != 0)
    || (c.nfp != 0 && c.fptr.toNat % 16 != 0) || c.doneAt.toNat % 8 != 0
  let reserved := decide (2 ^ 24 ≤ c.nlog.toNat) || decide (2 ^ 50 ≤ c.ctrl.toNat) || c.rsvd != 0
    || (!c.indirect && decide (2 ^ 32 ≤ c.scount.toNat))
  if misaligned || reserved then 1
  else if !([2, 3, 4, 5].contains c.scope) then 2
  else if c.vlreq = 0 || 23 - vrfBanks (vlOf c.vlreq) < c.scrb then 3
  else if c.ncores = 0 || 8388608 < c.ncores then 4
  else if c.gang && decide (coresInScope c.scope < c.coresNeeded) then 5
  else if c.prio = 63 && !mayTop then 6
  else if 16 < c.nfp || fpOk.any not then 7
  else if 4 ≤ c.cmbop || (c.cmbop != 0 && (match c.cmbTy with
      | none => true
      | some t => c.cmblen == 0 || decide (c.cmbstr.toNat < c.cmblen.toNat * (t.width / 8)) || c.cmbstr.toNat % 8 != 0)) then 8
  else if c.featreq &&& ~~~s.accepted != 0 then 9
  else if !bound then 10
  else if fpFail then 11
  else 0

/-- The device as an agent of a context, which has no local scratch: on the lowest die of the context (log entry 49). -/
def State.deviceAgent (s : State) (asid : Nat) : Who :=
  match s.context asid with
  | some x => { asid := asid, keyid := x.keyid, core := unitOn x.firstDie, user := false, engine := false }
  | none => { asid := asid, keyid := 0, core := unitOn 0, user := false, engine := false }
/-- The completion agent of a card (R12, R43): on the die of the quad or die that holds the grant, when the card's SCOPE is one. -/
def State.completionAgent (s : State) (c : Card) (inst : Option Nat) : Who :=
  match c.scope, inst with
  | 2, some i => { s.deviceAgent c.asid with core := unitOn (i / 64) }
  | 3, some i => { s.deviceAgent c.asid with core := unitOn i }
  | _, _ => s.deviceAgent c.asid
/-- The completion agent of a job. -/
def State.agentOf (s : State) (j : Job) : Who := s.completionAgent j.card j.scopeAt

/-- Bytes read through the scalar translation, 8 at a time, with the lines read for them, or the first failed check: its code, its
address and the lines read until then. -/
def State.scalarBytes (s : State) (w : Who) :
    Nat → Word → Except (Nat × Word × List (Nat × Bool)) (List Byte × List (Nat × Bool))
  | 0, _ => .ok ([], [])
  | n + 1, va =>
    match s.scalarAccess s.msys w .load va 8 8 false with
    | .error c => .error (c, va, s.scalarTried s.msys w .load va 8)
    | .ok p =>
      let here := s.scalarReads s.msys w .load va p.pa ++ dataReads p.pa 8 false
      match State.scalarBytes s w n (va + 8) with
      | .error (c, a, r) => .error (c, a, here ++ r)
      | .ok (l, r) => .ok (s.loadAt s.msys p 8 ++ l, here ++ r)

/-- The entries of the footprint table that can be read, the lines read for them, and the check that stopped the reading. -/
def State.footprints (s : State) (w : Who) : Nat → Word → List (List Byte) × List (Nat × Bool) × Option (Nat × Word)
  | 0, _ => ([], [], none)
  | n + 1, va =>
    match s.scalarBytes w 2 va with
    | .error (c, a, r) => ([], r, some (c, a))
    | .ok (b, r) =>
      let (l, more, e) := State.footprints s w n (va + 16)
      (b :: l, r ++ more, e)

/-- Why a submission did not become a job: a refusal code, or a failed read of the footprint table. -/
inductive Submission where
  | accepted (handle : Nat)
  | refused (code : Nat)
  | failed (code : Nat) (va : Word)
  deriving DecidableEq, Repr

/-- ASID bound on some die. -/
def State.bound (s : State) (asid : Nat) : Bool := (s.context asid).isSome

-- The dependence stage ---------------------------------------------------------------------------------------------------

/-- Two regions overlap and one of them is written (R136). -/
def Footprint.conflicts (a b : Footprint) : Bool :=
  let x := a.base.toNat % 2 ^ 56
  let y := b.base.toNat % 2 ^ 56
  decide (x < y + b.len) && decide (y < x + a.len) && (a.writes || b.writes)
def Job.conflicts (a b : Job) : Bool :=
  a.card.asid == b.card.asid && a.footprint.any (fun x => b.footprint.any (fun y => x.conflicts y))

/-- The instance of a scope that holds a core. -/
def instanceOf (scope core : Nat) : Nat := match scope with | 2 => quadOf core | 3 => dieOf core | _ => 0
/-- Cores of an instance, on the dies of a context (R354). -/
def Context.instanceCores (c : Context) (scope inst : Nat) : List Nat :=
  let l := match scope with
    | 2 => (List.range 4).map (fun i => 4 * inst + i)
    | 3 => (List.range 256).map (fun i => 256 * inst + i)
    | _ => List.range 1024
  l.filter (fun k => c.dies.getLsbD (dieOf k))
/-- Instances of a scope in the package. -/
def instanceCount (scope : Nat) : Nat := match scope with | 2 => 256 | 3 => 4 | _ => 1

/-- Remember a finished job's word: the latest 65,536 (R339). -/
def State.finishJob (s : State) (h : Nat) (w : Word) : State :=
  { s with jobs := s.jobs.filter (fun j => j.handle != h), finished := (s.finished ++ [(h, w)]).drop (s.finished.length - 65535) }

/-- Some instance of a job's scope has, on the dies of its context, the cores its first grant needs (R34, R354). -/
def Context.canHold (c : Context) (card : Card) : Bool :=
  let dies := popCount 4 c.dies.toNat
  let most := match card.scope with | 2 => 4 | 3 => 256 | _ => 256 * dies
  dies != 0 && (!card.gang || decide (card.coresNeeded ≤ most))

/-- A job leaves the dependence stage (R35, R353): refused with code 10 when no instance can hold it; its strip count is
read; with no strip, or a failed read, it is complete at once. -/
def State.makeReady (s : State) (j : Job) : State :=
  if !(match s.context j.card.asid with | some c => c.canHold j.card | none => false) then
    s.finishJob j.handle 0x800000000000000A
  else if !j.card.indirect then
    let n := j.card.scount.toNat % 2 ^ 32
    s.setJob ({ j with strips := n, st := if n = 0 then .completing else .active }.retime s.time)
  else match s.vectorAccess s.msys (s.agentOf j) .load j.card.scount 4 4 with
    | .error _ =>
      (s.performAll (s.agentOf j).core (readsOf (s.vectorTried s.msys (s.agentOf j) .load j.card.scount 4))).setJob
        { j with strips := 0, st := .completing, fault := 3 }
    | .ok p =>
      let n := ofBytes (s.loadAt s.msys p 4)
      let w := s.agentOf j
      let s := s.performAll w.core (readsOf (s.vectorReads w .load j.card.scount p.pa ++ dataReads p.pa 4 false))
      s.setJob ({ j with strips := n, st := if n = 0 then .completing else .active }.retime s.time)

/-- Let every job leave the dependence stage that no earlier incomplete job holds there, in arrival order. -/
def State.releaseJobs (s : State) : State :=
  s.jobs.foldl (fun s j =>
    if j.st == .dependent && !(s.jobs.any (fun e => e.handle < j.handle && e.conflicts j)) then s.makeReady j else s) s

/-- The footprint table of a card as its completion agent reads it; none is read without a bound context or a legal table. -/
def State.footprintsOf (s : State) (c : Card) : List (List Byte) × List (Nat × Bool) × Option (Nat × Word) :=
  if s.bound c.asid && c.nfp != 0 && c.nfp ≤ 16 && c.fptr.toNat % 16 == 0 then
    s.footprints (s.completionAgent c none) c.nfp c.fptr
  else ([], [], none)
/-- The reads of the table made at their homes (R108). -/
def State.cardReads (s : State) (c : Card) : State :=
  s.performAll (s.completionAgent c none).core (readsOf (s.footprintsOf c).2.1.eraseDups)

/-- Put a card to the scheduler (R34, R338, R394). -/
def State.submitCard (s : State) (c : Card) (host mayTop : Bool) : Submission × State :=
  let bound := s.bound c.asid
  let (raw, _, bad) := s.footprintsOf c
  let s := s.cardReads c
  let fps := raw.map footprintOf
  let code := s.refusal c (fps.map (fun x => x.2)) mayTop (bound || !host) (host && bad.isSome)
  match code, bad with
  | 0, some (t, a) => (.failed t a, s)
  | 0, none =>
    let h := s.nextHandle
    let j : Job := { handle := h, card := c, footprint := fps.map (fun x => x.1), st := .dependent, strips := 0, next := 0,
                     finished := 0, level := c.prio, readySince := none, waitSince := none, heldSince := none, lastGrant := 0,
                     scopeAt := none, cores := [], started := 0, lcores := [], ended1 := false, fault := 0, flags := 0,
                     combined := false }
    (.accepted h, { s with jobs := s.jobs ++ [j], nextHandle := h + 1 }.releaseJobs)
  | n, _ => (.refused n, s)

/-- The value that reports a refusal (R338). -/
def refusalWord (code : Nat) : Word := 0x8000000000000000 + BitVec.ofNat 64 code

/-- The most jobs the scheduler holds that have not completed (R353). -/
def jobLimit : Nat := 65536

/-- `jlaunch` (R338). -/
def execJlaunch (f : W3) (s : State) : Result :=
  (s.confirming (fun s =>
    let va := s.getS f.a
    if va.toNat % 128 ≠ 0 then s.trapHere 4 va
    else match s.scalarBytes s.me 16 va with
      | .error (c, a, reads) => (s.issue (readsOf reads.eraseDups)).trapHere c a
      | .ok (b, reads) =>
        let s := s.issue (readsOf reads.eraseDups)
        let card := cardOf b
        if card.asid ≠ s.thr.asid && !s.regs.priv then s.illegal (.jlaunch f) 3
        else if jobLimit ≤ s.jobs.length then s.again
        else match s.submitCard card false s.regs.priv with
          | (.accepted h, s) => (s.setS f.d (BitVec.ofNat 64 h)).complete
          | (.refused n, s) => (s.setS f.d (refusalWord n)).complete
          | (.failed c a, s) => s.trapHere c a)).finish

/-- The completion word of a handle (R339): none while its job has not completed. -/
def State.jobWord (s : State) (h : Nat) : Option Word :=
  if s.jobs.any (fun j => j.handle == h) then none
  else match s.finished.find? (fun x => x.1 == h) with
    | some (_, w) => some w
    | none => some 0xFFFFFFFFFFFFFFFF

/-- `jwait` (R339): a refusal value is returned at once. -/
def execJwait (f : W3) (s : State) : Result :=
  (s.confirming (fun s =>
    let x := s.getS f.a
    if x.getLsbD 63 then (s.setS f.d x).complete
    else match s.jobWord x.toNat with
      | some w => (s.setS f.d w).complete
      | none => s.again)).finish

-- Combine and completion record --------------------------------------------------------------------------------------------

/-- Element j of every slot from slot k on (R42), or none when a check fails. -/
def State.column (s : State) (w : Who) (c : Card) (z j : Nat) : Nat → Nat → Option (List Nat)
  | 0, _ => some []
  | n + 1, k =>
    match s.vectorAccess s.msys w .load (c.cmbsrc + BitVec.ofNat 64 (k * c.cmbstr.toNat + j * z)) z z with
    | .error _ => none
    | .ok p =>
      match State.column s w c z j n (k + 1) with
      | none => none
      | some l => some (ofBytes (s.loadAt s.msys p z) :: l)

/-- CMBOP as an operation of the tree. -/
def Card.treeOp (c : Card) : TreeOp := match c.cmbop with | 2 => .max | 3 => .min | _ => .sum

/-- One element of the result and its flags. -/
def combineColumn (op : TreeOp) (t : Ty) (l : List Nat) : Nat × Flags :=
  if t.isFloat then
    let n := (Tree.build op (treeDepth l.length) (leavesFrom op t false (fun _ => true) 0 l)).top
    let r := (fmtOf t).round (fmtW80.decode n.v.toNat) .rne false true
    (r.bits, r.flags ||| n.fl)
  else (truncI t.width (intFold op t (fun _ => true) 0 l (op.intId t)), 0)

/-- Elements j, j + 1, … of the result: the place, the value and the flags of each, or none when a check fails. -/
def State.combineFrom (s : State) (w : Who) (c : Card) (t : Ty) (strips : Nat) : Nat → Nat → Option (List (Place × Nat × Flags))
  | 0, _ => some []
  | n + 1, j =>
    let z := t.width / 8
    match s.column w c z j strips 0, s.vectorAccess s.msys w .store (c.cmbdst + BitVec.ofNat 64 (j * z)) z z with
    | some l, .ok p =>
      match State.combineFrom s w c t strips n (j + 1) with
      | none => none
      | some r => some ((p, combineColumn c.treeOp t l) :: r)
    | _, _ => none

/-- The lines that a combine reads (R108): its elements, and what the checks of its loads and stores read. -/
def State.combineReads (s : State) (w : Who) (c : Card) (z strips : Nat) : List (Nat × Bool) :=
  ((List.range c.cmblen.toNat).flatMap (fun j =>
    let dst := c.cmbdst + BitVec.ofNat 64 (j * z)
    ((List.range strips).flatMap (fun k =>
      let va := c.cmbsrc + BitVec.ofNat 64 (k * c.cmbstr.toNat + j * z)
      match s.vectorAccess s.msys w .load va z z with
      | .error _ => s.vectorTried s.msys w .load va z
      | .ok p => s.vectorReads w .load va p.pa ++ dataReads p.pa z false))
    ++ match s.vectorAccess s.msys w .store dst z z with
      | .error _ => s.vectorTried s.msys w .store dst z
      | .ok p => s.vectorReads w .store dst p.pa)).eraseDups
/-- A job that has a combine to make. -/
def Job.toCombine (j : Job) : Bool :=
  j.st == .completing && !j.ended1 && j.card.cmbop != 0 && j.strips != 0 && j.fault == 0 && !j.combined

/-- The combine (R42), an event of the job's completion agent (R43): a failed check leaves CMBDST unwritten and gives status 2.
DESIGN CHOICE: it then leaves the flags of the completion word 0, which R43 does not say (log entry 58). -/
def execJobCombine (h : Nat) (s : State) : Result :=
  match s.job h with
  | none => .next s
  | some j =>
    if s.winter || !j.toCombine then .next s
    else
      let c := j.card
      let w := s.agentOf j
      let t := c.cmbTy.getD .i32
      let result := s.combineFrom w c t j.strips c.cmblen.toNat 0
      let s := s.performAll w.core (readsOf (s.combineReads w c (t.width / 8) j.strips))
      match result with
      | none => .next (s.setJob { j with fault := 2, combined := true })
      | some r =>
        let s := r.foldl (fun s (p, x, _) => s.perform w.core (.store p.pa (toBytes (t.width / 8) x) p.key)) s
        .next (s.setJob { j with combined := true, flags := r.foldl (fun a (_, _, f) => a ||| f) 0 })

/-- The completion word (R43). -/
def Job.word (j : Job) (status : Nat) : Word :=
  regW [(j.finished % 2 ^ 32, 0), (j.card.asid, 32), (status, 48), ((if j.ended1 then 0 else j.flags.toNat), 56)]

/-- The completion record (R43): written at DONE when its check passes, else status 4 in the word alone; then the job's
dependences are released. -/
def execCompletionRecord (h : Nat) (s : State) : Result :=
  match s.job h with
  | none => .next s
  | some j =>
    if s.winter || j.st != .completing || j.toCombine then .next s
    else
      let status := if j.ended1 then 1 else j.fault
      let w := j.word status
      let (s, w) :=
        if j.card.doneAt = 0 then (s, w)
        else
          let agent := s.agentOf j
          match s.vectorAccess s.msys agent .store j.card.doneAt 8 8 with
          | .error _ => (s.performAll agent.core (readsOf (s.vectorTried s.msys agent .store j.card.doneAt 8)), j.word 4)
          | .ok p => (s.performAll agent.core (readsOf (s.vectorReads agent .store j.card.doneAt p.pa)
              ++ [.store p.pa (toBytes 8 w.toNat) p.key]), w)
      .next ((s.finishJob h w).releaseJobs)

/-- A supervisor ends a job (R43): not in Winter, when no core runs (R383). -/
def execJobEndedBySupervisor (h : Nat) (s : State) : Result :=
  match s.job h with
  | none => .next s
  | some j => if s.winter || j.st == .completing then .next s else .next (s.endJob h)

-- Levels (R355) ------------------------------------------------------------------------------------------------------------

/-- A ready job that has held no core for 1 ms rises one level, to at most 62; PRIO 62 and 63 never rise. -/
def execAgingTick (h : Nat) (s : State) : Result :=
  match s.job h with
  | none => .next s
  | some j =>
    match j.waitSince with
    | none => .next s
    | some t =>
      if s.winter || s.time < t + msNs then .next s
      else .next (s.setJob { j with waitSince := some (t + msNs),
                                    level := if j.level < 62 && j.card.prio < 62 then j.level + 1 else j.level })

/-- A job that has held a core for 1 ms without a break returns to PRIO. -/
def execLevelReturn (h : Nat) (s : State) : Result :=
  match s.job h with
  | none => .next s
  | some j =>
    match j.heldSince with
    | none => .next s
    | some t => if s.winter || s.time < t + msNs then .next s else .next (s.setJob { j with level := j.card.prio })

end Sys2Proof.Machine
end

