-- ==== Sys2Proof/Machine/Sched.lean ====
section
/-!
DEFINITION. The package scheduler's grants (R354, R356, R343), pre-emption into save slots (R362, R363, R313), resumption
with its pending replies (R364-R367), and the fail-over of the replicas (R357).
-/
namespace Sys2Proof.Machine
open Sys2Proof

-- Who goes first ---------------------------------------------------------------------------------------------------------

/-- Job a goes before job b (R356): the higher level, then the longer ready, then the earlier arrival. -/
def Job.before (a b : Job) : Bool :=
  let x := a.readySince.getD 0
  let y := b.readySince.getD 0
  decide (b.level < a.level) || (a.level == b.level && (decide (x < y) || (x == y && decide (a.handle < b.handle))))

/-- A core belongs to a grant or still holds threads. -/
def State.coreTaken (s : State) (core : Nat) : Bool := s.jobs.any (fun j => j.cores.contains core) || !(s.core core).free
/-- Free cores of an instance for a job's context. -/
def State.freeCores (s : State) (cx : Context) (scope inst : Nat) : List Nat :=
  (cx.instanceCores scope inst).filter (fun c => !s.coreTaken c)
/-- Instances a job may use: its own once it has been granted cores (R354, R364). -/
def Job.instances (j : Job) : List Nat :=
  match j.scopeAt with
  | some i => [i]
  | none => List.range (instanceCount j.card.scope)

/-- R343: a job that is granted whole quads. -/
def Card.wholeQuads (c : Card) : Bool := c.gang && c.threads == 4 && decide (3 ≤ c.scope) && c.ncores % 4 == 0
/-- Those of a list of cores whose whole quad is in it. -/
def quadsOnly (l : List Nat) : List Nat := l.filter (fun c => (List.range 4).all (fun i => l.contains (c / 4 * 4 + i)))
/-- Free cores that may go to a job in an instance. -/
def State.usable (s : State) (j : Job) (inst : Nat) : List Nat :=
  match s.context j.card.asid with
  | none => []
  | some cx =>
    let l := s.freeCores cx j.card.scope inst
    if j.card.wholeQuads then quadsOnly l else l

/-- The cores that stopped logical cores of a job need: one for each group stopped together (R364). -/
def Job.groups (j : Job) : List Nat :=
  ((j.lcores.filter (fun (_, l) => l.st == .saved)).map (fun (_, l) => l.group)).eraseDups
/-- How many cores one grant of a job needs (R354): a GANG job's ceil(C/H) when it resumes too. -/
def Job.need (j : Job) : Nat := if j.card.gang then j.card.coresNeeded else 1

/-- A further core would start a logical core of the job. -/
def Job.canGrow (j : Job) : Bool :=
  j.wantsStart && decide (j.cores.length < j.card.coresNeeded)
    && (if j.card.gang then j.started == 0
        else (j.nextLcore (j.cores.length + 1) j.card.ncores j.cores.length).isSome)
/-- Nothing is resident on a core, no other job holds it, and it is the job's already or one more than the grant may not exceed
(R354): a stopped logical core of the job may take it (R364), where Winter keeps it for none. -/
def State.openTo (s : State) (j : Job) (core : Nat) : Bool :=
  (s.core core).free && !s.reserved core && !(s.jobs.any (fun x => x.handle != j.handle && x.cores.contains core))
    && (j.cores.contains core || decide (j.cores.length < j.card.coresNeeded))
/-- The cores of a job's instance that are open to it, whole quads only where it is granted whole quads (R343). -/
def State.spare (s : State) (j : Job) (cx : Context) : List Nat :=
  let l := (cx.instanceCores j.card.scope (j.scopeAt.getD 0)).filter (s.openTo j)
  if j.card.wholeQuads then quadsOnly l else l
/-- Some logical core of a job waits to resume on a core that Winter does not keep for it. -/
def Job.wantsCore (j : Job) : Bool := j.lcores.any (fun (_, l) => l.st == .saved && l.kept.isNone)
/-- Some instance has the free cores that a first grant or a further core of the job needs, or those a resumption needs. -/
def State.placeable (s : State) (j : Job) : Bool :=
  (j.canGrow && j.instances.any (fun i => decide (j.need ≤ (s.usable j i).length)))
    || (j.wantsCore && (match s.context j.card.asid with
        | some cx => decide (j.need ≤ (s.spare j cx).length)
        | none => false))

/-- No ready job goes before j and could be placed; a job that holds cores grows only when no ready job goes before it. -/
def State.firstToPlace (s : State) (j : Job) (growing : Bool) : Bool :=
  !(s.jobs.any (fun x => x.ready && x.handle != j.handle && x.before j && (growing || s.placeable x)))

/-- A level that has changed by now and is not yet applied: no decision is made before it is (R356). -/
def State.levelDue (s : State) : Bool :=
  s.jobs.any (fun j =>
    (match j.waitSince with | some t => decide (t + msNs ≤ s.time) | none => false)
      || (match j.heldSince with | some t => decide (t + msNs ≤ s.time) && j.level != j.card.prio | none => false))

-- Grants (R354) ----------------------------------------------------------------------------------------------------------

/-- The conditions of a grant. -/
def State.grantOk (s : State) (j : Job) (cores : List Nat) : Bool :=
  let inst := instanceOf j.card.scope (cores.headD 0)
  !s.winter && s.started && !s.levelDue && j.ready && j.canGrow && !cores.isEmpty && decide cores.Nodup
    && (if j.card.gang then cores.length == j.card.coresNeeded else decide (j.cores.length + cores.length ≤ j.card.coresNeeded))
    && j.instances.contains inst && cores.all (fun c => (s.usable j inst).contains c)
    && (!j.card.wholeQuads || (List.range cores.length).all (fun i => cores.getD i 0 % 4 == i % 4
          && cores.getD i 0 / 4 == cores.getD (i / 4 * 4) 0 / 4))
    && s.firstToPlace j (!j.cores.isEmpty)

/-- The quads of a list of cores have their L1s fused, or not, as the grants now say (R21). -/
def State.fuseQuads (s : State) (cores : List Nat) : State := (cores.map quadOf).eraseDups.foldl State.fuseQuad s
/-- Hand cores to a job and start its logical cores on them (R36, R39). -/
def State.grantCores (s : State) (j : Job) (cores : List Nat) : State :=
  let s := (s.sampleCores cores).setJob { j with cores := j.cores ++ cores, lastGrant := s.time,
                                                 scopeAt := some (instanceOf j.card.scope (cores.headD 0)) }
  (s.fuseQuads cores).fillCores j.handle

def execGrant (h : Nat) (cores : List Nat) (s : State) : Result :=
  match s.job h with
  | none => .next s
  | some j => if s.grantOk j cores then .next (s.grantCores j cores) else .next s

-- Stopping and saving (R363, R313, R223, R366) ---------------------------------------------------------------------------

/-- Discard what a thread ran speculatively after its oldest unconfirmed `.spec` probe, an `acwait` of an older plain probe
included (R313). -/
def State.dropSpeculation (s : State) : State :=
  match s.side.probes.findIdx? (fun (p : Probe) => p.spec && !p.confirmed) with
  | none => s
  | some n =>
    match (s.probe? n).bind (fun p => p.ck) with
    | none => s
    | some c =>
      s.setThr { s.thr with regs := s.regs.backTo c.regs, specFile := none, held := [], acks := [], waiting := none,
                            entered := none, stopped := none,
                            side := { s.side with probes := untaken (s.side.probes.take n) ++ (s.side.probes.drop n).take 1,
                                                  resv := c.resv, vresv := c.vresv, linker := c.linker, requests := [],
                                                  arrived := [], rows := [] } }

/-- A thread whose oldest `.spec` probe is still unconfirmed runs on speculatively from where it stands (R313). -/
def State.respeculate (s : State) (t : Hart) : State :=
  let x := s.thread t
  if x.owner.isSome && x.side.probes.any (fun p => p.spec && !p.confirmed) then
    let file := (s.core t.core).file
    let file := { file with dirty := 0 }
    let ck : Checkpoint := { regs := x.regs, file := file, acks := [], resv := none, vresv := [], linker := 0 }
    s.setThread t { x with specFile := some file,
                           side := { x.side with probes := x.side.probes.map (fun p =>
                             { p with heldAt := 0, ck := p.ck.map (fun _ => ck) }) } }
  else s

/-- End a `waiti` at a pre-emption: its deadline, its lost reservation, or else the pre-emption (R223). -/
def State.interruptWait (s : State) : State :=
  match s.thr.waiting with
  | none => s
  | some (d, deadline) =>
    let lost := match s.side.resv with | some r => !s.holds r | none => false
    s.endWait d (if deadline.toNat ≤ s.time then 0 else if lost then 1 else 2)

/-- A thread stops at its pre-emption point: its reservations are lost (R235), and of its vector work no group is left to issue. -/
def State.suspend (s : State) (t : Hart) : State :=
  s.asHart t (fun s =>
    if s.thr.owner.isNone || s.thr.ended then s
    else
      let s := s.dropSpeculation.interruptWait
      let s := (s.setEntered none).setSide s.side.loseReservations
      let s := if s.thr.burst then s.setThr { s.thr with burst := false } else s
      if s.working t then s.setQuad (quadOf t.core) ((s.quadNow (quadOf t.core)).unqueue (t.core % 4) t.thread) else s)

/-- One reply log entry (Table 26.9). -/
def logEntry (fid state code reg elem : Nat) (value : Nat) : List Byte :=
  toBytes 2 fid ++ toBytes 1 state ++ toBytes 1 code ++ toBytes 1 reg ++ toBytes 1 0 ++ toBytes 2 elem ++ toBytes 8 value

/-- REG of a request: a scalar register, a vector register, or none for a store or a walk. -/
def Request.regByte (r : Request) : Nat :=
  match r.kind with
  | 0 => r.reg % 64
  | 1 => 64 + r.reg % 64
  | _ => 128

/-- The reply log of a stopping thread (R366, R367): its done set, then the requests still out. -/
def Side.log (x : Side) (file : RegFile) : List Byte :=
  let done := match x.done with
    | none => []
    | some d => (d.elems.zip d.fids).flatMap (fun (e, fid) =>
        logEntry fid d.state 0 d.reg e
          (if d.state = 1 then
            let v := vget file.v (d.reg % 64) VReg.zero
            if v.ty.wide then v.slot 32 e + (vget file.v (d.reg % 64 + 1) VReg.zero).slot 32 e * 2 ^ 32 else v.slot v.ty.width e
           else 0))
  done ++ x.requests.flatMap (fun r => logEntry r.fid 0 0 r.regByte r.elem 0)
/-- Its header (R366). -/
def Side.logHeader (x : Side) : List Byte :=
  let done := match x.done with | none => 0 | some d => d.elems.length
  toBytes 2 (done + x.requests.length) ++ toBytes 2 x.requests.length ++ toBytes 60 0

/-- Lines of the device's own structures that a unit reads (R108). -/
def State.deviceReads (s : State) (unit pa n : Nat) : State := s.performAll unit (readsOf (dataReads pa n false))
def State.storeParts (s : State) (unit pa : Nat) (l : List (Nat × List Byte)) : State :=
  l.foldl (fun s (off, b) => s.deviceStore unit (pa + off) b) s

/-- Hardware threads of a logical core on a core, by TID. -/
def hartsOf (j : Job) (core base : Nat) : List Hart := (List.range j.card.threads).map (fun i => { core := core, thread := base + i })

/-- The lowest free slot of a context's save pool from n on (R362). -/
def Context.freeSlot (c : Context) : Nat → Nat → Option Nat
  | 0, _ => none
  | k + 1, n => if c.scnt ≤ n then none else if (SMap.find c.slots n).isNone then some n else Context.freeSlot c k (n + 1)

/-- Write the image of a stopped logical core into its slot (R363, steps 2 and 3). At its first save the rest of the slot becomes
zero, and at a later one what an image of a larger VLMAX had beyond this one's area (Table 26.8). -/
def State.writeSlot (s : State) (j : Job) (cx : Context) (c core slot : Nat) : State :=
  let l := j.lcore c
  let pa := cx.slotPa slot
  let x := s.core core
  let unit := unitOn (dieOf core)
  let harts := hartsOf j core l.base
  let old := areaBytes (natAt (s.msys.load 0 (pa + slotVector + 8) 2) 0 2)
  let new := areaBytes x.vlmax
  let s := if l.slot.isNone then s.deviceZero unit pa (2 ^ 20)
    else if new < old then s.deviceClear unit (pa + slotVector + new) (old - new) else s
  let s := (List.range harts.length).foldl (fun s i =>
    let t := s.thread (harts.getD i { core := core, thread := 0 })
    let s := s.storeParts unit (pa + 1024 * i) (threadParts t.regs t.asid ++ [(0x300, t.side.logHeader)])
    s.deviceStore unit (pa + 4096 + 8192 * i) (t.side.log x.file)) s
  let full := saveFull (s.msys.load 0 (pa + slotVector) 12) x.vlmax j.card.asid
  let s := s.deviceReads unit (pa + slotVector) 12
  let s := s.storeParts unit (pa + slotVector) (vectorParts x.file x.vlmax x.mshape x.slip j.card.asid full)
  let s := s.setContext j.card.asid { cx with slots := SMap.set cx.slots slot { job := j.handle, lcore := c } }
  s.chargeFree j.card.asid
/-- Write a stopped logical core into its slot, and take it off its core (R363, steps 2 to 4). -/
def State.saveLcore (s : State) (h c core slot group : Nat) (kept : Option Nat) : State :=
  match s.job h with
  | none => s
  | some j =>
    match s.context j.card.asid with
    | none => s
    | some cx =>
      let l := j.lcore c
      let harts := hartsOf j core l.base
      let saved := harts.map (fun t =>
        let t := s.thread t
        ({ side := t.side, ended := t.ended, pc := t.regs.pc, priv := t.regs.priv, stopped := t.stopped } : SavedThread))
      let l := { l with st := .saved, slot := some slot, group := group, threads := saved, stoppedAt := s.time, kept := kept }
      let s := (s.writeSlot j cx c core slot).setJob (j.setLcore c l)
      harts.foldl (fun s t => s.setThread t Thread.zero) s
/-- Leave a stopped logical core on its core through Winter: with its image in a slot when it has one (R362, R383). -/
def State.parkLcore (s : State) (h c core : Nat) (slot : Option Nat) : State :=
  match s.job h with
  | none => s
  | some j =>
    let l := j.lcore c
    let s := match slot, s.context j.card.asid with
      | some n, some cx => s.writeSlot j cx c core n
      | _, _ => s
    s.setJob (j.setLcore c { l with st := .inPlace core l.base, slot := slot, stoppedAt := s.time })

/-- Logical cores resident on a core, lowest hardware thread first. -/
def Core.residents (c : Core) : List (Nat × Nat) :=
  (c.threads.toList.filterMap (fun t => t.owner.map (fun o => (o.job, o.lcore)))).eraseDups
/-- Residents of a core that hold no save slot. -/
def State.slotless (s : State) (core : Nat) : Nat :=
  ((s.core core).residents.filter (fun (h, c) => match s.job h with
    | some j => (j.lcore c).slot.isNone
    | none => false)).length

/-- The slot that a logical core without one takes: the first free one from `slot` on, or else the lowest free one (R362). -/
def Context.takeSlot (c : Context) (slot : Nat) : Option Nat :=
  match c.freeSlot (c.slots.length + 1) slot with
  | some n => some n
  | none => c.freeSlot (c.slots.length + 1) 0

/-- The slot of a logical core: the one it has, or one it can take (R362). -/
def State.slotOf (s : State) (h c slot : Nat) : Option Nat :=
  match s.job h with
  | none => none
  | some j =>
    match (j.lcore c).slot with
    | some n => some n
    | none => (s.context j.card.asid).bind (fun cx => cx.takeSlot slot)
/-- The residents of a core that find no slot when each takes one in turn, the first new one at `slot` or above. -/
def State.allSlotted (s : State) (slot : Nat) (res : List (Nat × Nat)) : Bool :=
  s.contexts.all (fun (a, cx) =>
    decide ((res.filter (fun (h, c) => match s.job h with
      | some j => j.card.asid == a && (j.lcore c).slot.isNone
      | none => false)).length ≤ cx.scnt - cx.slots.length)) && res.all (fun (h, c) => (s.slotOf h c slot).isSome)
/-- Stop the threads of a core and save every logical core of it, each into its own slot, the first new one at `slot` or above.
Where one finds no slot, which happens in Winter alone (R362), none of that core's leaves it: those with a slot have their images
written too, and all go on together in place (R364, R384, log entry 40). -/
def State.saveResidents (s : State) (core slot group : Nat) (kept : Option Nat) : State :=
  let res := (s.core core).residents
  let s := (List.range 4).foldl (fun s i => s.suspend { core := core, thread := i }) s
  let off := s.allSlotted slot res
  res.foldl (fun s (h, c) =>
    match s.slotOf h c slot, off with
    | some n, true => s.saveLcore h c core n group kept
    | x, _ => s.parkLcore h c core x) s

/-- The job that holds a core. -/
def State.holder (s : State) (core : Nat) : Option Job := s.jobs.find? (fun j => j.cores.contains core)
/-- A core is pre-empted: its logical cores are saved, none that Winter had kept for it waits for it any longer, and it leaves
its job's grant (R363, R354). -/
def State.saveCore (s : State) (core slot group : Nat) : State :=
  match s.holder core with
  | none => s
  | some v =>
    let s := s.saveResidents core slot group none
    match s.job v.handle with
    | none => s
    | some j =>
      let free := j.lcores.map (fun (c, l) => (c, { l with kept := if l.kept = some core then none else l.kept }))
      ((s.setJob { j with lcores := free }).dropCores v.handle [core]).retime v.handle

-- Pre-emption (R356, R362) -----------------------------------------------------------------------------------------------

/-- Free save slots of a context. -/
def Context.slotsFree (c : Context) : Nat := c.scnt - c.slots.length
/-- The cores a pre-emption of a core takes: all of a GANG job's (R356). -/
def Job.victimCores (j : Job) (core : Nat) : List Nat := if j.card.gang then j.cores else [core]
/-- The save pools have slots for what a list of cores must save (R362). -/
def State.slotsFor (s : State) (cores : List Nat) : Bool :=
  s.contexts.all (fun (a, cx) =>
    let mine := cores.filter (fun c => match s.holder c with | some j => j.card.asid == a | none => false)
    decide ((mine.map s.slotless).foldl (· + ·) 0 ≤ cx.slotsFree))
/-- A job may lose a core: PRIO below 63 and slots for what it must save. -/
def State.victimOk (s : State) (j : Job) (core : Nat) : Bool :=
  j.card.prio != 63 && (s.context j.card.asid).isSome && s.slotsFor (j.victimCores core)

/-- Insert into a list that an order keeps sorted, and sort a list. -/
def insertBy {α : Type} (first : α → α → Bool) (x : α) : List α → List α
  | [] => [x]
  | y :: rest => if first x y then x :: y :: rest else y :: insertBy first x rest
def sortBy {α : Type} (first : α → α → Bool) (l : List α) : List α := l.foldr (insertBy first) []

/-- A core is a better victim than another: the lower level, then the later grant, then the lower number (R356). DESIGN CHOICE: every
core of a job counts as granted when the job's latest grant was, whichever grant brought it, so that inside one job the lowest number
comes first; R356 does not say how a job that grew counts (log entry 31). -/
def State.worseHeld (s : State) (a b : Nat) : Bool :=
  match s.holder a, s.holder b with
  | some x, some y =>
    decide (x.level < y.level)
      || (x.level == y.level && (decide (y.lastGrant < x.lastGrant) || (x.lastGrant == y.lastGrant && decide (a < b))))
  | _, _ => false

/-- Take victims in order until the need is met, a GANG's cores together and never more than the save pools hold. -/
def State.takeVictims (s : State) (enough : List Nat → Bool) : List Nat → List Nat → List Nat
  | [], got => got
  | c :: rest, got =>
    if enough got || got.contains c then State.takeVictims s enough rest got
    else
      let more := match s.holder c with | some j => j.victimCores c | none => []
      State.takeVictims s enough rest (if s.slotsFor (got ++ more) then got ++ more else got)
/-- Give back victims that the need does not call for, the last taken first. -/
def State.spareVictims (s : State) (enough : List Nat → Bool) (got : List Nat) : List Nat :=
  got.reverse.foldl (fun got c =>
    let back := match s.holder c with | some j => j.victimCores c | none => []
    let less := got.filter (fun x => !back.contains x)
    if enough less then less else got) got

/-- The cores that ready job x pre-empts in an instance (R356), when those of running jobs strictly below it, with the free
ones, cover its need. -/
def State.victims (s : State) (x : Job) (inst : Nat) : Option (List Nat) :=
  match s.context x.card.asid with
  | none => none
  | some cx =>
    let cores := cx.instanceCores x.card.scope inst
    let below := cores.filter (fun c => match s.holder c with
      | some j => decide (j.level < x.level) && s.victimOk j c
      | none => false)
    let free := cores.filter (fun c => !s.coreTaken c)
    let fit := fun (l : List Nat) => if x.card.wholeQuads then quadsOnly l else l
    let enough := fun (got : List Nat) => decide (x.need ≤ (fit (free ++ got.filter (fun c => cores.contains c))).length)
    let able := fit (free ++ below)
    let got := s.takeVictims enough (sortBy s.worseHeld (below.filter (fun c => able.contains c))) []
    let got := s.spareVictims enough got
    if enough got && !got.isEmpty then some got else none

/-- The pre-emptions that the scheduler may make now: those of the first ready job that holds no core and can be placed in no
other way, one for each instance that covers its need; none while a job that goes before it can be placed, nor before
the levels of this instant are applied (R356). -/
def State.preemptions (s : State) : List (List Nat) :=
  if s.winter || s.levelDue then []
  else
    let waiting := (sortBy Job.before (s.jobs.filter Job.ready)).takeWhile (fun x => !s.placeable x)
    ((waiting.filter (fun x => x.cores.isEmpty)).findSome? (fun x =>
      match x.instances.filterMap (s.victims x) with
      | [] => none
      | l => some l)).getD []
/-- The cores that a pre-emption beginning at a core takes. -/
def State.victimsAt (s : State) (core : Nat) : List Nat := (s.preemptions.find? (fun l => l.contains core)).getD []
/-- The conditions of a pre-emption of a core. -/
def State.preemptOk (s : State) (v : Job) (core : Nat) : Bool :=
  v.cores.contains core && (s.victimsAt core).contains core

/-- The number of the next group stopped together. -/
def State.nextGroup (s : State) : Nat :=
  s.jobs.foldl (fun n j => j.lcores.foldl (fun n (_, l) => max n (l.group + 1)) n) 1

/-- Pre-emption by the scheduler of the cores that one grant needs, among them this core (R356); new slots are taken at `slot` or
above. -/
def execPreempt (core slot : Nat) (s : State) : Result :=
  .next ((s.victimsAt core).foldl (fun s c => s.saveCore c slot s.nextGroup) s)

-- Replies (R366, R367) ---------------------------------------------------------------------------------------------------

/-- LEFT of a saved thread's reply log. -/
def State.logLeft (s : State) (cx : Context) (slot tid : Nat) : Nat :=
  natAt (s.msys.load 0 (cx.slotPa slot + 1024 * tid + 0x302) 2) 0 2
/-- The place of the entry of a fault id, from entry i on. -/
def State.findEntry (s : State) (base fid : Nat) : Nat → Nat → Option Nat
  | 0, _ => none
  | n + 1, i =>
    let b := s.msys.load 0 (base + 16 * i) 4
    if natAt b 0 2 = fid && natAt b 2 1 = 0 then some (base + 16 * i) else State.findEntry s base fid n (i + 1)

/-- The reply to a saved thread's request, as its home answered it before the thread stopped (R145, R367): written into its
entry once; a replay finds no awaiting entry. -/
def State.reply (s : State) (l : LRef) (tid fid : Nat) : State :=
  match s.job l.job with
  | none => s
  | some j =>
    let c := j.lcore l.lcore
    match c.st, c.slot, s.context j.card.asid, c.threads[tid]? with
    | .saved, some slot, some cx, some t =>
      match t.side.requests.find? (fun r => r.fid == fid) with
      | none => s
      | some r =>
        let area := cx.slotPa slot + 1024 * tid
        let base := cx.slotPa slot + 4096 + 8192 * tid
        let count := natAt (s.msys.load 0 (area + 0x300) 2) 0 2
        let unit := (s.agentOf j).core
        let found := s.findEntry base fid count 0
        let s := (s.deviceReads unit (area + 0x300) 4).deviceReads unit base
          (match found with | some at_ => at_ + 4 - base | none => 16 * count)
        match found with
        | some at_ =>
          let a := r.answer
          let s := s.deviceStore unit at_ (logEntry fid a.state a.code r.regByte r.elem a.value)
          s.deviceStore unit (area + 0x302) (toBytes 2 (s.logLeft cx slot tid - 1))
        | none => s
    | _, _, _, _ => s
def execReplyArrival (l : LRef) (tid fid : Nat) (s : State) : Result := .next (if s.winter then s else s.reply l tid fid)

-- Resumption (R364-R367) -------------------------------------------------------------------------------------------------

/-- Replace element e of a PLAIN register. -/
def VReg.putSlot (v : VReg) (w e x : Nat) : VReg :=
  let mask := (BitVec.ofNat 65536 (2 ^ w - 1)) <<< (w * e)
  { v with data := (v.data &&& ~~~mask) ||| (BitVec.ofNat 65536 (x % 2 ^ w) <<< (w * e)) }
/-- Write a data entry into its register element, with VDIRTY. -/
def RegFile.putElem (f : RegFile) (t : Ty) (d e x : Nat) : RegFile :=
  let one := fun (f : RegFile) (d w x : Nat) =>
    { f with v := vset f.v d ((vget f.v d VReg.zero).putSlot w e x), dirty := f.dirty ||| (1#32 <<< d) }
  if t.wide then one (one f d 32 x) (d + 1) 32 (x / 2 ^ 32) else one f d t.width x

/-- The answers in a log to a thread's requests. -/
def State.answers (s : State) (base : Nat) (rs : List Request) (count : Nat) : List Request :=
  (List.range count).filterMap (fun i =>
    let b := s.msys.load 0 (base + 16 * i) 16
    (rs.find? (fun r => r.fid == natAt b 0 2)).map (fun r =>
      { r with answer := { state := natAt b 2 1, code := natAt b 3 1, value := natAt b 8 8 } }))
/-- The data that a log holds for the elements of a done set: the number and value of each. -/
def State.doneData (s : State) (base count : Nat) (d : DoneSet) : List (Nat × Nat) :=
  (List.range count).filterMap (fun i =>
    let b := s.msys.load 0 (base + 16 * i) 16
    if d.fids.contains (natAt b 0 2) && natAt b 2 1 = 1 then some (natAt b 6 2, natAt b 8 8) else none)

/-- What one answer brings: data into its register (R367). -/
def State.putAnswer (s : State) (r : Request) : State :=
  match r.answer.state, r.kind with
  | 1, 1 => s.setFile (s.file.putElem r.ty r.reg r.elem r.answer.value)
  | 1, 0 => s.setS (BitVec.ofNat 6 r.reg) (BitVec.ofNat 64 r.answer.value)
  | _, _ => s
/-- PROG of the destination of a load's requests. -/
def State.progOf (s : State) (rs : List Request) (n : Nat) : State :=
  match rs.find? (fun r => r.kind == 1) with
  | some r => s.setProg r.ty r.reg n
  | none => s

/-- Apply the answers to the current thread's requests (R366, R367): data into their registers; then the destination's PROG rises to
VSTART, and a scalar load is complete; or the trap of the lowest failed element is taken, with the done set above it, and the rows
that a gather had read kept for its restart there (R124). -/
def State.applyAnswers (s : State) (rs : List Request) : State :=
  let s := rs.foldl State.putAnswer s
  let arrived := s.side.arrived
  let s := s.setSide { s.side with requests := [], arrived := [] }
  match rs.filter (fun r => r.answer.state == 3) with
  | [] =>
    if rs.any (fun r => r.kind == 0) then (s.setEntered none).advance else s.progOf rs s.vstart
  | b0 :: rest =>
    let b := rest.foldl (fun x y => if y.elem < x.elem then y else x) b0
    let e := b.elem
    let above := rs.filter (fun r => decide (e < r.elem) && r.kind != 3 && (r.answer.state == 1 || r.answer.state == 2))
    let old := s.side.done.filter (fun d => d.pc == s.pc)
    let (oldE, oldF) := match old with
      | some d => ((d.elems.zip d.fids).filter (fun (x : Nat × Nat) => decide (e < x.1))).unzip
      | none => ([], [])
    let more := ((match old with | some d => d.more | none => []) ++ arrived).filter (fun x => decide (e < x))
    let load := rs.any (fun r => r.kind == 1)
    let done : DoneSet := { pc := s.pc, elems := oldE ++ above.map (fun r => r.elem), fids := oldF ++ above.map (fun r => r.fid),
                            state := if load then 1 else 2, reg := b.regByte, more := more, armed := false }
    let rows := s.side.rows.map (fun (r : RowsRead) => if r.pc = s.pc then { r with next := e } else r)
    let s := ((s.setVstart e).progOf rs e).setSide { s.side with done := some done, rows := rows }
    let s := s.setThr { s.thr with entered := none, stopped := none }
    s.enterTrap { code := b.answer.code, val := BitVec.ofNat 64 b.answer.value, point := s.pc, asy := false, blk := false, fid := b.fid }

/-- The pending replies of a resumed thread, with the data of its done set (R367). -/
def State.applyReplies (s : State) (t : Hart) (rs : List Request) (done : List (Nat × Nat)) : State :=
  s.asHart t (fun s =>
    let s := match s.side.done with
      | some d =>
        let r := d.reg % 64
        done.foldl (fun s (e, x) => s.setFile (s.file.putElem (s.vreg r).ty r e x)) s
      | none => s
    if rs.isEmpty then s else s.applyAnswers rs)

/-- A thread put back on a core from its area (R364), with what the device kept beside it: an instruction that it had stopped in
is not complete (R91). -/
def restoreThread (j : Job) (keyid c tid : Nat) (area : List Byte) (x : SavedThread) (notice : Option Word) : Thread :=
  let regs := { ThreadRegs.zero with pc := x.pc, priv := x.priv }.restore area
  let regs := match x.side.report with
    | some (r, w) => { regs with rstart := r, faultWord := w }
    | none => regs
  let pend := match notice with
    | some t => if x.ended then [] else [{ code := 13, val := t, fid := 0 }]
    | none => []
  { Thread.zero with regs := regs, owner := some { job := j.handle, lcore := c, tid := tid }, ended := x.ended,
                     asid := j.card.asid, keyid := keyid, stopped := x.stopped,
                     side := { x.side with resv := none, vresv := [], report := none, pending := x.side.pending ++ pend } }

/-- Put one logical core back on a core: its threads, then their replies, then the speculation of those that had begun one. A
double trap on the way ends the job, and none of its threads is placed after that (R361). -/
def State.restoreLcore (s : State) (j : Job) (cx : Context) (c core : Nat) : State :=
  let l := j.lcore c
  let slot := l.slot.getD 0
  let unit := unitOn (dieOf core)
  let notice := if cx.pnote then some (BitVec.ofNat 64 (s.time - l.stoppedAt)) else none
  let s := s.setJob (j.setLcore c { l with st := .resident core l.base, threads := [], kept := none })
  let tids := List.range l.threads.length
  let hart := fun (i : Nat) => ({ core := core, thread := l.base + i } : Hart)
  let saved := fun (i : Nat) => l.threads.getD i SavedThread.zero
  let area := fun (i : Nat) => cx.slotPa slot + 1024 * i
  let log := fun (i : Nat) => cx.slotPa slot + 4096 + 8192 * i
  let s := tids.foldl (fun s i =>
    (s.setThread (hart i) (restoreThread j cx.keyid c i (s.msys.load 0 (area i) 1024) (saved i) notice)).deviceReads unit (area i) 1024) s
  let s := tids.foldl (fun s i =>
    if (s.thread (hart i)).owner.isNone then s
    else
      let count := natAt (s.msys.load 0 (area i + 0x300) 2) 0 2
      let done := match (saved i).side.done with | some d => s.doneData (log i) count d | none => []
      (s.applyReplies (hart i) (s.answers (log i) (saved i).side.requests count) done).deviceReads unit (log i) (16 * count)) s
  tids.foldl (fun s i => s.respeculate (hart i)) s

/-- Resume a group of logical cores on a core of the grant (R364): the vector area is loaded once. -/
def State.resumeGroup (s : State) (h group core : Nat) : State :=
  match s.job h with
  | none => s
  | some j =>
    match s.context j.card.asid with
    | none => s
    | some cx =>
      let mine := j.lcores.filter (fun (_, l) => l.st == .saved && l.group == group)
      let pa := cx.slotPa ((mine.head?.bind (fun (_, l) => l.slot)).getD 0) + slotVector
      let hdr := s.msys.load 0 pa 64
      let saved := natAt hdr 8 2
      let vm := if saved = 512 || saved = 1024 || saved = 2048 then saved else vlOf j.card.vlreq
      let (file, _) := vectorLoad vm (s.accepted.getLsbD 4) (fun off n => s.msys.load 0 (pa + off) n)
      let s := s.sampleCore core
      let x := { s.core core with vlmax := vm, scrb := j.card.scrb, file := file }
      let s := (s.setCore core (x.loadShape hdr)).deviceReads (unitOn (dieOf core)) pa (areaBytes vm)
      let s := mine.foldl (fun s (c, _) =>
        match s.job h with
        | some j => if j.ended1 then s else s.restoreLcore j cx c core
        | none => s) s
      (s.chargeFree j.card.asid).retime h

/-- Nothing but the arrival of its replies (R367) and the quad of a transfer that is still incomplete (R328) keeps a group from
a core. -/
def State.groupReady (s : State) (j : Job) (cx : Context) (group core : Nat) : Bool :=
  (j.lcores.filter (fun (_, l) => l.st == .saved && l.group == group)).all (fun (c, l) => (List.range l.threads.length).all (fun i =>
    let o : Owner := { job := j.handle, lcore := c, tid := i }
    s.quads.all (fun (q, x) => q == quadOf core || !x.hasTransfer o)
      && s.logLeft cx (l.slot.getD 0) i == 0))
/-- A core may take a group: the one that Winter kept for it, on which nothing is resident (R384), or else one that is open to its
job in the job's instance and dies. -/
def State.groupFits (s : State) (j : Job) (cx : Context) (group core : Nat) : Bool :=
  let kept := (j.lcores.filter (fun (_, l) => l.st == .saved && l.group == group)).filterMap (fun (_, l) => l.kept)
  s.groupReady j cx group core
    && (match kept with
        | k :: _ => k == core && (s.core core).free && j.cores.contains core
        | [] => s.openTo j core && (cx.instanceCores j.card.scope (j.scopeAt.getD 0)).contains core)

/-- Cores for the groups of a list, each the first that fits among the given and not yet used. -/
def State.placeGroups (s : State) (j : Job) (cx : Context) : List Nat → List Nat → Option (List (Nat × Nat))
  | [], _ => some []
  | g :: rest, cores =>
    match cores.find? (fun c => s.groupFits j cx g c) with
    | none => none
    | some c =>
      match State.placeGroups s j cx rest (cores.filter (fun x => x != c)) with
      | none => none
      | some l => some ((g, c) :: l)

/-- The cores of a job of whole quads by logical core (R343): a quad for each row of four, one row's given. -/
def Job.quadGrant (j : Job) (row quad : Nat) (others : List Nat) : List Nat :=
  let quadFor := fun (r : Nat) => if r = row then quad else others.getD (if r < row then r else r - 1) 0
  (List.range j.card.ncores).map (fun c => 4 * quadFor (c / 4) + c % 4)

/-- Winter keeps a core for a stopped group (R384). -/
def Job.keptGroup (j : Job) (group : Nat) : Bool :=
  j.lcores.any (fun (_, l) => l.st == .saved && l.group == group && l.kept.isSome)
/-- The saved logical cores of a job, with their groups. -/
def Job.savedGroups (j : Job) : List (Nat × Nat) := (j.lcores.filter (fun (_, l) => l.st == .saved)).map (fun (c, l) => (c, l.group))
/-- What a resumption of a group on a core uses: the cores that the grant then gains, and the core of each group that resumes. A
group for which Winter kept its core takes that one by itself. A GANG job resumes whole, on the ceil(C/H) cores of one grant
(R354), a job of whole quads on as many quads as it has rows (R343); any other takes one core. -/
def State.resumePlaces (s : State) (j : Job) (cx : Context) (group core : Nat) : Option (List Nat × List (Nat × Nat)) :=
  let free := s.spare j cx
  if j.keptGroup group then (if s.groupFits j cx group core then some ([], [(group, core)]) else none)
  else if j.card.wholeQuads then
    let others := ((free.map (fun c => c / 4)).eraseDups).filter (fun q => q != core / 4)
    match j.savedGroups.find? (fun x => x.2 == group) with
    | none => none
    | some (c, _) =>
      let grant := j.quadGrant (c / 4) (core / 4) others
      let places := j.savedGroups.map (fun (c, g) => (g, grant.getD c 0))
      if free.contains core && grant.getD c 0 == core && decide (j.card.ncores ≤ 4 * (others.length + 1))
          && places.all (fun (g, c) => s.groupFits j cx g c) then some (grant, places)
      else none
  else if !s.groupFits j cx group core then none
  else if !j.card.gang then some ([core], [(group, core)])
  else
    match s.placeGroups j cx (j.groups.filter (fun g => g != group)) (free.filter (fun c => c != core)) with
    | none => none
    | some l =>
      let used := core :: l.map (fun x => x.2)
      let grant := used ++ (free.filter (fun c => !used.contains c)).take (j.card.coresNeeded - used.length)
      if grant.length = j.card.coresNeeded then some (grant, (group, core) :: l) else none

/-- A resumption waits for the job's turn (R356), but for one on a core that its grant holds already. -/
def State.resumeTurn (s : State) (j : Job) (core : Nat) : Bool :=
  j.cores.contains core || (!s.levelDue && s.firstToPlace j (!j.cores.isEmpty && !j.card.gang))
/-- Cores join a job's grant. -/
def State.growGrant (s : State) (h : Nat) (cores : List Nat) : State :=
  match s.job h with
  | none => s
  | some j =>
    let new := cores.filter (fun c => !j.cores.contains c)
    if new.isEmpty then s else (s.setJob { j with cores := j.cores ++ new, lastGrant := s.time }).fuseQuads new
/-- Resumption of a pre-empted logical core on a granted core, with the ones stopped beside it (R364). -/
def execResume (l : LRef) (core : Nat) (s : State) : Result :=
  match s.job l.job with
  | none => .next s
  | some j =>
    let c := j.lcore l.lcore
    match c.st, s.context j.card.asid with
    | .saved, some cx =>
      if s.winter || !s.resumeTurn j core then .next s
      else match s.resumePlaces j cx c.group core with
        | none => .next s
        | some (cores, places) =>
          .next (places.foldl (fun s (g, c) => s.resumeGroup l.job g c) (s.growGrant l.job cores))
    | _, _ => .next s

/-- The standby replica becomes active (R357): it holds the same state, so nothing else changes. -/
def execSchedulerFailover (s : State) : Result := if s.winter then .next s else .next { s with replica := 1 - s.replica }

end Sys2Proof.Machine
end

