-- ==== Sys2Proof/Machine/Power.lean ====
section
/-!
DEFINITION. Power, current and energy: operating points and lanes (R375, R376), droop (R377, R378), ballast (R379), PC samples
(R380), the end of a cap lease (R382), Winter and Spring (R383, R384), and a device reset (R398, R402).
-/
namespace Sys2Proof.Machine
open Sys2Proof

-- Points, lanes, droop ---------------------------------------------------------------------------------------------------

/-- The management core moves a quad to another point (R375): the move begins, and the quad runs at the lower of the two clocks;
the same event again is its end, when rail and clock are those of the new point. Another point named meanwhile is ignored (log
entry 47). -/
def execOpPointChange (q point : Nat) (s : State) : Result :=
  if s.winter || 8 ≤ point then .next s
  else
    let x := s.quadNow q
    match x.moving with
    | none => .next (if point = x.op then s else s.setQuad q { x with moving := some point })
    | some p => .next (if point = p then s.setQuad q { x with op := p, moving := none } else s)

/-- The management core's choice of lanes for a core (R376): from the next beat on. It makes none in Winter (R383). -/
def execAlcChange (core lanes : Nat) (s : State) : Result :=
  if s.winter || !([4, 8, 16, 32].contains lanes) then .next s
  else
    let s := s.bringQuad (quadOf core)
    .next (s.setCore core { s.core core with alcWanted := lanes })

/-- The rail lies `sag` mV below its point (R377, R378): below DRTH this is no alarm; while a stretch is in force, or about to
begin at the next A-clock edge, only SAG rises. -/
def execDroopAlarm (q sag : Nat) (s : State) : Result :=
  let x := s.quadNow q
  let deep := BitVec.ofNat 8 (min 255 sag)
  if s.winter || sag < x.drth.toNat then .next s
  else if x.alarm || x.stretch != 0 then .next (s.setQuad q { x with drSag := if x.drSag < deep then deep else x.drSag })
  else .next (s.setQuad q { x with drCnt := x.drCnt + 1, drSag := deep, drEv := true, alarm := true })

/-- The edges of a quad's A-clock that have fallen by now: the end of the six cycles of a stretch, at which halved issue begins, is
one of them (R377). -/
def execStretchEnd (q : Nat) (s : State) : Result := .next (if s.winter then s else s.setQuad q (s.quadNow q))
/-- The end of the 64 cycles of halved issue is one too. -/
def execHalvedIssueEnd (q : Nat) (s : State) : Result := .next (if s.winter then s else s.setQuad q (s.quadNow q))

-- Energy -----------------------------------------------------------------------------------------------------------------

/-- The latest complete window of a quad (R379). -/
def execBallastWindow (q : Nat) (s : State) : Result := .next (s.ballast q)

/-- The cores of a quad take the PC samples that are due (R380). -/
def execPcSample (core : Nat) (s : State) : Result := .next (s.sampleQuad (quadOf core))

/-- The lease of a power cap has run out (R382). -/
def execCapLeaseExpiry (s : State) : Result :=
  match s.capLease with
  | some (_, until_) => if until_ ≤ s.time then .next { s with capLease := none } else .next s
  | none => .next s

-- Winter (R383) ----------------------------------------------------------------------------------------------------------

/-- The A-clocks of every quad stop, and with them any stretch and window (R378). -/
def State.stopClocks (s : State) : State :=
  (List.range 256).foldl (fun s q =>
    s.setQuad q { s.quadNow q with alarm := false, stretch := 0, halved := 0, slots := [] }) s
/-- They go on from where they stood, each quad at the point it held (R384). -/
def State.startClocks (s : State) : State :=
  { s with quads := s.quads.map (fun (k, q) =>
      (k, { q with edgeAt := s.ticks k, cycle := opPeriod q.op, moving := none })) }

/-- Logical cores that stay on a core through Winter are charged their save and restore too, and the draw of Winter is ASID 0's
(R381). -/
def State.chargeInPlace (s : State) : State :=
  (s.jobs.foldl (fun s j => j.lcores.foldl (fun s (_, l) => match l.st with
    | .inPlace _ _ => s.chargeFree j.card.asid
    | _ => s) s) s).chargeFree 0

/-- A request of a saved thread has its home in this package: it goes to no frame of another one. -/
def State.homedHere (s : State) (w : Who) (r : Request) : Bool :=
  let p := if r.kind = 0 then s.scalarAccess s.msys w .load r.va 1 1 false else s.vectorAccess s.msys w .load r.va 1 1
  match p with
  | .error _ => true
  | .ok p =>
    match s.subBlock p.pa with
    | some n => (s.msys.record n).tier != 2
    | none => p.pa / 2 ^ 47 == s.pkg.toNat
/-- Every request homed in the package completes before Winter (Table 28.8, step 4). -/
def State.completeRequests (s : State) : State :=
  s.jobs.foldl (fun s j => j.lcores.foldl (fun s (c, l) =>
    (l.threads.mapIdx (fun i x => (i, x))).foldl (fun s (i, x) =>
      (x.side.requests.filter (s.homedHere (s.agentOf j))).foldl (fun s r => s.reply { job := j.handle, lcore := c } i r.fid) s) s) s) s

/-- Winter entry (Table 28.8); a trigger during Winter changes nothing. Each logical core keeps its core, on which the local
scratch, the buffers and the barriers of its quad stand as they are. -/
def State.enterWinter (s : State) : State :=
  if s.winter then s
  else
    let busy := (s.cores.filter (fun (_, c) => !c.free)).map (fun (k, _) => k)
    let s := busy.foldl (fun s c => s.saveResidents c 0 s.nextGroup (some c)) s
    let s := s.completeRequests.chargeInPlace.stopClocks
    { s with winter := true, winterCount := s.winterCount + 1, winterAt := s.time }

/-- The brown-out input is asserted. -/
def execWinterEntry (s : State) : Result := .next ({ s with brownOut := true }.enterWinter)

-- Spring (R384) ----------------------------------------------------------------------------------------------------------

/-- Aging and the hold period count only TIME outside Winter. -/
def Job.thaw (j : Job) (spent : Nat) : Job :=
  { j with waitSince := j.waitSince.map (· + spent), heldSince := j.heldSince.map (· + spent) }

/-- A logical core kept in place goes on where it stands, with trap 13 when PNOTE = 1 (R362, R365); a thread with an unconfirmed
`.spec` probe goes on under it (R313). -/
def State.resumeInPlace (s : State) (j : Job) (c : Nat) : State :=
  let l := j.lcore c
  match l.st with
  | .inPlace core base =>
    let s := match s.job j.handle with
      | some j => s.setJob (j.setLcore c { l with st := .resident core base })
      | none => s
    let notice := (s.context j.card.asid).any (fun cx => cx.pnote)
    (hartsOf j core base).foldl (fun s t =>
      let x := s.thread t
      let s := if notice && !x.ended then
          s.setThread t { x with side := { x.side with pending := x.side.pending ++
            [{ code := 13, val := BitVec.ofNat 64 (s.time - l.stoppedAt), fid := 0 }] } }
        else s
      s.respeculate t) s
  | _ => s

/-- A stopped group goes back to the core that Winter kept for it, once its replies are there (R364, R367). -/
def State.resumeKept (s : State) (h group core : Nat) : State :=
  match s.job h with
  | none => s
  | some j =>
    match s.context j.card.asid with
    | none => s
    | some cx => if j.groups.contains group && s.groupFits j cx group core then s.resumeGroup h group core else s
/-- The groups of a job with the cores that Winter kept for them. -/
def Job.keptGroups (j : Job) : List (Nat × Nat) :=
  (j.lcores.filterMap (fun (_, l) => if l.st == .saved then l.kept.map (fun k => (l.group, k)) else none)).eraseDups

/-- Jobs in the order of R356. -/
def sortJobs (l : List Job) : List Job := sortBy Job.before l
/-- The first multiple of a ms that lies after a TIME. -/
def nextMs (t : Nat) : Nat := (t / msNs + 1) * msNs

/-- Spring: clocks and timers, then the logical cores kept in place, then every one that Winter saved, on the core it had; one whose
replies are still out resumes when they are there. -/
def State.leaveWinter (s : State) : State :=
  if !s.winter || s.brownOut || s.winterCmd then s
  else
    let spent := s.time - s.winterAt
    let s := { s.startClocks with
      winter := false, jobs := s.jobs.map (fun (j : Job) => j.thaw spent),
      epochAt := s.epochAt.map (fun t => if t ≤ s.time then nextMs s.time else t),
      lostSamples := s.lostSamples + (s.time / samplePeriod - s.winterAt / samplePeriod) }
    let s := s.chargeInPlace
    let s := s.jobs.foldl (fun s (j : Job) => j.lcores.foldl (fun s (c, _) => s.resumeInPlace j c) s) s
    (sortJobs s.jobs).foldl (fun s j => j.keptGroups.foldl (fun s (g, c) => s.resumeKept j.handle g c) s) s

/-- The brown-out input is clear. -/
def execSpring (s : State) : Result := .next ({ s with brownOut := false }.leaveWinter)

-- Device reset (R398, R402) ------------------------------------------------------------------------------------------------

/-- The public key fused into the package, as 64 bytes. -/
def firmwareKeyBytes : List Byte := toBytes 64 Config.slhPublic.toNat
/-- Header and code of an image, and its signature, which is over their hash (R402, Table 30.11). -/
def imageSigned (b : List Byte) : Bool :=
  let n := 64 + natAt b 0x14 4
  slhVerify firmwareKeyBytes (sha256 (b.take n)) (b.drop n)
/-- The boot ROM accepts an image (R402); the bytes of the one stored at manufacture are not known here, and its signature is taken
to verify (log entry 55). -/
def FwImage.accepted (i : FwImage) (least : BitVec 32) : Bool :=
  (i.bytes.isEmpty || imageSigned i.bytes) && !decide (i.arb < least)

/-- A device reset; the tiers that are populated are still there (R30). The boot ROM verifies the image stored last, or the one that
ran when none is. One that verifies runs; it raises the fused minimum, and the image it replaces is kept if its number is not below
that. With one that does not, the package is in recovery, where the image kept from before runs if it verifies, and the offer holds
bit 0 alone (R181). Tests and recovery are charged to ASID 0 (R381). -/
def execDeviceReset (s : State) : Result :=
  let image := s.stored.getD s.running
  let s' := { State.resetOf s.msys.lpddr with agenda := s.agenda, fresh := s.fresh }
  if image.accepted s.fusedMin then
    let least := if s.fusedMin < image.arb then image.arb else s.fusedMin
    let before := if s.stored.isSome then some s.running else s.previous
    .next ({ s' with running := image, fusedMin := least, previous := before.filter (fun i => !decide (i.arb < least)) }.chargeFree 0)
  else
    let kept := s.previous.filter (fun i => i.accepted s.fusedMin)
    .next ({ s' with running := kept.getD s.running, stored := some image, previous := s.previous, fusedMin := s.fusedMin,
                     recovery := true, offer := 1 }.chargeFree 0)

end Sys2Proof.Machine
end

