-- ==== Sys2Proof/Machine/HostCmd.lean ====
section
/-!
DEFINITION. The command endpoint (R391-R405): replies, and the sixteen commands of Table 30.2, each acting on the message
its endpoint holds (`State.command`). The order of the answers to a message that fails more than one way is: malformed, not
started, busy, not permitted.
-/
namespace Sys2Proof.Machine
open Sys2Proof

-- Messages and replies ---------------------------------------------------------------------------------------------------

/-- A reply (Table 30.1) to the message in hand. -/
def State.answer (s : State) (status : Nat) (value : Word) (tail : List Byte) : State :=
  let bytes := toBytes 8 s.command.tag.toNat ++ toBytes 1 status ++ toBytes 7 0 ++ toBytes 8 value.toNat ++ tail
  { s with replies := s.replies ++ [{ conn := s.command.conn, seq := s.command.seq, bytes := bytes }] }
/-- STATUS 0. -/
def State.doneReply (s : State) (value : Word) : State := s.answer 0 value []
/-- STATUS 1 with a refusal code. -/
def State.refuseReply (s : State) (code : Nat) : State := s.answer 1 (BitVec.ofNat 64 code) []

/-- Fields of the body. -/
def State.arg (s : State) (off n : Nat) : Nat := natAt s.command.body off n
/-- Body bytes [off, off + n) are zero. -/
def State.zeros (s : State) (off n : Nat) : Bool := s.arg off n == 0

/-- What every command checks first (R392, R393, R398): its form, whether the device has started, Winter, recovery. In
Winter a message to I/O die 1 is held by the transport. -/
def State.hostCommand (s : State) (form started inWinter inRecovery : Bool) (k : State → State) : Result :=
  if s.winter && s.command.iodie != 0 then .next s
  else if s.command.reserved != 0 || s.command.blen != s.command.body.length || !form then .next (s.answer 3 0 [])
  else if started && !s.started then .next (s.answer 4 0 [])
  else if s.winter && !inWinter then .next (s.answer 2 0 [])
  else if s.recovery && !inRecovery then .next (s.answer 5 0 [])
  else .next (k s)

/-- The body has this length. -/
def State.blenIs (s : State) (n : Nat) : Bool := s.command.blen == n

-- Jobs -------------------------------------------------------------------------------------------------------------------

/-- Command 1 (R394). A full scheduler is a case of code 10, and the lowest code that a card breaks is reported (R34). -/
def execSubmit (s : State) : Result :=
  s.hostCommand (s.blenIs 128) true false false (fun s =>
    let c := cardOf s.command.body
    if jobLimit ≤ s.jobs.length then
      let (raw, _, bad) := s.footprintsOf c
      let n := s.refusal c (raw.map (fun b => (footprintOf b).2)) true (s.bound c.asid) bad.isSome
      (s.cardReads c).answer 1 (refusalWord (if n = 0 || n = 11 then 10 else n)) []
    else match s.submitCard c true true with
      | (.accepted h, s) => s.doneReply (BitVec.ofNat 64 h)
      | (.refused n, s) => s.answer 1 (refusalWord n) []
      | (.failed _ _, s) => s.answer 1 (refusalWord 11) [])

/-- Command 15 (R393): the word that `jwait` would return, or 0 while incomplete. -/
def execJobStatus (s : State) : Result :=
  s.hostCommand (s.blenIs 8) true true false (fun s =>
    let h := s.arg 0 8
    if 2 ^ 63 ≤ h then s.doneReply (BitVec.ofNat 64 h) else s.doneReply ((s.jobWord h).getD 0))

-- Contexts (R352, Table 30.7) ----------------------------------------------------------------------------------------------

/-- A window entry from its 16 bytes. -/
def windowEntry (b : List Byte) : BitVec 128 := BitVec.ofNat 128 (ofBytes b)

/-- The entries with V = 1 of a window table: those that some listed byte of memory lies in. -/
def readWindows (m : MemSys) (wtab : Nat) : SMap (BitVec 128) :=
  let idx := ((m.mem.filter (fun (a, _) => decide (wtab ≤ a) && decide (a < wtab + 262144))).map
    (fun (a, _) => (a - wtab) / 16)).eraseDups
  idx.foldl (fun w i =>
    let e := windowEntry (m.load 0 (wtab + 16 * i) 16)
    if weV e then SMap.set w i e else w) []

/-- A value for each die of a context, and nothing for the others. -/
def perDie {α : Type} (dies : BitVec 4) (on off : Nat → SMap α) : Vector (SMap α) 4 :=
  Vector.ofFn (fun (d : Fin 4) => if dies.getLsbD d then on d else off d)
/-- The binding a body gives, with the window table loaded for the dies it names (R104). -/
def State.bindBody (s : State) : Context :=
  let dies := BitVec.ofNat 4 (s.arg 4 1)
  { keyid := s.arg 2 2, dies := dies, pnote := bitOf (s.arg 5 1) 0, pod := bitOf (s.arg 5 1) 1,
    sroot := s.arg 8 8, wtab := s.arg 0x10 8, poolBase := s.arg 0x18 8, poolCnt := s.arg 0x20 4, cntBase := s.arg 0x28 8,
    fpBase := s.arg 0x30 8, spool := s.arg 0x38 8, scnt := s.arg 0x40 4, bcore := BitVec.ofNat 16 (s.arg 0x48 2),
    bquad := BitVec.ofNat 64 (s.arg 0x50 8), bdie := BitVec.ofNat 256 (s.arg 0x58 32),
    bpkg := BitVec.ofNat 512 (s.arg 0x78 64), windows := perDie dies (fun _ => readWindows s.msys (s.arg 0x10 8)) (fun _ => []),
    slots := [], peers := [], energy := 0 }

/-- Refusal 1 of a bind: reserved bytes, ranges and alignments. -/
def State.bindBad (s : State) (asid : Nat) (c : Context) : Bool :=
  !(s.zeros 6 2 && s.zeros 0x24 4 && s.zeros 0x44 4 && s.zeros 0x4A 6 && s.zeros 0xB8 72)
    || asid == 0 || decide (8192 ≤ c.keyid) || c.dies == 0 || decide (16 ≤ s.arg 4 1) || decide (4 ≤ s.arg 5 1)
    || (c.pod && !s.accepted.getLsbD 6)
    || [c.sroot, c.wtab, c.poolBase, c.cntBase, c.fpBase, c.spool].any (fun p => decide (2 ^ 60 ≤ p))
    || c.sroot % 2 ^ 20 != 0 || c.wtab % 4096 != 0 || c.poolBase % 4096 != 0 || (c.poolBase == 0 && c.poolCnt != 0)
    || c.cntBase % 8 != 0 || c.fpBase % 16 != 0 || c.spool % 2 ^ 20 != 0 || c.scnt == 0 || decide (65536 < c.scnt)

/-- Two contexts name a barrier in common: on a die of both, or a package barrier. -/
def Context.clashes (a b : Context) : Bool :=
  (a.bpkg &&& b.bpkg) != 0
    || ((a.dies &&& b.dies) != 0 && ((a.bcore &&& b.bcore) != 0 || (a.bquad &&& b.bquad) != 0 || (a.bdie &&& b.bdie) != 0))

/-- The fields that an extension must repeat. -/
def Context.sameBinding (a b : Context) : Bool :=
  a.keyid == b.keyid && a.pnote == b.pnote && a.pod == b.pod && a.sroot == b.sroot && a.wtab == b.wtab
    && a.poolBase == b.poolBase && a.poolCnt == b.poolCnt && a.cntBase == b.cntBase && a.fpBase == b.fpBase
    && a.spool == b.spool && a.scnt == b.scnt

/-- A binding extended to the dies and barriers of another one, which brings the window tables of its dies (R104, R352). -/
def Context.extend (o c : Context) : Context :=
  { o with dies := o.dies ||| c.dies, bcore := o.bcore ||| c.bcore, bquad := o.bquad ||| c.bquad, bdie := o.bdie ||| c.bdie,
           bpkg := o.bpkg ||| c.bpkg, windows := perDie c.dies (fun d => vget c.windows d []) (fun d => vget o.windows d []) }
/-- The binding as it stands after a bind. -/
def State.merged (s : State) (asid : Nat) (c : Context) : Context :=
  match s.context asid with
  | some o => o.extend c
  | none => c

/-- The refusal of a bind, 0 for none (Table 30.7). -/
def State.bindCode (s : State) (asid : Nat) (c : Context) : Nat :=
  let old := s.context asid
  if s.bindBad asid c then 1
  else if (List.range 4).any (fun d => c.dies.getLsbD d
      && decide (8 ≤ (s.contexts.filter (fun (_, x) => x.dies.getLsbD d)).length)) then 2
  else if (match old with | some o => (o.dies &&& c.dies) != 0 | none => false) then 3
  else if c.windows.any (fun w => w.any (fun (_, e) => weBad e)) then 4
  else if s.contexts.any (fun (a, x) => a != asid && x.clashes (s.merged asid c)) then 5
  else if (match old with | some o => !o.sameBinding c | none => false) then 6
  else 0

/-- Command 2 (R352): a new binding, or one extended to further dies and barriers. -/
def execBind (s : State) : Result :=
  s.hostCommand (s.blenIs 256) true false false (fun s =>
    let asid := s.arg 0 2
    let c := s.bindBody
    match s.bindCode asid c with
    | 0 =>
      let t := s.setContext asid (s.merged asid c)
      (((List.range 4).filter (fun d => c.dies.getLsbD d)).foldl (fun s d => s.deviceReads (unitOn d) c.wtab 262144) t).doneReply 0
    | n => s.refuseReply n)

/-- A quad without what a context's issued work brought to its estimate. -/
def Quad.forget (q : Quad) (asid : Nat) : Quad := { q with issued := SMap.erase q.issued asid, falls := SMap.erase q.falls asid }
/-- A context gone, and its shares of the ballast: the windows of a later binding of its ASID are those since it (R381). -/
def State.unbind (s : State) (asid : Nat) : State :=
  { s with contexts := SMap.erase s.contexts asid, quads := s.quads.map (fun (k, q) => (k, q.forget asid)) }
/-- Command 3 (R395). -/
def execUnbind (s : State) : Result :=
  s.hostCommand (s.blenIs 8 && s.zeros 2 6) true false false (fun s =>
    let asid := s.arg 0 2
    if !s.bound asid then s.refuseReply 10
    else if s.jobs.any (fun j => j.card.asid == asid && j.st == .active) then s.refuseReply 11
    else (s.unbind asid).doneReply 0)

/-- The versions of a sub-block's lines are 0 when it is allocated (R142). -/
def MemSys.newVersions (m : MemSys) (pa : Nat) : MemSys :=
  { m with lines := m.lines.map (fun (k, l) => (k, if 64 * k / 65536 = pa / 65536 then { l with version := 0 } else l)) }
/-- A residence for a sub-block that has none (R107): in the HBM4 of a die that has a free frame, or else in LPDDR.
DESIGN CHOICE: while neither has one the sub-block keeps TIER 3 and the map goes on, where R107 says nothing (log entry 58). -/
def State.allocateBlock (s : State) (n : Nat) : State :=
  let r := s.msys.record n
  if r.tier != 3 then s
  else
    let (k, s) := s.draw
    let frame := fun (d : BitVec 2) => (s.msys.freeHbm d (Config.frameChoice k)).map (fun f => (d, f))
    let m := s.msys.newVersions (s.pkg.toNat * 2 ^ 47 + n * 65536)
    match (Config.dieChoice k :: [0, 1, 2, 3]).findSome? frame with
    | some (d, f) => { s with msys := m.setRecord n { r with tier := 0, die := d, dframe := f } }
    | none =>
      match if s.accepted.getLsbD 5 then [false, true].findSome? (fun h => s.msys.freeLpddr h (Config.frameChoice k)) else none with
      | some f => { s with msys := m.setRecord n { r with tier := 1, dframe := f } }
      | none => s
/-- A map of a DIRECT entry allocates every sub-block of its huge page that has no residence (R107), and makes the moves of its
sub-blocks that the agenda names next (R111, R395). -/
def State.allocate (s : State) (e : BitVec 128) : State :=
  let page := weBase e * 4096
  let lo := page % 2 ^ 47 / 65536
  if !weV e || weMode e != 0 || page / 2 ^ 47 != s.pkg.toNat || decide (2 ^ 42 ≤ page % 2 ^ 47) then s
  else State.mapMoves (lo / 4096) s.agenda.length ((List.range 4096).foldl (fun s i => s.allocateBlock (lo + i)) s)

/-- An entry put into the translation store of every die of a context. -/
def Context.setEntry (c : Context) (i : Nat) (e : BitVec 128) : Context :=
  { c with windows := perDie c.dies (fun d => SMap.set (vget c.windows d []) i e) (fun d => vget c.windows d []) }

/-- Map and unmap (R395): the record address is checked through the window as it will stand; then the table in memory and the
translation stores change together, the record becomes 1, and the reply follows. DESIGN CHOICE: a record address in a page that has no
residence yet, the page being mapped among them, is checked before the map gives it one and is refused with VALUE 7; R107 and R395 do
not say (log entry 38). -/
def State.mapEntry (s : State) (e : BitVec 128) : State :=
  let asid := s.arg 0 2
  let widx := s.arg 2 2
  let rec_ : Word := BitVec.ofNat 64 (s.arg 8 8)
  if rec_.toNat % 8 != 0 || decide (16384 ≤ widx) then s.refuseReply 1
  else if weBad e then s.refuseReply 4
  else match s.context asid with
    | none => s.refuseReply 10
    | some cx =>
      let t := s.setContext asid (cx.setEntry widx e)
      let w := t.deviceAgent asid
      match t.vectorAccess t.msys w .store rec_ 8 8 with
      | .error _ => (s.performAll w.core (readsOf (t.vectorTried t.msys w .store rec_ 8))).refuseReply 7
      | .ok p =>
        let t := t.performAll w.core (readsOf (t.vectorReads w .store rec_ p.pa))
        let t := t.deviceStore w.core (cx.wtab + 16 * widx) (toBytes 16 e.toNat)
        ((t.allocate e).perform w.core (.store p.pa (toBytes 8 1) p.key)).doneReply 0

/-- Command 4. -/
def execMap (s : State) : Result :=
  s.hostCommand (s.blenIs 32 && s.zeros 4 4) true false false (fun s => s.mapEntry (windowEntry (bytesAt s.command.body 16 16)))
/-- Command 5: the entry's V becomes 0, and with it all 16 bytes of the entry, where the spec says no more than that the table is
updated (log entry 51). -/
def execUnmap (s : State) : Result :=
  s.hostCommand (s.blenIs 16 && s.zeros 4 4) true false false (fun s => s.mapEntry 0)

-- Power ------------------------------------------------------------------------------------------------------------------

/-- Command 6 (R382, R396): a message not newer than LAST is ignored. -/
def execPowerCap (s : State) : Result :=
  s.hostCommand (s.blenIs 16 && s.zeros 10 2) false true false (fun s =>
    let seq : Word := BitVec.ofNat 64 (s.arg 0 8)
    let lease := s.arg 12 4
    if s.capLast < seq then
      { s with capLast := seq,
               capLease := if lease = 0 then none
                 else some (min 2600 (max 260 (s.arg 8 2)), s.time + lease * msNs) }.doneReply seq
    else s.doneReply s.capLast)

/-- Command 7 (R383): during Winter it changes nothing. -/
def execEnterWinter (s : State) : Result :=
  s.hostCommand (s.blenIs 0) true true false (fun s =>
    (if s.winter then s else { s with winterCmd := true }.enterWinter).doneReply 0)
/-- Command 8 (R384). -/
def execLiftWinter (s : State) : Result :=
  s.hostCommand (s.blenIs 0) false true false (fun s => ({ s with winterCmd := false }.leaveWinter).doneReply 0)

/-- A counter of Table 30.4. -/
def State.counter (s : State) (item : Nat) : Option Word :=
  let house := microjoules s.energy0
  match item with
  | 0 => some s.pinEvents
  | 1 => some s.winterCount
  | 2 => some house
  | 4 => some s.corrected
  | 5 => some s.failures
  | i =>
    if i % 65536 = 3 && i < 2 ^ 32 then
      match s.context (i / 65536) with
      | some c => some (microjoules c.energy)
      | none => some (if i = 3 then house else 0)
    else none

/-- Command 9. -/
def execReadCounter (s : State) : Result :=
  s.hostCommand (s.blenIs 8) false true true (fun s =>
    match s.counter (s.arg 0 8) with
    | some x => s.doneReply x
    | none => s.answer 3 0 [])

-- Firmware and keys (R401-R405) ---------------------------------------------------------------------------------------------

/-- A staged image that has arrived whole (Table 30.11, R402), with the hash of all its bytes (R404): kept for the next reset, or
discarded with STATUS 3 or 5. -/
def State.checkImage (s : State) : State :=
  let b := s.staged
  let clen := natAt b 0x14 4
  let s := { s with staged := [], stagedNext := 0, stagedOf := 0 }
  let arb := BitVec.ofNat 32 (natAt b 0x10 4)
  if b.length ≠ 64 + clen + sigLen || bytesAt b 0 4 ≠ [0x54, 0x48, 0x46, 0x57] || natAt b 4 4 ≠ 64 || clen % 8 ≠ 0
      || 2 ^ 24 < clen || natAt b 0x18 40 ≠ 0 then s.answer 3 0 []
  else if !imageSigned b || arb < s.fusedMin then s.answer 5 0 []
  else
    let image : FwImage := { version := BitVec.ofNat 64 (natAt b 8 8), arb := arb, hash := BitVec.ofNat 256 (ofBytes (sha256 b)),
                             bytes := b }
    { s with stored := some image }.doneReply (BitVec.ofNat 64 b.length)

/-- Command 10 (Table 30.10). -/
def execFirmwareUpdate (s : State) : Result :=
  let part := s.arg 0 4
  let npart := s.arg 4 4
  let len := s.arg 8 4
  s.hostCommand (s.blenIs (16 + len) && decide (1 ≤ len) && decide (len ≤ 65520) && decide (1 ≤ npart)
      && decide (npart ≤ 1024) && s.zeros 12 4) false false true (fun s =>
    if part ≠ 0 && part ≠ s.stagedNext then s.refuseReply s.stagedNext
    else if part ≠ 0 && npart ≠ s.stagedOf then s.answer 3 0 []
    else
      let image := (if part = 0 then [] else s.staged) ++ s.command.body.drop 16
      let s := { s with staged := image, stagedNext := part + 1, stagedOf := npart }
      if part + 1 = npart then s.checkImage else s.doneReply (BitVec.ofNat 64 image.length))

/-- Command 11 (R403): the key is unwrapped under the secret of its ciphertext; a key of zeros empties the slot. -/
def execLoadKey (s : State) : Result :=
  s.hostCommand (s.blenIs 1616 && s.zeros 2 6 && decide (s.arg 0 2 < 8192)) true false false (fun s =>
    let slot := s.arg 0 2
    if slot = 0 then s.answer 5 0 []
    else match keyUnwrap (kemSecret (bytesAt s.command.body 8 1568)) (bytesAt s.command.body 1576 40) with
      | none => s.answer 5 0 []
      | some key =>
        { s with keys := if key = 0 then SMap.erase s.keys slot else SMap.set s.keys slot key,
                 keyLoads := s.keyLoads + 1 }.doneReply 0)

/-- The signed part of an attestation report (Table 30.12). -/
def State.report (s : State) : List Byte :=
  bytesAt s.command.body 0 32 ++ toBytes 2 (if s.started then s.pkg.toNat else 0xFFFF) ++ toBytes 6 0
    ++ toBytes 8 s.time ++ toBytes 32 s.running.hash.toNat ++ toBytes 8 s.running.version.toNat
    ++ toBytes 32 s.offer.toNat ++ toBytes 32 (if s.started then s.accepted.toNat else 0)
    ++ toBytes 1024 (s.keys.foldl (fun n (k, _) => n + 2 ^ k) 0) ++ toBytes 8 s.keyLoads.toNat

/-- Command 12 (R405): the report and its signature by the identity key follow the reply. -/
def execAttest (s : State) : Result :=
  s.hostCommand (s.blenIs 32) false true true (fun s =>
    let (k, s) := s.draw
    s.answer 0 30976 (s.report ++ slhSign identityKey ((beBytes 32 (Config.signRandom k).toNat)) s.report))

-- Start-up (R398-R400) ------------------------------------------------------------------------------------------------------

/-- Command 13: words 1 to 3 of the offer follow the reply. -/
def execReadOffer (s : State) : Result :=
  s.hostCommand (s.blenIs 0) false true true (fun s =>
    s.answer 0 (s.offer.setWidth 64) (toBytes 24 (s.offer.toNat / 2 ^ 64)))

/-- Command 14 (R399). -/
def execAccept (s : State) : Result :=
  s.hostCommand (s.blenIs 64 && s.zeros 36 28) false false false (fun s =>
    let set := BitVec.ofNat 256 (s.arg 0 32) ||| 1
    let pkg := s.arg 32 2
    let floor := s.arg 34 2
    if s.started then s.answer 6 0 []
    else if set &&& ~~~s.offer != 0 || (s.offer.getLsbD 5 && !set.getLsbD 5) || decide (8192 ≤ pkg)
        || (floor != 0 && (decide (floor < 520) || decide (2600 < floor))) then s.refuseReply 0
    else { s with started := true, accepted := set, pkg := BitVec.ofNat 13 pkg,
                  capFloor := if floor = 0 then 1040 else floor }.doneReply 0)

/-- Entries of a pod-table body from entry k on, put into the table. -/
def State.podEntries (s : State) (first : Nat) : Nat → Nat → SMap (BitVec 256) → SMap (BitVec 256)
  | 0, _, t => t
  | n + 1, k, t => State.podEntries s first n (k + 1) (SMap.set t (first + k) (BitVec.ofNat 256 (s.arg (16 + 32 * k) 32)))

/-- Members in force: the package itself always is one. -/
def State.memberCount (s : State) : Nat :=
  1 + (s.pod.filter (fun (p, e) => e.getLsbD 0 && p != s.pkg.toNat)).length

/-- Command 16 (R400). -/
def execPodTable (s : State) : Result :=
  let first := s.arg 0 2
  let n := s.arg 2 2
  s.hostCommand (s.blenIs (16 + 32 * n) && decide (1 ≤ n) && decide (n ≤ 2047) && decide (first + n ≤ 8192) && s.zeros 4 12
      && (List.range n).all (fun k => decide (s.arg (16 + 32 * k) 16 < 2))) true false false (fun s =>
    if !s.accepted.getLsbD 6 then s.answer 5 0 []
    else
      let s := { s with pod := s.podEntries first n 0 s.pod }.podSettle
      s.doneReply (BitVec.ofNat 64 s.memberCount))

end Sys2Proof.Machine
end

