-- ==== Sys2Proof/Machine/Scalar.lean ====
section
/-!
DEFINITION. Meanings of INT3 (R208-R211), INTI (R212), LI (R213) and LEA (R214).
-/
namespace Sys2Proof.Machine
open Sys2Proof

-- INT3 (Table 17.2) ----------------------------------------------------------------------------------------------------

def execAdd (f : W3) (s : State) : Result := .next (s.int3 f opAdd)
def execSub (f : W3) (s : State) : Result := .next (s.int3 f opSub)
def execMul (f : W3) (s : State) : Result := .next (s.int3 f opMul)
def execMulh (f : W3) (s : State) : Result := .next (s.int3 f opMulh)
def execMulhn (f : W3) (s : State) : Result := .next (s.int3 f opMulh)
def execDiv (f : W3) (s : State) : Result := .next (s.int3 f opDiv)
def execDivn (f : W3) (s : State) : Result := .next (s.int3 f opDiv)
def execRem (f : W3) (s : State) : Result := .next (s.int3 f opRem)
def execRemn (f : W3) (s : State) : Result := .next (s.int3 f opRem)
def execAnd (f : W3) (s : State) : Result := .next (s.int3 f opAnd)
def execOr (f : W3) (s : State) : Result := .next (s.int3 f opOr)
def execXor (f : W3) (s : State) : Result := .next (s.int3 f opXor)
def execAndn (f : W3) (s : State) : Result := .next (s.int3 f opAndn)
def execOrn (f : W3) (s : State) : Result := .next (s.int3 f opOrn)
def execShl (f : W3) (s : State) : Result := .next (s.int3 f opShl)
def execShr (f : W3) (s : State) : Result := .next (s.int3 f opShr)
def execSra (f : W3) (s : State) : Result := .next (s.int3 f opSra)
def execRot (f : W3) (s : State) : Result := .next (s.int3 f opRot)
def execMin (f : W3) (s : State) : Result := .next (s.int3 f opMin)
def execMax (f : W3) (s : State) : Result := .next (s.int3 f opMax)
def execMinn (f : W3) (s : State) : Result := .next (s.int3 f opMin)
def execMaxn (f : W3) (s : State) : Result := .next (s.int3 f opMax)
def execSlt (f : W3) (s : State) : Result :=
  .next (s.int3Count f (fun t a b => if lowS t a < lowS t b then 1 else 0))
def execSltn (f : W3) (s : State) : Result :=
  .next (s.int3Count f (fun t a b => if lowU t a < lowU t b then 1 else 0))
def execSeq (f : W3) (s : State) : Result :=
  .next (s.int3Count f (fun t a b => if lowU t a = lowU t b then 1 else 0))
/-- a when C[w−1:0] ≠ 0, else b. -/
def execSel (f : W3) (s : State) : Result :=
  .next (s.int3 f (fun t a b => if lowU t (s.getS f.c).toNat ≠ 0 then readInt t a else readInt t b))
def execClz (f : W3) (s : State) : Result := .next (s.int3Count f (fun t a _ => leadingZeros t.width (lowU t a)))
def execCtz (f : W3) (s : State) : Result := .next (s.int3Count f (fun t a _ => trailingZeros t.width (lowU t a)))
def execPopc (f : W3) (s : State) : Result := .next (s.int3Count f (fun t a _ => popCount t.width (lowU t a)))
/-- The w/8 bytes of a in reverse order. -/
def execBswap (f : W3) (s : State) : Result :=
  .next (s.int3 f (fun t a _ => (ofBytes (toBytes (t.width / 8) a).reverse : Int)))
/-- A[pos+len−1:pos], extended as the type says (R210). -/
def execBext (f : W3) (s : State) : Result :=
  let pos := f.immBits 5 0
  let len := f.immBits 12 6
  let x := (s.getS f.a).toNat / 2 ^ pos
  .next (s.setS f.d (BitVec.ofInt 64 (if f.ty.signed then sext len x else ((x % 2 ^ len : Nat) : Int)))).advance
/-- D with bits [pos+len−1:pos] replaced by A[len−1:0] (R210). -/
def execBins (f : W3) (s : State) : Result :=
  let pos := f.immBits 5 0
  let len := f.immBits 12 6
  let field : Word := BitVec.ofNat 64 ((2 ^ len - 1) * 2 ^ pos)
  .next (s.setS f.d ((s.getS f.d &&& ~~~field) ||| ((s.getS f.a <<< pos) &&& field))).advance

-- INTI (Table 17.4), LI, LEA --------------------------------------------------------------------------------------------

def execAddi (f : WI) (s : State) : Result := .next (s.intI f (· + ·))
def execAndi (f : WI) (s : State) : Result := .next (s.intI f (· &&& ·))
def execOri (f : WI) (s : State) : Result := .next (s.intI f (· ||| ·))
def execXori (f : WI) (s : State) : Result := .next (s.intI f (· ^^^ ·))
/-- Shift members use IMM32[5:0]. -/
def execShli (f : WI) (s : State) : Result := .next (s.intI f (fun a b => a <<< (b.toNat % 64)))
def execShri (f : WI) (s : State) : Result := .next (s.intI f (fun a b => a >>> (b.toNat % 64)))
def execSrai (f : WI) (s : State) : Result := .next (s.intI f (fun a b => a.sshiftRight (b.toNat % 64)))
def execRoti (f : WI) (s : State) : Result := .next (s.intI f (fun a b => a.rotateLeft (b.toNat % 64)))
def execSlti (f : WI) (s : State) : Result := .next (s.intI f (fun a b => boolW (a.slt b)))
def execSltni (f : WI) (s : State) : Result := .next (s.intI f (fun a b => boolW (a.ult b)))
def execMini (f : WI) (s : State) : Result := .next (s.intI f (fun a b => if a.slt b then a else b))
def execMaxi (f : WI) (s : State) : Result := .next (s.intI f (fun a b => if a.slt b then b else a))
/-- D := sext(IMM32, 32) (R213). -/
def execLi (f : WI) (s : State) : Result := .next (s.setS f.d (wiValue f)).advance
/-- D := IMM32 × 2^32 + D[31:0] (R213). -/
def execLih (f : WI) (s : State) : Result :=
  .next (s.setS f.d (f.imm ++ (s.getS f.d).setWidth 32 : BitVec 64)).advance
/-- D := A + (B << IMM14[13:12]) + sext(IMM14[11:0], 12) (R214). -/
def execLea (f : W3) (s : State) : Result :=
  .next (s.setS f.d (s.getS f.a + (s.getS f.b <<< f.immBits 13 12) + (f.imm.setWidth 12).signExtend 64)).advance

end Sys2Proof.Machine
end

