-- ==== Sys2Proof/Machine/Traps.lean ====
section
/-!
DEFINITION. Words that are no instruction (R182, R183), fetches that fail, and what reaches a thread at its boundaries:
asynchronous traps (R360) and the deadline of a `waiti` (R223).
-/
namespace Sys2Proof.Machine
open Sys2Proof

/-- Trap 1, or trap 2 for a word with bit 63 set; TVAL holds the word (R182). -/
def execReservedInstruction (w : Word) (s : State) : Result :=
  (s.trapHere (if w.getLsbD 63 then 2 else 1) w).finish

/-- The fetch at PC fails: trap 5 with TVAL the PC (R183, R101), or trap 14 for a poisoned line (R117). -/
def execInstructionFetchFault (s : State) : Result :=
  (s.trapHere (match s.fetchWord s.pc with | .error c => c | .ok _ => 5) s.pc).finish

-- Asynchronous causes (R360) ---------------------------------------------------------------------------------------------

/-- The pending cause that goes first: the lowest code, the earlier of equals. -/
def firstCause : List Pending → Option Pending
  | [] => none
  | p :: rest =>
    match firstCause rest with
    | none => some p
    | some q => if q.code < p.code then some q else some p

/-- A thread stands at an instruction boundary with TE = 1 and a cause pending. -/
def Thread.takes (t : Thread) : Bool :=
  t.owner.isSome && !t.ended && t.regs.te && t.entered.isNone && !t.side.pending.isEmpty

/-- Take the first pending cause at the boundary, after confirming the thread's probes; after a squash the boundary is
that of the miss target (R360), where the cause waits on when TE is 0 there. -/
def State.takeAsync (s : State) : State :=
  if !s.thr.takes then s
  else
    let s := s.confirm.1
    match firstCause s.side.pending with
    | none => s
    | some p =>
      if !s.thr.takes then s
      else
        let s := s.setSide { s.side with pending := s.side.pending.erase p }
        s.enterTrap { code := p.code, val := p.val, point := s.pc, asy := true, blk := false, fid := p.fid }

def execAsyncTrapTaken (t : Hart) (s : State) : Result := .next (if s.winter then s else s.asHart t State.takeAsync)

-- The deadline of a `waiti` ----------------------------------------------------------------------------------------------

/-- TIME has reached the deadline of a waiting `waiti`: it ends with D = 0. -/
def State.waitDue (s : State) : Bool :=
  match s.thr.waiting with
  | some (_, deadline) => !s.thr.ended && decide (deadline.toNat ≤ s.time)
  | none => false
def State.deadline (s : State) : State :=
  match s.thr.waiting with
  | some (d, _) => if s.waitDue then (s.endWait d 0).setEntered none else s
  | none => s

def execWaitiDeadline (t : Hart) (s : State) : Result := .next (if s.winter then s else s.asHart t State.deadline)

end Sys2Proof.Machine
end

