-- ==== Sys2Proof/Machine/Dispatch.lean ====
section
/-!
DEFINITION. The meaning of every instruction, event and command: one arm per constructor, each a direct call.
-/
namespace Sys2Proof.Machine
open Sys2Proof

def exec (i : Instr) (s : State) : Host.Outcome State Fault Refusal :=
  match i with
  | .nop f => Sys2Proof.Machine.execNop f s
  | .trap f => Sys2Proof.Machine.execTrap f s
  | .eret f => Sys2Proof.Machine.execEret f s
  | .waiti f => Sys2Proof.Machine.execWaiti f s
  | .yield f => Sys2Proof.Machine.execYield f s
  | .add f => Sys2Proof.Machine.execAdd f s
  | .sub f => Sys2Proof.Machine.execSub f s
  | .mul f => Sys2Proof.Machine.execMul f s
  | .mulh f => Sys2Proof.Machine.execMulh f s
  | .mulhn f => Sys2Proof.Machine.execMulhn f s
  | .div f => Sys2Proof.Machine.execDiv f s
  | .divn f => Sys2Proof.Machine.execDivn f s
  | .rem f => Sys2Proof.Machine.execRem f s
  | .remn f => Sys2Proof.Machine.execRemn f s
  | .and f => Sys2Proof.Machine.execAnd f s
  | .or f => Sys2Proof.Machine.execOr f s
  | .xor f => Sys2Proof.Machine.execXor f s
  | .andn f => Sys2Proof.Machine.execAndn f s
  | .orn f => Sys2Proof.Machine.execOrn f s
  | .shl f => Sys2Proof.Machine.execShl f s
  | .shr f => Sys2Proof.Machine.execShr f s
  | .sra f => Sys2Proof.Machine.execSra f s
  | .rot f => Sys2Proof.Machine.execRot f s
  | .min f => Sys2Proof.Machine.execMin f s
  | .max f => Sys2Proof.Machine.execMax f s
  | .minn f => Sys2Proof.Machine.execMinn f s
  | .maxn f => Sys2Proof.Machine.execMaxn f s
  | .slt f => Sys2Proof.Machine.execSlt f s
  | .sltn f => Sys2Proof.Machine.execSltn f s
  | .seq f => Sys2Proof.Machine.execSeq f s
  | .sel f => Sys2Proof.Machine.execSel f s
  | .clz f => Sys2Proof.Machine.execClz f s
  | .ctz f => Sys2Proof.Machine.execCtz f s
  | .popc f => Sys2Proof.Machine.execPopc f s
  | .bswap f => Sys2Proof.Machine.execBswap f s
  | .bext f => Sys2Proof.Machine.execBext f s
  | .bins f => Sys2Proof.Machine.execBins f s
  | .addi f => Sys2Proof.Machine.execAddi f s
  | .andi f => Sys2Proof.Machine.execAndi f s
  | .ori f => Sys2Proof.Machine.execOri f s
  | .xori f => Sys2Proof.Machine.execXori f s
  | .shli f => Sys2Proof.Machine.execShli f s
  | .shri f => Sys2Proof.Machine.execShri f s
  | .srai f => Sys2Proof.Machine.execSrai f s
  | .roti f => Sys2Proof.Machine.execRoti f s
  | .slti f => Sys2Proof.Machine.execSlti f s
  | .sltni f => Sys2Proof.Machine.execSltni f s
  | .mini f => Sys2Proof.Machine.execMini f s
  | .maxi f => Sys2Proof.Machine.execMaxi f s
  | .li f => Sys2Proof.Machine.execLi f s
  | .lih f => Sys2Proof.Machine.execLih f s
  | .lea f => Sys2Proof.Machine.execLea f s
  | .fadd f => Sys2Proof.Machine.execFadd f s
  | .fsub f => Sys2Proof.Machine.execFsub f s
  | .fmul f => Sys2Proof.Machine.execFmul f s
  | .ffma f => Sys2Proof.Machine.execFfma f s
  | .fdiv f => Sys2Proof.Machine.execFdiv f s
  | .fsqrt f => Sys2Proof.Machine.execFsqrt f s
  | .fmin f => Sys2Proof.Machine.execFmin f s
  | .fmax f => Sys2Proof.Machine.execFmax f s
  | .fcmp f => Sys2Proof.Machine.execFcmp f s
  | .fclass f => Sys2Proof.Machine.execFclass f s
  | .fcvt f => Sys2Proof.Machine.execFcvt f s
  | .fabs f => Sys2Proof.Machine.execFabs f s
  | .fneg f => Sys2Proof.Machine.execFneg f s
  | .brEq f => Sys2Proof.Machine.execBrEq f s
  | .brNe f => Sys2Proof.Machine.execBrNe f s
  | .brLt f => Sys2Proof.Machine.execBrLt f s
  | .brGe f => Sys2Proof.Machine.execBrGe f s
  | .brLtn f => Sys2Proof.Machine.execBrLtn f s
  | .brGen f => Sys2Proof.Machine.execBrGen f s
  | .jal f => Sys2Proof.Machine.execJal f s
  | .jr f => Sys2Proof.Machine.execJr f s
  | .vfetch f => Sys2Proof.Machine.execVfetch f s
  | .rds f => Sys2Proof.Machine.execRds f s
  | .wrs f => Sys2Proof.Machine.execWrs f s
  | .vlWrite f => Sys2Proof.Machine.execVlWrite f s
  | .vstartWrite f => Sys2Proof.Machine.execVstartWrite f s
  | .fflgWrite f => Sys2Proof.Machine.execFflgWrite f s
  | .mshapeWrite f => Sys2Proof.Machine.execMshapeWrite f s
  | .drthWrite f => Sys2Proof.Machine.execDrthWrite f s
  | .drstatWrite f => Sys2Proof.Machine.execDrstatWrite f s
  | .railqWrite f => Sys2Proof.Machine.execRailqWrite f s
  | .tstamp f => Sys2Proof.Machine.execTstamp f s
  | .ld f => Sys2Proof.Machine.execLd f s
  | .ldl f => Sys2Proof.Machine.execLdl f s
  | .pref f => Sys2Proof.Machine.execPref f s
  | .st f => Sys2Proof.Machine.execSt f s
  | .stc f => Sys2Proof.Machine.execStc f s
  | .vld f => Sys2Proof.Machine.execVld f s
  | .vlds f => Sys2Proof.Machine.execVlds f s
  | .vldg f => Sys2Proof.Machine.execVldg f s
  | .vldl f => Sys2Proof.Machine.execVldl f s
  | .vlde f => Sys2Proof.Machine.execVlde f s
  | .vldt f => Sys2Proof.Machine.execVldt f s
  | .vldtt f => Sys2Proof.Machine.execVldtt f s
  | .vst f => Sys2Proof.Machine.execVst f s
  | .vsts f => Sys2Proof.Machine.execVsts f s
  | .vstg f => Sys2Proof.Machine.execVstg f s
  | .vstc f => Sys2Proof.Machine.execVstc f s
  | .vste f => Sys2Proof.Machine.execVste f s
  | .vstt f => Sys2Proof.Machine.execVstt f s
  | .fence f => Sys2Proof.Machine.execFence f s
  | .cflush f => Sys2Proof.Machine.execCflush f s
  | .cinvData f => Sys2Proof.Machine.execCinvData f s
  | .cinvInstruction f => Sys2Proof.Machine.execCinvInstruction f s
  | .cinvTranslation f => Sys2Proof.Machine.execCinvTranslation f s
  | .cinvTranslationAll f => Sys2Proof.Machine.execCinvTranslationAll f s
  | .czero f => Sys2Proof.Machine.execCzero f s
  | .mshape f => Sys2Proof.Machine.execMshape f s
  | .mldb f => Sys2Proof.Machine.execMldb f s
  | .mma f => Sys2Proof.Machine.execMma f s
  | .mmaz f => Sys2Proof.Machine.execMmaz f s
  | .mdrain f => Sys2Proof.Machine.execMdrain f s
  | .mclrAcc f => Sys2Proof.Machine.execMclrAcc f s
  | .mclrB f => Sys2Proof.Machine.execMclrB f s
  | .mstat f => Sys2Proof.Machine.execMstat f s
  | .acprobe f => Sys2Proof.Machine.execAcprobe f s
  | .acprobeSpec f => Sys2Proof.Machine.execAcprobeSpec f s
  | .acwait f => Sys2Proof.Machine.execAcwait f s
  | .acstore f => Sys2Proof.Machine.execAcstore f s
  | .acdrop f => Sys2Proof.Machine.execAcdrop f s
  | .acdropAll f => Sys2Proof.Machine.execAcdropAll f s
  | .vadd f => Sys2Proof.Machine.execVadd f s
  | .vsub f => Sys2Proof.Machine.execVsub f s
  | .vmul f => Sys2Proof.Machine.execVmul f s
  | .vmulh f => Sys2Proof.Machine.execVmulh f s
  | .vmin f => Sys2Proof.Machine.execVmin f s
  | .vmax f => Sys2Proof.Machine.execVmax f s
  | .vand f => Sys2Proof.Machine.execVand f s
  | .vor f => Sys2Proof.Machine.execVor f s
  | .vxor f => Sys2Proof.Machine.execVxor f s
  | .vshl f => Sys2Proof.Machine.execVshl f s
  | .vshr f => Sys2Proof.Machine.execVshr f s
  | .vsra f => Sys2Proof.Machine.execVsra f s
  | .vabs f => Sys2Proof.Machine.execVabs f s
  | .vneg f => Sys2Proof.Machine.execVneg f s
  | .vsel f => Sys2Proof.Machine.execVsel f s
  | .vmulw f => Sys2Proof.Machine.execVmulw f s
  | .vmacw f => Sys2Proof.Machine.execVmacw f s
  | .vfadd f => Sys2Proof.Machine.execVfadd f s
  | .vfsub f => Sys2Proof.Machine.execVfsub f s
  | .vfmul f => Sys2Proof.Machine.execVfmul f s
  | .vffma f => Sys2Proof.Machine.execVffma f s
  | .vffms f => Sys2Proof.Machine.execVffms f s
  | .vfnma f => Sys2Proof.Machine.execVfnma f s
  | .vfdiv f => Sys2Proof.Machine.execVfdiv f s
  | .vfsqrt f => Sys2Proof.Machine.execVfsqrt f s
  | .vfrcp f => Sys2Proof.Machine.execVfrcp f s
  | .vfrsqrt f => Sys2Proof.Machine.execVfrsqrt f s
  | .vfexp2 f => Sys2Proof.Machine.execVfexp2 f s
  | .vflog2 f => Sys2Proof.Machine.execVflog2 f s
  | .vfmin f => Sys2Proof.Machine.execVfmin f s
  | .vfmax f => Sys2Proof.Machine.execVfmax f s
  | .vfabs f => Sys2Proof.Machine.execVfabs f s
  | .vfneg f => Sys2Proof.Machine.execVfneg f s
  | .vfclass f => Sys2Proof.Machine.execVfclass f s
  | .vcvt f => Sys2Proof.Machine.execVcvt f s
  | .vcmp f => Sys2Proof.Machine.execVcmp f s
  | .vfcmp f => Sys2Proof.Machine.execVfcmp f s
  | .vrsum f => Sys2Proof.Machine.execVrsum f s
  | .vrmax f => Sys2Proof.Machine.execVrmax f s
  | .vrmin f => Sys2Proof.Machine.execVrmin f s
  | .vscanSum f => Sys2Proof.Machine.execVscanSum f s
  | .vscanMax f => Sys2Proof.Machine.execVscanMax f s
  | .vscanMin f => Sys2Proof.Machine.execVscanMin f s
  | .vcompress f => Sys2Proof.Machine.execVcompress f s
  | .vspread f => Sys2Proof.Machine.execVspread f s
  | .vperm f => Sys2Proof.Machine.execVperm f s
  | .vslideup f => Sys2Proof.Machine.execVslideup f s
  | .vslidedn f => Sys2Proof.Machine.execVslidedn f s
  | .vbcastScalar f => Sys2Proof.Machine.execVbcastScalar f s
  | .vbcastElementIndexed f => Sys2Proof.Machine.execVbcastElementIndexed f s
  | .vbcastElement f => Sys2Proof.Machine.execVbcastElement f s
  | .vextr f => Sys2Proof.Machine.execVextr f s
  | .vins f => Sys2Proof.Machine.execVins f s
  | .viota f => Sys2Proof.Machine.execViota f s
  | .vrev f => Sys2Proof.Machine.execVrev f s
  | .vencAuto f => Sys2Proof.Machine.execVencAuto f s
  | .vencRun f => Sys2Proof.Machine.execVencRun f s
  | .vencDict f => Sys2Proof.Machine.execVencDict f s
  | .vencDelta f => Sys2Proof.Machine.execVencDelta f s
  | .vexpand f => Sys2Proof.Machine.execVexpand f s
  | .vinfo f => Sys2Proof.Machine.execVinfo f s
  | .kand f => Sys2Proof.Machine.execKand f s
  | .kor f => Sys2Proof.Machine.execKor f s
  | .kxor f => Sys2Proof.Machine.execKxor f s
  | .knot f => Sys2Proof.Machine.execKnot f s
  | .kpopc f => Sys2Proof.Machine.execKpopc f s
  | .kfirst f => Sys2Proof.Machine.execKfirst f s
  | .kmov f => Sys2Proof.Machine.execKmov f s
  | .setvl f => Sys2Proof.Machine.execSetvl f s
  | .cpset f => Sys2Proof.Machine.execCpset f s
  | .cpstart f => Sys2Proof.Machine.execCpstart f s
  | .cpwait f => Sys2Proof.Machine.execCpwait f s
  | .cpstat f => Sys2Proof.Machine.execCpstat f s
  | .cbinit f => Sys2Proof.Machine.execCbinit f s
  | .cbwait f => Sys2Proof.Machine.execCbwait f s
  | .cbrel f => Sys2Proof.Machine.execCbrel f s
  | .barinit f => Sys2Proof.Machine.execBarinit f s
  | .barrive f => Sys2Proof.Machine.execBarrive f s
  | .barwait f => Sys2Proof.Machine.execBarwait f s
  | .phend f => Sys2Proof.Machine.execPhend f s
  | .jlaunch f => Sys2Proof.Machine.execJlaunch f s
  | .jwait f => Sys2Proof.Machine.execJwait f s
  | .vsave f => Sys2Proof.Machine.execVsave f s
  | .vrest f => Sys2Proof.Machine.execVrest f s
  | .csave f => Sys2Proof.Machine.execCsave f s
  | .crest f => Sys2Proof.Machine.execCrest f s
  | .pairedWord a b => Sys2Proof.Machine.execPairedWord a b s
  | .reservedInstruction w => Sys2Proof.Machine.execReservedInstruction w s
  | .asyncTrapTaken t => Sys2Proof.Machine.execAsyncTrapTaken t s
  | .probeResolve t n => Sys2Proof.Machine.execProbeResolve t n s
  | .waitiDeadline t => Sys2Proof.Machine.execWaitiDeadline t s
  | .copyModeCopy quad chan => Sys2Proof.Machine.execCopyModeCopy quad chan s
  | .copyModeMulticast quad chan => Sys2Proof.Machine.execCopyModeMulticast quad chan s
  | .copyModeFill quad chan => Sys2Proof.Machine.execCopyModeFill quad chan s
  | .copyModeVersioned quad chan => Sys2Proof.Machine.execCopyModeVersioned quad chan s
  | .copyModeReduceAdd quad chan => Sys2Proof.Machine.execCopyModeReduceAdd quad chan s
  | .copyModeDedup quad chan => Sys2Proof.Machine.execCopyModeDedup quad chan s
  | .grant job cores => Sys2Proof.Machine.execGrant job cores s
  | .preempt core slot => Sys2Proof.Machine.execPreempt core slot s
  | .resume l core => Sys2Proof.Machine.execResume l core s
  | .replyArrival l tid fid => Sys2Proof.Machine.execReplyArrival l tid fid s
  | .jobCombine job => Sys2Proof.Machine.execJobCombine job s
  | .completionRecord job => Sys2Proof.Machine.execCompletionRecord job s
  | .agingTick job => Sys2Proof.Machine.execAgingTick job s
  | .levelReturn job => Sys2Proof.Machine.execLevelReturn job s
  | .jobEndedBySupervisor job => Sys2Proof.Machine.execJobEndedBySupervisor job s
  | .migrationEpoch die => Sys2Proof.Machine.execMigrationEpoch die s
  | .migrationLineDone subblock line => Sys2Proof.Machine.execMigrationLineDone subblock line s
  | .movesWindowClose subblock => Sys2Proof.Machine.execMovesWindowClose subblock s
  | .pinleftTick subblock => Sys2Proof.Machine.execPinleftTick subblock s
  | .linePoisoned line => Sys2Proof.Machine.execLinePoisoned line s
  | .ptAdvance core => Sys2Proof.Machine.execPtAdvance core s
  | .accessFromOtherPackage pkg pa op => Sys2Proof.Machine.execAccessFromOtherPackage pkg pa op s
  | .droopAlarm quad sag => Sys2Proof.Machine.execDroopAlarm quad sag s
  | .stretchEnd quad => Sys2Proof.Machine.execStretchEnd quad s
  | .halvedIssueEnd quad => Sys2Proof.Machine.execHalvedIssueEnd quad s
  | .ballastWindow quad => Sys2Proof.Machine.execBallastWindow quad s
  | .pcSample core => Sys2Proof.Machine.execPcSample core s
  | .opPointChange quad point => Sys2Proof.Machine.execOpPointChange quad point s
  | .alcChange core lanes => Sys2Proof.Machine.execAlcChange core lanes s
  | .podPhaseMessage pkg idx => Sys2Proof.Machine.execPodPhaseMessage pkg idx s
  | .instructionFetchFault => Sys2Proof.Machine.execInstructionFetchFault s
  | .schedulerFailover => Sys2Proof.Machine.execSchedulerFailover s
  | .capLeaseExpiry => Sys2Proof.Machine.execCapLeaseExpiry s
  | .winterEntry => Sys2Proof.Machine.execWinterEntry s
  | .spring => Sys2Proof.Machine.execSpring s
  | .deviceReset => Sys2Proof.Machine.execDeviceReset s
  | .submit => Sys2Proof.Machine.execSubmit s
  | .bind => Sys2Proof.Machine.execBind s
  | .unbind => Sys2Proof.Machine.execUnbind s
  | .map => Sys2Proof.Machine.execMap s
  | .unmap => Sys2Proof.Machine.execUnmap s
  | .powerCap => Sys2Proof.Machine.execPowerCap s
  | .enterWinter => Sys2Proof.Machine.execEnterWinter s
  | .liftWinter => Sys2Proof.Machine.execLiftWinter s
  | .readCounter => Sys2Proof.Machine.execReadCounter s
  | .firmwareUpdate => Sys2Proof.Machine.execFirmwareUpdate s
  | .loadKey => Sys2Proof.Machine.execLoadKey s
  | .attest => Sys2Proof.Machine.execAttest s
  | .readOffer => Sys2Proof.Machine.execReadOffer s
  | .accept => Sys2Proof.Machine.execAccept s
  | .jobStatus => Sys2Proof.Machine.execJobStatus s
  | .podTable => Sys2Proof.Machine.execPodTable s

end Sys2Proof.Machine
end

