-- ==== Sys2Proof/Machine/Turns.lean ====
section
/-!
DEFINITION. One turn of the machine: which agent moves, what a thread fetches and runs, a message at its endpoint, and what a
package does by itself when the agenda is empty. MODEL: the order of agents is timing (R2), so the agenda may name any of
them; the choice for an empty agenda is fair between the threads and the device's own events.
-/
namespace Sys2Proof.Machine
open Sys2Proof

-- A thread's instruction -------------------------------------------------------------------------------------------------

/-- The instruction at PC (R183): a failed fetch, a word whose feature is not accepted (R181), or what the word decodes to. -/
def State.fetchInstr (s : State) : Instr :=
  match s.fetchWord s.pc with
  | .error _ => .instructionFetchFault
  | .ok w =>
    let need := featureNeed w
    if s.accepted.toNat % 2 ^ 5 &&& need = need then decodeInstr w else .reservedInstruction w

/-- The lines that its fetch reads at their homes (R102, R108). -/
def State.fetched (s : State) : State := s.issue (readsOf (s.fetchLines s.pc))

/-- An instruction that stopped and was not pre-empted goes on from its stop: the requests it had out are answered (R366). -/
def State.settleRequests (s : State) : State :=
  match s.side.requests with
  | [] => s
  | rs => s.applyAnswers rs

/-- A thread that can execute: its device runs, and it has a strip. -/
def State.canRun (s : State) (t : Hart) : Bool :=
  s.started && !s.winter && (s.thread t).owner.isSome && !(s.thread t).ended

/-- Forget the stop an instruction ran under. -/
def clearStop (r : Result) : Result :=
  match r with
  | .next s => .next { s with stopAt := none, await := [] }
  | r => r

/-- The word at PC, zero when its fetch fails. -/
def State.wordAtPc (s : State) : Word := match s.fetchWord s.pc with | .ok w => w | .error _ => 0
/-- The register numbers in the fields of a full word that may name registers (Tables 13.1-13.4). -/
def wordFields (w : Word) : List (BitVec 6) := [w.extractLsb' 50 6, w.extractLsb' 44 6, w.extractLsb' 38 6, w.extractLsb' 32 6]
/-- A word reads the descriptor of a register alone, which shows how far a result in progress has come (R282). -/
def isVinfo (w : Word) : Bool := match decodeInstr w with | .vinfo _ => true | _ => false
/-- Whether a full or paired word holds a vector half. -/
def vectorHalves (i : Instr) : Bool := match i with | .pairedWord a b => a.op.isVector || b.op.isVector | _ => false
/-- A word may name an element of vector register r: by a field or as the second of a pair of registers, or by what a paired word, a
block or a save area contains. -/
def wordNames (w : Word) (r : Nat) : Bool :=
  vectorHalves (decodeInstr w)
    || (match (w.extractLsb' 56 7).toNat with
      | 0x0C | 0x34 => true
      | 0x12 | 0x13 | 0x18 | 0x19 | 0x20 | 0x21 | 0x22 | 0x23 | 0x24 | 0x25 | 0x26 =>
        !isVinfo w && (wordFields w).any (fun f => f.toNat == r || f.toNat + 1 == r)
      | _ => false)
/-- Vector registers some element of which, at or beyond PROG, a thread has written and others may not read yet (R91, R358): the result
of an instruction that it has stopped in, and that of a load whose done set stands above a failed element (R367). -/
def Thread.unready (t : Thread) : List Nat :=
  (match t.stopped with | some (_, some r) => [r] | _ => [])
    ++ (match t.side.done with
        | some d => if d.state == 1 && !(d.elems.isEmpty && d.more.isEmpty) then [d.reg % 64] else []
        | none => [])
/-- The next instruction names such a register of another thread of the core, and waits (log entry 52). -/
def State.waitsForReg (s : State) : Bool :=
  (List.range 4).any (fun i => i != s.cur.thread
    && (s.thread { core := s.cur.core, thread := i }).unready.any (fun r =>
      wordNames s.wordAtPc r || ((s.vreg r).ty.wide && wordNames s.wordAtPc (r + 1))))
/-- The next instruction may name a scalar register that the acknowledgement of a held versioned write will set (R247): it waits for
it, and so for the confirmation of the thread's probes (R50, R312). -/
def State.needsAck (s : State) : Bool :=
  let w := s.wordAtPc
  !s.thr.acks.isEmpty && (w.getLsbD 63 || (w.extractLsb' 56 7).toNat == 0x0C || s.thr.acks.any (fun n => (wordFields w).contains n))

-- Resynchronisations (R49) ------------------------------------------------------------------------------------------------

/-- What an instruction reads a scalar from: vector, mask, accumulator and stationary registers, and VSTART, FFLG, VDIRTY and
RESYNC. -/
def scalarSources (i : Instr) : BitVec 52 × BitVec 4 :=
  match i with
  | .vextr f => (busyV f.a.toNat ||| (if f.ty.wide then busyV (f.a.toNat + 1) else 0), 0)
  | .vinfo f => (busyV f.a.toNat, 0)
  | .kpopc f | .kfirst f => (busyK f.a.toNat, 0)
  | .mstat f =>
    (match f.immBits 7 0 with
     | 0x01 | 0x02 | 0x03 => 0xFF#52 <<< 40
     | 0x10 | 0x11 | 0x12 | 0x13 => busyB (f.immBits 7 0 - 0x10)
     | _ => 0, 0)
  | .rds f => (0, match f.stateReg with | 0x003 => 1 | 0x007 => 2 | 0x008 => 4 | 0x00B => 8 | _ => 0)
  | _ => (0, 0)
/-- What a scalar load reads, as address and length, where its access passes. -/
def State.scalarSpan (s : State) (i : Instr) : List (Nat × Nat) :=
  match i with
  | .ld f | .ldl f => s.scalarSpans (s.base f (f.ty.width / 8)) (f.ty.width / 8)
  | .pairedWord a _ => if a.op = .ld then s.scalarSpans (s.halfAddress a false) 8 else []
  | _ => []
/-- Count one resynchronisation: held while the thread runs speculatively, where a seventeenth held instruction first confirms its
probes (R312). True when one of them missed. -/
def State.countResync (s : State) (mem : Bool) : State × Bool :=
  if (s.thr.held.filter (fun h => h.counts)).length < 16 then (s.issue [.resync mem], false)
  else match s.confirm with
    | (s, true) => (s, true)
    | (s, false) => (s.issue [.resync mem], false)
/-- A stall that the instruction may make: a free value says whether what it waits for was still incomplete. -/
def State.stallIf (s : State) (due mem : Bool) : State × Bool :=
  if due then
    let (n, s) := s.draw
    if Config.incomplete n then s.countResync mem else (s, false)
  else (s, false)
/-- The stalls of the scalar front end before an instruction, counted in RESYNC (R49): for a scalar that vector work produces,
which is complete from then on; and for a scalar load that overlaps an element store, with which every earlier store of the
thread has been performed. Each is counted at most once for one value (log entry 41). -/
def State.stall (s : State) (i : Instr) : State × Bool :=
  let (regs, shown) := scalarSources i
  match s.stallIf (regs &&& s.file.busy != 0 || shown &&& s.thr.reads != 0) false with
  | (s, true) => (s, true)
  | (s, false) =>
    let s := if regs &&& s.file.busy != 0 then s.setFile { s.file with busy := s.file.busy &&& ~~~regs } else s
    let s := if shown &&& s.thr.reads != 0 then s.setThr { s.thr with reads := s.thr.reads &&& ~~~shown } else s
    let span := s.scalarSpan i
    let apart := fun (l : List (Nat × Nat)) => !l.any (fun x => span.any (overlap x))
    match s.stallIf (!s.thr.stores.all apart) true with
    | (s, true) => (s, true)
    | (s, false) =>
      if s.thr.stores.all apart then (s, false)
      else (s.setThr { s.thr with stores := s.thr.stores.takeWhile apart }, false)

/-- The address and length of each element that a vector store writes below its stop, or that the VPs of a block store, as far as its
accesses pass. -/
def State.storeSpans (s : State) (i : Instr) (stop : Option Nat) : List (Nat × Nat) :=
  let last := min s.vl (stop.getD s.vl)
  match i with
  | .vst f => s.elemSpans .store f (State.unitAt f s) last
  | .vsts f => s.elemSpans .store f (State.stridedAt f s) last
  | .vstg f | .vstc f => s.elemSpans .store f (State.indexedAt f s) last
  | .vste f => s.vectorSpans .store (s.base f 16) 8 ((s.image f.ty f.d.toNat).length / 8)
  | .vstt f =>
    s.vectorSpans .store (s.base f (payloadSize f.ty)) 8 (ceilDiv last 256 * payloadSize f.ty / 8)
      ++ s.vectorSpans .store (s.getS f.c) 8 (2 * ceilDiv last 256)
  | .vfetch f => s.blockSpans f
  | _ => []
/-- An instruction is vector, matrix or block work, which changes what VSTART, FFLG, VDIRTY and RESYNC show. -/
def vectorWork (i : Instr) (w : Word) : Bool :=
  vectorHalves i || !w.getLsbD 63 && [0x0C, 0x12, 0x13, 0x18, 0x20, 0x21, 0x22, 0x23, 0x24, 0x25, 0x26].contains (w.extractLsb' 56 7).toNat
/-- After an instruction of a thread at `pc`: where it stands between two elements it is not complete; where it has completed or
trapped, or returned from a trap to some other place, the thread is inside none (R91, R119). MODEL: what later scalar reads and
loads may wait for (R49); a vector store enters a queue of 16, and a fence waits for every store. -/
def State.leave (s : State) (pc : Word) (i : Instr) (vector : Bool) (spans : List (Nat × Nat)) : State :=
  let t := s.thr
  if t.owner.isNone then s
  else
    let here := match t.stopped with | some (a, _) => a == pc | none => false
    let away := match i, t.stopped with | .eret _, some (a, _) => a != s.pc | _, _ => false
    let stopped :=
      let written := match t.stopped with | some (_, some _) => here | _ => false
      if t.entered == some pc && t.waiting.isNone && (t.regs.vstart != 0 || written) && vector then
        (if here then t.stopped else some (pc, none))
      else if here || away then none else t.stopped
    let stores := match i with
      | .fence _ => []
      | _ => if spans.isEmpty then t.stores else (spans :: t.stores).take 16
    let s := if stopped = t.stopped && stores = t.stores then s else s.setThr { t with stopped := stopped, stores := stores }
    if !vector then s
    else (List.range 4).foldl (fun s i =>
      let h : Hart := { core := s.cur.core, thread := i }
      let x := s.thread h
      if x.owner.isNone then s else s.setThread h { x with reads := x.reads ||| (if h = s.cur then 15 else 12) }) s

-- The arithmetic slot (R358, R385) ----------------------------------------------------------------------------------------

/-- The bits that one element-wise evaluation of elements [VSTART, last) issues, at least one beat (R90): of the widest type it names,
where its result is formed element by element. By segments, or with an encoded result, it issues no element groups. -/
def State.specBits (s : State) (e : ElemSpec) (last : Nat) : Option Nat :=
  if s.row e == .plain then some (max 1 ((last - s.vstart) * ((e.types.map Ty.width).foldl max 0))) else none
/-- What an instruction puts into the arithmetic slot up to a stop: none where R385 does not speak of it, since it adds latency (R269),
reads or writes encoded registers, fails the checks of R259, or is no element-wise vector instruction. -/
def State.slotWork (s : State) (i : Instr) (stop : Option Nat) : Option (List Nat) :=
  let last := min s.vl (stop.getD s.vl)
  match i with
  | .vfdiv _ | .vfsqrt _ | .vfrcp _ | .vfrsqrt _ | .vfexp2 _ | .vflog2 _ => none
  | .pairedWord a b =>
    let one := fun (h : Half) (slotB : Bool) =>
      if h.op.isVector then (s.specBits (halfSpec h slotB s.regs) last).map (fun n => [n]) else some []
    if vectorHalves i && s.fits [.i32] false then (one a false).bind (fun x => (one b true).map (fun y => x ++ y)) else none
  | i =>
    match elemSpecOf s.regs i, cmpOf s.regs i with
    | some e, _ =>
      let mask := e.k != 0 || (match e.c with | .mask _ => true | _ => false)
      if s.fits e.types mask then (s.specBits e last).map (fun n => [n]) else none
    | none, some (f, _) =>
      let tags := [s.opTag f.ty f.a.toNat] ++ (if f.bScalar then [] else [s.opTag f.ty f.b.toNat])
      if s.fits [f.ty] true && tags.all (· == .plain) then some [max 1 ((last - s.vstart) * f.ty.width)] else none
    | none, none => none
/-- A thread trapped on its way from one state to the next. -/
def ThreadRegs.trapped (r t : ThreadRegs) : Bool := r.te != t.te || r.priv != t.priv
/-- After an instruction of a thread: its groups stand in the arithmetic slot, and the thread goes on with its burst after a
`tstamp.wait`, or after an element-wise vector instruction in one (R385). `s` is the state before it. -/
def State.occupy (t s : State) (i : Instr) (stop : Option Nat) : State :=
  if t.thr.owner.isNone || s.regs.trapped t.regs then (if t.thr.burst then t.setThr { t.thr with burst := false } else t)
  else
    let work := s.slotWork i stop
    let q := quadOf t.cur.core
    let burst := match i with
      | .tstamp f => if t.pc == s.pc then t.thr.burst else f.imm.getLsbD 0
      | _ => t.thr.burst && work.isSome
    let t := if burst == t.thr.burst then t else t.setThr { t.thr with burst := burst }
    match work with
    | none | some [] => t
    | some l =>
      t.setQuad q (l.foldl (fun x n => x.enqueue (t.lanes q) (t.cur.core % 4) t.cur.thread { pc := s.pc, left := n }) (t.quadNow q))

/-- The instruction at PC runs, or its part up to a stop at an element. -/
def State.runInstr (s : State) (stop : Option Nat) (await : List Nat) : Result :=
  let i := s.fetchInstr
  match s.stall i with
  | (s, true) => .next s
  | (s, false) =>
    match clearStop (exec i { s.fetched with stopAt := stop, await := await }) with
    | .next t => .next ((t.leave s.pc i (vectorWork i s.wordAtPc) (s.storeSpans i stop)).occupy s i stop)
    | r => r
/-- The current thread executes one instruction, or its part up to a stop at an element. A `waiti` that waits goes on with its
wait, whatever has become of its word (R223). -/
def State.execute (s : State) (stop : Option Nat) (await : List Nat) : Result :=
  if s.thr.takes then exec (.asyncTrapTaken s.cur) s
  else match s.thr.waiting with
  | some (d, deadline) => (s.waitTo d deadline).finish
  | none =>
    if s.waitsForReg then .next (s.setThr { s.thr with burst := false })
    else
      match if s.needsAck then s.confirm else (s, false) with
      | (s, true) => .next s
      | (s, false) => s.runInstr stop await
/-- A thread's turn. -/
def State.runThread (s : State) (t : Hart) (stop : Option Nat) (await : List Nat) : Result :=
  let s := { s with cur := t }
  if !s.canRun t then .next s
  else
    let s := s.settleRequests
    if s.canRun t then s.execute stop await else .next s

-- Two instructions at once (R17, R303) -----------------------------------------------------------------------------------

/-- A plane whose listed elements of width w are those of `on`, and the others those of `off`. -/
def mixBits {n : Nat} (w : Nat) (elems : List Nat) (on off : BitVec n) : BitVec n :=
  BitVec.ofNat n (elems.foldl (fun x e => if n ≤ w * e then x else putSlot x w e (on.toNat / 2 ^ (w * e) % 2 ^ w)) off.toNat)
/-- The widest element, of at most 32 bits, that an instruction reads or writes a register by: no element of it is torn where the
bits that wide come from one side (R17). A 64-bit element is two of 32, in a pair. -/
def elementWidth (i : Instr) : Nat :=
  let of_ := fun (l : List Ty) => (l.map (fun t => min 32 t.width)).foldl max 4
  match elemSpecOf ThreadRegs.zero i, cmpOf ThreadRegs.zero i, memOf i with
  | some e, _, _ => of_ e.types
  | _, some (f, _), _ => of_ [f.ty]
  | _, _, some (f, .indexed, _) => of_ [f.ty, .i32]
  | _, _, some (f, _, _) => of_ [f.ty]
  | none, none, none =>
    match i with
    | .vrsum f | .vrmax f | .vrmin f | .vscanSum f | .vscanMin f | .vscanMax f | .vcompress f | .vspread f
    | .vrev f | .vslideup f | .vslidedn f | .vbcastElementIndexed f | .vbcastElement f | .vextr f | .vins f | .vencAuto f | .vencRun f | .vencDict f
    | .vencDelta f | .vexpand f => of_ [f.ty]
    | .vlde f | .vste f | .vldt f | .vldtt f => of_ [f.ty]
    | _ => 32
/-- A register whose listed parts of w bits are those of `on`, and the others those of `off`: PLAIN where they differ. The scale words
of a tile type go with their codes. -/
def VReg.mix (w : Nat) (elems : List Nat) (on off : VReg) : VReg :=
  if on = off then on
  else
    let ty := if !on.ty.isTile && off.ty.isTile then off.ty else on.ty
    let planes := fun (v : VReg) => if v.tag == .plain && v.ty.isTile then v.index else 0
    { on with tag := .plain, ty := ty, p := 0, data := mixBits w elems on.plainData off.plainData,
              index := mixBits (16 * (w / min w ty.width)) elems (planes on) (planes off) }
/-- The files as an instruction reads them, by parts of w bits, that reads the listed ones after another's writes and all else before.
What it adds to an accumulator row it adds to all the other added, and a `b` register it reads whole (R303). `whole` marks a
`vinfo`, which reads a descriptor as it stands before or after the other's write (R282). -/
def RegFile.mix (w : Nat) (elems : List Nat) (rows whole : Bool) (on off : RegFile) : RegFile :=
  let zero : AccRow := Vector.replicate 128 0
  { on with
    v := Vector.ofFn (fun (i : Fin 32) =>
      if whole then (if elems.contains 0 then vget on.v i.val VReg.zero else vget off.v i.val VReg.zero)
      else VReg.mix w elems (vget on.v i.val VReg.zero) (vget off.v i.val VReg.zero)),
    k := Vector.ofFn (fun (i : Fin 8) => mixBits 1 elems (vget on.k i.val 0) (vget off.k i.val 0)),
    acc := if rows then Vector.ofFn (fun (i : Fin 8) => Vector.ofFn (fun (j : Fin 128) =>
        vget (vget (if elems.contains j.val then on.acc else off.acc) i.val zero) j.val 0)) else on.acc }
/-- What two instructions leave whose widest elements have w bits, the second having read `seen` and left `last`, the first `first`:
a register that one of them wrote is as it left it; of one that both wrote, the listed elements are the second's and the others the
first's. VDIRTY is as the second leaves what the first left (R227). -/
def RegFile.merge (w : Nat) (elems : List Nat) (before seen first last : RegFile) : RegFile :=
  let join {α : Type} [DecidableEq α] {n : Nat} (d : α) (mix : α → α → α) (b s f l : Vector α n) : Vector α n :=
    Vector.ofFn (fun (i : Fin n) =>
      let f := vget f i.val d
      let l := vget l i.val d
      if l = vget s i.val d then f else if f = vget b i.val d then l else mix l f)
  let zero : AccRow := Vector.replicate 128 0
  { v := join VReg.zero (VReg.mix w elems) before.v seen.v first.v last.v,
    k := join 0 (mixBits 1 elems) before.k seen.k first.k last.k,
    acc := join zero (fun l _ => l) before.acc seen.acc first.acc last.acc,
    b := join none (fun l _ => l) before.b seen.b first.b last.b, dirty := last.dirty, busy := last.busy }

/-- The next word of a thread is an `mdrain`. -/
def State.drains (s : State) (t : Hart) : Bool :=
  let w := { s with cur := t }.wordAtPc
  (w.extractLsb' 56 8).toNat == 0x18 && (w.extractLsb' 24 8).toNat == 4
/-- The next word of a thread is a `setvl` that asks for another VLMAX: nothing of the core issues from its grant to its completion
(R263). -/
def State.resizes (s : State) (t : Hart) : Bool :=
  match decodeInstr { s with cur := t }.wordAtPc with
  | .setvl f => (match vlRequest f with | some n => n != (s.core t.core).vlmax | none => false)
  | _ => false
/-- Two threads of a core execute an instruction each, neither ordered before the other (R17): element by element of what both name,
the first's before the second's where the element is listed, and the second's before the first's elsewhere. A change of VLMAX
comes whole before or after the other's instruction, and so does one that goes on from a stop, or whose result others may not read
yet (R91). -/
def State.race (s : State) (t u : Hart) (elems : List Nat) : Result :=
  let before := (s.core t.core).file
  match s.runThread t none [] with
  | .next s1 =>
    if t.core ≠ u.core || t = u || (s.thread t).specFile.isSome || (s1.thread u).specFile.isSome then .next s1
    else if s.resizes t || s1.resizes u || (s.thread t).stopped.isSome || !(s.thread t).unready.isEmpty then s1.runThread u none []
    else
      let i := decodeInstr { s with cur := t }.wordAtPc
      let k := decodeInstr { s1 with cur := u }.wordAtPc
      let first := (s1.core t.core).file
      let seen := RegFile.mix (elementWidth k) elems (s1.drains u) (isVinfo { s1 with cur := u }.wordAtPc) first before
      match { s1.setCore t.core { s1.core t.core with file := seen } with cur := u }.runThread u none [] with
      | .next s2 =>
        let x := s2.core t.core
        .next (s2.setCore t.core { x with file := RegFile.merge (max (elementWidth i) (elementWidth k)) elems before seen first x.file })
      | r => r
  | r => r

-- Events and messages ----------------------------------------------------------------------------------------------------

/-- The rows that are events of the device: neither encoded instructions nor host commands. -/
def isEvent : Instr → Bool
  | .asyncTrapTaken _ | .probeResolve _ _ | .waitiDeadline _
  | .copyModeCopy _ _ | .copyModeMulticast _ _ | .copyModeFill _ _ | .copyModeVersioned _ _ | .copyModeReduceAdd _ _
  | .copyModeDedup _ _
  | .grant _ _ | .preempt _ _ | .resume _ _ | .replyArrival _ _ _ | .jobCombine _ | .completionRecord _
  | .agingTick _ | .levelReturn _ | .jobEndedBySupervisor _ | .schedulerFailover
  | .migrationEpoch _ | .migrationLineDone _ _ | .movesWindowClose _ | .pinleftTick _ | .linePoisoned _ | .ptAdvance _
  | .accessFromOtherPackage _ _ _
  | .droopAlarm _ _ | .stretchEnd _ | .halvedIssueEnd _ | .ballastWindow _ | .pcSample _ | .opPointChange _ _
  | .alcChange _ _ | .capLeaseExpiry | .winterEntry | .spring | .podPhaseMessage _ _ | .deviceReset => true
  | _ => false

/-- An event happens when it names units that exist. -/
def State.happen (s : State) (i : Instr) : Result := if isEvent i && WellFormed i then exec i s else .next s

/-- A message at its endpoint (R391-R393): any to I/O die 1 in Winter is held by the transport, a replayed one too; one that the
transport replays is answered with its original reply, and one with an unknown command is malformed. -/
def State.receive (s : State) (iodie conn seq : Nat) (bytes : List Byte) : Result :=
  if s.winter && iodie != 0 then .next { s with inbox := s.inbox ++ [.message iodie conn seq bytes] }
  else match s.replies.find? (fun r => r.conn == conn && r.seq == seq) with
    | some r => .next { s with replies := s.replies ++ [r] }
    | none =>
      let (m, cmd) := decodeMessage iodie conn seq bytes
      let s := { s with command := m }
      match cmd with
      | none => .next (s.answer 3 0 [])
      | some i => exec i s

/-- A request that reaches a home (R144): a replay changes nothing and has the acknowledgement recorded for it; any other is
performed for its source, at the line's home if that is another by now (R110). -/
def State.deliver (s : State) (src ln : Nat) (seq : BitVec 32) (die : Nat) (e : Effect) : Ack × State :=
  if s.isReplay src ln seq die then (s.recordedAck src ln seq die, s)
  else if src < unitOn 3 + 1 && e.lines.contains ln then (s.msys.ackOf e, s.perform src e)
  else (s.msys.ackOf e, s)
/-- The arrival of a request at the slice of a die. In Winter the transport holds one that would be performed (R383). -/
def State.delivery (s : State) (src ln : Nat) (seq : BitVec 32) (die : Nat) (e : Effect) : Result :=
  if s.winter && !s.isReplay src ln seq die then .next { s with inbox := s.inbox ++ [.replay src ln seq die e] }
  else .next (s.deliver src ln seq die e).2

/-- An error of the hardware that a job does not survive: a job-interrupting failure, which ends it with status 1 (R43, R406). -/
def State.fail (s : State) (h : Nat) : State :=
  match s.job h with
  | some j => if j.ended1 || j.st == .completing then s else { s with failures := s.failures + 1 }.endJob h
  | none => s

/-- Take a turn. -/
def State.takeTurn (s : State) (t : Turn) : Result :=
  match t with
  | .event i => s.happen i
  | .run t => s.runThread t none []
  | .runTo t stop await => s.runThread t (some stop) await
  | .elapse ns => .next (s.passTo (s.time + ns))
  | .message iodie conn seq bytes => s.receive iodie conn seq bytes
  | .replay src ln seq die e => s.delivery src ln seq die e
  | .race t u elems => s.race t u elems
  | .peer asid pkg bound =>
    .next (if s.winter then { s with inbox := s.inbox ++ [t] } else s.peer asid pkg bound)
  | .work asid energy => .next (s.charge asid energy)
  | .corrected => .next { s with corrected := s.corrected + 1 }
  | .failed h => .next (if s.winter then { s with inbox := s.inbox ++ [t] } else s.fail h)
  | .discard _ _ => .next s
  | .mapMove _ _ _ _ _ _ => .next s

-- What happens by itself --------------------------------------------------------------------------------------------------

/-- Jobs whose last strip is complete (R42, R43). -/
def State.closings (s : State) : List Instr :=
  s.jobs.filterMap (fun j => if j.toCombine then some (.jobCombine j.handle)
    else if j.st == .completing then some (.completionRecord j.handle) else none)

/-- The mode of the transfer at the head of a channel as an event. -/
def copyEvent (q ch : Nat) (t : Transfer) : Instr :=
  match shOpm t.shadow with
  | 1 => .copyModeMulticast q ch | 2 => .copyModeVersioned q ch | 3 => .copyModeReduceAdd q ch | 4 => .copyModeFill q ch
  | 5 => .copyModeDedup q ch | _ => .copyModeCopy q ch
/-- Channels with work, stretches and halved windows that have ended, and ballast windows that are complete (R324, R377, R379). -/
def State.quadEvents (s : State) : List Instr :=
  s.quads.flatMap (fun (q, x) =>
    ((List.range 4).filterMap (fun ch => (x.chan ch).queue.head?.map (copyEvent q ch)))
      ++ (let now := s.quadNow q
          (if x.stretch != 0 && now.stretch == 0 then [.stretchEnd q] else [])
            ++ (if x.halved != 0 && now.halved == 0 then [.halvedIssueEnd q] else [])
            ++ (if x.window < now.edges / 64 then [.ballastWindow q] else [])))
/-- Cores whose logical clock lags behind its quad's, and those with a sample to take (R123, R380). -/
def State.coreEvents (s : State) : List Instr :=
  s.cores.flatMap (fun (c, x) =>
    (if s.clockCore c == c && decide (x.ptTicks < (s.quadNow (quadOf c)).edges / 64) then [.ptAdvance c] else [])
      ++ (if x.samples < s.sampleNumber then [.pcSample c] else []))
/-- The migration engines' lines and timers (R109-R111). -/
def State.recordEvents (s : State) : List Instr :=
  ((List.range 4).filter (fun d => decide (vget s.epochAt d 0 ≤ s.time))).map .migrationEpoch
    ++ s.msys.records.flatMap (fun (n, r) =>
      (if r.moving && r.dest.isSome then [.migrationLineDone n r.moved] else [])
        ++ (if r.moves != 0 && decide (r.windowAt + movesWindow ≤ s.time) then [.movesWindowClose n] else [])
        ++ (if r.pinned && decide (r.pinAt + msNs ≤ s.time) then [.pinleftTick n] else []))

/-- Hardware threads that could execute. -/
def State.runnable (s : State) : List Hart :=
  s.cores.flatMap (fun (c, _) => ((List.range 4).map (fun i => ({ core := c, thread := i } : Hart))).filter s.canRun)

/-- Probes that have not resolved. -/
def State.openProbes (s : State) : List Instr :=
  s.runnable.flatMap (fun t => ((s.thread t).side.probes.mapIdx (fun n p => (n, p))).filterMap (fun (n, p) =>
    if p.result.isNone then some (.probeResolve t n) else none))

/-- Replies that saved threads await (R367). -/
def State.replies? (s : State) : List Instr :=
  s.jobs.flatMap (fun j => j.lcores.flatMap (fun (c, l) =>
    match l.st, l.slot, s.context j.card.asid with
    | .saved, some slot, some cx =>
      (l.threads.mapIdx (fun i x => (i, x))).flatMap (fun (i, x) =>
        if s.logLeft cx slot i = 0 then []
        else x.side.requests.map (fun (r : Request) => .replyArrival { job := j.handle, lcore := c } i r.fid))
    | _, _, _ => []))

/-- Timers that have run out (R355, R382). -/
def State.timers (s : State) : List Instr :=
  s.jobs.flatMap (fun j =>
    (match j.waitSince with | some t => if t + msNs ≤ s.time then [.agingTick j.handle] else [] | none => [])
      ++ (match j.heldSince with
          | some t => if t + msNs ≤ s.time && j.level != j.card.prio then [.levelReturn j.handle] else []
          | none => []))
    ++ (match s.capLease with | some (_, t) => if t ≤ s.time then [.capLeaseExpiry] else [] | none => [])

/-- The cores a grant to a job would take now: all that a GANG job needs, one for any other. -/
def State.grantChoice (s : State) (j : Job) : Option Instr :=
  if !j.canGrow then none
  else
    let choice := j.instances.findSome? (fun i =>
      let l := (s.usable j i).take j.need
      if j.need ≤ l.length then some l else none)
    match choice with
    | some l => if s.grantOk j l then some (.grant j.handle l) else none
    | none => none
/-- The resumption of a job's first group that some core takes, the cores of its grant first. -/
def State.resumeChoice (s : State) (j : Job) : Option Instr :=
  match s.context j.card.asid with
    | none => none
    | some cx =>
      let cores := j.cores ++ (cx.instanceCores j.card.scope (j.scopeAt.getD 0)).filter (fun k => !j.cores.contains k)
      (j.lcores.filter (fun (_, l) => l.st == .saved)).findSome? (fun (c, l) =>
        (cores.find? (fun k => s.resumeTurn j k && (s.resumePlaces j cx l.group k).isSome)).map
          (fun k => .resume { job := j.handle, lcore := c } k))
/-- The pre-emption that a waiting job calls for. -/
def State.preemptChoice (s : State) : Option Instr :=
  match s.preemptions with
  | (c :: _) :: _ => some (.preempt c 0)
  | _ => none
/-- What the scheduler does next for its ready jobs, in the order of R356. -/
def State.scheduling (s : State) : List Instr :=
  let ready := sortJobs (s.jobs.filter Job.ready)
  if ready.isEmpty then []
  else match ready.findSome? (fun j => match s.resumeChoice j with
      | some i => some i
      | none => s.grantChoice j) with
    | some i => [i]
    | none => s.preemptChoice.toList

/-- The device's own events that are due. -/
def State.due (s : State) : List Instr :=
  if s.winter || !s.started then []
  else s.closings ++ s.quadEvents ++ s.coreEvents ++ s.recordEvents ++ s.openProbes ++ s.replies? ++ s.timers ++ s.scheduling

/-- The next thread after the current one. -/
def State.nextThread (s : State) : Option Hart :=
  let l := s.runnable
  let after := fun (t : Hart) => decide (s.cur.core < t.core) || (s.cur.core == t.core && decide (s.cur.thread < t.thread))
  match l.find? after with
  | some t => some t
  | none => l.head?

/-- The turn of an empty agenda: a due event and a thread by turns, else nothing but the passing of TIME. -/
def State.defaultTurn (s : State) : Turn :=
  let pick := fun (l : List Instr) => l[s.fresh % l.length]?
  if s.beat then
    match pick s.due, s.nextThread with
    | some i, _ => .event i
    | none, some t => .run t
    | none, none => .elapse 0
  else
    match s.nextThread with
    | some t => .run t
    | none => match pick s.due with
      | some i => .event i
      | none => .elapse 0

/-- TIME advances by a free amount after each turn (R28), within what a slot's work allows (R385). -/
def State.tick (s : State) : State :=
  let (n, s) := s.draw
  { s.passTo (s.time + Config.turnTime n) with beat := !s.beat }
def tickResult (r : Result) : Result :=
  match r with
  | .next s => .next s.tick
  | r => r

/-- The turn that comes next, and the state it starts from: what Winter held back goes first once it is over (R383, R393). -/
def State.nextTurn (s : State) : Turn × State :=
  match s.winter, s.inbox with
  | false, t :: rest => (t, { s with inbox := rest })
  | _, _ =>
    match s.agenda with
    | t :: rest => (t, { s with agenda := rest })
    | [] => (s.defaultTurn, s)

/-- One turn: the PC samples and ballast windows whose instants have passed are those of the state as it stood at them (R379, R380),
and an agent moves. -/
def State.turn (s : State) : Result :=
  let (t, s) := s.account.nextTurn
  tickResult (s.takeTurn t)

-- Placing a program's first word (the state in which the next step runs it) --------------------------------------------------

/-- Bytes of an instruction word as memory holds them (R161). -/
def codeBytes (w : Nat) : List Byte := toBytes 8 (w % 2 ^ 64)

/-- Store a word where the current thread fetches next, if its PC translates. -/
def State.placeAtPc (s : State) (w : Nat) : Option State :=
  if !s.canRun s.cur then none
  else match s.scalarAccess s.view s.me .fetch s.pc 8 8 false with
    | .error _ => none
    | .ok p => some { s with msys := s.msys.store p.pa (codeBytes w) p.key }

/-- A context, its tables and a job of one strip, with its code page at VA 0: what the host loads before a program runs. -/
def loaderContext (base : Nat) : Context :=
  { keyid := 1, dies := 1, pnote := false, pod := false, sroot := base + 0x100000, wtab := base + 0x480000, poolBase := 0,
    poolCnt := 0, cntBase := 0, fpBase := 0, spool := base + 0x500000, scnt := 1, bcore := 0, bquad := 0, bdie := 0, bpkg := 0,
    windows := Vector.replicate 4 [], slots := [], peers := [], energy := 0 }
/-- A card of one logical core with entry VA 0x1000. -/
def loaderCard : Card :=
  { entry := 0x1000, args := 0, scount := 1, slen := 0, nlog := 1, ctrl := 0x400082, fptr := 0, srseed := 0, cmbsrc := 0,
    cmbdst := 0, cmbstr := 0, cmblen := 0, featreq := 0, doneAt := 0, rsvd := 0 }
def loaderJob (h : Nat) : Job :=
  { handle := h, card := loaderCard, footprint := [], st := .active, strips := 1, next := 0, finished := 0, level := 0,
    readySince := none, waitSince := none, heldSince := none, lastGrant := 0, scopeAt := some 0, cores := [0], started := 0,
    lcores := [], ended1 := false, fault := 0, flags := 0, combined := false }

/-- Load a program of one word: start the device, bind context 1 under key 1, map the 2 MiB page at VA 0, and start a job
whose one thread stands at the word. -/
def State.load (s : State) (w : Nat) : State :=
  let base := s.pkg.toNat * 2 ^ 47
  let m := s.msys
  let m := m.store (base + 0x100000) (toBytes 8 (base + 0x400000 + 1)) 0
  let m := m.store (base + 0x400000) (toBytes 8 (base + 0x401000 + 1)) 0
  let m := m.store (base + 0x401000) (toBytes 8 (base + 0x200000 + 0x3F)) 0
  let m := m.store (base + 0x201000) (codeBytes w) 1
  let h := s.nextHandle
  let s := { s with msys := m, started := true, winter := false, accepted := s.accepted ||| 1,
                    contexts := SMap.set s.contexts 1 (loaderContext base), keys := SMap.set s.keys 1 1,
                    jobs := s.jobs ++ [loaderJob h], nextHandle := h + 1, cur := { core := 0, thread := 0 } }
  (s.setCore 0 { s.core 0 with threads := Vector.replicate 4 Thread.zero }).startLcore h 0 0 0

/-- The state whose next step fetches the word at the current thread's PC and runs it, with the feature its encoding needs
accepted; a machine in which no thread can fetch is first loaded with it. -/
def State.placeWord (s : State) (nbits w : Nat) : State :=
  let w := w % 2 ^ nbits % 2 ^ 64
  let s := match s.placeAtPc w with
    | some s => s
    | none => s.load w
  let s := if s.thr.takes then s.setEntered (some s.pc) else s
  { s with accepted := s.accepted ||| BitVec.ofNat 256 (featureNeed (BitVec.ofNat 64 w)), inbox := .run s.cur :: s.inbox }

end Sys2Proof.Machine
end

