-- ==== Sys2Proof/Machine/Step.lean ====
section
/-!
DEFINITION. One step of the machine, and the state whose next step runs a given word.
-/
namespace Sys2Proof.Machine
open Sys2Proof

/-- One step: one turn of one agent (`State.turn`). -/
def step (s : State) : Host.Outcome State Fault Refusal := s.turn

/-- Place the word of a table row where `step` fetches next (`State.placeWord`). -/
def State.withFetchWord (s : State) (nbits w : Nat) : State := s.placeWord nbits w

end Sys2Proof.Machine
end

