-- ==== Sys2Proof/Safety.lean ====
section
/-!
DEFINITION. What counts as a safe run, and the words claims are stated in: a calm thread, the state an instruction leaves
that writes one scalar register, the state in which it ends or traps, and exact values of operands.
-/
namespace Sys2Proof.Machine
open Sys2Proof

-- Safe runs ----------------------------------------------------------------------------------------------------------------

/-- A step is safe when it answers a next state: nothing stops a run (R361 makes every fault a trap). -/
def safe (r : Host.Outcome State Fault Refusal) : Prop := ∃ t, r = .next t

/-- The invariant of memory: its canonical form. -/
def State.Canonical (s : State) : Prop := s.msys.mem.wf = true

/-- What every step keeps: canonical memory, and a legal VLMAX in every core (R119). -/
def State.Legal (s : State) : Prop := s.Canonical ∧ ∀ x ∈ s.cores, x.2.vlmax ∈ ([512, 1024, 2048] : List Nat)

/-- The current thread is one of the four of its core (R13). -/
def State.placed (s : State) : Prop := s.cur.thread < 4

/-- The current thread runs no speculation: no open probe, no copies of its core's registers, nothing held (R312). -/
structure State.Calm (s : State) : Prop where
  placed : s.cur.thread < 4
  file : s.thr.specFile = none
  probes : s.side.probes = []
  held : s.thr.held = []

/-- Taking a trap now is no double trap (R361). -/
def State.open_ (s : State) : Prop := (s.regs.priv && !s.regs.te) = false

-- What an instruction leaves -----------------------------------------------------------------------------------------------

/-- The registers with x in scalar register d, unless that is `s0`, and PC past the word. -/
def ThreadRegs.put (r : ThreadRegs) (d : BitVec 6) (x : Word) : ThreadRegs :=
  { r with s := if d = 0 then r.s else vset r.s d.toNat x, pc := r.pc + 8 }

/-- The state after a member that writes scalar register d and no more. -/
def State.put (s : State) (d : BitVec 6) (x : Word) : State := s.setRegs (s.regs.put d x)

/-- The same with sticky flags raised. -/
def State.putFlags (s : State) (d : BitVec 6) (x : Word) (fl : Flags) : State :=
  s.setRegs { s.regs.put d x with fflg := s.regs.fflg ||| fl }

/-- The state after a member that has changed the state to s and completes: PC past the word, no wait in progress. -/
def State.ended (s : State) : State := s.advance.setEntered none

/-- The state after a synchronous trap of the instruction at PC, which has changed the state to s. -/
def State.trapped (s : State) (code : Nat) (val : Word) : State :=
  (s.setEntered none).enterTrap (Trap.sync code val s.pc)

/-- An instruction of the thread raises a trap of a failed check in state u, after its checks have read some lines (R101, R108): they
change nothing but counts. -/
def trapsAfter (i : Instr) (s u : State) (code : Nat) (val : Word) : Prop :=
  ∃ l, exec i s = .next ((u.performAll s.cur.core (readsOf l)).trapped code val)

/-- A vector register that can be named as a result of a type: two registers for a 64-bit one (R54). -/
def vOk (ty : Ty) (d : BitVec 6) : Prop := d.toNat < (if ty.wide then 31 else 32)

/-- What Table 7.2 requires of a register: run ends that rise strictly to N, codes below P ≤ 256. -/
def VReg.Sound (v : VReg) : Prop :=
  match v.tag with
  | .run => v.p ≤ 2048 ∧ (∀ r, r + 1 < v.p → v.idx r < v.idx (r + 1)) ∧ (if v.p = 0 then v.n = 0 else v.idx (v.p - 1) = v.n)
  | .dict => v.p ≤ 256 ∧ ∀ i, i < v.n → v.idx i % 256 < v.p
  | _ => True

/-- The number of segments of a list of results after coalescing (R84). -/
def segments : List Nat → Nat
  | [] => 0
  | [_] => 1
  | x :: y :: rest => (if x = y then 0 else 1) + segments (y :: rest)

/-- The encoding of a complete result of [VSTART, VL) (Table 7.4, R85, R407), given the results: a tag and its P. An operand counts
with its tag when it is read at its own width, a mask that decides elements as RUN (R86); a restart may keep RUN where d holds the
runs below VSTART, and is PLAIN where it does not (R93). -/
def State.Encodes (s : State) (e : ElemSpec) (rs : List Nat) (v : VReg) : Prop :=
  let counts := fun (t : Ty) (r : BitVec 6) =>
    if t.wide || (s.vreg r.toNat).ty.width != t.width then Tag.plain else (s.vreg r.toNat).tag
  let ops := counts e.ta e.a :: (match e.b with | .vec t r => [counts t r] | _ => [])
    ++ (match e.c with | .dest => [counts e.td e.d] | .mask _ => [.run] | .none => [])
  let masked := e.k != 0 && (List.range s.vl).any (fun i => decide (s.vstart ≤ i) && !(s.kreg e.k.toNat).getLsbD i)
  let src := s.vreg e.a.toNat
  let whole := !masked && s.vstart == 0 && src.n == s.vl
  let plain := v.tag = .plain ∧ v.p = 0
  let runs := fun (fits : Prop) =>
    (s.vstart = 0 → (fits → v.tag = .run ∧ v.p = segments rs) ∧ (¬ fits → plain)) ∧
    (0 < s.vstart → (v.tag = .run ∨ plain) ∧
      (¬ ((s.vreg e.d.toNat).tag = .run ∧ (s.vreg e.d.toNat).n = s.vstart) → plain))
  if s.regs.pln ∨ e.td.isTile ∨ e.td.wide ∨ e.stochastic ∨ e.narrowing ∨ .plain ∈ ops then plain
  else if ∀ t ∈ ops, t = .run then runs (segments rs ≤ s.vlmax)
  else if ops = [.dict] ∧ whole then (if s.vl ≤ s.vlmax then v.tag = .dict ∧ v.p = src.p else plain)
  else if ops = [.delta] ∧ whole ∧ e.delta then (if s.vl ≤ s.vlmax then v.tag = .delta ∧ v.p = 1 else plain)
  else if .delta ∈ ops then plain
  else runs (segments rs ≤ s.vlmax ∧ segments rs * s.regs.rdiv.toNat ≤ s.vl)

/-- No vector register changes but those of a result of type ty at d; masks, accumulators, stationary registers and the
other threads stand. -/
def State.onlyVector (s t : State) (ty : Ty) (d : Nat) : Prop :=
  (∀ r, t.kreg r = s.kreg r) ∧ t.file.acc = s.file.acc ∧ t.file.b = s.file.b ∧
  (∀ r, r ≠ d → (ty.wide = true → r ≠ d + 1) → t.vreg r = s.vreg r) ∧ (∀ h, h ≠ s.cur → t.thread h = s.thread h)

/-- The registers of a completed vector member that writes no scalar register. -/
def ThreadRegs.vectorDone (r : ThreadRegs) : ThreadRegs := { r with pc := r.pc + 8, vstart := 0 }

/-- Every reader receives what it received before, but for the lines of the given spans (address, length). -/
def MemSys.sameBut (m m' : MemSys) (spans : List (Nat × Nat)) : Prop :=
  ∀ a key, (∀ x ∈ spans, a / 64 ∉ linesOf x.1 x.2) → m'.readByte key a = m.readByte key a

/-- A reader under the key of the stores receives what it received before at every byte outside the given spans. -/
def MemSys.sameOutside (m m' : MemSys) (key : BitVec 256) (spans : List (Nat × Nat)) : Prop :=
  ∀ a, (∀ x ∈ spans, a < x.1 ∨ x.1 + x.2 ≤ a) → m'.readByte key a = m.readByte key a

-- Values --------------------------------------------------------------------------------------------------------------------

/-- The low bits of a register that an operand of a type takes. -/
def lowBV (t : Ty) (x : Word) : BitVec t.width := x.setWidth t.width
/-- A result of a type extended to a register: by its sign when the type is signed, else by zeros (R208). -/
def extBV (t : Ty) (x : BitVec t.width) : Word := if t.signed then x.signExtend 64 else x.setWidth 64
/-- The exact value of an operand of an integer type. -/
def valBV (t : Ty) (x : Word) : Int := if t.signed then (lowBV t x).toInt else ((lowBV t x).toNat : Int)
/-- The value of an integer type nearest to an exact one (R69). -/
def clampTo (t : Ty) (x : Int) : Int := max (minOf t) (min (maxOf t) x)

/-- The patterns of +∞ and of the default NaN (R55, R56). -/
def infPattern (t : Ty) : Nat :=
  match t with | .h => 0x7C00 | .bf => 0x7F80 | .d => 0x7FF0000000000000 | _ => 0x7F800000
def nanPattern (t : Ty) : Nat :=
  match t with | .h => 0x7E00 | .bf => 0x7FC0 | .d => 0x7FF8000000000000 | _ => 0x7FC00000
/-- A pattern without its sign bit, and whether it is a NaN (R55). -/
def magBits (t : Ty) (x : BitVec t.width) : Nat := x.toNat % 2 ^ (t.width - 1)
def isNaN (t : Ty) (x : BitVec t.width) : Bool := decide (infPattern t < magBits t x)
/-- The place of a number in the order of its format: by value, with −0 equal to +0, or with −0 just below +0. -/
def floatRank (t : Ty) (zeros : Bool) (x : BitVec t.width) : Int :=
  if x.msb then -(magBits t x : Int) - (if zeros then 1 else 0) else (magBits t x : Int)

-- Rounding (R64, R65, R67, R69) -------------------------------------------------------------------------------------------------

/-- How c · 2^q compares with m · 2^e. -/
def cmpDyadic (c : Nat) (q : Int) (m : Nat) (e : Int) : Ordering :=
  compare (c * 2 ^ (q - min q e).toNat) (m * 2 ^ (e - min q e).toNat)

/-- m is a magnitude in units of 2^q, rounded in a mode; the magnitude is given by how each c · 2^k compares with it (Table 5.6,
R65: the draw h exceeds no fraction of 2^32 that the magnitude reaches above its lower neighbour). -/
def Rounded (mode : RMode) (neg : Bool) (cmp : Nat → Int → Ordering) (q : Int) (m : Nat) (inexact : Bool) : Prop :=
  ∃ lo : Nat, cmp lo q ≠ .gt ∧ cmp (lo + 1) q = .gt ∧ inexact = (cmp lo q != .eq) ∧
    let half := cmp (2 * lo + 1) (q - 1)
    let up : Bool := match mode with
      | .rne => half == .lt || (half == .eq && lo % 2 == 1)
      | .rtz => false
      | .rdn => neg
      | .rup => !neg
      | .rna => half != .gt
      | .sr h => cmp (lo * 2 ^ 32 + h + 1) (q - 32) != .gt
    m = lo + (if inexact && up then 1 else 0)

/-- A pattern of a format holds (−1)^neg · m · 2^q. -/
def Fmt.holds (f : Fmt) (bits : Nat) (neg : Bool) (m : Nat) (q : Int) : Prop :=
  bits < 2 ^ f.w ∧ ∃ m' e', f.decode bits = .fin neg m' e' ∧ cmpDyadic m' e' m q = .eq

/-- A result is a non-zero magnitude with a sign, rounded once to a format: to the last place of its precision, not below that
of the subnormals; beyond the largest finite value as R67 says, or clamped and marked as R69 says when the conversion narrows;
flushed under FRM.FZ; NX for an inexact result, and UF for one that is tiny after rounding (R64, R271). -/
def FRes.RoundsOnce (r : FRes) (f : Fmt) (cmp : Nat → Int → Ordering) (neg : Bool) (mode : RMode) (fz narrowing : Bool)
    (fl : Flags) : Prop :=
  ∃ (q : Int) (m : Nat) (inexact : Bool),
    f.qmin ≤ q ∧ cmp (2 ^ f.p) q = .gt ∧ (q = f.qmin ∨ cmp (2 ^ (f.p - 1)) q ≠ .gt) ∧ Rounded mode neg cmp q m inexact ∧
    if cmpDyadic m q 1 (f.p + f.qmax) ≠ .lt then
      if narrowing then f.holds r.bits neg (2 ^ f.p - 1) f.qmax ∧ r.flags = fl ||| flSAT ||| flNX ∧ r.mark = true
      else
        (if mode = .rtz ∨ (mode = .rdn ∧ neg = false) ∨ (mode = .rup ∧ neg = true) then f.holds r.bits neg (2 ^ f.p - 1) f.qmax
         else r.bits < 2 ^ f.w ∧ f.decode r.bits = .inf neg) ∧ r.flags = fl ||| flOF ||| flNX ∧ r.mark = false
    else r.mark = false ∧
      if fz = true ∧ 0 < m ∧ m < 2 ^ (f.p - 1) then f.holds r.bits neg 0 q ∧ r.flags = fl ||| flUF ||| flNX
      else f.holds r.bits neg m q ∧ ∃ tiny : Bool,
        (tiny = true ↔ ∃ (k : Int) (n : Nat) (x : Bool), cmp (2 ^ f.p) k = .gt ∧ cmp (2 ^ (f.p - 1)) k ≠ .gt ∧
          Rounded mode neg cmp k n x ∧ cmpDyadic n k 1 (f.p - 1 + f.qmin) = .lt) ∧
        r.flags = fl ||| (if inexact then flNX else 0) ||| (if inexact && tiny then flUF else 0)

/-- A result is the sum of two finite values, rounded once; a zero sum takes the sign of R71. -/
def FRes.IsSum (r : FRes) (f : Fmt) (s : Bool) (m : Nat) (e : Int) (t : Bool) (n : Nat) (d : Int) (mode : RMode) (fz : Bool)
    (fl : Flags) : Prop :=
  let q := min e d
  let x : Int := (if s then -1 else 1) * (m * 2 ^ (e - q).toNat : Nat) + (if t then -1 else 1) * (n * 2 ^ (d - q).toNat : Nat)
  (x ≠ 0 → r.RoundsOnce f (fun c k => cmpDyadic c k x.natAbs q) (decide (x < 0)) mode fz false fl) ∧
  (x = 0 → f.holds r.bits (if m = 0 ∧ n = 0 then (if mode = .rdn then s || t else s && t) else decide (mode = .rdn)) 0 0 ∧
    r.flags = fl)

-- Quantisation (R73, R74) --------------------------------------------------------------------------------------------------------

/-- roundcode: a code of y = (−1)^neg · m · 2^e in a mode, and whether it differs from y. A code type that is no integer takes the
neighbour in its value set; of a tie, in `.rne`, the code whose low bits are even. -/
def RoundsToCode (four : Bool) (ct : Nat) (mode : RMode) (neg : Bool) (m : Nat) (e : Int) (code : Nat) (inexact : Bool) : Prop :=
  let w := if four then 4 else 8
  if ct = 0 then
    ∃ n : Nat, Rounded mode neg (fun c q => cmpDyadic c q m e) 0 n inexact ∧
      code = (BitVec.ofInt w (if neg then -(n : Int) else n)).toNat
  else ∃ (lo n : Nat) (d : Int) (up : Bool), codeVal four ct lo = .fin false n d ∧
    code = lo + (if up then 1 else 0) + (if neg then 2 ^ (w - 1) else 0) ∧
    if cmpDyadic n d m e = .eq then inexact = false ∧ up = false
    else inexact = true ∧ ∃ (k : Nat) (b : Int), codeVal four ct (lo + 1) = .fin false k b ∧
      let q := min (min d b) e
      let low := n * 2 ^ (d - q).toNat
      let high := k * 2 ^ (b - q).toNat
      let y := m * 2 ^ (e - q).toNat
      low < y ∧ y < high ∧ up = (match mode with
        | .rne => decide (low + high < 2 * y) || (decide (low + high = 2 * y) && lo % 2 == 1)
        | .rna => decide (low + high ≤ 2 * y)
        | .rtz => false
        | .rdn => neg
        | .rup => !neg
        | .sr h => decide (h < 2 ^ 32 * (y - low) / (high - low)))

/-- A header and a payload that quantise a block of 256 values, read under FRM.FZ already, and the flags that this raises (R73,
Tables 5.5 and 5.11, R60). -/
def Quantised (four : Bool) (ct : Nat) (x : Nat → FVal) (mode : Nat → RMode) (version : Nat) (h p : List Byte) (g : Flags) : Prop :=
  let cmax := if four then [7, 6, 8, 16].getD ct 0 else [127, 448, 57344].getD ct 0
  let fmt := (h.getD 0 0).toNat
  let exp := (h.getD 1 0).toNat
  let r := fun (i : Nat) => natAt h 2 4 / 4 ^ i % 4
  let c := fun (j : Nat) => natAt h 6 4 / 4 ^ j % 4
  let code := fun (n : Nat) => if four then (p.getD (n / 2) 0).toNat / (if n % 2 = 0 then 1 else 16) % 16 else (p.getD n 0).toNat
  let some_ := fun (f : FVal → Bool) => (List.range 256).any (fun n => f (x n))
  let infinite := fun (v : FVal) => match v with | .inf _ => true | _ => false
  h.length = 16 ∧ p.length = (if four then 128 else 256) ∧ fmt % 16 = ct + (if four then 0 else 4) ∧
  natAt h 10 2 = version % 65536 ∧ natAt h 12 4 = 0 ∧
  if some_ FVal.isNan || some_ infinite then
    exp = 255 ∧ fmt / 16 = 2 ∧ natAt h 2 8 = 0 ∧ (∀ n, n < 256 → code n = if four then 7 else 127) ∧
    g = (if some_ FVal.isNan then flINV else 0) ||| (if some_ infinite then flOF else 0)
  else if !some_ (fun v => !v.isZero) then
    exp = 127 ∧ fmt / 16 = 0 ∧ natAt h 2 8 = 0 ∧ (∀ n, n < 256 → code n = 0) ∧ g = 0
  else
    let fits := fun (n : Nat) (k : Int) => cmpDyadic (x n).mag.1 ((x n).mag.2 + k) cmax 0 ≠ .gt
    let base : Int := 127 - exp
    (∀ n, n < 256 → fits n base) ∧ (0 < exp → ∃ n, n < 256 ∧ ¬ fits n (base + 1)) ∧
    (∀ i, i < 16 → (∀ j, j < 16 → fits (16 * i + j) (base + r i)) ∧
      (r i < 3 → ∃ j, j < 16 ∧ ¬ fits (16 * i + j) (base + r i + 1))) ∧
    (∀ j, j < 16 → (∀ i, i < 16 → fits (16 * i + j) (base + r i + c j)) ∧
      (c j < 3 → ∃ i, i < 16 ∧ ¬ fits (16 * i + j) (base + r i + c j + 1))) ∧
    fmt / 16 = (if natAt h 2 8 = 0 then 0 else 1) ∧
    ∃ inexact : Nat → Bool,
      (∀ n, n < 256 → RoundsToCode four ct (mode n) (x n).sign (x n).mag.1 ((x n).mag.2 + base + r (n / 16) + c (n % 16)) (code n)
        (inexact n)) ∧
      ∃ under : Bool, (under = true ↔ exp = 0 ∧ ∀ n, n < 256 → fits n (base + 1)) ∧
        g = (if under then flUF else 0) ||| (if (List.range 256).any inexact then flNX else 0)

-- K-groups (R71, R72, R75) -----------------------------------------------------------------------------------------------------

/-- A result is the exact sum of finite values, rounded once to a format in `.rne`; a sum of zeros is −0 where every one of them is,
and any other zero is +0 (R71). -/
def FRes.IsSumOf (r : FRes) (f : Fmt) (l : List FVal) : Prop :=
  ∃ q : Int, (∀ s m e, FVal.fin s m e ∈ l → q ≤ e) ∧
    let x : Int := (l.map (fun v => match v with
      | .fin s m e => (if s then -1 else 1) * (m * 2 ^ (e - q).toNat : Nat) | _ => (0 : Int))).sum
    (x ≠ 0 → r.RoundsOnce f (fun c k => cmpDyadic c k x.natAbs q) (decide (x < 0)) .rne false false 0) ∧
    (x = 0 → f.holds r.bits (l.all (fun v => match v with | .fin true 0 _ => true | _ => false)) 0 0 ∧ r.flags = 0)

/-- An accumulator takes the sum of 16 products, exact and rounded once to W80 in `.rne`, with its flags: a factor that is a NaN, a
zero that meets an infinity, and infinities of both signs give the default NaN; a zero that meets an infinity or a NaN, and
infinities of both signs, raise INV; a sum beyond the largest value raises OF (R72, R75). -/
def GroupStep (a b : Nat → FVal) (acc new : BitVec 80) (fl : Flags) : Prop :=
  let product := fun (i : Nat) => match a i, b i with
    | .fin s m e, .fin t n d => FVal.fin (s != t) (m * n) (e + d)
    | .inf s, .fin t m _ => if m = 0 then .nan else .inf (s != t)
    | .fin s m _, .inf t => if m = 0 then .nan else .inf (s != t)
    | .inf s, .inf t => .inf (s != t)
    | _, _ => .nan
  let l := (List.range 16).map product
  let skipped := (List.range 16).any (fun i => match a i, b i with
    | .fin _ 0 _, .inf _ | .fin _ 0 _, .nan | .inf _, .fin _ 0 _ | .nan, .fin _ 0 _ => true
    | _, _ => false)
  let both := l.contains (.inf false) && l.contains (.inf true)
  let old := fmtW80.decode acc.toNat
  let nan := new = BitVec.ofNat 80 (0x7FFF * 2 ^ 64 + 0xC000000000000000)
  let inf := fun (s : Bool) => fmtW80.decode new.toNat = .inf s
  if both || l.contains .nan || old == .nan then nan ∧ fl = if both || skipped then flINV else 0
  else if l.contains (.inf false) || l.contains (.inf true) then
    let s := l.contains (.inf true)
    if old = .inf (!s) then nan ∧ fl = flINV else inf s ∧ fl = 0
  else match old with
    | .inf s => inf s ∧ fl = 0
    | _ => ∃ r : FRes, r.IsSumOf fmtW80 (old :: l) ∧ new = BitVec.ofNat 80 r.bits ∧ fl = r.flags &&& flOF

-- A-clocks (R377) --------------------------------------------------------------------------------------------------------------

/-- A quad after its next n edges, its cores having these lanes. -/
def Quad.after (lanes : Nat → Nat) (q : Quad) : Nat → Quad
  | 0 => q
  | n + 1 => (q.after lanes n).edge lanes

-- The canonical tree (R76) -------------------------------------------------------------------------------------------------------

/-- The node over the 2^depth leaves from leaf i on. -/
def treeNode (op : TreeOp) (leaf : Nat → Node) : Nat → Nat → Node
  | 0, i => leaf i
  | depth + 1, i => op.node (treeNode op leaf depth i) (treeNode op leaf depth (i + 2 ^ depth))

end Sys2Proof.Machine
end

