-- ==== Sys2Proof/Certificates/Slice0/Obligations.lean ====
section
/-!
DEFINITION. The statements for the provers. Each names the rule of spec/ it rests on; a clause that rests on a choice of the
model names the log entry.
-/
open Sys2Proof Sys2Proof.Machine

-- INT3, INTI, LI, LEA ------------------------------------------------------------------------------------------------------

/-- R208, Table 17.2: with Q[0] = 0, `add`, `sub` and `mul` write the low w bits of the exact result, extended as TY says,
and change nothing else but PC. -/
def Obligations.WrappingArithmeticWritesLowBits : Prop :=
  ∀ (f : W3) (s : State), s.placed → f.ty.isInt = true → f.q.getLsbD 0 = false →
    exec (.add f) s = .next (s.put f.d (extBV f.ty (lowBV f.ty (s.getS f.a) + lowBV f.ty (s.getS f.b)))) ∧
    exec (.sub f) s = .next (s.put f.d (extBV f.ty (lowBV f.ty (s.getS f.a) - lowBV f.ty (s.getS f.b)))) ∧
    exec (.mul f) s = .next (s.put f.d (extBV f.ty (lowBV f.ty (s.getS f.a) * lowBV f.ty (s.getS f.b))))

/-- R208, R69: with Q[0] = 1, `add`, `sub`, `mul` and `div` write the limit of the type nearest to the exact result, with
FFLG.SAT and FFLG.NX when it differs from the result, and mark no mask. -/
def Obligations.SaturatingArithmeticClamps : Prop :=
  ∀ (f : W3) (s : State), s.placed → f.ty.isInt = true → f.q.getLsbD 0 = true →
    let a := valBV f.ty (s.getS f.a)
    let b := valBV f.ty (s.getS f.b)
    let clamped := fun (r : Int) =>
      s.putFlags f.d (BitVec.ofInt 64 (clampTo f.ty r)) (if clampTo f.ty r = r then 0 else flSAT ||| flNX)
    exec (.add f) s = .next (clamped (a + b)) ∧
    exec (.sub f) s = .next (clamped (a - b)) ∧
    exec (.mul f) s = .next (clamped (a * b)) ∧
    (f.ty.signed = true → b ≠ 0 → exec (.div f) s = .next (clamped (a.tdiv b)))

/-- R209: `div` and `rem` of a signed type, `divn` and `remn` of an unsigned one: the quotient truncated towards zero and its
remainder; all ones and a for b = 0. None of them raises a trap, and none a flag, but `div.sat` of the most negative number by −1,
which gives the largest number with FFLG.SAT and FFLG.NX; without `.sat` that quotient wraps and its remainder is 0. -/
def Obligations.DivisionNeverTraps : Prop :=
  (∀ (f : W3) (s : State), s.placed → f.ty.signed = true → f.q.getLsbD 0 = true →
    let a := lowBV f.ty (s.getS f.a)
    let b := lowBV f.ty (s.getS f.b)
    (b = 0 → exec (.div f) s = .next (s.putFlags f.d (BitVec.allOnes 64) 0)) ∧
    (a = BitVec.intMin f.ty.width → b = BitVec.allOnes f.ty.width →
      exec (.div f) s = .next (s.putFlags f.d (BitVec.ofInt 64 (maxOf f.ty)) (flSAT ||| flNX))) ∧
    (b ≠ 0 → ¬ (a = BitVec.intMin f.ty.width ∧ b = BitVec.allOnes f.ty.width) →
      exec (.div f) s = .next (s.putFlags f.d (extBV f.ty (a.sdiv b)) 0))) ∧
  ∀ (f : W3) (s : State), s.placed → f.q = 0 →
    let a := lowBV f.ty (s.getS f.a)
    let b := lowBV f.ty (s.getS f.b)
    (f.ty.signed = true →
      exec (.div f) s = .next (s.put f.d (extBV f.ty (if b = 0 then BitVec.allOnes _ else a.sdiv b))) ∧
      exec (.rem f) s = .next (s.put f.d (extBV f.ty (if b = 0 then a else a.srem b)))) ∧
    (f.ty.unsigned = true →
      exec (.divn f) s = .next (s.put f.d (extBV f.ty (if b = 0 then BitVec.allOnes _ else a / b))) ∧
      exec (.remn f) s = .next (s.put f.d (extBV f.ty (if b = 0 then a else a % b))))

/-- Table 17.2: the bitwise members, the shifts and the rotate, whose amount is B mod w. -/
def Obligations.BitwiseAndShiftMembers : Prop :=
  ∀ (f : W3) (s : State), s.placed → f.ty.isInt = true → f.q = 0 →
    let a := lowBV f.ty (s.getS f.a)
    let b := lowBV f.ty (s.getS f.b)
    let n := (s.getS f.b).toNat % f.ty.width
    exec (.and f) s = .next (s.put f.d (extBV f.ty (a &&& b))) ∧
    exec (.or f) s = .next (s.put f.d (extBV f.ty (a ||| b))) ∧
    exec (.xor f) s = .next (s.put f.d (extBV f.ty (a ^^^ b))) ∧
    exec (.andn f) s = .next (s.put f.d (extBV f.ty (a &&& ~~~b))) ∧
    exec (.orn f) s = .next (s.put f.d (extBV f.ty (a ||| ~~~b))) ∧
    exec (.shl f) s = .next (s.put f.d (extBV f.ty (a <<< n))) ∧
    (f.ty.unsigned = true → exec (.shr f) s = .next (s.put f.d (extBV f.ty (a >>> n)))) ∧
    (f.ty.signed = true → exec (.sra f) s = .next (s.put f.d (extBV f.ty (a.sshiftRight n)))) ∧
    exec (.rot f) s = .next (s.put f.d (extBV f.ty (a.rotateLeft n)))

/-- Table 17.2: the high half of a product, the smaller and the larger operand, the comparisons and the selection. -/
def Obligations.HighHalfCompareAndSelect : Prop :=
  ∀ (f : W3) (s : State), s.placed → f.q = 0 →
    let t := f.ty
    let a := valBV t (s.getS f.a)
    let b := valBV t (s.getS f.b)
    let truth := fun (p : Bool) => s.put f.d (if p then 1 else 0)
    (t.signed = true →
      exec (.mulh f) s = .next (s.put f.d (BitVec.ofInt 64 (a * b / 2 ^ t.width))) ∧
      exec (.min f) s = .next (s.put f.d (BitVec.ofInt 64 (min a b))) ∧
      exec (.max f) s = .next (s.put f.d (BitVec.ofInt 64 (max a b))) ∧
      exec (.slt f) s = .next (truth (decide (a < b)))) ∧
    (t.unsigned = true →
      exec (.mulhn f) s = .next (s.put f.d (BitVec.ofInt 64 (a * b / 2 ^ t.width))) ∧
      exec (.minn f) s = .next (s.put f.d (BitVec.ofInt 64 (min a b))) ∧
      exec (.maxn f) s = .next (s.put f.d (BitVec.ofInt 64 (max a b))) ∧
      exec (.sltn f) s = .next (truth (decide (a < b)))) ∧
    (t.isInt = true →
      exec (.seq f) s = .next (truth (decide (a = b))) ∧
      exec (.sel f) s = .next (s.put f.d (extBV t (if lowBV t (s.getS f.c) ≠ 0 then lowBV t (s.getS f.a)
        else lowBV t (s.getS f.b)))))

/-- Table 17.2, R210: counts of bits, bytes in reverse order, and the bit fields. Each member's result is stated by the bits
it must have. -/
def Obligations.CountsReversalAndBitFields : Prop :=
  ∀ (f : W3) (s : State), s.placed → f.ty.isInt = true → f.q = 0 →
    let w := f.ty.width
    let a := s.getS f.a
    (∃ n : Nat, exec (.clz f) s = .next (s.put f.d (BitVec.ofNat 64 n)) ∧ n ≤ w ∧
      (∀ i, w - n ≤ i → i < w → a.getLsbD i = false) ∧ (n < w → a.getLsbD (w - 1 - n) = true)) ∧
    (∃ n : Nat, exec (.ctz f) s = .next (s.put f.d (BitVec.ofNat 64 n)) ∧ n ≤ w ∧
      (∀ i, i < n → a.getLsbD i = false) ∧ (n < w → a.getLsbD n = true)) ∧
    exec (.popc f) s = .next (s.put f.d (BitVec.ofNat 64 ((List.range w).countP (fun i => a.getLsbD i)))) ∧
    (∃ r : BitVec f.ty.width, exec (.bswap f) s = .next (s.put f.d (extBV f.ty r)) ∧
      ∀ i, i < w → r.getLsbD i = a.getLsbD (w - 8 - i / 8 * 8 + i % 8)) ∧
    (WellFormed (.bext f) = true → ∃ r : Word, exec (.bext f) s = .next (s.put f.d r) ∧
      ∀ i, i < 64 → r.getLsbD i =
        if i < f.immBits 12 6 then a.getLsbD (f.immBits 5 0 + i)
        else f.ty.signed && a.getLsbD (f.immBits 5 0 + f.immBits 12 6 - 1)) ∧
    (WellFormed (.bins f) = true → ∃ r : Word, exec (.bins f) s = .next (s.put f.d r) ∧
      ∀ i, i < 64 → r.getLsbD i =
        if f.immBits 5 0 ≤ i ∧ i < f.immBits 5 0 + f.immBits 12 6 then a.getLsbD (i - f.immBits 5 0)
        else (s.getS f.d).getLsbD i)

/-- R212, R213, R214: the immediate members compute at 64 bits with imm = sext(IMM32, 32), the shifts with IMM32[5:0]; `li`,
`lih` and `lea`. -/
def Obligations.ImmediateMembersComputeAt64Bits : Prop :=
  (∀ (f : WI) (s : State), s.placed →
    let a := s.getS f.a
    let m := f.imm.signExtend 64
    let n := (f.imm.extractLsb' 0 6).toNat
    exec (.addi f) s = .next (s.put f.d (a + m)) ∧ exec (.andi f) s = .next (s.put f.d (a &&& m)) ∧
    exec (.ori f) s = .next (s.put f.d (a ||| m)) ∧ exec (.xori f) s = .next (s.put f.d (a ^^^ m)) ∧
    exec (.shli f) s = .next (s.put f.d (a <<< n)) ∧ exec (.shri f) s = .next (s.put f.d (a >>> n)) ∧
    exec (.srai f) s = .next (s.put f.d (a.sshiftRight n)) ∧ exec (.roti f) s = .next (s.put f.d (a.rotateLeft n)) ∧
    exec (.slti f) s = .next (s.put f.d (if a.toInt < m.toInt then 1 else 0)) ∧
    exec (.sltni f) s = .next (s.put f.d (if a.toNat < m.toNat then 1 else 0)) ∧
    exec (.mini f) s = .next (s.put f.d (if a.toInt < m.toInt then a else m)) ∧
    exec (.maxi f) s = .next (s.put f.d (if a.toInt < m.toInt then m else a)) ∧
    exec (.li f) s = .next (s.put f.d m) ∧
    exec (.lih f) s = .next (s.put f.d (f.imm ++ (s.getS f.d).setWidth 32 : BitVec 64))) ∧
  (∀ (f : W3) (s : State), s.placed →
    exec (.lea f) s = .next (s.put f.d (s.getS f.a + (s.getS f.b <<< (f.imm.extractLsb' 12 2).toNat)
      + (f.imm.extractLsb' 0 12).signExtend 64)))

/-- Table 13.10: a write of scalar register d leaves d holding the value, or discards it when d is `s0`, which reads 0; no
other scalar register, no other register of the thread, no other thread, no register file and no byte of memory changes. -/
def Obligations.ScalarWriteFrame : Prop :=
  ∀ (s : State) (d : BitVec 6) (x : Word), s.placed →
    let t := s.put d x
    (∀ r, t.getS r = if r = 0 then 0 else if r = d then x else s.getS r) ∧
    t.pc = s.pc + 8 ∧ t.regs = { s.regs with s := t.regs.s, pc := t.regs.pc } ∧
    t.thr = { s.thr with regs := t.regs } ∧ (∀ h, h ≠ s.cur → t.thread h = s.thread h) ∧
    (∀ c, t.core c = { s.core c with threads := (t.core c).threads }) ∧
    (∀ a, t.msys.mem.read a = s.msys.mem.read a) ∧ { t with cores := s.cores } = s

-- FLT3 -----------------------------------------------------------------------------------------------------------------------

/-- R215: `fadd`, `fsub`, `fmul`, `ffma`, `fdiv` and `fsqrt` take the low w bits of their registers, round the exact result
once in the mode Q names, write it zero-extended and raise its flags; nothing else changes but PC. R268: the VFLT members that round
do the same with each element, in the mode of the element's index.
R64, R67, R71, Table 5.6: of finite operands, the sum, the difference, the product, the fused multiply-add, the quotient and the
square root are the exact value rounded once in each mode; a zero sum or product has the sign of R71; a quotient by zero is an
infinity with FFLG.DZ, 0 / 0 and the root of a value below −0 the default NaN with FFLG.INV.
R64: the same of rcp and rsqrt, and of exp2 and log2 where these are exact (an integer, a power of two), with their special cases:
log2(±0) is −∞, rcp(±0) and rsqrt(±0) are ±∞ with FFLG.DZ, log2 and rsqrt of a value below −0 the default NaN with FFLG.INV.
R56: of infinite operands, ∞ − ∞, 0 × ∞ and ∞ / ∞ are the default NaN with FFLG.INV and the rest infinities or zeros; a NaN raises
nothing. Table 5.7, R55: an operand is read as its bits say, a subnormal one of `.h`, `.bf` or `.f` under FRM.FZ as zero with
FFLG.UF. -/
def Obligations.FloatMembersRoundOnce : Prop :=
  (∀ (f : W3) (s : State), s.placed → f.ty.isFloat = true →
    let arg := fun (r : BitVec 6) => readFloat f.ty s.regs.frmFz (lowBV f.ty (s.getS r)).toNat
    let one := fun (op : FOp) (x y z : FVal × Flags) =>
      let r := floatOp (fmtOf f.ty) op x.1 y.1 z.1 (s.regs.mode f.q.toNat 0) (s.regs.frmFz && f.ty.isVFloat) (x.2 ||| y.2 ||| z.2)
      s.putFlags f.d (BitVec.ofNat 64 r.bits) r.flags
    let zero : FVal × Flags := (.fin false 0 0, 0)
    exec (.fadd f) s = .next (one .add (arg f.a) (arg f.b) zero) ∧
    exec (.fsub f) s = .next (one .sub (arg f.a) (arg f.b) zero) ∧
    exec (.fmul f) s = .next (one .mul (arg f.a) (arg f.b) zero) ∧
    exec (.ffma f) s = .next (one .fma (arg f.a) (arg f.b) (arg f.d)) ∧
    exec (.fdiv f) s = .next (one .div (arg f.a) (arg f.b) zero) ∧
    exec (.fsqrt f) s = .next (one .sqrt (arg f.a) zero zero)) ∧
  (∀ (f : W3) (r : ThreadRegs) (i a b c : Nat), f.ty.isVFloat = true →
    let arg := fun (n : Nat) => readFloat f.ty r.frmFz n
    let one := fun (op : FOp) (x y z : FVal × Flags) =>
      floatOp (fmtOf f.ty) op x.1 y.1 z.1 (r.mode f.q.toNat i) r.frmFz (x.2 ||| y.2 ||| z.2)
    let zero : FVal × Flags := (.fin false 0 0, 0)
    (∀ x ∈ [(specVfadd r f, FOp.add), (specVfsub r f, .sub), (specVfmul r f, .mul), (specVfdiv r f, .div)],
      x.1.fn i a b c = one x.2 (arg a) (arg b) zero) ∧
    (∀ x ∈ [(specVffma r f, FOp.fma), (specVffms r f, .fms), (specVfnma r f, .fnma)],
      x.1.fn i a b c = one x.2 (arg a) (arg b) (arg c)) ∧
    (∀ x ∈ [(specVfsqrt r f, FOp.sqrt), (specVfrcp r f, .rcp), (specVfrsqrt r f, .rsqrt), (specVfexp2 r f, .exp2),
        (specVflog2 r f, .log2)],
      x.1.fn i a b c = one x.2 (arg a) zero zero)) ∧
  (∀ (ty : Ty) (s t u : Bool) (m n k : Nat) (e d g : Int) (z : FVal) (mode : RMode) (fz : Bool) (fl : Flags), ty.isFloat = true →
    let f := fmtOf ty
    let x := FVal.fin s m e
    let y := FVal.fin t n d
    let of := fun (op : FOp) => floatOp f op x y z mode fz fl
    (of .add).IsSum f s m e t n d mode fz fl ∧ (of .sub).IsSum f s m e (!t) n d mode fz fl ∧
    (floatOp f .fma x y (.fin u k g) mode fz fl).IsSum f (s != t) (m * n) (e + d) u k g mode fz fl ∧
    (0 < m * n → (of .mul).RoundsOnce f (fun c q => cmpDyadic c q (m * n) (e + d)) (s != t) mode fz false fl) ∧
    (m * n = 0 → f.holds (of .mul).bits (s != t) 0 0 ∧ (of .mul).flags = fl) ∧
    (0 < m → 0 < n → (of .div).RoundsOnce f (fun c q => cmpDyadic (c * n) (q + d) m e) (s != t) mode fz false fl) ∧
    (m = 0 → 0 < n → f.holds (of .div).bits (s != t) 0 0 ∧ (of .div).flags = fl) ∧
    (0 < m → n = 0 → (of .div).bits < 2 ^ f.w ∧ f.decode (of .div).bits = .inf (s != t) ∧ (of .div).flags = fl ||| flDZ) ∧
    (m = 0 → n = 0 → (of .div).bits = nanPattern ty ∧ (of .div).flags = fl ||| flINV) ∧
    (0 < m → s = false → (of .sqrt).RoundsOnce f (fun c q => cmpDyadic (c * c) (2 * q) m e) false mode fz false fl) ∧
    (m = 0 → f.holds (of .sqrt).bits s 0 0 ∧ (of .sqrt).flags = fl) ∧
    (0 < m → s = true → (of .sqrt).bits = nanPattern ty ∧ (of .sqrt).flags = fl ||| flINV)) ∧
  (∀ (ty : Ty) (v z w : FVal) (mode : RMode) (fz : Bool) (fl : Flags), ty.isFloat = true →
    let f := fmtOf ty
    let of := fun (op : FOp) => floatOp f op v z w mode fz fl
    let nan := fun (r : FRes) (g : Flags) => r.bits = nanPattern ty ∧ r.flags = fl ||| g
    let inf := fun (r : FRes) (s : Bool) (g : Flags) => r.bits < 2 ^ f.w ∧ f.decode r.bits = .inf s ∧ r.flags = fl ||| g
    let zero := fun (r : FRes) (s : Bool) => f.holds r.bits s 0 0 ∧ r.flags = fl
    (match v with
      | .nan => nan (of .sqrt) 0 ∧ nan (of .rcp) 0 ∧ nan (of .rsqrt) 0 ∧ nan (of .exp2) 0 ∧ nan (of .log2) 0
      | .inf s => zero (of .rcp) s ∧
        (if s then nan (of .sqrt) flINV ∧ nan (of .rsqrt) flINV ∧ nan (of .log2) flINV ∧ zero (of .exp2) false
         else inf (of .sqrt) false 0 ∧ zero (of .rsqrt) false ∧ inf (of .log2) false 0 ∧ inf (of .exp2) false 0)
      | .fin s m e =>
        (m = 0 → inf (of .rcp) s flDZ ∧ inf (of .rsqrt) s flDZ ∧ inf (of .log2) true flDZ ∧
          f.holds (of .exp2).bits false 1 0 ∧ (of .exp2).flags = fl) ∧
        (0 < m → (of .rcp).RoundsOnce f (fun c q => cmpDyadic (c * m) (q + e) 1 0) s mode fz false fl ∧
          (s = false → (of .rsqrt).RoundsOnce f (fun c q => cmpDyadic (c * c * m) (2 * q + e) 1 0) false mode fz false fl) ∧
          (s = true → nan (of .rsqrt) flINV ∧ nan (of .log2) flINV) ∧
          (∀ j : Nat, m = 2 ^ j → s = false →
            let k := (j : Int) + e
            (k = 0 → zero (of .log2) false) ∧
            (k ≠ 0 → (of .log2).RoundsOnce f (fun c q => cmpDyadic c q k.natAbs 0) (decide (k < 0)) mode fz false fl)) ∧
          (0 ≤ e →
            let k : Int := (if s then -1 else 1) * (m * 2 ^ e.toNat : Nat)
            (of .exp2).RoundsOnce f (fun c q => cmpDyadic c q 1 k) false mode fz false fl))) ∧
    (match v, z with
      | .inf s, .inf t => (if s = t then inf (of .add) s 0 ∧ nan (of .sub) flINV else nan (of .add) flINV ∧ inf (of .sub) s 0) ∧
          inf (of .mul) (s != t) 0 ∧ nan (of .div) flINV
      | .inf s, .fin t m _ => inf (of .add) s 0 ∧ inf (of .sub) s 0 ∧ inf (of .div) (s != t) 0 ∧
          (if m = 0 then nan (of .mul) flINV else inf (of .mul) (s != t) 0)
      | .fin s m _, .inf t => inf (of .add) t 0 ∧ inf (of .sub) (!t) 0 ∧ zero (of .div) (s != t) ∧
          (if m = 0 then nan (of .mul) flINV else inf (of .mul) (s != t) 0)
      | .fin _ _ _, .fin _ _ _ => True
      | _, _ => nan (of .add) 0 ∧ nan (of .sub) 0 ∧ nan (of .mul) 0 ∧ nan (of .div) 0) ∧
    (let onto := fun (p : Bool) => match w with
       | .inf u => if u = p then inf (of .fma) u 0 else nan (of .fma) flINV
       | .fin _ _ _ => inf (of .fma) p 0
       | .nan => nan (of .fma) 0
     match v, z with
      | .inf s, .inf t => onto (s != t)
      | .inf s, .fin t m _ => (0 < m → onto (s != t)) ∧ (m = 0 → w ≠ .nan → nan (of .fma) flINV)
      | .fin s m _, .inf t => (0 < m → onto (s != t)) ∧ (m = 0 → w ≠ .nan → nan (of .fma) flINV)
      | .fin _ _ _, .fin _ _ _ => ∀ u, w = .inf u → inf (of .fma) u 0
      | _, _ => nan (of .fma) 0)) ∧
  (∀ (ty : Ty) (fz : Bool) (b : BitVec ty.width), ty.isFloat = true →
    let f := fmtOf ty
    let m := magBits ty b
    let fr := m % 2 ^ (f.p - 1)
    let ex := m / 2 ^ (f.p - 1)
    (f.p, f.qmin, f.qmax) = (match ty with
      | .h => (11, -24, 5) | .bf => (8, -133, 120) | .d => (53, -1074, 971) | _ => (24, -149, 104)) ∧
    readFloat ty fz b.toNat =
      if infPattern ty < m then (.nan, 0) else if m = infPattern ty then (.inf b.msb, 0)
      else if ex ≠ 0 then (.fin b.msb (fr + 2 ^ (f.p - 1)) (f.qmin + (ex - 1)), 0)
      else if fz && ty.isVFloat && fr != 0 then (.fin b.msb 0 f.qmin, flUF) else (.fin b.msb fr f.qmin, 0))

/-- R56: a NaN operand of `fadd`, `fsub`, `fmul`, `ffma`, `fdiv` or `fsqrt` gives the default NaN of the type. With FRM.FZ
= 0 a NaN factor, addend of `fadd`, or divisor raises no flag; beside a NaN third operand of `ffma` an invalid product may. -/
def Obligations.NanOperandGivesDefaultNan : Prop :=
  ∀ (f : W3) (s : State), s.placed → f.ty.isFloat = true → s.regs.frmFz = false →
    let nan := fun (r : BitVec 6) => isNaN f.ty (lowBV f.ty (s.getS r))
    let quiet := s.put f.d (BitVec.ofNat 64 (nanPattern f.ty))
    ((nan f.a || nan f.b) = true →
      exec (.fadd f) s = .next quiet ∧ exec (.fsub f) s = .next quiet ∧ exec (.fmul f) s = .next quiet ∧
      exec (.fdiv f) s = .next quiet ∧ exec (.ffma f) s = .next quiet) ∧
    (nan f.d = true → ∃ fl, exec (.ffma f) s = .next (s.putFlags f.d (BitVec.ofNat 64 (nanPattern f.ty)) fl)) ∧
    (nan f.a = true → exec (.fsqrt f) s = .next quiet)

/-- R77 for `fmin` and `fmax`, with FRM.FZ = 0: −0 orders below +0, a NaN gives way to the other operand, two NaNs give the
default NaN, and no flag is raised.
R216 and Table 17.5, with FRM.FZ = 0: `fcmp` compares as values with −0 equal to +0, only `.ne` and `.un` hold with a NaN;
`fabs` clears and `fneg` inverts the sign, a NaN giving the default NaN; `fclass` names the class of the bits; no flag. -/
def Obligations.FloatOrderSignAndClass : Prop :=
  (∀ (f : W3) (s : State), s.placed → f.ty.isFloat = true → s.regs.frmFz = false →
     let a := lowBV f.ty (s.getS f.a)
     let b := lowBV f.ty (s.getS f.b)
     let pick := fun (first : Bool) =>
       s.put f.d (if isNaN f.ty a && isNaN f.ty b then BitVec.ofNat 64 (nanPattern f.ty)
         else if isNaN f.ty a then b.setWidth 64 else if isNaN f.ty b then a.setWidth 64
         else if first then a.setWidth 64 else b.setWidth 64)
     exec (.fmin f) s = .next (pick (decide (floatRank f.ty true a ≤ floatRank f.ty true b))) ∧
     exec (.fmax f) s = .next (pick (decide (floatRank f.ty true b ≤ floatRank f.ty true a)))) ∧
  (∀ (f : W3) (s : State), s.placed → f.ty.isFloat = true → s.regs.frmFz = false →
     let t := f.ty
     let a := lowBV t (s.getS f.a)
     let b := lowBV t (s.getS f.b)
     let x := floatRank t false a
     let y := floatRank t false b
     let holds := match f.immBits 2 0 with
       | 0 => decide (x = y) | 1 => decide (x ≠ y) | 2 => decide (x < y) | 3 => decide (x ≤ y) | 4 => decide (y < x)
       | 5 => decide (y ≤ x) | 6 => false | _ => true
     let unordered := f.immBits 2 0 == 1 || f.immBits 2 0 == 6
     exec (.fcmp f) s = .next (s.put f.d (if (if isNaN t a || isNaN t b then unordered else holds) then 1 else 0)) ∧
     exec (.fabs f) s = .next (s.put f.d (if isNaN t a then BitVec.ofNat 64 (nanPattern t) else BitVec.ofNat 64 (magBits t a))) ∧
     exec (.fneg f) s = .next (s.put f.d (if isNaN t a then BitVec.ofNat 64 (nanPattern t)
       else (a ^^^ BitVec.ofNat t.width (2 ^ (t.width - 1))).setWidth 64)) ∧
     exec (.fclass f) s = .next (s.put f.d (if isNaN t a then 256
       else if magBits t a = infPattern t then (if a.msb then 1 else 128)
       else if magBits t a = 0 then (if a.msb then 8 else 16)
       else if magBits t a < 2 ^ ((fmtOf t).p - 1) then (if a.msb then 4 else 32)
       else (if a.msb then 2 else 64))))

/-- R217: `fcvt` writes one scalar register and raises flags. Between integer types it clamps the source's value to the range
of TY, with FFLG.SAT and FFLG.NX when that changes it; a NaN converts to the integer 0 with FFLG.INV. R270: `vcvt` delivers each
element in the same way.
R69, R70, R271: a value goes to an integer type rounded to an integer in the mode and clamped to the range, a NaN to 0 with
FFLG.INV; it goes to a floating type rounded once and, beyond the largest finite value, clamped and marked; an infinity and a NaN
stay what they are.
Table 20.5, Table 7.3: the source's value is the integer, the floating value under FRM.FZ, the code × 2^XOFF or, with NAN = 1, the
NaN, or 2^(e − 127), the NaN for e = 255; a code of the reserved 8-bit type is a NaN and raises FFLG.INV (Table 5.4). R58, R59: the
codes have the values of Tables 5.3 and 5.4. -/
def Obligations.ConversionsClamp : Prop :=
  ∀ (f : W3) (s : State) (st : Ty), s.placed → Ty.ofCode (f.immBits 3 0) = some st →
    (f.ty.isNumber = true → st.isNumber = true → ∃ x fl, exec (.fcvt f) s = .next (s.putFlags f.d x fl)) ∧
    (f.ty.isInt = true → st.isInt = true →
      let v := valBV st (s.getS f.a)
      exec (.fcvt f) s = .next (s.putFlags f.d (BitVec.ofInt 64 (clampTo f.ty v)) (if clampTo f.ty v = v then 0 else flSAT ||| flNX))) ∧
    (f.ty.isInt = true → st.isFloat = true → isNaN st (lowBV st (s.getS f.a)) = true →
      exec (.fcvt f) s = .next (s.putFlags f.d 0 flINV)) ∧
    (f.ty.isNumber = true → st.isNumber = true →
      let v := sourceVal st s.regs.frmFz (lowBV st (s.getS f.a)).toNat
      let r := narrowTo f.ty v.1 (s.regs.mode f.q.toNat 0) s.regs.frmFz
      exec (.fcvt f) s = .next (s.putFlags f.d (if f.ty.isInt then extBV f.ty (BitVec.ofNat _ r.bits) else BitVec.ofNat 64 r.bits)
        (r.flags ||| v.2))) ∧
    (∀ (r : ThreadRegs) (i a b c : Nat),
      let v := sourceVal st r.frmFz a
      let o := narrowTo f.ty v.1 (r.mode f.q.toNat i) r.frmFz
      (specVcvt r f).fn i a b c = { o with flags := o.flags ||| v.2 }) ∧
    (∀ (v : FVal) (mode : RMode) (fz : Bool),
      let r := narrowTo f.ty v mode fz
      (f.ty.isInt = true →
        let gives := fun (x : Int) (fl : Flags) => r.bits = (BitVec.ofInt f.ty.width (clampTo f.ty x)).toNat ∧
          r.flags = (if clampTo f.ty x = x then 0 else flSAT ||| flNX) ||| fl ∧ r.mark = decide (clampTo f.ty x ≠ x)
        match v with
        | .nan => r.bits = 0 ∧ r.flags = flINV ∧ r.mark = false
        | .inf neg => gives (if neg then minOf f.ty - 1 else maxOf f.ty + 1) 0
        | .fin neg m e => ∃ (n : Nat) (inexact : Bool), Rounded mode neg (fun c q => cmpDyadic c q m e) 0 n inexact ∧
            gives (if neg then -(n : Int) else n) (if inexact then flNX else 0)) ∧
      (f.ty.isFloat = true →
        match v with
        | .nan => r.bits = nanPattern f.ty ∧ r.flags = 0 ∧ r.mark = false
        | .inf neg => r.bits < 2 ^ f.ty.width ∧ (fmtOf f.ty).decode r.bits = .inf neg ∧ r.flags = 0 ∧ r.mark = false
        | .fin neg m e =>
          (0 < m → r.RoundsOnce (fmtOf f.ty) (fun c q => cmpDyadic c q m e) neg mode (fz && f.ty.isVFloat) true 0) ∧
          (m = 0 → (fmtOf f.ty).holds r.bits neg 0 0 ∧ r.flags = 0 ∧ r.mark = false))) ∧
    (∀ (fz : Bool) (x : Nat),
      let v := sourceVal st fz x
      (st.isInt = true → ∃ (neg : Bool) (m : Nat), v = (.fin neg m 0, 0) ∧ (neg = true → 0 < m) ∧
        (if neg then -(m : Int) else m) = (if st.signed then (BitVec.ofNat st.width x).toInt else ((x % 2 ^ st.width : Nat) : Int))) ∧
      (st.isFloat = true → v = readFloat st fz x) ∧
      (st.isTile = true → x < 2 ^ 20 →
        let code := x % 256
        let word := BitVec.ofNat 12 (x / 256)
        if word.getLsbD 11 then v = (.nan, 0)
        else v = ((codeVal (st == .q4) (word.extractLsb' 9 2).toNat code).scale (word.extractLsb' 0 9).toInt,
          if st = .q8 ∧ word.extractLsb' 9 2 = 3#2 then flINV else 0)) ∧
      (st = .e8 → x < 256 → v = (if x = 255 then .nan else .fin false 1 ((x : Int) - 127), 0))) ∧
    (∀ (c : Nat),
      let is := fun (v : FVal) (neg : Bool) (m : Nat) (e : Int) => ∃ n d, v = .fin neg n d ∧ cmpDyadic n d m e = .eq
      let int := fun (v : FVal) (x : Int) => is v (decide (x < 0)) x.natAbs 0
      (c < 16 → int (codeVal true 0 c) (BitVec.ofNat 4 c).toInt ∧
        is (codeVal true 1 c) (decide (8 ≤ c)) ([0, 1, 2, 3, 4, 6, 8, 12].getD (c % 8) 0) (-1) ∧
        is (codeVal true 2 c) (decide (8 ≤ c)) ([0, 1, 2, 4, 8, 16, 32, 64].getD (c % 8) 0) (-3) ∧
        is (codeVal true 3 c) (decide (8 ≤ c)) ([0, 1, 2, 3, 4, 6, 8, 16].getD (c % 8) 0) 0) ∧
      (c < 256 → int (codeVal false 0 c) (BitVec.ofNat 8 c).toInt ∧ codeVal false 3 c = .nan ∧
        (let m := c % 128
         let neg := decide (128 ≤ c)
         (if m = 127 then codeVal false 1 c = .nan
          else is (codeVal false 1 c) neg (if m < 8 then m else 8 + m % 8) (if m < 8 then -9 else (m / 8 : Nat) - 10)) ∧
         (if m = 124 then codeVal false 2 c = .inf neg else if 124 < m then codeVal false 2 c = .nan
          else is (codeVal false 2 c) neg (if m < 4 then m else 4 + m % 4) (if m < 4 then -16 else (m / 4 : Nat) - 17)))))

-- BR, JAL, JR ----------------------------------------------------------------------------------------------------------------

/-- R218, R219: a branch sets PC to PC + sext(OFF40, 40) × 8 when its condition on A and B holds, else to PC + 8; `jal` does so
always and writes A := PC + 8. Nothing else changes. -/
def Obligations.BranchesGoWhereTheySay : Prop :=
  ∀ (f : WJ) (s : State), s.placed →
    let a := s.getS f.a
    let b := s.getS f.b
    let target := s.pc + BitVec.ofInt 64 (f.off.toInt * 8)
    let go := fun (p : Bool) => s.setRegs { s.regs with pc := if p then target else s.pc + 8 }
    exec (.brEq f) s = .next (go (a == b)) ∧ exec (.brNe f) s = .next (go (a != b)) ∧
    exec (.brLt f) s = .next (go (decide (a.toInt < b.toInt))) ∧ exec (.brGe f) s = .next (go (decide (b.toInt ≤ a.toInt))) ∧
    exec (.brLtn f) s = .next (go (decide (a.toNat < b.toNat))) ∧ exec (.brGen f) s = .next (go (decide (b.toNat ≤ a.toNat))) ∧
    exec (.jal f) s = .next (s.setRegs { s.regs.put f.a (s.pc + 8) with pc := target })

/-- R220: `jr` reads its target before it writes D := PC + 8; a target that is not a multiple of 8 raises trap 4 with TVAL the
target, and D and PC are not written. Its word has OP 0x0A and FN 0, and zeros in B, C, TY, K and Q. -/
def Obligations.JumpRegisterChecksItsTarget : Prop :=
  ∀ (f : W3) (s : State), s.placed →
    let target := s.getS f.a + f.imm.signExtend 64
    (target.toNat % 8 = 0 → exec (.jr f) s = .next (s.setRegs { s.regs.put f.d (s.pc + 8) with pc := target })) ∧
    (target.toNat % 8 ≠ 0 → s.Calm → exec (.jr f) s = .next (s.trapped 4 target)) ∧
    (WellFormed (.jr f) = true → f.b = 0 ∧ f.c = 0 ∧ f.ty = .i8 ∧ f.k = 0 ∧ f.q = 0) ∧
    (encode (.jr f)).extractLsb' 56 8 = 0x0A ∧ (encode (.jr f)).extractLsb' 24 8 = 0

-- Traps and SYS --------------------------------------------------------------------------------------------------------------

/-- R361: trap entry when it is no double trap saves code, value, point, privilege, kind, block and fault id, clears TE, sets
supervisor privilege and goes to TVEC.BASE × 64, plus 64 × code when TVEC.VM = 1; no other register of the thread, and no
byte of memory, changes. Reservations stand lost (R235). -/
def Obligations.TrapEntrySavesAndVectors : Prop :=
  ∀ (s : State) (t : Trap), s.placed → s.open_ →
    let u := s.enterTrap t
    u.regs.tcause = BitVec.ofNat 8 t.code ∧ u.regs.tval = t.val ∧ u.regs.tpc = t.point ∧ u.regs.pprv = s.regs.priv ∧
    u.regs.asy = t.asy ∧ u.regs.blk = t.blk ∧ u.regs.fid = BitVec.ofNat 16 t.fid ∧ u.regs.te = false ∧ u.regs.priv = true ∧
    u.regs.pc = BitVec.ofNat 64 (s.regs.tvecBase.toNat * 64 + (if s.regs.tvecVm then 64 * t.code else 0)) ∧
    u.regs = { s.regs with tcause := u.regs.tcause, tval := t.val, tpc := t.point, pprv := s.regs.priv, asy := t.asy,
                           blk := t.blk, fid := u.regs.fid, te := false, priv := true, pc := u.regs.pc } ∧
    (∀ h, h ≠ s.cur → u.thread h = s.thread h) ∧ (∀ a, u.msys.mem.read a = s.msys.mem.read a) ∧
    { u with cores := s.cores } = s ∧
    (∀ r, s.side.resv = some r → ∃ r', u.side.resv = some r' ∧ r'.lost = true ∧ r'.va = r.va)

/-- R361, R43: a trap at supervisor privilege with TE = 0 is a double trap: the thread's job ends with status 1 and falls due for
its completion record, and the management core's count of failures rises. The thread stops, and with it every thread of the job on
the cores of its grant: no register of theirs is saved, and their hardware threads stand free, with their registers as they stood
(R39 zeroes them at a start). No other thread changes. -/
def Obligations.DoubleTrapEndsTheJob : Prop :=
  ∀ (s : State) (t : Trap) (o : Owner) (j : Job), s.placed → s.regs.priv = true → s.regs.te = false →
    s.thr.owner = some o → s.job o.job = some j →
    let u := s.enterTrap t
    u.failures = s.failures + 1 ∧ ∃ j', u.job o.job = some j' ∧ j'.ended1 = true ∧ j'.st = .completing ∧ j'.cores = [] ∧
      j'.card = j.card ∧ j'.finished = j.finished ∧
      (s.cur.core ∈ j.cores → u.thr = { Thread.zero with regs := s.regs }) ∧
      (∀ h, h.core ∈ j.cores → h.thread < 4 → ∀ p, (s.thread h).owner = some p → p.job = o.job →
        u.thread h = { Thread.zero with regs := (s.thread h).regs }) ∧
      (∀ h, (∀ p, (s.thread h).owner = some p → p.job ≠ o.job) → u.thread h = s.thread h)

/-- R221: `trap c` completes and raises trap 12 with TVAL c and TPC past it; code 16,383 does not complete and raises trap 18
with TVAL 0 and TPC at it. -/
def Obligations.TrapInstructionRaisesItsCode : Prop :=
  ∀ (f : W3) (s : State), s.Calm →
    (f.imm.toNat < 16383 →
      exec (.trap f) s = .next ((s.setEntered none).enterTrap
        { code := 12, val := BitVec.ofNat 64 f.imm.toNat, point := s.pc + 8, asy := false, blk := false, fid := 0 })) ∧
    (f.imm.toNat = 16383 →
      exec (.trap f) s = .next ((s.setEntered none).enterTrap
        { code := 18, val := 0, point := s.pc, asy := false, blk := false, fid := 0 })) ∧
    (s.open_ → ∃ t, exec (.trap f) s = .next t ∧ t.regs.priv = true ∧ t.regs.te = false ∧ t.regs.asy = false ∧
      t.regs.tcause = (if f.imm.toNat < 16383 then 12 else 18) ∧
      t.regs.tval = (if f.imm.toNat < 16383 then f.imm.setWidth 64 else 0) ∧
      t.regs.tpc = (if f.imm.toNat < 16383 then s.pc + 8 else s.pc))

/-- R222: `eret` at user privilege raises trap 3; a TPC that is not a multiple of 8 raises trap 4 with TVAL the target, and
nothing below happens; otherwise privilege is TSTATE.PPRIV, TE is 1 and PC is TPC, and VSTART, FFLG, SATK and every other
register stand. R367: a done set of the instruction at TPC holds from then on, and one of another instruction does not. -/
def Obligations.EretRestores : Prop :=
  ∀ (f : W3) (s : State), s.Calm →
    (s.regs.priv = false → exec (.eret f) s = .next (s.trapped 3 (encode (.eret f)))) ∧
    (s.regs.priv = true → s.regs.tpc.toNat % 8 ≠ 0 → exec (.eret f) s = .next (s.trapped 4 s.regs.tpc)) ∧
    (s.regs.priv = true → s.regs.tpc.toNat % 8 = 0 →
      exec (.eret f) s = .next (((s.setSide { s.side with done := s.side.done.map (fun d => { d with armed := d.pc == s.regs.tpc }) }).setRegs
        { s.regs with priv := s.regs.pprv, te := true, pc := s.regs.tpc }).setEntered none))

/-- R182: a word that is no instruction raises trap 1, and one with bit 63 set trap 2, with TVAL the word and TPC its address;
a failed fetch raises the trap of its failed check with TVAL the PC (R183). -/
def Obligations.ReservedWordsAndFailedFetchesTrap : Prop :=
  ∀ (s : State), s.Calm →
    (∀ w : Word, exec (.reservedInstruction w) s = .next (s.trapped (if w.getLsbD 63 then 2 else 1) w)) ∧
    (∀ c, s.fetchWord s.pc = .error c → exec .instructionFetchFault s = .next (s.trapped c s.pc))

/-- R207 (Table 17.8), R234, R248-R250: `nop`, `pref`, `cflush`, the four forms of `cinv` and, in a thread that does not speculate,
`fence` change nothing but PC in a machine whose accesses are performed at their homes in order (log entries 5 and 6). -/
def Obligations.HintsAndFencesOnlyAdvance : Prop :=
  ∀ (f : W3) (g : WM) (s : State), s.placed →
    exec (.nop f) s = .next s.advance ∧ exec (.pref g) s = .next s.advance ∧ exec (.cflush g) s = .next s.advance ∧
    exec (.cinvData g) s = .next s.advance ∧ exec (.cinvInstruction g) s = .next s.advance ∧
    exec (.cinvTranslation g) s = .next s.advance ∧ exec (.cinvTranslationAll g) s = .next s.advance ∧
    (s.Calm → exec (.fence g) s = .next s.ended) ∧ s.advance = s.setRegs { s.regs with pc := s.regs.pc + 8 }

/-- R223: `waiti` writes 0 when TIME has reached A, else 1 when a reservation it holds is lost, else it waits at its own address
with its deadline kept; the deadline's event later writes 0 and lets the thread go on. A pre-emption or a Winter entry ends the wait
with the lower of 0, 1 and 2 whose event holds, and the thread stops past the `waiti`. R224, R37-R41: `yield` waits while a copy
transfer of its thread has not completed; otherwise it ends the strip, and the thread goes on with the next strip, of the shared
strip counter or with Equinox of its logical core's own, which runs from floor(c·S/C) to floor((c + 1)·S/C): PC at the entry, `s1`
the arguments, `s2` the strip, `s3` the strip length, STRIP the strip and supervisor privilege, while every other register stands,
and what the strip had stopped in is forgotten. With no strip left the thread ends, with its registers as they stand, while another
thread of its logical core still runs and when none does; the job is due to combine and complete when its last strip is. The last
thread of the last logical core leaves every core of the grant. -/
def Obligations.WaitAndYield : Prop :=
  ((∀ (f : W3) (s : State), s.placed →
     let deadline := s.getS f.a
     let free := s.setThr { s.thr with waiting := none }
     let lost := (match s.side.resv with | some r => !s.holds r | none => false)
     (deadline.toNat ≤ s.time → exec (.waiti f) s = .next ((free.put f.d 0).setEntered none)) ∧
     (s.time < deadline.toNat → lost = true → exec (.waiti f) s = .next ((free.put f.d 1).setEntered none)) ∧
     (s.time < deadline.toNat → lost = false →
       exec (.waiti f) s = .next (s.setThr { s.thr with waiting := some (f.d, deadline), entered := some s.pc }))) ∧
   (∀ (s : State) (d : BitVec 6) (deadline : Word), s.placed → s.thr.waiting = some (d, deadline) → s.thr.ended = false →
     deadline.toNat ≤ s.time →
       exec (.waitiDeadline s.cur) s = .next (((s.setThr { s.thr with waiting := none }).put d 0).setEntered none)) ∧
   (∀ (s : State) (d : BitVec 6) (deadline : Word), s.Calm → s.thr.waiting = some (d, deadline) → s.thr.ended = false →
     s.thr.owner.isSome = true →
     let lost := (match s.side.resv with | some r => !s.holds r | none => false)
     let u := s.suspend s.cur
     u.regs = s.regs.put d (if deadline.toNat ≤ s.time then 0 else if lost then 1 else 2) ∧ u.thr.waiting = none ∧
     u.thr.entered = none)) ∧
  (∀ (f : W3) (s : State) (o : Owner) (j : Job), s.Calm → s.thr.owner = some o → s.job o.job = some j →
     let u := s.setSide { s.side with done := none, rows := [], vstcFail := [], phend := [] }
     (s.transferring = true → exec (.yield f) s = .next (s.setEntered none)) ∧
     (s.transferring = false → j.ended1 = false → j.card.eqx = false → j.next < j.strips →
       exec (.yield f) s = .next (((u.setJob { j with finished := j.finished + 1, next := j.next + 1 }).setRegs
         { s.regs with pc := j.card.entry, strip := BitVec.ofNat 32 j.next, priv := true,
                       s := vset (vset (vset s.regs.s 1 j.card.args) 2 (BitVec.ofNat 64 j.next)) 3 (j.card.slen.setWidth 64) }).setEntered
           none)) ∧
     (s.transferring = false → j.ended1 = false → j.card.eqx = true →
       let n := max (j.lcore o.lcore).next (o.lcore * j.strips / j.card.ncores)
       n < (o.lcore + 1) * j.strips / j.card.ncores →
       exec (.yield f) s = .next (((u.setJob ({ j with finished := j.finished + 1 }.setLcore o.lcore
         { j.lcore o.lcore with next := n + 1 })).setRegs
         { s.regs with pc := j.card.entry, strip := BitVec.ofNat 32 n, priv := true,
                       s := vset (vset (vset s.regs.s 1 j.card.args) 2 (BitVec.ofNat 64 n)) 3 (j.card.slen.setWidth 64) }).setEntered
           none)) ∧
     (s.transferring = false → j.ended1 = false →
       (if j.card.eqx then
         (o.lcore + 1) * j.strips / j.card.ncores ≤ max (j.lcore o.lcore).next (o.lcore * j.strips / j.card.ncores)
        else j.strips ≤ j.next) →
       let last := decide (j.finished + 1 = j.strips)
       ((∃ i p, i < 4 ∧ i ≠ s.cur.thread ∧ (s.thread { s.cur with thread := i }).owner = some p ∧ p.job = o.job ∧
           p.lcore = o.lcore ∧ (s.thread { s.cur with thread := i }).ended = false) →
         ∃ t, exec (.yield f) s = .next t ∧ t.thr.ended = true ∧ t.regs = s.regs ∧ t.thr.owner = some o ∧
           t.job o.job = some { j with finished := j.finished + 1, st := if last then .completing else j.st }) ∧
       ((∀ i p, i < 4 → i ≠ s.cur.thread → (s.thread { s.cur with thread := i }).owner = some p → p.job = o.job →
           p.lcore = o.lcore → (s.thread { s.cur with thread := i }).ended = true) → last = true →
         ∃ t j', exec (.yield f) s = .next t ∧ t.thr = { Thread.zero with regs := s.regs } ∧ t.job o.job = some j' ∧ j'.st = .completing ∧
           j'.cores = [] ∧ j'.finished = j.strips ∧ (j'.lcore o.lcore).st = .ended)))

-- STATE and VCFG ---------------------------------------------------------------------------------------------------------------

/-- R172, R226: `rds` writes D with the register it names, and at user privilege raises trap 3 for one a user may not read. R49:
RESYNC holds the counts of its two cases. R381: EACC holds what the windows that are complete have charged, in µJ. The fields of
TSTATE, FRM, VTYPE and PLACE stand where Tables 26.6, 5.7, 20.2 and 1.2 put them. -/
def Obligations.RdsReadsEveryRegister : Prop :=
  (∀ (f : W3) (s : State), s.placed →
    ((userBarred f.stateReg && !s.regs.priv) = false → f.stateReg ≠ 0x032 →
      exec (.rds f) s = .next (s.put f.d (s.readReg f.stateReg))) ∧
    (f.stateReg = 0x032 →
      let u := s.ballast (quadOf s.cur.core)
      exec (.rds f) s = .next (u.put f.d (match u.context s.thr.asid with
        | some c => BitVec.ofNat 64 (c.energy / 78000000) | none => 0))) ∧
    (s.Calm → userBarred f.stateReg = true → s.regs.priv = false →
      exec (.rds f) s = .next (s.trapped 3 (encode (.rds f))))) ∧
  (∀ s : State,
    (s.Calm → s.readReg 0x00B = (s.myCore.resyncMem ++ s.myCore.resyncReg : BitVec 64) ∧
      s.readReg 0x008 = s.myCore.file.dirty.setWidth 64) ∧
    (∀ i, i < 64 → (s.readReg 0x023).getLsbD i = (match i with
      | 0 => s.regs.pprv | 1 => s.regs.priv | 2 => s.regs.te | 3 => s.regs.blk | 4 => s.regs.asy
      | i => decide (16 ≤ i) && s.regs.fid.getLsbD (i - 16))) ∧
    s.readReg 0x006 = BitVec.ofNat 64 (s.regs.frmRm.toNat + 8 * (if s.regs.frmFz then 1 else 0)) ∧
    s.readReg 0x002 = BitVec.ofNat 64 (s.regs.vtTy.toNat + 16 * s.regs.vtEw.toNat + 1024 * (if s.regs.vtNeg then 1 else 0)) ∧
    s.readReg 0x030 = BitVec.ofNat 64 s.time ∧ s.readReg 0x001 = BitVec.ofNat 64 s.vlmax ∧
    (s.cur.core < 1024 → s.cur.thread < 4 →
      s.readReg 0x012 = BitVec.ofNat 64 (s.cur.core % 4 + 4 * (s.cur.core / 4 % 64) + 256 * (s.cur.core / 256)
        + 1024 * s.pkg.toNat + 2 ^ 23 * s.cur.thread)))

/-- R172, R227, Table 13.12: what a supervisor writes into a register with no restricted field, the next `rds` reads back in the
register's bits and zero elsewhere. -/
def Obligations.WriteThenReadKeepsTheFields : Prop :=
  ∀ (f g : W3) (s : State) (mask : Word), s.Calm → s.regs.priv = true → g.stateReg = f.stateReg →
    (f.stateReg, mask) ∈ ([(0x005, 0x7), (0x008, 0xFFFFFFFF), (0x00B, BitVec.allOnes 64), (0x00C, BitVec.allOnes 64), (0x020, 0xFF),
      (0x021, BitVec.allOnes 64), (0x022, BitVec.allOnes 64), (0x024, 0x00FFFFFFFFFFFFC1), (0x025, BitVec.allOnes 64),
      (0x050, 0x00FFFFFFFFFFFFFF), (0x052, 0xFFFFFFFF), (0x054, 0xFFFF), (0x055, 0xFFFF), (0x056, BitVec.allOnes 64),
      (0x057, BitVec.allOnes 64)] : List (Nat × Word)) →
    ∃ t, exec (.wrs f) s = .next t ∧ t.pc = s.pc + 8 ∧ exec (.rds g) t = .next (t.put g.d (s.getS f.a &&& mask))

/-- R172: a `wrs` to an RO register is discarded; a user's `wrs` of VL and VDIRTY too; a user's `wrs` of a register barred to
users raises trap 3 with TVAL its word.
Tables 13.12, 13.13, 5.10, 22.1, 28.2, 28.3: the registers whose write has a row of its own, written by a supervisor: VL to
min(value, VLMAX × 32 / EW) or 0 for EW = 0, VSTART, FFLG, a valid or zero MSHAPE, DRTH.MV within 10..150, DRSTAT.EV cleared
by a one, RAILQ.ALCLIM below 4 in the quad as it stands at the write; a value out of range leaves the register. -/
def Obligations.ReadOnlyAndOwnWriteRegisters : Prop :=
  (∀ (f : W3) (s : State), s.Calm →
     (s.regs.priv = true → f.stateReg ∈ ([0x001, 0x009, 0x010, 0x011, 0x012, 0x013, 0x014, 0x030, 0x031, 0x032, 0x033, 0x042,
       0x060, 0x061, 0x062, 0x063, 0x070, 0x071] : List Nat) → exec (.wrs f) s = .next s.ended) ∧
     (s.regs.priv = false → f.stateReg = 0x000 → exec (.vlWrite f) s = .next s.ended) ∧
     (s.regs.priv = false → f.stateReg = 0x008 → exec (.wrs f) s = .next s.ended) ∧
     (s.regs.priv = false → userBarred f.stateReg = true → exec (.wrs f) s = .next (s.trapped 3 (encode (.wrs f)))) ∧
     (s.regs.priv = false → f.stateReg = 0x040 → exec (.drthWrite f) s = .next (s.trapped 3 (encode (.drthWrite f)))) ∧
     (s.regs.priv = false → f.stateReg = 0x041 → exec (.drstatWrite f) s = .next (s.trapped 3 (encode (.drstatWrite f)))) ∧
     (s.regs.priv = false → f.stateReg = 0x043 → exec (.railqWrite f) s = .next (s.trapped 3 (encode (.railqWrite f))))) ∧
  (∀ (f : W3) (s : State), s.Calm → s.regs.priv = true →
     let x := s.getS f.a
     let q := quadOf s.cur.core
     (f.stateReg = 0x000 → exec (.vlWrite f) s = .next (s.setRegs { s.regs with
       vl := if s.regs.vtEw = 0 then 0 else min (x.toNat % 65536) (s.vlmax * 32 / s.regs.vtEw.toNat) }).ended) ∧
     (f.stateReg = 0x003 → exec (.vstartWrite f) s = .next
       (((s.setRegs { s.regs with vstart := x.toNat % 65536 }).setSide
         { s.side with done := none, rows := [], vstcFail := [] }).ended)) ∧
     (f.stateReg = 0x007 → exec (.fflgWrite f) s = .next (s.setRegs { s.regs with fflg := x.setWidth 6 }).ended) ∧
     (f.stateReg = 0x00D → exec (.mshapeWrite f) s = .next
       (if shapeOk (x.setWidth 19) || x.setWidth 19 == 0#19 then s.setMyCore { s.myCore with mshape := x.setWidth 19 } else s).ended) ∧
     (f.stateReg = 0x040 → exec (.drthWrite f) s = .next
       (if 10 ≤ x.toNat % 256 ∧ x.toNat % 256 ≤ 150 then s.setQuad q { s.quad q with drth := x.setWidth 8 } else s).ended) ∧
     (f.stateReg = 0x041 → exec (.drstatWrite f) s = .next
       (if x.getLsbD 42 then s.setQuad q { s.quad q with drEv := false } else s).ended) ∧
     (f.stateReg = 0x043 → exec (.railqWrite f) s = .next
       (if x.getLsbD 18 then s else s.setQuad q { s.quadNow q with alclim := (x.extractLsb' 16 2).setWidth 3 }).ended))

/-- R228, R385: `tstamp` of a thread that does not speculate completes at the first A-clock edge of its quad from now on, with
IMM14[0] = 1 the first from now on at which all that the thread has issued in the arithmetic slot is final; it writes TIME at that
edge to D and the quad's CYC to B, and changes no memory and no other register. The edge is not before now. While another thread's
work in a slot must go on before that edge it waits. R262: `setvl` without a change of VLMAX writes VL := min(A, VLMAX × 32 / EW)
and D := VL, with VTYPE its TY and EW = min(width, 32) and VSTART := 0. Chosen or inferred by the model: which edge a `tstamp`
takes, what TIME reads at it and how far a thread may run ahead of another's work (log entry 3), the VL of a thread with EW = 0 at a
change of VLMAX (log entry 58), the capacity of the tile types (log entry 19), and the wait of a change for a thread inside an
instruction (log entry 52). R262, R119: a calm thread's request for another VLMAX is granted when its banks and the scratch banks
fit in 23: vector and mask registers become zero, VDIRTY all ones, VLMAX the request, VL := min(A, VLMAX × 32 / EW) and D := VL
under it, and the VL of every other thread of the core at most VLMAX × 32 / EW of its own EW; it waits at its own address while
another thread of the core is inside an instruction that has not completed; refused, VTYPE.NEG is 1 and VL, D and the registers
stand. -/
def Obligations.TimestampAndSetVectorLength : Prop :=
  (∀ (f : W3) (s : State), s.placed → s.thr.held = [] →
     let q := quadOf s.cur.core
     let edge := if f.imm.getLsbD 0 then (s.dryEdge s.cur).getD (s.nextEdge q) else s.nextEdge q
     let e := edge.2
     let time := max s.time ((e - clockPhase q + 77) / 78)
     let behind := ∃ t, State.timeCap (s.setThr { s.thr with burst := false }) = some t ∧ t < time
     (behind → exec (.tstamp f) s = .next (s.setEntered none)) ∧
     (¬ behind → ∃ u : State, exec (.tstamp f) s = .next u ∧ u.time = time ∧ u.msys = s.msys ∧ u.jobs = s.jobs ∧
       u.regs = { (s.regs.put f.d (BitVec.ofNat 64 ((e - clockPhase q) / 78))).put f.b (BitVec.ofNat 64 edge.1.edges) with pc := s.pc + 8 } ∧
       u.side = s.side ∧ u.file = { s.file with busy := u.file.busy } ∧ (∀ h, h ≠ s.cur → u.thread h = s.thread h)) ∧
     edge.1.edgeAt = e ∧ (s.winter = false → s.ticks q ≤ e)) ∧
  (∀ (f : W3) (s : State) (t : Ty), s.placed →
     (Ty.ofCode (f.immBits 3 0) = some t → (vlRequest f = none ∨ vlRequest f = some s.vlmax) →
       let ew := min t.width 32
       let n := min (s.getS f.a).toNat (s.vlmax * 32 / ew)
       let r := { s.regs with vl := n, vtTy := BitVec.ofNat 4 t.code, vtEw := BitVec.ofNat 6 ew, vtNeg := false, vstart := 0 }
       exec (.setvl f) s = .next (((s.setRegs r).put f.d (BitVec.ofNat 64 n)).setEntered none))) ∧
  (∀ (f : W3) (s : State) (n : Nat), s.Calm → WellFormed (.setvl f) = true → vlRequest f = some n → n ≠ s.vlmax →
     (vrfBanks n + s.myCore.scrb ≤ 23 → s.othersInside = true → exec (.setvl f) s = .next (s.setEntered none)) ∧
     (vrfBanks n + s.myCore.scrb ≤ 23 → s.othersInside = false → ∃ t, exec (.setvl f) s = .next t ∧ t.vlmax = n ∧ t.pc = s.pc + 8 ∧
       (∀ r, r < 32 → t.vreg r = VReg.zero) ∧ (∀ r, r < 8 → t.kreg r = 0) ∧ t.myCore.file.dirty = BitVec.allOnes 32 ∧
       t.myCore.file.acc = s.myCore.file.acc ∧ t.myCore.file.b = s.myCore.file.b ∧ t.msys = s.msys ∧
       (∀ ty, Ty.ofCode (f.immBits 3 0) = some ty →
         let ew := min ty.width 32
         let vl := min (s.getS f.a).toNat (n * 32 / ew)
         t.regs = { s.regs.put f.d (BitVec.ofNat 64 vl) with
           vl := vl, vtTy := BitVec.ofNat 4 ty.code, vtEw := BitVec.ofNat 6 ew, vtNeg := false, vstart := 0 }) ∧
       (∀ i, i < 4 → i ≠ s.cur.thread →
         let r := (s.thread { s.cur with thread := i }).regs
         (t.thread { s.cur with thread := i }).regs =
           { r with vl := if r.vtEw = 0 then r.vl else min r.vl (n * 32 / r.vtEw.toNat) })) ∧
     (23 < vrfBanks n + s.myCore.scrb → exec (.setvl f) s = .next (s.setRegs { s.regs with vtNeg := true }).ended))

-- LDS, STS, MEMCTL ------------------------------------------------------------------------------------------------------------

/-- R232, R235: `ld` and `ldl` of a type at sA + OFF11 × size, when the access passes its checks and no progress word is named: D is
the little-endian bytes there, extended by the sign of the type or by zeros; `ldl` also sets the thread's reservation. No other
register changes and every byte of memory stands. A failed check raises its trap with TVAL the address, and of the state nothing but
what its reads count has changed. R366, R145, R144: while fewer than 64 requests of the core wait at the home slice, a turn that
leaves the reply of an `ld` on its way (State.await, log entry 22) stops the thread at the word with no register written, and its
request carries the value that the home gave, or, when the turn names the walk, is that of the walk's last entry at the entry's
home. -/
def Obligations.LoadsReadMemory : Prop :=
  ∀ (f : WM) (s : State), s.Calm → f.c = 0 →
    let n := f.ty.width / 8
    let va := s.getS f.a + f.off.signExtend 64 * BitVec.ofNat 64 n
    (∀ p, s.scalarAccess s.msys s.me .load va n n false = .ok p →
      let x := extBV f.ty (BitVec.ofNat _ (ofBytes (s.loadAt s.msys p n)))
      let busy := s.unacknowledged (s.sourceKey s.cur.core (s.askedLine va p.pa))
      (s.await = [] ∨ 64 ≤ busy → ∃ t, exec (.ld f) s = .next t ∧ t.regs = s.regs.put f.d x ∧ t.side = s.side ∧ t.file = s.file ∧
        (∀ a, t.msys.mem.read a = s.msys.mem.read a) ∧ (∀ h, h ≠ s.cur → t.thread h = s.thread h)) ∧
      (s.await.contains 1 = false → s.askedLine va p.pa = p.pa / 64) ∧
      (s.await ≠ [] → busy < 64 → ∃ t r, exec (.ld f) s = .next t ∧ t.regs = s.regs ∧
        t.thr.entered = some s.pc ∧ t.side.requests = s.side.requests ++ [r] ∧ r.va = va ∧
        (s.await.contains 1 = false → r.kind = 0 ∧ r.reg = f.d.toNat ∧ r.answer = { state := 1, code := 0, value := x.toNat }) ∧
        (s.await.contains 1 = true → r.kind = 3) ∧ (∀ a, t.msys.mem.read a = s.msys.mem.read a)) ∧
      (∃ t, exec (.ldl f) s = .next t ∧ t.regs = s.regs.put f.d x ∧ t.file = s.file ∧ (∀ a, t.msys.mem.read a = s.msys.mem.read a) ∧
        (∀ h, h ≠ s.cur → t.thread h = s.thread h) ∧ t.side = { s.side with resv := t.side.resv } ∧
        t.side.resv = some { va := va, pa := p.pa, size := n, writes := (s.msys.line (p.pa / 64)).writes, lost := false })) ∧
    (∀ c, s.scalarAccess s.msys s.me .load va n n false = .error c →
      trapsAfter (.ld f) s s c va ∧ trapsAfter (.ldl f) s s c va)

/-- R232, R251: `st` stores the low w bits of B at sA + OFF11 × size, and `czero` 64 zero bytes at sA + OFF11 × 64, when the access
passes its checks: a reader under the same key finds the stored bytes there and every other byte as it was, a reader under any
key finds every other line as it was, and no register but PC changes. A failed check raises its trap and stores nothing. -/
def Obligations.StoresWriteTheirBytesOnly : Prop :=
  ∀ (f : WM) (s : State), s.Calm → s.Canonical → f.c = 0 →
    let n := f.ty.width / 8
    let va := s.getS f.a + f.off.signExtend 64 * BitVec.ofNat 64 n
    let vz := s.getS f.a + f.off.signExtend 64 * 64
    let stored := fun (p : Place) (size : Nat) (byte : Nat → Byte) (t : State) =>
      t.regs = { s.regs with pc := s.regs.pc + 8 } ∧ t.side = s.side ∧ t.file = s.file ∧ (∀ h, h ≠ s.cur → t.thread h = s.thread h) ∧
      (∀ i, i < size → t.msys.readByte p.key (p.pa + i) = byte i) ∧
      (∀ a, a < p.pa ∨ p.pa + size ≤ a → t.msys.readByte p.key a = s.msys.readByte p.key a) ∧
      (∀ a key, a / 64 ∉ linesOf p.pa size → t.msys.readByte key a = s.msys.readByte key a)
    (0 < n → ∀ p, s.scalarAccess s.msys s.me .store va n n false = .ok p →
      ∃ t, exec (.st f) s = .next t ∧ stored p n (fun i => ((s.getS f.b) >>> (8 * i)).setWidth 8) t) ∧
    (∀ p, s.scalarAccess s.msys s.me .store vz 64 64 true = .ok p →
      ∃ t, exec (.czero f) s = .next t ∧ stored p 64 (fun _ => 0) t) ∧
    (∀ c, s.scalarAccess s.msys s.me .store va n n false = .error c → trapsAfter (.st f) s s c va) ∧
    (∀ c, s.scalarAccess s.msys s.me .store vz 64 64 true = .error c → trapsAfter (.czero f) s s c vz)

/-- R235: `stc`, when its access passes its checks, succeeds exactly when the thread's reservation is of this address and size and
nothing has lost it: D is then 0 and B is stored, else D is 1 and no byte changes; either way the reservation is consumed. -/
def Obligations.ConditionalStoreNeedsItsReservation : Prop :=
  ∀ (f : WM) (s : State) (p : Place), s.Calm → s.Canonical → f.c = 0 → 0 < f.ty.width / 8 →
    let n := f.ty.width / 8
    let va := s.getS f.a + f.off.signExtend 64 * BitVec.ofNat 64 n
    s.scalarAccess s.msys s.me .store va n n false = .ok p →
    ((∃ r, s.side.resv = some r ∧ r.va = va ∧ r.size = n ∧ r.lost = false ∧ (s.msys.line (r.pa / 64)).writes = r.writes) →
      ∃ t, exec (.stc f) s = .next t ∧ t.regs = s.regs.put f.d 0 ∧ t.side.resv = none ∧ t.file = s.file ∧
        (∀ i, i < n → t.msys.readByte p.key (p.pa + i) = ((s.getS f.b) >>> (8 * i)).setWidth 8) ∧
        (∀ a, a < p.pa ∨ p.pa + n ≤ a → t.msys.readByte p.key a = s.msys.readByte p.key a)) ∧
    (¬ (∃ r, s.side.resv = some r ∧ r.va = va ∧ r.size = n ∧ r.lost = false ∧ (s.msys.line (r.pa / 64)).writes = r.writes) →
      ∃ t, exec (.stc f) s = .next t ∧ t.regs = s.regs.put f.d 1 ∧ t.side.resv = none ∧ t.file = s.file ∧ s.msys.sameBut t.msys [])

/-- R231: with C ≠ 0 a load whose checks pass adds 1 modulo 2^64 to the progress word at sC, and changes no other byte; a progress
word that fails the checks of a store raises its trap first, with TVAL its address.
The same of every memory member that may name a progress word: one that fails its checks at issue raises its trap with nothing
done; and where the member with C = 0 would complete (PC past the word, no trap entered), it does all of that and then, as the word
passes its checks or fails them at completion, adds 1 to the word and changes no other byte a reader of its key finds, or raises the
trap with TPC at the next instruction and the word unchanged. -/
def Obligations.ProgressWordRisesByOne : Prop :=
  (∀ (f : WM) (s : State) (m : WM → Instr), s.Calm → s.Canonical → f.c ≠ 0 →
    (m ∈ ([Instr.ld, .ldl, .st, .stc, .czero] : List (WM → Instr)) ∨
      (s.fits [f.ty] (f.k != 0) = true ∧ m ∈ ([Instr.vld, .vlds, .vldg, .vldl, .vst, .vsts, .vstg] : List (WM → Instr))) ∨
      (s.fits [f.ty] true = true ∧ m = Instr.vstc) ∨
      (s.fits [f.ty] false = true ∧ m ∈ ([Instr.vlde, .vste] : List (WM → Instr))) ∨
      (s.fits [f.ty] (f.k != 0) = true ∧ s.vstart % 256 = 0 ∧ m ∈ ([Instr.vldt, .vldtt] : List (WM → Instr)))) →
    let pw := s.getS f.c
    (∀ c, s.scalarAccess s.msys s.me .store pw 8 8 false = .error c → trapsAfter (m f) s s c pw) ∧
    (∀ q u, s.scalarAccess s.msys s.me .store pw 8 8 false = .ok q → s.open_ → exec (m { f with c := 0 }) s = .next u →
      u.pc = s.pc + 8 → u.regs.te = s.regs.te → u.regs.priv = s.regs.priv →
      (∀ p, s.scalarAccess u.msys s.me .store pw 8 8 false = .ok p →
        ∃ t, exec (m f) s = .next t ∧ t.regs = u.regs ∧ t.side = u.side ∧ (∀ c, (t.core c).file = (u.core c).file) ∧
          (∀ h, t.thread h = u.thread h) ∧
          ofBytes (t.msys.load p.key p.pa 8) = (ofBytes (u.msys.load p.key p.pa 8) + 1) % 2 ^ 64 ∧
          (∀ a, a < p.pa ∨ p.pa + 8 ≤ a → t.msys.readByte p.key a = u.msys.readByte p.key a)) ∧
      (∀ c, s.scalarAccess u.msys s.me .store pw 8 8 false = .error c →
        ∃ t, exec (m f) s = .next t ∧ t.regs = u.regs.enter (Trap.sync c pw (s.pc + 8)) ∧ u.msys.sameBut t.msys []))) ∧
  ∀ (f : WM) (s : State), s.Calm → s.Canonical → f.c ≠ 0 →
    let n := f.ty.width / 8
    let va := s.getS f.a + f.off.signExtend 64 * BitVec.ofNat 64 n
    (∀ c, s.scalarAccess s.msys s.me .store (s.getS f.c) 8 8 false = .error c →
      trapsAfter (.ld f) s s c (s.getS f.c)) ∧
    (∀ p q, s.scalarAccess s.msys s.me .store (s.getS f.c) 8 8 false = .ok q →
      s.scalarAccess s.msys s.me .load va n n false = .ok p →
      ∃ t, exec (.ld f) s = .next t ∧
        t.regs = s.regs.put f.d (extBV f.ty (BitVec.ofNat _ (ofBytes (s.loadAt s.msys p n)))) ∧
        ofBytes (t.msys.load q.key q.pa 8) = (ofBytes (s.msys.load q.key q.pa 8) + 1) % 2 ^ 64 ∧
        (∀ a, a < q.pa ∨ q.pa + 8 ≤ a → t.msys.readByte q.key a = s.msys.readByte q.key a))

-- Element-wise members: VINT, VFLT, VCVT, VCMP --------------------------------------------------------------------------------

/-- R82, R93, R259, R261: every element-wise member that writes a vector register (the 17 of VINT, the 17 of VFLT, and `vcvt`:
`elemSpecOf` names each with its specification), when VL is within the capacity of its types and it meets no stop: with elements to
do, D holds the results of elements [VSTART, VL) in the encoding of Table 7.4, their flags are raised and their marks set in the
mask SATK names, VSTART is 0 and PC past the word; with none to do only VSTART and PC change; a VL beyond the capacity raises trap 1
before anything else. R82, R85, R407, Table 7.4: read back, D keeps its elements below VSTART, holds the results in [VSTART, VL) and
zeros from VL on (a tile element with its scale word); its N and PROG are VL, its VDIRTY bit is set, and its tag and P are those of
Table 7.4. The narrowing members are conversions, the stochastic ones round with Q or FRM naming `.sr`, and `vadd` and `vsub` of a
scalar with Q[0] = 0 keep DELTA. DEDUCED: a conversion from an integer to a floating type counts as none that narrows (log entry
17); the mask of `vsel` counts as an operand of Table 7.4 (log entry 46). -/
def Obligations.ElementwiseMembersComplete : Prop :=
  ∀ (f : W3) (s : State), s.placed →
    ∀ i ∈ ([Instr.vadd f, .vsub f, .vmul f, .vmulh f, .vmin f, .vmax f, .vand f, .vor f, .vxor f, .vshl f, .vshr f,
        .vsra f, .vabs f, .vneg f, .vsel f, .vmulw f, .vmacw f, .vfadd f, .vfsub f, .vfmul f, .vffma f, .vffms f,
        .vfnma f, .vfdiv f, .vfsqrt f, .vfrcp f, .vfrsqrt f, .vfexp2 f, .vflog2 f, .vfmin f, .vfmax f, .vfabs f,
        .vfneg f, .vfclass f, .vcvt f] : List Instr),
    ∃ e : ElemSpec, elemSpecOf s.regs i = some e ∧
    let fits := s.fits e.types (e.k != 0 || (match e.c with | .mask _ => true | _ => false))
    let rs := s.results e
    let t := ((((s.putResult e (s.row e) (rs.map (fun r => r.bits))).orFlags (flagsOf rs)).markElems
      (marksFrom s.vstart rs)).setVstart 0).ended
    let d := e.d.toNat
    let old := s.vreg d
    (fits = true → s.vstart < s.vl → s.stopAt = none → s.vlmax ∈ ([512, 1024, 2048] : List Nat) → vOk e.td e.d →
      (∀ r, (s.vreg r).Sound) → (0 < s.vstart → old.tag = .run → old.n = s.vstart → old.ty.width = e.td.width) →
      exec i s = .next t ∧
      (∀ j, j < s.cap e.td → t.velem e.td d j =
        if j < s.vstart then (s.velems e.td d s.vl).getD j 0
        else if j < s.vl then ((rs.map (fun r => r.bits)).getD (j - s.vstart) 0) % 2 ^ e.td.width else 0) ∧
      (e.td.isTile = true → ∀ j, s.vstart ≤ j → j < s.vl →
        (t.vreg d).idx j = (rs.map (fun r => r.bits)).getD (j - s.vstart) 0 / 256 % 2 ^ 16) ∧
      (∀ r, r = d ∨ (e.td.wide = true ∧ r = d + 1) → (t.vreg r).n = s.vl ∧ (t.vreg r).prog = s.vl ∧ (t.vreg r).ty = e.td ∧
        t.file.dirty.getLsbD r = true ∧ s.Encodes e (rs.map (fun r => r.bits)) (t.vreg r)) ∧
      t.regs = { s.regs.vectorDone with fflg := s.regs.fflg ||| flagsOf rs } ∧ t.msys = s.msys ∧
      (∀ r, r ≠ d → (e.td.wide = true → r ≠ d + 1) → t.vreg r = s.vreg r) ∧
      t.file.acc = s.file.acc ∧ t.file.b = s.file.b ∧ (∀ h, h ≠ s.cur → t.thread h = s.thread h) ∧
      (∀ k j, j < s.vlmax → (t.kreg k).getLsbD j = ((s.kreg k).getLsbD j || (k == s.regs.satk.toNat && decide (s.vstart ≤ j) &&
        ((rs.map (fun r => r.mark)).getD (j - s.vstart) false))))) ∧
    (e.narrowing = true → i = .vcvt f) ∧
    (∀ st, i = .vcvt f → WellFormed (.vcvt f) = true → Ty.ofCode (f.immBits 3 0) = some st →
      (e.narrowing = true ↔ st.isTile = true ∨ (st = .e8 ∧ f.ty = .h) ∨
        (f.ty.isInt = true ∧ (st.isFloat = true ∨ maxOf f.ty < maxOf st ∨ minOf st < minOf f.ty)) ∨
        (f.ty.isFloat = true ∧ st.isFloat = true ∧ f.ty.width ≤ st.width))) ∧
    (e.delta = true ↔ (∃ g : W3, (i = .vadd g ∨ i = .vsub g) ∧ g.bScalar = true ∧ g.q.getLsbD 0 = false)) ∧
    (e.stochastic = true ↔ i ∈ ([Instr.vfadd f, .vfsub f, .vfmul f, .vffma f, .vffms f, .vfnma f, .vfdiv f, .vfsqrt f, .vfrcp f,
        .vfrsqrt f, .vfexp2 f, .vflog2 f, .vcvt f] : List Instr) ∧ (f.q = 6 ∨ (f.q = 5 ∧ s.regs.frmRm = 6))) ∧
    (fits = true → s.vstart < s.vl → s.stopAt = none →
      exec i s = .next (((((s.putResult e (s.row e) (rs.map (fun r => r.bits))).orFlags (flagsOf rs)).markElems
        (marksFrom s.vstart rs)).setVstart 0).ended)) ∧
    (fits = true → s.vl ≤ s.vstart → exec i s = .next (s.setVstart 0).ended) ∧
    (s.Calm → fits = false → exec i s = .next (s.trapped 1 (encode i)))

/-- R82, R166: the results of an element-wise member are one for each element from VSTART to VL: what its element function
gives for the operands' elements (a scalar B the same for each), and zero with no flag and no mark where the execution mask is 0. -/
def Obligations.ElementResultsAreIndependent : Prop :=
  ∀ (s : State) (e : ElemSpec) (n : Nat), (∀ t, (t = e.ta ∨ t = e.td) → t.isTile = false) →
    (∀ t r, e.b = .vec t r → t.isTile = false) → s.vstart + n < s.vl →
    let i := s.vstart + n
    let a := (s.velems e.ta e.a.toNat s.vl).getD i 0
    let b := (match e.b with
      | .none => 0 | .vec t r => (s.velems t r.toNat s.vl).getD i 0 | .scalar t r => (s.getS r).toNat % 2 ^ t.width)
    let c := (match e.c with
      | .none => 0 | .dest => (s.velems e.td e.d.toNat s.vl).getD i 0
      | .mask r => if (s.kreg r.toNat).getLsbD i then 1 else 0)
    (s.results e)[n]? = some (if e.k = 0 ∨ (s.kreg e.k.toNat).getLsbD i = true then e.fn i a b c
      else { bits := 0, flags := 0, mark := false })

/-- R264-R266: what each VINT member makes of one pair of elements, with Q = 0: the low w bits of the exact result.
R265: `vmulw` and `vmacw` form the exact product of a TY and a B-type element; the first writes it at twice the wider width,
the second adds it to D there and, with Q[0] = 0, keeps the low bits.
R267: with Q[0] = 1, `vadd`, `vsub`, `vmul`, `vshl`, `vabs`, `vneg` and `vmacw` give the value of the type nearest to the exact
result, with FFLG.SAT and FFLG.NX and a mark when that differs from it. -/
def Obligations.VectorIntegerElements : Prop :=
  (∀ (f : W3) (i a b c : Nat), f.ty.isInt = true → f.q = 0 →
     let w := f.ty.width
     let x := BitVec.ofNat w a
     let y := BitVec.ofNat w b
     let gives := fun (e : ElemSpec) (r : BitVec w) => e.fn i a b c = { bits := r.toNat, flags := 0, mark := false }
     gives (specVadd f) (x + y) ∧ gives (specVsub f) (x - y) ∧ gives (specVmul f) (x * y) ∧
     gives (specVand f) (x &&& y) ∧ gives (specVor f) (x ||| y) ∧ gives (specVxor f) (x ^^^ y) ∧
     gives (specVshl f) (x <<< (b % w)) ∧ gives (specVshr f) (x >>> (b % w)) ∧ gives (specVsra f) (x.sshiftRight (b % w)) ∧
     gives (specVneg f) (-x) ∧ gives (specVabs f) (if f.ty.signed && x.msb then -x else x) ∧
     gives (specVmin f) (if (if f.ty.signed then x.sle y else x.ule y) then x else y) ∧
     gives (specVmax f) (if (if f.ty.signed then x.sle y else x.ule y) then y else x) ∧
     gives (specVmulh f) (BitVec.ofInt w ((if f.ty.signed then x.toInt * y.toInt else (x.toNat * y.toNat : Int)) / 2 ^ w)) ∧
     ((specVsel f).fn i a b c).bits = (if c = 1 then a else b)) ∧
  (∀ (f : W3) (i a b c : Nat), f.ty.isInt = true → f.q.getLsbD 0 = true →
     let x := valBV f.ty (BitVec.ofNat 64 a)
     let y := valBV f.ty (BitVec.ofNat 64 b)
     let clamps := fun (e : ElemSpec) (t : Ty) (r : Int) => e.fn i a b c =
       { bits := (BitVec.ofInt t.width (clampTo t r)).toNat, flags := if clampTo t r = r then 0 else flSAT ||| flNX,
         mark := decide (clampTo t r ≠ r) }
     clamps (specVadd f) f.ty (x + y) ∧ clamps (specVsub f) f.ty (x - y) ∧ clamps (specVmul f) f.ty (x * y) ∧
     clamps (specVshl f) f.ty (x * 2 ^ (b % f.ty.width)) ∧ clamps (specVabs f) f.ty (if x < 0 then -x else x) ∧
     clamps (specVneg f) f.ty (-x) ∧
     (∀ tb td, Ty.ofCode (f.immBits 3 0) = some tb → tb.isInt = true → wideTy f.ty tb = some td →
       clamps (specVmacw f) td (valBV td (BitVec.ofNat 64 c) + x * valBV tb (BitVec.ofNat 64 b)))) ∧
  (∀ (f : W3) (tb td : Ty) (i a b c : Nat), Ty.ofCode (f.immBits 3 0) = some tb → wideTy f.ty tb = some td →
     f.ty.isInt = true → tb.isInt = true → f.q.getLsbD 0 = false →
     let p := valBV f.ty (BitVec.ofNat 64 a) * valBV tb (BitVec.ofNat 64 b)
     td.width = 2 * max f.ty.width tb.width ∧
     ((specVmulw f).fn i a b c).bits = (BitVec.ofInt td.width p).toNat ∧
     ((specVmacw f).fn i a b c).bits = (BitVec.ofInt td.width (p + (c : Int))).toNat ∧
     valBV td (BitVec.ofNat 64 ((specVmulw f).fn i a b c).bits) = p)

/-- R272: `vcmp` and `vfcmp` set bit i of kD for each element i of [VSTART, VL) to the condition on its operands, 0 where masked
off; bits below VSTART stand and bits from VL to VLMAX − 1 become 0. No flag is raised. With VSTART ≥ VL no bit changes.
R272, R216, Table 17.6: the condition of `vcmp` compares with the signedness of TY; that of `vfcmp` compares values, −0 equal to +0
and a subnormal read as zero under FRM.FZ, and holds with a NaN only for `.ne` and `.un`. -/
def Obligations.ComparisonsWriteMaskBits : Prop :=
  (∀ (f : W3) (r : ThreadRegs) (c : CmpFn) (a b : Nat), cmpOf r (.vcmp f) = some (f, c) → f.ty.isInt = true → f.immBits 2 0 < 6 →
    let x := valBV f.ty (BitVec.ofNat 64 a)
    let y := valBV f.ty (BitVec.ofNat 64 b)
    c a b = match f.immBits 2 0 with
      | 0 => decide (x = y) | 1 => decide (x ≠ y) | 2 => decide (x < y) | 3 => decide (x ≤ y) | 4 => decide (y < x)
      | _ => decide (y ≤ x)) ∧
  (∀ (f : W3) (r : ThreadRegs) (c : CmpFn) (a b : Nat), cmpOf r (.vfcmp f) = some (f, c) → f.ty.isVFloat = true →
    let x := BitVec.ofNat f.ty.width a
    let y := BitVec.ofNat f.ty.width b
    let value := fun (z : BitVec f.ty.width) =>
      if r.frmFz ∧ magBits f.ty z < 2 ^ ((fmtOf f.ty).p - 1) then (0 : Int) else floatRank f.ty false z
    c a b = if isNaN f.ty x || isNaN f.ty y then f.immBits 2 0 == 1 || f.immBits 2 0 == 6
      else match f.immBits 2 0 with
        | 0 => decide (value x = value y) | 1 => decide (value x ≠ value y) | 2 => decide (value x < value y)
        | 3 => decide (value x ≤ value y) | 4 => decide (value y < value x) | 5 => decide (value y ≤ value x)
        | 6 => false | _ => true) ∧
  (∀ (f : W3) (s : State), ∀ i ∈ ([Instr.vcmp f, .vfcmp f] : List Instr), s.fits [f.ty] true = true → s.vl ≤ s.vstart →
    exec i s = .next (s.setVstart 0).ended) ∧
  ∀ (f : W3) (c : CmpFn) (s : State), s.placed → ∀ i ∈ ([Instr.vcmp f, .vfcmp f] : List Instr), cmpOf s.regs i = some (f, c) → f.ty.isTile = false →
    s.fits [f.ty] true = true → f.d.toNat < 8 → s.stopAt = none → s.vstart < s.vl → s.vlmax ≤ 2048 →
    ∃ t, exec i s = .next t ∧ t.pc = s.pc + 8 ∧ t.vstart = 0 ∧ t.regs.fflg = s.regs.fflg ∧ t.msys = s.msys ∧
      (∀ r, t.getS r = s.getS r) ∧ (∀ r, r ≠ f.d.toNat → t.kreg r = s.kreg r) ∧
      ∀ j, j < s.vlmax → (t.kreg f.d.toNat).getLsbD j =
        if j < s.vstart then (s.kreg f.d.toNat).getLsbD j
        else decide (j < s.vl) && (f.k = 0 || (s.kreg f.k.toNat).getLsbD j)
          && c ((s.velems f.ty f.a.toNat s.vl).getD j 0)
               (if f.bScalar then (s.getS f.b).toNat % 2 ^ f.ty.width else (s.velems f.ty f.b.toNat s.vl).getD j 0)

-- VRED, VPERM, VENC, MASK -------------------------------------------------------------------------------------------------------

/-- R274, R276: `vrsum`, `vrmax` and `vrmin` put the result over elements [0, VL) of A into element 0 of D and zeros into elements 1
to VL − 1, and the scans put the result over elements 0..j into element j, zero where masked off; masked-off elements count as the
identity; VL = 0 gives a reduction the identity's result, with N = 1. Integers: the exact sum, the largest or the smallest, of which
the low w bits are kept, or with Q[0] = 1 the nearest value of the type, flagged and marked. Floating types: R76's canonical tree of
2^depth leaves, the least depth from 6 that holds L, whose top node is rounded as a narrowing conversion in the mode of the element.
R76, R71: a node of a sum is the sum rounded to W80 in `.rne`, raising OF and, for opposite infinities, INV alone. R275: `vrsum.w`
writes the top node's 80 bits as three `.n32` elements. R77: a node of a maximum or a minimum is the larger or the smaller of its
two operands, −0 below +0; a NaN gives way to the other operand, two NaNs give a NaN, and no flag is added. R78: their identities
are −∞ and +∞, and that of a sum is −0. -/
def Obligations.ReductionsAndScans : Prop :=
  (∀ (f : W3) (s : State) (depth : Nat), s.placed → s.fits [f.ty] (f.k != 0) = true → vOk f.ty f.d → s.vlmax ≤ 2048 →
     (f.ty.isInt = true ∨ f.ty.isVFloat = true) → 6 ≤ depth → s.vl ≤ 2 ^ depth → (depth = 6 ∨ 2 ^ (depth - 1) < s.vl) →
     let n := s.vl
     let on := fun (i : Nat) => f.k == 0 || (s.kreg f.k.toNat).getLsbD i
     let elem := fun (i : Nat) => (s.velems f.ty f.a.toNat n).getD i 0
     let none : FRes := { bits := 0, flags := 0, mark := false }
     let exact := fun (x : Int) (sat : Bool) =>
       ({ bits := (BitVec.ofInt f.ty.width (if sat then clampTo f.ty x else x)).toNat,
          flags := if sat ∧ clampTo f.ty x ≠ x then flSAT ||| flNX else 0, mark := sat && decide (clampTo f.ty x ≠ x) } : FRes)
     let vals := fun (j : Nat) => ((List.range j).filter on).map (fun i => valBV f.ty (BitVec.ofNat 64 (elem i)))
     let fold := fun (op : TreeOp) (j : Nat) => match op with
       | .sum => (vals j).sum | .max => (vals j).foldl max (minOf f.ty) | .min => (vals j).foldl min (maxOf f.ty)
     let leaf := fun (op : TreeOp) (j i : Nat) =>
       if i < j ∧ on i then
         ({ v := w80Of (readFloat f.ty s.regs.frmFz (elem i)).1, fl := (readFloat f.ty s.regs.frmFz (elem i)).2 } : Node)
       else op.id
     let upTo := fun (op : TreeOp) (j i : Nat) =>
       if f.ty.isVFloat then s.roundNode f.ty f.q.toNat i (treeNode op (leaf op j) depth 0)
       else exact (fold op j) (f.q.getLsbD 0)
     let gives := fun (i : Instr) (count : Nat) (l : List FRes) => ∃ t, exec i s = .next t ∧ t.pc = s.pc + 8 ∧ t.vstart = 0 ∧
       t.msys = s.msys ∧ (∀ r, t.getS r = s.getS r) ∧ t.regs.fflg = s.regs.fflg ||| l.foldl (fun a r => a ||| r.flags) 0 ∧
       (t.vreg f.d.toNat).n = count ∧
       (∀ j, j < count → t.velem f.ty f.d.toNat j = (l.getD j none).bits % 2 ^ f.ty.width) ∧
       (∀ k j, j < s.vlmax → (t.kreg k).getLsbD j =
         ((s.kreg k).getLsbD j || (k == s.regs.satk.toNat && (l.getD j none).mark)))
     (f.imm.getLsbD 0 = false → gives (.vrsum f) (max n 1) [upTo .sum n 0]) ∧
     gives (.vrmax f) (max n 1) [upTo .max n 0] ∧ gives (.vrmin f) (max n 1) [upTo .min n 0] ∧
     gives (.vscanSum f) n ((List.range n).map (fun j => if on j then upTo .sum (j + 1) j else none)) ∧
     gives (.vscanMax f) n ((List.range n).map (fun j => if on j then upTo .max (j + 1) j else none)) ∧
     gives (.vscanMin f) n ((List.range n).map (fun j => if on j then upTo .min (j + 1) j else none)) ∧
     (f.imm.getLsbD 0 = true → f.ty.isVFloat = true → ∃ t, exec (.vrsum f) s = .next t ∧ t.pc = s.pc + 8 ∧ t.vstart = 0 ∧
       let top := treeNode .sum (leaf .sum n) depth 0
       t.regs.fflg = s.regs.fflg ||| top.fl ∧ (t.vreg f.d.toNat).n = 3 ∧ (t.vreg f.d.toNat).ty = .n32 ∧
       t.velem .n32 f.d.toNat 0 = (top.v.extractLsb' 0 32).toNat ∧ t.velem .n32 f.d.toNat 1 = (top.v.extractLsb' 32 32).toNat ∧
       t.velem .n32 f.d.toNat 2 = (top.v.extractLsb' 64 16).toNat)) ∧
  (∀ (s : State) (t : Ty) (q i : Nat) (x : Node), t.isVFloat = true →
     let r := s.roundNode t q i x
     match fmtW80.decode x.v.toNat with
     | .nan => r.bits = nanPattern t ∧ r.flags = x.fl ∧ r.mark = false
     | .inf neg => (fmtOf t).decode r.bits = .inf neg ∧ r.flags = x.fl ∧ r.mark = false
     | .fin neg m e =>
       (0 < m → r.RoundsOnce (fmtOf t) (fun c k => cmpDyadic c k m e) neg (s.regs.mode q i) s.regs.frmFz true x.fl) ∧
       (m = 0 → (fmtOf t).holds r.bits neg 0 0 ∧ r.flags = x.fl ∧ r.mark = false)) ∧
  (∀ (a b : Node),
     let x := TreeOp.sum.node a b
     TreeOp.sum.id = { v := BitVec.ofNat 80 (2 ^ 79), fl := 0 } ∧
     match fmtW80.decode a.v.toNat, fmtW80.decode b.v.toNat with
     | .fin s m e, .fin t n d => ∃ r : FRes, r.IsSum fmtW80 s m e t n d .rne false 0 ∧ x.v = BitVec.ofNat 80 r.bits ∧
         x.fl = a.fl ||| b.fl ||| (r.flags &&& flOF)
     | .inf s, .inf t => fmtW80.decode x.v.toNat = (if s = t then .inf s else .nan) ∧
         x.fl = a.fl ||| b.fl ||| (if s = t then 0 else flINV)
     | .inf s, .fin _ _ _ => fmtW80.decode x.v.toNat = .inf s ∧ x.fl = a.fl ||| b.fl
     | .fin _ _ _, .inf t => fmtW80.decode x.v.toNat = .inf t ∧ x.fl = a.fl ||| b.fl
     | _, _ => fmtW80.decode x.v.toNat = .nan ∧ x.fl = a.fl ||| b.fl) ∧
  (let is := fun (x : Node) (v : FVal) => match v with
     | .nan => fmtW80.decode x.v.toNat = .nan
     | .inf s => fmtW80.decode x.v.toNat = .inf s
     | .fin s m e => fmtW80.holds x.v.toNat s m e
   let less := fun (v w : FVal) => match v, w with
     | .inf s, .inf t => s = true ∧ t = false
     | .inf s, .fin _ _ _ => s = true
     | .fin _ _ _, .inf t => t = false
     | .fin s m e, .fin t n d =>
       let q := min e d
       let x : Int := (if s then -1 else 1) * (m * 2 ^ (e - q).toNat : Nat)
       let y : Int := (if t then -1 else 1) * (n * 2 ^ (d - q).toNat : Nat)
       x < y ∨ (x = y ∧ s = true ∧ t = false)
     | _, _ => False
   is (TreeOp.id .max) (.inf true) ∧ (TreeOp.id .max).fl = 0 ∧ is (TreeOp.id .min) (.inf false) ∧ (TreeOp.id .min).fl = 0 ∧
   ∀ (a b : Node),
     let v := fmtW80.decode a.v.toNat
     let w := fmtW80.decode b.v.toNat
     (TreeOp.max.node a b).fl = a.fl ||| b.fl ∧ (TreeOp.min.node a b).fl = a.fl ||| b.fl ∧
     (v = .nan → is (TreeOp.max.node a b) w ∧ is (TreeOp.min.node a b) w) ∧
     (w = .nan → is (TreeOp.max.node a b) v ∧ is (TreeOp.min.node a b) v) ∧
     (v ≠ .nan → w ≠ .nan → (less v w → is (TreeOp.max.node a b) w ∧ is (TreeOp.min.node a b) v) ∧
       (¬ less v w → is (TreeOp.max.node a b) v ∧ is (TreeOp.min.node a b) w)))

/-- R277, R278: the members that move elements between lanes give D's elements [0, VL), PLAIN, from A's, D's or a scalar; positions
that the execution mask turns off are zero (in `vspread` they keep D; in `vcompress` the active ones close up).
R279: `vextr` writes element s of A, extended by TY, or 0 when s is not below VL; `vins` replaces element s of D by the low bits of
sA when s is below VL, and every other element of D below VL stands. -/
def Obligations.LaneMovesAndElementAccess : Prop :=
  (∀ (f : W3) (s : State), s.placed → s.fits [f.ty] (f.k != 0) = true → vOk f.ty f.d → s.vlmax ≤ 2048 →
     let n := s.vl
     let a := fun (j : Nat) => (s.velems f.ty f.a.toNat n).getD j 0
     let on := fun (i : Nat) => f.k == 0 || (s.kreg f.k.toNat).getLsbD i
     let off := if f.bScalar then (s.getS f.b).toNat else f.immBits 12 0
     let gives := fun (i : Instr) (l : List Nat) => ∃ t, exec i s = .next t ∧ t.pc = s.pc + 8 ∧ t.vstart = 0 ∧ t.msys = s.msys ∧
       t.regs.fflg = s.regs.fflg ∧ (∀ r, t.getS r = s.getS r) ∧ ∀ j, j < n → t.velem f.ty f.d.toNat j = l.getD j 0 % 2 ^ f.ty.width
     let perm := fun (i : Instr) (g : Nat → Nat) => gives i ((List.range n).map (fun j => if on j then g j else 0))
     gives (.vcompress f) (((List.range n).filter on).map a) ∧
     gives (.vspread f) ((List.range n).map (fun j => if on j then a (((List.range j).filter on).length)
       else (s.velems f.ty f.d.toNat n).getD j 0)) ∧
     perm (.vperm f) (fun j =>
       let k := if f.bScalar then (s.getS f.b).toNat % 2 ^ 32 else (s.velems .n32 f.b.toNat n).getD j 0
       if k < n then a k else 0) ∧
     perm (.vslideup f) (fun j => if off ≤ j then a (j - off) else 0) ∧
     perm (.vslidedn f) (fun j => if j + off < n then a (j + off) else 0) ∧
     perm (.vbcastScalar f) (fun _ => (s.getS f.b).toNat) ∧
     perm (.vbcastElementIndexed f) (fun _ => if (s.getS f.b).toNat < n then s.velem f.ty f.a.toNat (s.getS f.b).toNat else 0) ∧
     perm (.vbcastElement f) (fun _ => if f.immBits 12 0 < n then s.velem f.ty f.a.toNat (f.immBits 12 0) else 0) ∧
     gives (.viota f) ((List.range n).map (fun j => ((List.range j).filter on).length)) ∧
     perm (.vrev f) (fun j => a (n - 1 - j))) ∧
  (∀ (f : W3) (s : State), s.placed → s.fits [f.ty] false = true → s.vlmax ≤ 2048 →
     let j := if f.bScalar then (s.getS f.b).toNat else f.immBits 12 0
     exec (.vextr f) s = .next ((((s.setS f.d (if j < s.vl then extBV f.ty (BitVec.ofNat _ (s.velem f.ty f.a.toNat j)) else 0)).setVstart
       0)).ended) ∧
     (s.vl ≤ j → exec (.vins f) s = .next (s.setVstart 0).ended) ∧
     (j < s.vl → vOk f.ty f.d →
       ∃ t, exec (.vins f) s = .next t ∧ t.pc = s.pc + 8 ∧ t.vstart = 0 ∧ (∀ r, t.getS r = s.getS r) ∧
         ∀ k, k < s.vl → t.velem f.ty f.d.toNat k =
           (if k = j then (s.getS f.a).toNat else (s.velems f.ty f.d.toNat s.vl).getD k 0) % 2 ^ f.ty.width))

/-- R280, R281: `venc` in each of its targets and `vexpand` leave the values of elements [0, VL) of A in D, whatever the encoding
they choose; flags, masks, scalar registers and memory stand. R280, R281, R407: D has TY, N = PROG = VL and its VDIRTY bit set, and
every other vector register stands. `.auto` gives RUN when the coalesced run count S has S × RDIV ≤ VL and else what `.dict` gives,
`.run` RUN with P = S, `.dict` DICT with P the count of its distinct patterns when these are at most 256, `.delta` DELTA with P = 1
when every difference lies in −32,768..32,767, and `vexpand`, VL = 0 and what does not fit PLAIN, with P = 0; above VL `vexpand`
leaves zeros. DESIGN CHOICE: `vexpand` sets VSTART to 0, of which R281 does not speak (log entry 58). -/
def Obligations.ReencodingKeepsValues : Prop :=
  ∀ (f : W3) (s : State), s.placed → s.fits [f.ty] false = true → vOk f.ty f.d →
    s.vlmax ∈ ([512, 1024, 2048] : List Nat) →
    let same := fun (i : Instr) => ∃ t, exec i s = .next t ∧ t.pc = s.pc + 8 ∧ t.vstart = 0 ∧ t.msys = s.msys ∧
      t.regs.fflg = s.regs.fflg ∧ (∀ r, t.getS r = s.getS r) ∧ (∀ r, t.kreg r = s.kreg r) ∧
      t.velems f.ty f.d.toNat s.vl = s.velems f.ty f.a.toNat s.vl
    let n := s.vl
    let l := s.velems f.ty f.a.toNat n
    let gives := fun (i : Instr) (x : Tag × Nat) => ∃ t, exec i s = .next t ∧
      (∀ r, r = f.d.toNat ∨ (f.ty.wide = true ∧ r = f.d.toNat + 1) → (t.vreg r).tag = x.1 ∧ (t.vreg r).p = x.2 ∧
        (t.vreg r).ty = f.ty ∧ (t.vreg r).n = n ∧ (t.vreg r).prog = n ∧ t.file.dirty.getLsbD r = true) ∧
      (∀ r, r ≠ f.d.toNat → (f.ty.wide = true → r ≠ f.d.toNat + 1) → t.vreg r = s.vreg r) ∧
      (i = .vexpand f → ∀ j, n ≤ j → j < s.cap f.ty → t.velem f.ty f.d.toNat j = 0)
    let plain := (Tag.plain, 0)
    let run := if 0 < n ∧ segments l ≤ s.vlmax then (Tag.run, segments l) else plain
    let dict := if 0 < n ∧ n ≤ s.vlmax ∧ l.eraseDups.length ≤ 256 then (Tag.dict, l.eraseDups.length) else plain
    let step := fun (j : Nat) => (BitVec.ofNat f.ty.width (l.getD j 0) - BitVec.ofNat f.ty.width (l.getD (j - 1) 0)).toInt
    (f.ty.wide = false → same (.vencAuto f) ∧ same (.vencRun f) ∧ same (.vencDict f) ∧
      (f.ty.isInt = true → same (.vencDelta f))) ∧
    same (.vexpand f) ∧
    (f.ty.wide = false → f.ty.isTile = false →
      gives (.vencAuto f) (if segments l * s.regs.rdiv.toNat ≤ n then run else dict) ∧ gives (.vencRun f) run ∧ gives (.vencDict f) dict ∧
      (f.ty.isInt = true → ∀ fitsDelta : Bool,
        (fitsDelta = true ↔ 0 < n ∧ n ≤ s.vlmax ∧ ∀ j, 0 < j → j < n → -32768 ≤ step j ∧ step j ≤ 32767) →
        gives (.vencDelta f) (if fitsDelta then (Tag.delta, 1) else plain))) ∧
    gives (.vexpand f) plain

/-- R282, Table 7.1: `vinfo` writes the descriptor of vA: TAG, TY, N, P and PROG at their places; for a register that another thread
of the core is writing, N as that write will leave it, the other thread's VL. R283: `kand`, `kor`, `kxor`, `knot` and `kmov` act on
all VLMAX bits of their masks whatever VL is; `kpopc` counts the set bits below min(VL, VLMAX) and `kfirst` gives the lowest, or all
ones. -/
def Obligations.DescriptorsAndMaskMembers : Prop :=
  (∀ (f : W3) (s : State), s.placed →
     let v := s.vreg f.a.toNat
     let tag := (match v.tag with | .plain => 0 | .run => 1 | .dict => 2 | .delta => 3)
     let shows := fun (n : Nat) => exec (.vinfo f) s = .next (s.put f.d (BitVec.ofNat 64
       (tag + 2 ^ 4 * v.ty.code + 2 ^ 8 * n + 2 ^ 24 * v.p + 2 ^ 40 * v.prog)))
     let writing := fun (i : Nat) => i < 4 ∧ i ≠ s.cur.thread ∧ (s.thread { s.cur with thread := i }).specFile = none ∧
       ∃ pc, (s.thread { s.cur with thread := i }).stopped = some (pc, some f.a.toNat)
     ((∀ i, ¬ writing i) ∨ s.thr.specFile ≠ none → shows v.n) ∧
     (∀ i, s.thr.specFile = none → writing i → (∀ k, writing k → k = i) → shows (s.thread { s.cur with thread := i }).regs.vl)) ∧
  (∀ (f : W3) (s : State), s.placed →
     let a := s.kreg f.a.toNat
     let b := s.kreg f.b.toNat
     let m := min s.vl s.vlmax
     let gives := fun (i : Instr) (g : Nat → Bool) => f.d.toNat < 8 → s.vlmax ≤ 2048 → ∃ t, exec i s = .next t ∧ t.pc = s.pc + 8 ∧
       t.msys = s.msys ∧ (∀ r, t.getS r = s.getS r) ∧ (∀ r, r ≠ f.d.toNat → t.kreg r = s.kreg r) ∧
       ∀ j, (t.kreg f.d.toNat).getLsbD j = (decide (j < s.vlmax) && g j)
     gives (.kand f) (fun j => a.getLsbD j && b.getLsbD j) ∧ gives (.kor f) (fun j => a.getLsbD j || b.getLsbD j) ∧
     gives (.kxor f) (fun j => a.getLsbD j != b.getLsbD j) ∧ gives (.knot f) (fun j => !a.getLsbD j) ∧
     gives (.kmov f) (fun j => a.getLsbD j) ∧
     exec (.kpopc f) s = .next (s.put f.d (BitVec.ofNat 64 ((List.range m).countP (fun j => a.getLsbD j)))) ∧
     ((∀ j, j < m → a.getLsbD j = false) → exec (.kfirst f) s = .next (s.put f.d (BitVec.allOnes 64))) ∧
     (∀ n, n < m → a.getLsbD n = true → (∀ j, j < n → a.getLsbD j = false) →
       exec (.kfirst f) s = .next (s.put f.d (BitVec.ofNat 64 n))))

-- VLD, VST ------------------------------------------------------------------------------------------------------------------------

/-- R238, R240, R242: the unit-stride, strided and indexed loads and the linked gather, when VL is within capacity and every active
element of [VSTART, VL) passes its checks: element j of D is the little-endian value at its address (a half byte for `.q4`), 0 where
the mask is off, and as before below VSTART; no byte of memory and nothing else of the core changes; `vldl` also holds a reservation
of each element. At the restart of a stopped `vldg` or `vldl` a byte it had read already has the value it had then (R124). DEDUCED:
that of a stopped `vlds` too (log entry 22), and the capacity counts TY and not the `.i32` of the indices (log entry 18). With
nothing to do only VSTART and PC change. An element that fails raises its trap with TVAL its address, VSTART its index, and the
elements below it written. -/
def Obligations.VectorLoadsGiveElements : Prop :=
  ∀ (i : Instr) (f : WM) (el : Nat → Elem) (s : State), s.Calm → f.c = 0 →
    (i = .vld f ∧ el = State.unitAt f s) ∨ (i = .vlds f ∧ el = State.stridedAt f s) ∨
      ((i = .vldg f ∨ i = .vldl f) ∧ el = State.indexedAt f s) →
    s.fits [f.ty] (f.k != 0) = true → s.stopAt = none → s.side.done = none → vOk f.ty f.d → s.vlmax ≤ 2048 →
    let active := fun (j : Nat) => f.k = 0 ∨ (s.kreg f.k.toNat).getLsbD j = true
    let rows := (match s.side.rows.find? (fun r => r.pc == s.pc && r.next == s.vstart) with
      | some r => if i = .vld f then [] else r.bytes
      | none => [])
    let value := fun (p : Place) (j : Nat) =>
      let b := ofBytes ((s.loadAt s.msys p (el j).size).mapIdx (fun k x => (SMap.find rows (p.pa + k)).getD x))
      (if (el j).high then b / 16 else b) % 2 ^ f.ty.width
    let holds := fun (t : State) (acc : Nat → Place) (n : Nat) => ∀ j, j < n → t.velem f.ty f.d.toNat j =
      if j < s.vstart then (s.velems f.ty f.d.toNat s.vl).getD j 0
      else if f.k = 0 ∨ (s.kreg f.k.toNat).getLsbD j = true then value (acc j) j else 0
    (s.vl ≤ s.vstart → exec i s = .next s.vdone.ended) ∧
    (∀ acc : Nat → Place, s.vstart < s.vl →
      (∀ j, s.vstart ≤ j → j < s.vl → active j →
        s.vectorAccess s.msys s.me .load (el j).va (el j).size (el j).size = .ok (acc j)) →
      ∃ t, exec i s = .next t ∧ t.regs = s.regs.vectorDone ∧ s.onlyVector t f.ty f.d.toNat ∧ s.msys.sameBut t.msys [] ∧
        holds t acc s.vl ∧ t.side.resv = s.side.resv ∧
        (i = .vldl f → ∀ j, s.vstart ≤ j → j < s.vl → active j → ∃ r, SMap.find t.side.vresv j = some r ∧ r.va = (el j).va ∧
          r.pa = (acc j).pa ∧ r.size = f.ty.width / 8 ∧ r.lost = false)) ∧
    (∀ (acc : Nat → Place) (n c : Nat), s.open_ → s.vstart ≤ n → n < s.vl → active n →
      (∀ j, s.vstart ≤ j → j < n → active j →
        s.vectorAccess s.msys s.me .load (el j).va (el j).size (el j).size = .ok (acc j)) →
      s.vectorAccess s.msys s.me .load (el n).va (el n).size (el n).size = .error c →
      ∃ t, exec i s = .next t ∧ t.regs = { s.regs with vstart := n }.enter (Trap.sync c (el n).va s.pc) ∧
        s.onlyVector t f.ty f.d.toNat ∧ s.msys.sameBut t.msys [] ∧ holds t acc n)

/-- R239, R240, R242: the unit-stride, strided and indexed stores and the conditional scatter, when every element to store passes
its checks under one key: the elements of [VSTART, VL) that are active (and, of `vstc`, succeed: only these are checked, DEDUCED, log
entry 21) are stored in order, so that
one no later element overlaps is found at its address; every other byte reads as before and no register but PC and VSTART
changes. `vstc` also leaves in its mask the active elements that failed, those of a stopped start included, and no element
reservation. An element that fails a
check raises its trap with VSTART its index, and the elements below it stored. -/
def Obligations.VectorStoresWriteElements : Prop :=
  ∀ (i : Instr) (f : WM) (el : Nat → Elem) (s : State), s.Calm → s.Canonical → f.c = 0 →
    (i = .vst f ∧ el = State.unitAt f s) ∨ (i = .vsts f ∧ el = State.stridedAt f s) ∨
      ((i = .vstg f ∨ i = .vstc f) ∧ el = State.indexedAt f s) →
    s.fits [f.ty] (f.k != 0) = true → s.stopAt = none → s.side.done = none → s.vlmax ≤ 2048 → (i = .vstc f → f.k ≠ 0) →
    let active := fun (j : Nat) => f.k == 0 || (s.kreg f.k.toNat).getLsbD j
    let chosen := fun (j : Nat) => active j && (decide (i ≠ .vstc f) || s.scatterOk f.ty el active j)
    let todo := fun (n : Nat) => (List.range n).filter (fun j => decide (s.vstart ≤ j) && chosen j)
    let size := (el 0).size
    let stored := fun (t : State) (key : BitVec 256) (pa : Nat → Nat) (n : Nat) =>
      (∀ j ∈ todo n, (∀ k ∈ todo n, j < k → pa k + size ≤ pa j ∨ pa j + size ≤ pa k ∨ (pa j = pa k ∧ (el j).high ≠ (el k).high)) →
        let x := (s.velems f.ty f.d.toNat s.vl).getD j 0
        if f.ty.width < 8 then
          (let b := (t.msys.readByte key (pa j)).toNat; (if (el j).high then b / 16 else b % 16) = x % 16)
        else ofBytes (t.msys.load key (pa j) size) = x % 2 ^ f.ty.width) ∧
      s.msys.sameBut t.msys ((todo n).map (fun j => (pa j, size))) ∧
      s.msys.sameOutside t.msys key ((todo n).map (fun j => (pa j, size)))
    (i ≠ .vstc f → s.vl ≤ s.vstart → exec i s = .next s.vdone.ended) ∧
    (∀ (key : BitVec 256) (pa : Nat → Nat), (i ≠ .vstc f → s.vstart < s.vl) →
      (∀ j ∈ todo s.vl, s.vectorAccess s.msys s.me .store (el j).va (el j).size (el j).size = .ok { pa := pa j, key := key }) →
      ∃ t, exec i s = .next t ∧ t.regs = s.regs.vectorDone ∧ stored t key pa s.vl ∧ (∀ r, t.vreg r = s.vreg r) ∧
        (∀ h, h ≠ s.cur → t.thread h = s.thread h) ∧ (∀ r, (i = .vstc f → r ≠ f.k.toNat) → t.kreg r = s.kreg r) ∧
        (i = .vstc f → t.side.vresv = [] ∧ ∀ j, j < s.vlmax → (t.kreg f.k.toNat).getLsbD j =
          ((match s.side.vstcFail.find? (fun x => x.1 == s.pc && x.2.1 == s.vstart) with
              | some (_, _, k) => k.getLsbD j | none => false)
            || (decide (s.vstart ≤ j) && decide (j < s.vl) && active j && !s.scatterOk f.ty el active j)))) ∧
    (∀ (key : BitVec 256) (pa : Nat → Nat) (n c : Nat), s.open_ → s.vstart ≤ n → n < s.vl → chosen n = true →
      (∀ j ∈ todo n, s.vectorAccess s.msys s.me .store (el j).va (el j).size (el j).size = .ok { pa := pa j, key := key }) →
      s.vectorAccess s.msys s.me .store (el n).va (el n).size (el n).size = .error c →
      ∃ t, exec i s = .next t ∧ t.regs = { s.regs with vstart := n }.enter (Trap.sync c (el n).va s.pc) ∧ stored t key pa n ∧
        (∀ r, t.vreg r = s.vreg r) ∧ (∀ r, t.kreg r = s.kreg r))

/-- R95, R96, R243: `vste` writes vD's image, and `vlde` reads one: the elements of [0, VL) as its encoding gives them, or zeros
with FFLG.INV for an image that is not well formed; VSTART is 0. A base that is no multiple of 16 raises trap 4, before R98's check
of it (log entry 14), and a unit that fails its checks raises its trap. DEDUCED: VSTART stands at a misaligned base, and padding,
the reserved bits of scale words and a DW of another encoding count among what makes an image not well formed (log entry 16). -/
def Obligations.ImagesHoldTheElements : Prop :=
  ∀ (f : WM) (s : State), s.Calm → s.Canonical → f.c = 0 → s.fits [f.ty] false = true → vOk f.ty f.d → s.vlmax ≤ 2048 →
    let va := s.getS f.a + f.off.signExtend 64 * 16
    let w := f.ty.width
    let img := s.image f.ty f.d.toNat
    (va.toNat % 16 ≠ 0 → exec (.vlde f) s = .next (s.trapped 4 va) ∧ exec (.vste f) s = .next (s.trapped 4 va)) ∧
    (va.toNat % 16 = 0 →
      (∀ c a, s.readImage s.msys va f.ty s.vl = .error (c, a) → trapsAfter (.vlde f) s s.vdone c a) ∧
      (s.readImage s.msys va f.ty s.vl = .ok none →
        ∃ t, exec (.vlde f) s = .next t ∧ t.regs = { s.regs.vectorDone with fflg := s.regs.fflg ||| flINV } ∧
          s.onlyVector t f.ty f.d.toNat ∧ s.msys.sameBut t.msys [] ∧ ∀ j, j < s.vl → t.velem f.ty f.d.toNat j = 0) ∧
      (∀ h planes, s.readImage s.msys va f.ty s.vl = .ok (some (h, planes)) →
        let field := fun (off bits j : Nat) => natAt planes off planes.length / 2 ^ (bits * j) % 2 ^ bits
        let second := (imageParts f.ty (tagOf h.tag) h.n h.p h.dw).1
        (f.ty.wide = true ∨ (imageReg s.vlmax f.ty h planes).isSome = true →
          ∃ t, exec (.vlde f) s = .next t ∧ t.regs = s.regs.vectorDone ∧ s.onlyVector t f.ty f.d.toNat ∧ s.msys.sameBut t.msys [] ∧
            ∀ j, j < s.vl → t.velem f.ty f.d.toNat j = match tagOf h.tag with
              | .plain => field 0 w j
              | .run => field 0 w ((List.range h.p).filter (fun r => decide (field second 16 r ≤ j))).length
              | .dict => field 0 w (field second 8 j)
              | .delta => (BitVec.ofInt w ((field 0 w 0 : Int)
                  + ((List.range (j + 1)).map (fun k => sext h.dw (field second h.dw k))).sum)).toNat) ∧
        (f.ty.wide = false → imageReg s.vlmax f.ty h planes = none →
          ∃ t, exec (.vlde f) s = .next t ∧ t.regs = { s.regs.vectorDone with fflg := s.regs.fflg ||| flINV } ∧
            s.onlyVector t f.ty f.d.toNat ∧ s.msys.sameBut t.msys [] ∧ ∀ j, j < s.vl → t.velem f.ty f.d.toNat j = 0)) ∧
      (∀ (key : BitVec 256) (pa : Nat → Nat), let units := img.length / 8
        (∀ u, u < units → s.vectorAccess s.msys s.me .store (va + BitVec.ofNat 64 (8 * u)) 8 8 = .ok { pa := pa u, key := key }) →
        ∃ t, exec (.vste f) s = .next t ∧ t.regs = s.regs.vectorDone ∧ (∀ r, t.vreg r = s.vreg r) ∧
          (∀ u, u < units → (∀ v, u < v → v < units → pa v + 8 ≤ pa u ∨ pa u + 8 ≤ pa v) →
            t.msys.load key (pa u) 8 = bytesAt img (8 * u) 8) ∧
          s.msys.sameBut t.msys ((List.range units).map (fun u => (pa u, 8))) ∧
          s.msys.sameOutside t.msys key ((List.range units).map (fun u => (pa u, 8)))) ∧
      (∀ c a, s.vecRange s.msys s.me .store va 8 (img.length / 8) = some (c, a) → s.open_ →
        ∃ t, exec (.vste f) s = .next t ∧ t.regs = { s.regs with vstart := 0 }.enter (Trap.sync c a s.pc)))

/-- R244-R247, R142: `vldt` and `vldtt` give element (i, j) of each tile of its 16×16 block the code and the scale word of the
record's element (i, j), or (j, i); masked-off elements are zero and a header that R61 or R244 rejects raises FFLG.INV. `vstt`
writes a quantised record for each tile, whose header, codes and flags are those of R73 and R74; its versioned form writes only when
the header's version is the expected one, and says so in B. Of each of the three a payload or header base that is not aligned raises
trap 4 with TVAL that base, the payload's first and also where there is nothing to do (DEDUCED, log entry 23), and a VSTART within a
tile trap 1, as does a control word of `vstt` that Table 18.4 does not allow. -/
def Obligations.TilesLoadAndStore : Prop :=
  ∀ (f : WM) (s : State), s.Calm → s.Canonical → s.fits [f.ty] (f.k != 0) = true → f.ty.isTile = true → f.d.toNat < 32 → s.vlmax ≤ 2048 →
    s.stopAt = none →
    let psz := if f.ty = .q4 then 128 else 256
    let pays := s.getS f.a + f.off.signExtend 64 * BitVec.ofNat 64 psz
    let tiles := (s.vl + 255) / 256
    let active := fun (j : Nat) => f.k == 0 || (s.kreg f.k.toNat).getLsbD j
    (s.vstart % 256 ≠ 0 → exec (.vldt f) s = .next (s.trapped 1 (encode (.vldt f))) ∧
      exec (.vldtt f) s = .next (s.trapped 1 (encode (.vldtt f)))) ∧
    (s.vstart % 256 = 0 → f.c = 0 → pays.toNat % psz ≠ 0 →
      exec (.vldt f) s = .next (s.trapped 4 pays) ∧ exec (.vldtt f) s = .next (s.trapped 4 pays)) ∧
    (s.vstart % 256 = 0 → f.c = 0 → pays.toNat % psz = 0 → (s.getS f.b).toNat % 16 ≠ 0 →
      exec (.vldt f) s = .next (s.trapped 4 (s.getS f.b)) ∧ exec (.vldtt f) s = .next (s.trapped 4 (s.getS f.b))) ∧
    (tileControl (s.getS f.b) f.ty s.vl = none → exec (.vstt f) s = .next (s.trapped 1 (encode (.vstt f)))) ∧
    (∀ c : TileControl, tileControl (s.getS f.b) f.ty s.vl = some c → s.fits [f.ty, c.sty] (f.k != 0) = true →
      (s.vstart % 256 ≠ 0 → exec (.vstt f) s = .next (s.trapped 1 (encode (.vstt f)))) ∧
      (s.vstart % 256 = 0 → pays.toNat % psz ≠ 0 → exec (.vstt f) s = .next (s.trapped 4 pays)) ∧
      (s.vstart % 256 = 0 → pays.toNat % psz = 0 → (s.getS f.c).toNat % 16 ≠ 0 →
        exec (.vstt f) s = .next (s.trapped 4 (s.getS f.c)))) ∧
    (s.vstart % 256 = 0 → f.c = 0 → pays.toNat % psz = 0 → (s.getS f.b).toNat % 16 = 0 → s.vl ≤ s.vstart →
      exec (.vldt f) s = .next s.vdone.ended ∧ exec (.vldtt f) s = .next s.vdone.ended) ∧
    (∀ H P : Nat → List Byte, s.vstart = 0 → 0 < s.vl → f.c = 0 → pays.toNat % psz = 0 → (s.getS f.b).toNat % 16 = 0 →
      (∀ k, k < tiles → s.readTile s.msys (s.getS f.b + BitVec.ofNat 64 (16 * k)) (pays + BitVec.ofNat 64 (psz * k)) psz
        = .ok (H k, P k)) →
      let bad := (List.range s.vl).any (fun j => active j && hdrBad f.ty (H (j / 256)))
      let gives := fun (i : Instr) (tr : Bool) => ∃ t, exec i s = .next t ∧ s.onlyVector t f.ty f.d.toNat ∧ s.msys.sameBut t.msys [] ∧
        t.regs = { s.regs.vectorDone with fflg := s.regs.fflg ||| (if bad then flINV else 0) } ∧
        ∀ j, j < s.vl →
          let r := if tr then j % 16 else j % 256 / 16
          let c := if tr then j % 256 / 16 else j % 16
          t.velem f.ty f.d.toNat j = (if active j then payloadCode f.ty (P (j / 256)) r c else 0) ∧
          (t.vscales f.d.toNat s.vl).getD j 0 = (if active j then tileScale f.ty (H (j / 256)) r c else 0)
      gives (.vldt f) false ∧ gives (.vldtt f) true) ∧
    (∀ (c : TileControl) (k : Nat), tileControl (s.getS f.b) f.ty s.vl = some c →
      let read := fun (n : Nat) =>
        if 256 * k + n < s.vl ∧ active (256 * k + n) = true then
          readFloat c.sty s.regs.frmFz ((s.velems c.sty f.d.toNat s.vl).getD (256 * k + n) 0)
        else (.fin false 0 0, 0)
      ∃ g, Quantised (f.ty == .q4) c.ct (fun n => (read n).1) (s.regs.mode c.rnd) (c.ev + 1) (s.makeTile f c k).1
        (s.makeTile f c k).2.1 g ∧
        (s.makeTile f c k).2.2 = ((List.range 256).map (fun n => (read n).2)).foldl (fun x y => x ||| y) 0 ||| g) ∧
    (∀ c : TileControl, tileControl (s.getS f.b) f.ty s.vl = some c → s.fits [f.ty, c.sty] (f.k != 0) = true → s.vstart % 256 = 0 →
      pays.toNat % psz = 0 → (s.getS f.c).toNat % 16 = 0 →
      (c.vers = false → s.vl ≤ s.vstart → exec (.vstt f) s = .next s.vdone.ended) ∧
      (c.vers = false → s.vstart = 0 → 0 < s.vl → (∀ k, k < tiles → s.tileCheck s.msys .store (pays + BitVec.ofNat 64 (psz * k)) (psz / 8)
          (s.getS f.c + BitVec.ofNat 64 (16 * k)) 2 = none) →
        ∃ t, exec (.vstt f) s = .next t ∧ (∀ r, t.vreg r = s.vreg r) ∧
          t.regs = { s.regs.vectorDone with fflg := s.regs.fflg |||
            ((List.range tiles).map (fun k => (s.makeTile f c k).2.2)).foldl (fun x y => x ||| y) 0 } ∧
          t.msys.mem = ((List.range tiles).foldl (fun m k =>
            (s.vecStores s.msys s.me (pays + BitVec.ofNat 64 (psz * k)) 8 (s.makeTile f c k).2.1 (psz / 8)
              ++ s.vecStores s.msys s.me (s.getS f.c + BitVec.ofNat 64 (16 * k)) 8 (s.makeTile f c k).1 2).foldl MemSys.apply m)
              s.msys).mem) ∧
      (c.vers = true → s.vl ≤ s.vstart → exec (.vstt f) s = .next ((s.vdone.setS f.b 0).ended)) ∧
      (∀ pp ph, c.vers = true → s.vstart < s.vl → s.vectorAccess s.msys s.me .store pays psz psz = .ok pp →
        s.vectorAccess s.msys s.me .store (s.getS f.c) 16 16 = .ok ph →
        let version := natAt (s.msys.load ph.key ph.pa 16) 10 2
        let fl := s.regs.fflg ||| (s.makeTile f c 0).2.2
        (version ≠ c.ev → ∃ t, exec (.vstt f) s = .next t ∧
          t.regs = ({ s.regs with fflg := fl, vstart := 0 }).put f.b (BitVec.ofNat 64 (1 + 65536 * version)) ∧
          (∀ r, t.vreg r = s.vreg r) ∧ s.msys.sameBut t.msys []) ∧
        (version = c.ev → (∀ l ∈ linesOf pp.pa psz, l ∉ linesOf ph.pa 16) →
          ∃ t, exec (.vstt f) s = .next t ∧ t.regs = ({ s.regs with fflg := fl, vstart := 0 }).put f.b 0 ∧
            t.msys.load pp.key pp.pa psz = (s.makeTile f c 0).2.1 ∧ t.msys.load ph.key ph.pa 16 = (s.makeTile f c 0).1 ∧
            natAt (s.makeTile f c 0).1 10 2 = (c.ev + 1) % 65536 ∧
            s.msys.sameBut t.msys [(pp.pa, psz), (ph.pa, 16)])))
-- MTX, AUTUMN -----------------------------------------------------------------------------------------------------------------------

/-- R292, R295, R340: `mshape` takes a valid shape and raises trap 1 for any other. `mldb` of a tile type leaves b(k, n) the value of
element (k mod 16, n mod 16) of record kt × stride + nt (rows and columns exchanged when transposed), and of a 16-bit type the
value at A + k × stride + 2 × n (or n × stride + 2 × k); a shape, type or stride that does not fit raises trap 1. -/
def Obligations.StationaryOperandHoldsItsValues : Prop :=
  ∀ (f : W3) (s : State), s.Calm →
    let m : BitVec 19 := (s.getS f.a).setWidth 19
    let kg := shapeKg s.myCore.mshape
    let ng := shapeNg s.myCore.mshape
    let tr := f.imm.getLsbD 0
    let stride := (s.getS f.c).toNat
    let psz := payloadSize f.ty
    let fits := shaped s.myCore.mshape = true ∧ shapeB s.myCore.mshape = some f.ty ∧
      (if f.ty.isTile then (if tr then kg else ng) ≤ stride
       else 2 * (if tr then 16 * kg else 16 * ng) ≤ stride ∧ stride % 2 = 0)
    (shapeOk m = true → exec (.mshape f) s = .next ((s.setMyCore { s.myCore with mshape := m }).ended)) ∧
    (shapeOk m = false → exec (.mshape f) s = .next (s.trapped 1 (encode (.mshape f)))) ∧
    (¬ fits → exec (.mldb f) s = .next (s.trapped 1 (encode (.mldb f)))) ∧
    (fits → f.d.toNat < 4 → f.ty.isTile = true → (s.getS f.a).toNat % psz = 0 → (s.getS f.b).toNat % 16 = 0 →
      ∀ H P : Nat → List Byte,
      (∀ k n, k < kg → n < ng → let x := if tr then n * stride + k else k * stride + n
        s.readTile s.msys (s.getS f.b + BitVec.ofNat 64 (16 * x)) (s.getS f.a + BitVec.ofNat 64 (psz * x)) psz
          = .ok (H (k * ng + n), P (k * ng + n))) →
      let bad := (List.range (kg * ng)).any (fun x => hdrBad f.ty (H x))
      ∃ t b, exec (.mldb f) s = .next t ∧ t.bReg f.d.toNat = some b ∧ s.msys.sameBut t.msys [] ∧ t.file.v = s.file.v ∧
        t.regs = { s.regs with pc := s.regs.pc + 8, fflg := s.regs.fflg ||| (if bad then flINV else 0) } ∧
        ∀ k n, k < 16 * kg → n < 16 * ng →
          let h := H (k / 16 * ng + n / 16)
          let p := P (k / 16 * ng + n / 16)
          b.value k n = if tr then tileVal f.ty (payloadCode f.ty p (n % 16) (k % 16)) (tileScale f.ty h (n % 16) (k % 16))
            else tileVal f.ty (payloadCode f.ty p (k % 16) (n % 16)) (tileScale f.ty h (k % 16) (n % 16))) ∧
    (fits → f.d.toNat < 4 → f.ty.isTile = false → f.ty.width = 16 → (s.getS f.a).toNat % 2 = 0 → ∀ acc : Nat → Nat → Place,
      (∀ k n, k < 16 * kg → n < 16 * ng → s.vectorAccess s.msys s.me .load
        (s.getS f.a + BitVec.ofNat 64 (if tr then n * stride + 2 * k else k * stride + 2 * n)) 2 2 = .ok (acc k n)) →
      ∃ t b, exec (.mldb f) s = .next t ∧ t.bReg f.d.toNat = some b ∧ s.msys.sameBut t.msys [] ∧
        t.regs = { s.regs with pc := s.regs.pc + 8 } ∧
        ∀ k n, k < 16 * kg → n < 16 * ng → b.value k n = (fmtOf f.ty).decode (natAt (s.loadAt s.msys (acc k n) 2) 0 2))

/-- R75, R298-R303: `mma` adds to each column of the accumulator row, and `mmaz` writes there, the sums of its K-groups, each taken
exactly and rounded once to W80 in `.rne`, with the flags of its sums and products (R71, R72) and of A's codes (R59); `mdrain`
rounds the row into elements off.. of D and leaves the others, with the flags of its results and their marks in the mask SATK names;
`mclr` clears a row or empties a stationary register; `mstat` reads an item, and with its scalar bit clears it. No other register
and no memory changes. -/
def Obligations.MatrixRowsAccumulateAndDrain : Prop :=
  ∀ (f : W3) (s : State), s.placed → s.vlmax ≤ 2048 →
    let kg := shapeKg s.myCore.mshape
    let ng := shapeNg s.myCore.mshape
    let off := (s.getS f.c + BitVec.ofNat 64 (f.immBits 12 0)).toNat
    (∀ b : BReg, f.d.toNat < 8 → s.bReg f.b.toNat = some b → shaped s.myCore.mshape = true → shapeA s.myCore.mshape = some f.ty →
      b.kg = kg → b.ng = ng → shapeB s.myCore.mshape = some b.bty → off + 16 * kg ≤ s.cap f.ty → ng ≤ 8 →
      let bv := ((List.range (16 * kg * (16 * ng))).map (fun x => b.value (x / (16 * ng)) (x % (16 * ng)))).toArray
      let row := (List.range (16 * kg)).map (fun k => sourceVal f.ty false ((s.vvals f.ty f.a.toNat (off + 16 * kg)).getD (off + k) 0))
      let av := (row.map (fun x => x.1)).toArray
      let gives := fun (i : Instr) (old : AccRow) =>
        let col := fun (n : Nat) =>
          accumulate ((List.range kg).map (fun g => groupSum av bv (16 * ng) (16 * g) n)) (vget old n 0, 0)
        let fl := ((List.range (16 * ng)).map (fun n => (col n).2)).foldl (fun x y => x ||| y) 0 |||
          (if f.ty.isTile then (row.map (fun x => x.2)).foldl (fun x y => x ||| y) 0 else 0)
        ∃ t, exec i s = .next t ∧ (∀ n, n < 16 * ng → vget (t.accReg f.d.toNat) n 0 = (col n).1) ∧
        (∀ n, 16 * ng ≤ n → vget (t.accReg f.d.toNat) n 0 = vget old n 0) ∧ (∀ r, r ≠ f.d.toNat → t.accReg r = s.accReg r) ∧
        t.regs = { s.regs with pc := s.regs.pc + 8, fflg := s.regs.fflg ||| (fl &&& (flINV ||| flOF)) } ∧
        t.file.v = s.file.v ∧ t.file.k = s.file.k ∧ t.file.b = s.file.b ∧ t.msys = s.msys ∧
        ((s.thr.specFile = none → s.thr.held = []) → t.matrixItem 2 = s.matrixItem 2 + 1)
      gives (.mma f) (s.accReg f.d.toNat) ∧ gives (.mmaz f) (Vector.replicate 128 0)) ∧
    (∀ (a b : Array FVal) (N k n : Nat) (acc : BitVec 80 × Flags) (rest : List (FVal × Flags)),
      let g := groupSum a b N k n
      let x := accumulate [g] acc
      accumulate [] acc = acc ∧ accumulate (g :: rest) acc = accumulate rest x ∧
      ∃ fl, GroupStep (fun i => a.getD (k + i) .nan) (fun i => b.getD ((k + i) * N + n) .nan) acc.1 x.1 fl ∧ x.2 = acc.2 ||| fl) ∧
    (s.bReg f.b.toNat = none → s.Calm → exec (.mma f) s = .next (s.trapped 1 (encode (.mma f))) ∧
      exec (.mmaz f) s = .next (s.trapped 1 (encode (.mmaz f)))) ∧
    (shaped s.myCore.mshape = true → s.vl ≤ s.cap f.ty → off + 16 * ng ≤ s.vl → vOk f.ty f.d → f.a.toNat < 8 →
      let r := fun (n : Nat) => (fmtOf f.ty).round (fmtW80.decode (vget (s.accReg f.a.toNat) n 0).toNat) (s.regs.mode f.q.toNat n)
        (s.regs.frmFz && fzOf f.ty) true
      ∃ t, exec (.mdrain f) s = .next t ∧ t.msys = s.msys ∧
        t.regs = { s.regs with pc := s.regs.pc + 8, fflg := s.regs.fflg |||
          ((List.range (16 * ng)).map (fun n => (r n).flags)).foldl (fun x y => x ||| y) 0 } ∧
        t.accReg f.a.toNat = (if f.bScalar then Vector.replicate 128 0 else s.accReg f.a.toNat) ∧
        (∀ x, x ≠ f.a.toNat → t.accReg x = s.accReg x) ∧ t.file.b = s.file.b ∧ (∀ h, h ≠ s.cur → t.thread h = s.thread h) ∧
        (∀ x, x ≠ f.d.toNat → (f.ty.wide = true → x ≠ f.d.toNat + 1) → t.vreg x = s.vreg x) ∧
        (∀ k, k ≠ s.regs.satk.toNat → t.kreg k = s.kreg k) ∧
        (∀ j, j < s.vlmax → (t.kreg s.regs.satk.toNat).getLsbD j = ((s.kreg s.regs.satk.toNat).getLsbD j ||
          (decide (off ≤ j) && decide (j < off + 16 * ng) && (r (j - off)).mark))) ∧
        ∀ j, j < s.vl → t.velem f.ty f.d.toNat j = (if off ≤ j ∧ j < off + 16 * ng then (r (j - off)).bits
          else (s.velems f.ty f.d.toNat s.vl).getD j 0) % 2 ^ f.ty.width) ∧
    (s.thr.specFile = none → exec (.mclrAcc f) s = .next ((s.setAcc f.d.toNat (Vector.replicate 128 0)).advance)) ∧
    (f.d.toNat < 8 → ∃ t, exec (.mclrAcc f) s = .next t ∧ t.accReg f.d.toNat = Vector.replicate 128 0 ∧
      (∀ r, r ≠ f.d.toNat → t.accReg r = s.accReg r) ∧ t.regs = { s.regs with pc := s.regs.pc + 8 } ∧ t.file.v = s.file.v ∧
      t.file.k = s.file.k ∧ t.file.b = s.file.b ∧ t.msys = s.msys ∧ (∀ h, h ≠ s.cur → t.thread h = s.thread h)) ∧
    exec (.mclrB f) s = .next ((s.setB f.d.toNat none).advance) ∧
    exec (.mstat f) s = .next (((if f.bScalar then s.clearItem (f.immBits 7 0) else s).setS f.d
      (s.matrixItem (f.immBits 7 0))).advance) ∧
    (s.Calm → s.matrixItem 1 = s.myCore.bubbles ∧ s.matrixItem 2 = s.myCore.rows ∧ s.matrixItem 3 = s.myCore.dropped) ∧
    s.matrixItem 0x24 = s.regs.acSquash ∧ (∀ k, k < 4 → s.matrixItem (0x20 + k) = vget s.regs.acReason k 0) ∧
    (s.Calm → ∀ n ∈ ([1, 2, 3, 0x20, 0x21, 0x22, 0x23, 0x24] : List Nat), (s.clearItem n).matrixItem n = 0)

/-- R304-R313: a probe that passes its checks and need not wait writes its ticket to D and joins the thread's probes with its input
read; with `.spec` the thread goes on from copies of its core's registers. Resolving a plain probe counts a hit and changes its
entry, where its header stood when it issued, only there, or counts the miss and its reason. `acwait` answers 10 for a ticket it
does not know, else the probe's status once; one it answers under an older `.spec` probe is kept, marked, for a squash. `acstore`
writes header, anchor and output of a free slot; `acdrop` clears VALID of the key's slot only. DEDUCED: with NSLOT = 0, of which
R310 does not speak, `acdrop` and `acdrop.all` do nothing (log entry 24); the header lines they clear pass the checks of a store
first (log entry 59). -/
def Obligations.AutumnProbesAndSlots : Prop :=
  (∀ (f : W3) (s : State), s.placed →
    let len := (s.getS f.c).toNat % 2 ^ 32
    let slot := s.regs.acBase.setWidth 64 + BitVec.ofNat 64 ((s.getS f.a).toNat % s.regs.acNslot.toNat * 2 ^ s.regs.acSlg.toNat)
    let ticket := slot + 64 + BitVec.ofNat 64 (acPad f.ty len)
    (∀ hdr : Place, s.regs.acBad f.ty len = false → (∀ h ∈ s.thr.held, Held.bars h .plain = false) →
      s.tears (s.vectorSpans .load (s.getS f.b) (f.ty.width / 8) len ++ s.vectorSpans .load slot 8 8
        ++ s.vectorSpans .load (slot + 64) (f.ty.width / 8) len) = false →
      s.rangesBad .load ((s.getS f.b, f.ty.width / 8, len) :: slotRanges slot f.ty len) = none →
      s.vectorAccess s.view s.me .load slot 8 8 = .ok hdr → s.probeBlocker hdr = none →
      (∃ t p, exec (.acprobe f) s = .next t ∧ t.regs = s.regs.put f.d ticket ∧ t.side.probes = s.side.probes ++ [p] ∧
        p.ticket = ticket ∧ p.slotVa = slot ∧ p.hdrPa = hdr.pa ∧ p.hdrKey = hdr.key ∧ p.key = s.getS f.a ∧ p.len = len ∧ p.ty = f.ty ∧ p.spec = false ∧ p.result = none ∧
        p.input = s.vecBytes s.view s.me (s.getS f.b) (f.ty.width / 8) len ∧ s.msys.sameBut t.msys []) ∧
      ((s.side.probes.filter (fun p => p.spec && !p.confirmed)).length < 4 →
        ∃ t p c, exec (.acprobeSpec f) s = .next t ∧ t.regs = s.regs.put f.d ticket ∧ t.side.probes = s.side.probes ++ [p] ∧
          p.ticket = ticket ∧ p.spec = true ∧ p.target = s.pc + (f.imm.signExtend 64 <<< 3) ∧ p.result = none ∧
          p.ck = some c ∧ c.regs = t.regs ∧ c.resv = s.side.resv ∧ c.vresv = s.side.vresv ∧
          c.file = (if s.thr.specFile.isSome then s.file else { s.file with dirty := 0 }) ∧
          t.thr.specFile = some { s.file with dirty := 0 } ∧ s.msys.sameBut t.msys [])) ∧
    (s.Calm → s.regs.acBad f.ty len = true → exec (.acprobe f) s = .next (s.trapped 1 (encode (.acprobe f)))) ∧
    ((∀ p ∈ s.side.probes, p.ticket = s.getS f.a → p.taken ≠ 0) → exec (.acwait f) s = .next ((s.put f.d 10).setEntered none)) ∧
    (∀ p r rest, s.side.probes = p :: rest → p.ticket = s.getS f.a → p.spec = false → p.confirmed = false → p.taken = 0 →
      p.result = some r →
      let specs := (rest.filter (fun q => q.spec)).length
      exec (.acwait f) s = .next (((s.setSide { s.side with
          probes := if specs = 0 then rest else { p with taken := specs } :: rest }).put f.d
        (BitVec.ofNat 64 ((if r.hit then 1 else 0) + 2 * r.reason + 2 ^ 32 * r.metric.toNat))).setEntered none))) ∧
  (∀ (s : State) (p : Probe), s.placed → s.Canonical → s.side.probes = [p] → p.result = none → p.ck = none → s.thr.specFile = none → s.thr.held = [] → s.winter = false →
    let r := s.matchProbe p
    let h := s.msys.load p.hdrKey p.hdrPa 16
    ∃ t, exec (.probeResolve s.cur 0) s = .next t ∧ t.side.probes = [{ p with result := some r }] ∧
      (r.hit = true → t.regs = { s.regs with acHits := s.regs.acHits + 1 } ∧
        t.msys.load p.hdrKey (p.hdrPa + 8) 8 = toBytes 4 p.step.toNat ++ toBytes 2 (natAt h 12 2 + 1) ++ bytesAt h 14 2 ∧
        s.msys.sameBut t.msys [(p.hdrPa + 8, 8)] ∧ s.msys.sameOutside t.msys p.hdrKey [(p.hdrPa + 8, 8)]) ∧
      (r.hit = false → s.msys.sameBut t.msys [] ∧ t.regs.acMiss = s.regs.acMiss + 1 ∧ t.regs.acHits = s.regs.acHits ∧ t.regs.s = s.regs.s ∧
        t.regs.pc = s.regs.pc) ∧
      (r.hit = true ↔ r.reason = 0)) ∧
  (∀ (f : W3) (s : State), s.Calm →
    let len := (s.getS f.c).toNat % 2 ^ 32
    let z := f.ty.width / 8
    let key := s.getS f.a
    let slot := s.regs.acBase.setWidth 64 + BitVec.ofNat 64 (key.toNat % s.regs.acNslot.toNat * 2 ^ s.regs.acSlg.toNat)
    let here := fun (at_ : Word) (pa : Nat) => (s.headerPlace at_).any (fun p => p.pa == pa)
    let clear := fun (at_ : Word) => let h := s.vecBytes s.msys s.me at_ 8 2
      s.vecStores s.msys s.me (at_ + 8) 8 (bytesAt h 8 6 ++ toBytes 1 (natAt h 14 1 / 2 * 2) ++ bytesAt h 15 1) 1
    (s.regs.acBad f.ty len = true → exec (.acstore f) s = .next (s.trapped 1 (encode (.acstore f)))) ∧
    (s.regs.acBad f.ty len = false → f.ty.isVFloat = true → s.rangesBad .load [(s.getS f.b, z, len), (s.getS f.d, z, len)] = none →
      s.rangesBad .store (slotRanges slot f.ty len) = none → s.slotHeld (here slot) = false →
      let header := toBytes 8 key.toNat ++ toBytes 4 (if f.bScalar then f.immBits 12 0 else (s.getS f.c).toNat / 2 ^ 32)
        ++ toBytes 2 0 ++ toBytes 1 1 ++ toBytes 1 f.ty.code ++ toBytes 4 len ++ toBytes 44 0
      ∃ t, exec (.acstore f) s = .next t ∧ t.regs = { s.regs with pc := s.regs.pc + 8 } ∧ t.file = s.file ∧
        t.msys.mem = ((s.vecStores s.msys s.me (slot + 64) z (s.vecBytes s.msys s.me (s.getS f.b) z len) len
          ++ s.vecStores s.msys s.me (slot + 64 + BitVec.ofNat 64 (acPad f.ty len)) z (s.vecBytes s.msys s.me (s.getS f.d) z len) len
          ++ s.vecStores s.msys s.me slot 8 header 8).foldl MemSys.apply s.msys).mem) ∧
    (s.regs.acNslot = 0 → exec (.acdrop f) s = .next s.ended ∧ (s.slotHeld s.inRegion = false → exec (.acdropAll f) s = .next s.ended)) ∧
    (s.regs.acNslot ≠ 0 → s.rangesBad .store [(slot, 8, 8)] = none → s.slotHeld (here slot) = false →
      ∃ t, exec (.acdrop f) s = .next t ∧ t.regs = { s.regs with pc := s.regs.pc + 8 } ∧ t.file = s.file ∧
        t.msys.mem = (if natAt (s.vecBytes s.msys s.me slot 8 2) 0 8 = key.toNat then (clear slot).foldl MemSys.apply s.msys
          else s.msys).mem) ∧
    ((∀ i, i < s.regs.acNslot.toNat → s.rangesBad .store [(s.regs.acBase.setWidth 64 + BitVec.ofNat 64 (i * 2 ^ s.regs.acSlg.toNat), 8,
      8)] = none) → s.slotHeld s.inRegion = false →
      ∃ t, exec (.acdropAll f) s = .next t ∧ t.regs = { s.regs with pc := s.regs.pc + 8 } ∧ t.file = s.file) ∧
    (s.regs.acNslot = 1 → s.rangesBad .store [(s.regs.acBase.setWidth 64, 8, 8)] = none → s.slotHeld s.inRegion = false →
      ∃ t, exec (.acdropAll f) s = .next t ∧ t.regs = { s.regs with pc := s.regs.pc + 8 } ∧ t.file = s.file ∧
        t.msys.mem = ((clear (s.regs.acBase.setWidth 64)).foldl MemSys.apply s.msys).mem))
-- COPY, CBUF, BAR, JOB, CTX ---------------------------------------------------------------------------------------------------------

/-- R322, R323, R327: `cpset` writes one shadow register and clears RSTART; `cpstart` raises trap 1 for a shadow set R323 forbids
and trap 3 for a barrier the context does not hold, waits while its channel holds 8 transfers, else launches: D is 4 × count +
channel and the transfer holds a copy of the shadow set from byte RSTART on, which becomes 0; `cpwait` waits until the id lies below
the channel's mark and writes the mark; `cpstat` reads mark, RSTART or the fault word. DEDUCED: the trap 3 goes before the trap 1,
and an FPOUT that is not aligned, which R323 does not list, raises trap 1 (log entry 26). -/
def Obligations.CopyMembersLaunchAndWait : Prop :=
  ∀ (f : W3) (s : State), s.Calm →
    let v := s.regs.shadow
    let chan := fun (n : Nat) => s.myQuad.chan n
    let mark := fun (n : Nat) => BitVec.ofNat 64 (4 * (match (chan n).queue with | t :: _ => t.count | [] => (chan n).launched + 1) + n)
    let n := (vget v 11 0).toNat
    let lacking := shBarEn v = true ∧ barrierIdOk (shBarId v) = true ∧
      s.holdsBarrier s.thr.asid (idScope (shBarId v)) (idIndex (shBarId v)) = false
    exec (.cpset f) s = .next ((s.setRegs { s.regs with shadow := vset v (f.immBits 3 0) (s.getS f.a), rstart := 0 }).ended) ∧
    (lacking → exec (.cpstart f) s = .next (s.trapped 3 (encode (.cpstart f)))) ∧
    (¬ lacking → shadowBad v = true → exec (.cpstart f) s = .next (s.trapped 1 (encode (.cpstart f)))) ∧
    (¬ lacking → shadowBad v = false → 8 ≤ (chan n).queue.length → exec (.cpstart f) s = .next (s.setEntered none)) ∧
    (¬ lacking → shadowBad v = false → (chan n).queue.length < 8 →
      ∃ t x, exec (.cpstart f) s = .next t ∧
        t.regs = ({ s.regs with rstart := 0 }).put f.d (BitVec.ofNat 64 (4 * ((chan n).launched + 1) + n)) ∧
        t.quad (quadOf s.cur.core) = (s.quad (quadOf s.cur.core)).setChan n
          { launched := (chan n).launched + 1, queue := (chan n).queue ++ [x] } ∧
        x.shadow = v ∧ x.count = (chan n).launched + 1 ∧ x.pos = s.regs.rstart.toNat ∧ x.core = s.cur.core ∧ t.msys = s.msys) ∧
    (let m := mark ((s.getS f.a).toNat % 4)
     (s.getS f.a < m → exec (.cpwait f) s = .next ((s.put f.d m).setEntered none)) ∧
     (¬ s.getS f.a < m → exec (.cpwait f) s = .next (s.setEntered none))) ∧
    (f.immBits 3 2 = 0 → exec (.cpstat f) s = .next ((s.put f.d (mark (f.immBits 1 0))).setEntered none)) ∧
    (f.immBits 3 2 = 1 → exec (.cpstat f) s = .next ((s.put f.d s.regs.rstart).setEntered none)) ∧
    (f.immBits 3 2 = 2 → exec (.cpstat f) s = .next ((s.put f.d s.regs.faultWord).setEntered none)) ∧
    (f.immBits 3 2 = 3 → exec (.cpstat f) s = .next (s.trapped 1 (encode (.cpstat f))))

/-- R324-R328: an event of a channel advances the transfer at its head when it is of that mode. A row of at most 8 bytes in one
aligned word is copied, or filled with the pattern, and no byte outside it changes; with MODE.CB it fills the slot it claims, in a
multicast one of every target, and waits while none is free. A versioned line is written, or added to, and its version raised only
when the version is the expected one, and a tile record likewise with its header; where FPOUT stands, its bit tells the outcome. A
page of a deduplication gets a record that begins with its FOLD64. A finished row credits the transfer's barrier. A failed check
stops the transfer, tells its launcher the byte and the code, and makes trap 16 pending there. DEDUCED: the barrier is credited row
by row in modes 2 and 3 too, of which R324 does not speak, and TREC takes the reserved bytes of the source's header (log entry 26);
a row's units cross no word (log entry 25); a failure of a deduplication in the pool or the table names the page's address (log
entry 48). -/
def Obligations.CopyModesPerformTheirUnits : Prop :=
  ∀ (q c : Nat) (s : State) (t : Transfer), q < 256 → c < 4 → s.Canonical → t.claims = [] →
    let v := t.shadow
    let len := (vget v 2 0).toNat
    let rows := (vget v 5 0).toNat
    let event := fun (m : Nat) => match m with
      | 0 => Instr.copyModeCopy q c | 1 => .copyModeMulticast q c | 2 => .copyModeVersioned q c | 3 => .copyModeReduceAdd q c
      | 4 => .copyModeFill q c | _ => .copyModeDedup q c
    let after := fun (u : State) (pos : Nat) => ((u.quad q).chan c).queue =
      (if len * rows ≤ pos then [] else [{ t with pos := pos, claims := [] }]) ++ ((s.quad q).chan c).queue.tail
    let stopped := fun (u : State) (byte code : Nat) (va : Word) =>
      ((u.quad q).chan c).queue = ((s.quad q).chan c).queue.tail ∧
      ∀ h, s.findThread t.owner = some h → h.thread < 4 →
        (u.thread h).regs = { (s.thread h).regs with rstart := BitVec.ofNat 64 byte, faultWord := BitVec.ofNat 64 code } ∧
        (u.thread h).side.pending = (s.thread h).side.pending ++ [{ code := 16, val := va, fid := 0 }]
    let bar := idScope (shBarId v)
    let credit := fun (b : Barrier) (n : Nat) =>
      if shBarEn v = false ∨ n = 0 then b else (b.act 0 n (if bar = 5 then some (s.otherMembers (idIndex (shBarId v))) else none)).1
    let credited := fun (u : State) (targets n : Nat) =>
      let k := barrierOf t.core bar (idIndex (shBarId v))
      u.barrier k = (List.range targets).foldl (fun b _ => credit b n) (s.barrier k) ∧ ∀ j, j ≠ k → u.barrier j = s.barrier j
    let r := t.pos / len
    let src := vget v 0 0 + BitVec.ofNat 64 r * vget v 3 0
    let dst := vget v 1 0 + BitVec.ofNat 64 r * vget v 4 0
    let data := fun (m : Nat) (p : Place) => if m = 0 then s.loadAt s.msys p len else bytesAt (toBytes 8 (vget v 0 0).toNat) 0 len
    (∀ m, m < 6 → s.headOf q c m = none → exec (event m) s = .next s) ∧
    (∀ m, m < 5 → s.headOf q c m = some t → len * rows ≤ t.pos → ∃ u, exec (event m) s = .next u ∧ after u t.pos ∧ u.msys = s.msys) ∧
    (∀ m, m = 0 ∨ m = 4 → s.headOf q c m = some t → shCb v = false → 0 < len → len ≤ 8 → t.pos < len * rows → t.pos % len = 0 →
      dst.toNat % 8 + len ≤ 8 → (m = 0 → src.toNat % 8 + len ≤ 8) →
      (∀ code, (m = 4 ∨ ∃ p, s.vectorAccess s.msys (s.engine t) .load src len 1 = .ok p) → inScratch dst = false →
        s.vectorAccess s.msys (s.engine t) .store dst len 1 = .error code →
        ∃ u, exec (event m) s = .next u ∧ stopped u t.pos code dst ∧ s.msys.sameBut u.msys []) ∧
      (∀ d, (m = 4 ∨ ∃ p, s.vectorAccess s.msys (s.engine t) .load src len 1 = .ok p) → inScratch dst = false →
        s.vectorAccess s.msys (s.engine t) .store dst len 1 = .ok d → s.strange t d.pa = true →
        ∃ u, exec (event m) s = .next u ∧ stopped u t.pos 7 dst ∧ s.msys.sameBut u.msys []) ∧
      (∀ code, m = 0 → s.vectorAccess s.msys (s.engine t) .load src len 1 = .error code →
        ∃ u, exec (event m) s = .next u ∧ stopped u t.pos code src ∧ s.msys.sameBut u.msys []) ∧
      (∀ p d, (m = 4 ∨ s.vectorAccess s.msys (s.engine t) .load src len 1 = .ok p) → inScratch dst = false →
        s.vectorAccess s.msys (s.engine t) .store dst len 1 = .ok d → s.strange t d.pa = false →
        ∃ u, exec (event m) s = .next u ∧ after u (t.pos + len) ∧ credited u 1 len ∧ u.msys.load d.key d.pa len = data m p ∧
          s.msys.sameBut u.msys [(d.pa, len)] ∧ s.msys.sameOutside u.msys d.key [(d.pa, len)])) ∧
    (∀ m p, m = 0 ∨ m = 4 → s.headOf q c m = some t → shCb v = true → 0 < len → len ≤ 8 → t.pos < len * rows → t.pos % len = 0 →
      let b := (s.core t.core).cbuf t.cbn
      (s.runsJob t.core t.owner.job = false →
        ∃ u, exec (event m) s = .next u ∧ stopped u t.pos 7 (scratchVa (b.slotOffset b.fillPos)) ∧ u.msys = s.msys) ∧
      (s.runsJob t.core t.owner.job = true → b.nextFree b.nslot b.fillPos = none →
        ∃ u, exec (event m) s = .next u ∧ ((u.quad q).chan c).queue = t :: ((s.quad q).chan c).queue.tail ∧ u.msys = s.msys) ∧
      (∀ slot, s.runsJob t.core t.owner.job = true → b.nextFree b.nslot b.fillPos = some slot → len ≤ b.slotsz * 64 →
        b.slotOffset slot + len ≤ s.scratchSize t.core →
        (m = 0 → src.toNat % 8 + len ≤ 8 ∧ s.vectorAccess s.msys (s.engine t) .load src len 1 = .ok p) →
        let pa := s.scratchPa t.core (b.slotOffset slot)
        ∃ u, exec (event m) s = .next u ∧ after u (t.pos + len) ∧ credited u 1 len ∧ u.msys.load 0 pa len = data m p ∧
          s.msys.sameBut u.msys [(pa, len)] ∧
          (u.core t.core).cbuf t.cbn = { b with filled := b.filled ++ [slot], fillPos := (slot + 1) % b.nslot })) ∧
    (s.headOf q c 1 = some t → shCb v = true → t.pos < len * rows → s.runsJob (4 * quadOf t.core) t.owner.job = false →
      bitOf (vget v 7 0).toNat 0 = true →
      ∃ u, exec (event 1) s = .next u ∧ ((u.quad q).chan c).queue = ((s.quad q).chan c).queue.tail ∧ u.msys = s.msys) ∧
    (∀ (p : Place) (slot : Nat → Nat), s.headOf q c 1 = some t → shCb v = true → 0 < len → len ≤ 8 → t.pos < len * rows → t.pos % len = 0 →
      let target := fun (i : Nat) => i < 4 ∧ bitOf (vget v 7 0).toNat i = true
      let buf := fun (i : Nat) => (s.core (4 * quadOf t.core + i)).cbuf t.cbn
      src.toNat % 8 + len ≤ 8 → s.vectorAccess s.msys (s.engine t) .load src len 1 = .ok p →
      (∀ i, target i → s.runsJob (4 * quadOf t.core + i) t.owner.job = true ∧
        (buf i).nextFree (buf i).nslot (buf i).fillPos = some (slot i) ∧ len ≤ (buf i).slotsz * 64 ∧
        (buf i).slotOffset (slot i) + len ≤ s.scratchSize (4 * quadOf t.core + i)) →
      ∃ u, exec (event 1) s = .next u ∧ after u (t.pos + len) ∧ credited u t.targetCores.length len ∧
        ∀ i, target i →
          u.msys.load 0 (s.scratchPa (4 * quadOf t.core + i) ((buf i).slotOffset (slot i))) len = s.loadAt s.msys p len ∧
          (u.core (4 * quadOf t.core + i)).cbuf t.cbn =
            { buf i with filled := (buf i).filled ++ [slot i], fillPos := (slot i + 1) % (buf i).nslot }) ∧
    (∀ p, s.headOf q c 1 = some t → shCb v = false → 0 < len → len ≤ 8 → t.pos < len * rows → t.pos % len = 0 →
      let off := dst.toNat
      let target := fun (i : Nat) => i < 4 ∧ bitOf (vget v 7 0).toNat i = true
      off % 8 + len ≤ 8 → src.toNat % 8 + len ≤ 8 → off + len ≤ 2 ^ 20 →
      s.vectorAccess s.msys (s.engine t) .load src len 1 = .ok p →
      (∀ i, target i → s.runsJob (4 * quadOf t.core + i) t.owner.job = true ∧
        off + len ≤ s.scratchSize (4 * quadOf t.core + i)) →
      ∃ u, exec (event 1) s = .next u ∧ after u (t.pos + len) ∧ credited u t.targetCores.length len ∧
        ∀ i, target i → u.msys.load 0 (s.scratchPa (4 * quadOf t.core + i) off) len = s.loadAt s.msys p len) ∧
    (∀ m bytes lines p, m = 2 ∨ m = 3 → s.headOf q c m = some t → shTrec v = false → t.pos < len * rows → t.pos % 64 = 0 →
      len % 64 = 0 → (m = 3 → (vget v 6 0).toNat / 256 % 16 ∈ ([4, 5, 6, 7, 10] : List Nat)) →
      let from_ := src + BitVec.ofNat 64 (t.pos % len)
      let dstAt := dst + BitVec.ofNat 64 (t.pos % len)
      s.engineRead (s.engine t) 64 64 from_ = .ok (bytes, lines) → inScratch dstAt = false → p.pa % 64 = 0 → s.strange t p.pa = false →
      s.vectorAccess s.msys (s.engine t) .store dstAt 64 64 = .ok p → (m = 3 → s.vectorAccess s.msys (s.engine t) .load dstAt 64 64 = .ok p) →
      (∃ es, s.outcomeBit t (t.pos / 64) false = .ok es) →
      let ty := (Ty.ofCode ((vget v 6 0).toNat / 256 % 16)).getD .i32
      let line := s.msys.line (p.pa / 64)
      let rejected := line.version.toNat ≠ (vget v 9 0).toNat
      ∃ u w : State, exec (event m) s = .next u ∧ after u (t.pos + 64) ∧
        credited u 1 (if (t.pos + 64) % len = 0 then t.pos + 64 - max t.begun (r * len) else 0) ∧
        u.msys = (match w.outcomeBit t (t.pos / 64) (decide rejected) with | .ok es => w.performAll t.unit es | .error _ => w).msys ∧
        (rejected → s.msys.sameBut w.msys []) ∧
        (¬ rejected → w.msys.load p.key p.pa 64 = (if m = 3 then addElems ty (s.loadAt s.msys p 64) bytes (64 / (ty.width / 8)) else bytes) ∧
          (w.msys.line (p.pa / 64)).version = line.version + 1 ∧ s.msys.sameBut w.msys [(p.pa, 64)])) ∧
    (∀ (w : State) (n : Nat) (rejected : Bool),
      (vget v 10 0 = 0 → w.outcomeBit t n rejected = .ok []) ∧
      (∀ p, vget v 10 0 ≠ 0 → w.vectorAccess w.msys (w.engine t) .store (vget v 10 0 + BitVec.ofNat 64 (n / 8)) 1 1 = .ok p →
        inScratch (vget v 10 0 + BitVec.ofNat 64 (n / 8)) = false → w.strange t p.pa = false →
        ∃ (x : Byte) (l : List (Nat × Bool)), w.outcomeBit t n rejected = .ok (readsOf l ++ [.store p.pa [x] p.key]) ∧
          ∀ i, i < 8 → x.getLsbD i = if i = n % 8 then rejected else ((w.loadAt w.msys p 1).getD 0 0).getLsbD i)) ∧
    (∀ hb pb l1 l2 ph pp, s.headOf q c 2 = some t → shTrec v = true → rows = 1 → len = 128 ∨ len = 256 → t.pos = 0 → vget v 10 0 = 0 →
      let srcH := vget v 3 0
      let dstH := vget v 4 0
      srcH.toNat % 16 = 0 → s.engineRead (s.engine t) 16 16 srcH = .ok (hb, l1) →
      s.engineRead (s.engine t) len len (vget v 0 0) = .ok (pb, l2) → inScratch dstH = false → inScratch (vget v 1 0) = false →
      s.vectorAccess s.msys (s.engine t) .store dstH 16 16 = .ok ph → s.vectorAccess s.msys (s.engine t) .store (vget v 1 0) len len = .ok pp →
      s.strange t ph.pa = false → s.strange t pp.pa = false → ph.pa % 16 = 0 → ph.pa / 64 ∉ linesOf pp.pa len →
      let rejected := natAt (s.loadAt s.msys ph 16) 10 2 ≠ (vget v 9 0).toNat
      ∃ u, exec (event 2) s = .next u ∧ after u len ∧ credited u 1 (len - t.begun) ∧ (rejected → s.msys.sameBut u.msys []) ∧
        (¬ rejected → u.msys.load ph.key ph.pa 16 = hb.take 10 ++ toBytes 2 ((vget v 9 0).toNat + 1) ++ hb.drop 12 ∧
          u.msys.load pp.key pp.pa len = pb ∧ s.msys.sameBut u.msys [(ph.pa, 16), (pp.pa, len)])) ∧
    (s.headOf q c 5 = some t → t.pos < len → shBarEn v = false → rows = 1 → t.pos % 4096 = 0 →
      (∀ code va l, s.dedupReady t (t.pos / 4096) 0 = .error (code, va, l) →
        ∃ u, exec (event 5) s = .next u ∧ stopped u t.pos code va ∧ s.msys.sameBut u.msys []) ∧
      (∀ p, s.dedupReady t (t.pos / 4096) 0 = .ok p → p.out.pa % 16 = 0 →
        let found := s.matchFrame p.c p.key p.bytes (foldPage p.bytes).toNat p.c.poolCnt 0 false
        ∃ u, exec (event 5) s = .next u ∧ after u (t.pos + 4096) ∧
          let rec_ := u.msys.load p.out.key p.out.pa 16
          natAt rec_ 0 8 = ((List.range 512).foldl (fun a i =>
            a + (BitVec.ofNat 64 (natAt p.bytes (8 * i) 8) ^^^ BitVec.ofNat 64 i)) (0 : Word)).toNat ∧
          (natAt rec_ 14 1 = 1 ↔ found.1.isSome = true) ∧ natAt rec_ 15 1 = (if found.2.1 then 1 else 0) ∧
          (∀ h, found.1 = some h → natAt rec_ 8 4 = h % 2 ^ 32)))

/-- R120, R330, R331, R333-R336: `cbinit` waits for slots in transit and sets a buffer that fits the scratch; `cbwait` waits for
filled slots and writes the oldest one's address; `cbrel` frees the oldest. `barinit` sets counts, control and reload values;
`barrive` and `phend` count one arrival and report PHASE, and `phend` and `barwait` wait until their phase is over. A barrier that
its context does not hold raises trap 3. An action that brings neither count above 0 completes a phase and reloads the counts. R334:
where one below 0 does and OT = 1, `barrive` and `phend` complete and then raise trap 11 with TVAL the barrier's id word and TPC the
next instruction. DEDUCED: `cbinit` past the scratch names the first address past it, `cbwait` of no slots with none filled the read
position, and `barinit` discards the part of an open `pod` phase (log entry 27); a `pod` barrier is the package's of its index, an
arrival after its counts here came to zero counts to the next phase, and D of an overrunning `phend` is the PHASE that its arrival
left (log entry 28). -/
def Obligations.BuffersAndBarriersCount : Prop :=
  (∀ (f : W3) (s : State), s.Calm →
    let n := f.immBits 3 0
    let b := s.myCore.cbuf n
    let x := (s.getS f.a).toNat
    let size := s.scratchSize s.cur.core
    let ok := x < 2 ^ 44 ∧ x % 64 = 0 ∧ 1 ≤ x / 2 ^ 20 % 65536 ∧ x / 2 ^ 20 % 65536 ≤ 1024
    let space := x % 2 ^ 20 + x / 2 ^ 36 % 256 * (x / 2 ^ 20 % 65536) * 64
    (b.transit ≠ [] → exec (.cbinit f) s = .next (s.setEntered none)) ∧
    (b.transit = [] → ¬ ok → exec (.cbinit f) s = .next (s.trapped 1 (encode (.cbinit f)))) ∧
    (b.transit = [] → ok → size < space → exec (.cbinit f) s = .next (s.trapped 7 (0x007FFFFFFFF00000 + BitVec.ofNat 64 size))) ∧
    (b.transit = [] → ok → space ≤ size → exec (.cbinit f) s = .next ((s.setMyCore (s.myCore.setCbuf n
      { base := x % 2 ^ 20, slotsz := x / 2 ^ 20 % 65536, nslot := x / 2 ^ 36 % 256, filled := [], transit := [], fillPos := 0,
        readPos := 0 })).ended)) ∧
    (b.nslot = 0 ∨ b.nslot < x → exec (.cbwait f) s = .next (s.trapped 1 (encode (.cbwait f)))) ∧
    (b.nslot ≠ 0 → x ≤ b.nslot → b.filled.length < x → exec (.cbwait f) s = .next (s.setEntered none)) ∧
    (b.nslot ≠ 0 → x ≤ b.nslot → x ≤ b.filled.length → exec (.cbwait f) s = .next ((s.put f.d
      (0x007FFFFFFFF00000 + BitVec.ofNat 64 (b.base + b.filled.headD b.readPos * b.slotsz * 64))).setEntered none)) ∧
    (b.nslot = 0 ∨ b.filled.length < x → exec (.cbrel f) s = .next (s.trapped 1 (encode (.cbrel f)))) ∧
    (b.nslot ≠ 0 → x ≤ b.filled.length → ∃ t, exec (.cbrel f) s = .next t ∧ t.pc = s.pc + 8 ∧ t.msys = s.msys ∧
      (t.myCore.cbuf n).filled = b.filled.drop x ∧ (t.myCore.cbuf n).free = b.nslot - (b.filled.length - x) - b.transit.length)) ∧
  (∀ (f : W3) (s : State), s.Calm →
    let k := barrierOf s.cur.core (idScope f.imm.toNat) (idIndex f.imm.toNat)
    let b := s.barrier k
    let held := s.holdsBarrier s.thr.asid (idScope f.imm.toNat) (idIndex f.imm.toNat)
    let ea := (s.getS f.a).toNat
    let eb := (s.getS f.b).toNat
    let ctl := (s.getS f.c).toNat
    let ok := ea < 2 ^ 32 ∧ eb < 2 ^ 48 ∧ ctl < 2 ∧ (ea ≠ 0 ∨ eb ≠ 0)
    let acted := s.actBarrier s.cur.core (idScope f.imm.toNat) (idIndex f.imm.toNat) 1 0
    let wait := .next (s.setEntered none)
    let report := fun (u : State) (ph : Word) => Host.Outcome.next ((u.put f.d ph).setEntered none)
    let overrun := fun (u : State) (ph : Word) => Host.Outcome.next (((u.put f.d ph).setEntered none).enterTrap
      (Trap.sync 11 (f.imm.setWidth 64) (s.pc + 8)))
    (held = false → exec (.barinit f) s = .next (s.trapped 3 (encode (.barinit f)))) ∧
    (held = true → ¬ ok → exec (.barinit f) s = .next (s.trapped 1 (encode (.barinit f)))) ∧
    (held = true → ok → exec (.barinit f) s = .next ((s.setBarrier k { b with
      ea := ea, eb := eb, ra := ea, rb := eb, ot := ctl == 1, excess := false, reached := 0 }).ended)) ∧
    (held = false → exec (.barrive f) s = .next (s.trapped 3 (encode (.barrive f))) ∧
      exec (.barwait f) s = .next (s.trapped 3 (encode (.barwait f))) ∧ exec (.phend f) s = .next (s.trapped 3 (encode (.phend f)))) ∧
    (held = true → acted.2 = false → exec (.barrive f) s = report acted.1 b.phase) ∧
    (acted.2 = true ↔ b.ot = true ∧ (b.act 1 0 (if idScope f.imm.toNat = 5 then some (s.otherMembers (idIndex f.imm.toNat)) else none)).2
      = true) ∧
    (held = true → acted.2 = true → exec (.barrive f) s = overrun acted.1 b.phase) ∧
    (held = true → s.side.phendMark s.pc k = none → acted.2 = true → exec (.phend f) s = overrun acted.1 (acted.1.barrier k).phase) ∧
    (held = true → s.getS f.a < b.phase → exec (.barwait f) s = report s b.phase) ∧
    (held = true → ¬ s.getS f.a < b.phase → exec (.barwait f) s = wait) ∧
    (held = true → s.side.phendMark s.pc k = none → acted.2 = false → b.phase < (acted.1.barrier k).phase →
      exec (.phend f) s = report acted.1 (acted.1.barrier k).phase) ∧
    (held = true → s.side.phendMark s.pc k = none → acted.2 = false → ¬ b.phase < (acted.1.barrier k).phase →
      ∃ t, exec (.phend f) s = .next t ∧ t.regs = s.regs ∧ t.side.phendMark s.pc k = some b.phase ∧ t.barriers = acted.1.barriers) ∧
    (∀ from_, held = true → s.side.phendMark s.pc k = some from_ → ¬ from_ < b.phase → exec (.phend f) s = wait) ∧
    (∀ from_, held = true → s.side.phendMark s.pc k = some from_ → from_ < b.phase →
      ∃ t, exec (.phend f) s = .next t ∧ t.regs = s.regs.put f.d b.phase ∧ t.side.phendMark s.pc k = none ∧ t.barriers = s.barriers)) ∧
  (∀ (b : Barrier) (na nb : Nat),
    let r := (b.act na nb none).1
    let a := b.ra - na
    let y := b.rb - nb
    (0 < a ∨ 0 < y → r = { b with ra := a, rb := y } ∧ (b.act na nb none).2 = false) ∧
    (a ≤ 0 → y ≤ 0 → 0 < b.ea + a ∨ 0 < b.eb + y → r = { b with
      ra := b.ea + a, rb := b.eb + y, phase := b.phase + 1,
      excess := b.excess || decide (a < 0 ∨ y < 0) }) ∧
    (b.ea + a ≤ 0 → b.eb + y ≤ 0 → a ≤ 0 → y ≤ 0 → r = { b with
      ra := b.ea, rb := b.eb, phase := b.phase + 2,
      excess := b.excess || decide (a < 0 ∨ y < 0) }) ∧
    ((b.act na nb none).2 = true ↔ a ≤ 0 ∧ y ≤ 0 ∧ (a < 0 ∨ y < 0))) ∧
  (∀ (pkg idx : Nat) (s : State),
    (s.winter = true → exec (.podPhaseMessage pkg idx) s = .next { s with inbox := s.inbox ++ [.event (.podPhaseMessage pkg idx)] }) ∧
    (s.winter = false → pkg ∉ s.otherMembers idx ∨ 512 ≤ idx → exec (.podPhaseMessage pkg idx) s = .next s) ∧
    (s.winter = false → s.otherMembers idx = [pkg] → idx < 512 → let b := s.barrier (barrierOf 0 4 idx)
      ∃ t, exec (.podPhaseMessage pkg idx) s = .next t ∧ t.cores = s.cores ∧ t.msys = s.msys ∧
        (t.barrier (barrierOf 0 4 idx)).phase = b.phase + BitVec.ofNat 64 (min b.reached (SMap.get b.members 0 pkg + 1))))

/-- R34, R42, R43, R338, R339, R355: `jlaunch` reads a card at a multiple of 128 and writes the new job's handle, or the refusal
value with no job added; `jwait` returns the completion word of a job that has completed, all ones for a handle it does not know,
and a refusal value at once. The combine stores its columns' results, or fails as a whole; the record is written at DONE and leaves
the job's word to `jwait`. A job waiting 1 ms for a core rises one level, and one that has held a core for 1 ms returns to PRIO; in
Winter none of these five events does anything (R383). DESIGN CHOICE: a combine that fails leaves the flag bits of the completion
word 0 (log entry 58). DEDUCED: a card whose entry is misaligned is refused with 1 before its footprint table is read (log entry
30). -/
def Obligations.JobsLaunchCombineAndComplete : Prop :=
  (∀ (f : W3) (s : State), s.Calm →
    let va := s.getS f.a
    (va.toNat % 128 ≠ 0 → exec (.jlaunch f) s = .next (s.trapped 4 va)) ∧
    (∀ b reads, va.toNat % 128 = 0 → s.scalarBytes s.me 16 va = .ok (b, reads) →
      let c := cardOf b
      let r := s.performAll s.cur.core (readsOf reads.eraseDups)
      (c.asid ≠ s.thr.asid → s.regs.priv = false → exec (.jlaunch f) s = .next (r.trapped 3 (encode (.jlaunch f)))) ∧
      (c.asid = s.thr.asid ∨ s.regs.priv = true → 65536 ≤ s.jobs.length → exec (.jlaunch f) s = .next (r.setEntered none)) ∧
      (c.asid = s.thr.asid ∨ s.regs.priv = true → s.jobs.length < 65536 →
        (∀ h u, r.submitCard c false s.regs.priv = (.accepted h, u) →
          exec (.jlaunch f) s = .next ((u.setS f.d (BitVec.ofNat 64 h)).ended) ∧ h = s.nextHandle ∧ u.nextHandle = h + 1) ∧
        (∀ n u, r.submitCard c false s.regs.priv = (.refused n, u) → n ≠ 0 ∧ u.jobs = s.jobs ∧ u.nextHandle = s.nextHandle ∧
          s.msys.sameBut u.msys [] ∧
          exec (.jlaunch f) s = .next ((u.put f.d (0x8000000000000000 + BitVec.ofNat 64 n)).setEntered none)) ∧
        (c.entry.toNat % 8 ≠ 0 → (r.submitCard c false s.regs.priv).1 = .refused 1))) ∧
    (va.getLsbD 63 = true → exec (.jwait f) s = .next ((s.put f.d va).setEntered none)) ∧
    (va.getLsbD 63 = false → (∃ j ∈ s.jobs, j.handle = va.toNat) → exec (.jwait f) s = .next (s.setEntered none)) ∧
    (∀ w, va.getLsbD 63 = false → (∀ j ∈ s.jobs, j.handle ≠ va.toNat) → s.finished.find? (fun x => x.1 == va.toNat) = some (va.toNat, w) →
      exec (.jwait f) s = .next ((s.put f.d w).setEntered none)) ∧
    (va.getLsbD 63 = false → (∀ j ∈ s.jobs, j.handle ≠ va.toNat) → (∀ x ∈ s.finished, x.1 ≠ va.toNat) →
      exec (.jwait f) s = .next ((s.put f.d (BitVec.allOnes 64)).setEntered none))) ∧
  (∀ (h : Nat) (s : State) (j : Job), s.job h = some j → s.winter = false →
    let t := j.card.cmbTy.getD .i32
    (j.toCombine = true → s.combineFrom (s.agentOf j) j.card t j.strips j.card.cmblen.toNat 0 = none →
      ∃ l, exec (.jobCombine h) s = .next
        ((s.performAll (s.agentOf j).core (readsOf l)).setJob { j with fault := 2, combined := true })) ∧
    (∀ r, j.toCombine = true → s.combineFrom (s.agentOf j) j.card t j.strips j.card.cmblen.toNat 0 = some r →
      ∃ u, exec (.jobCombine h) s = .next u ∧ u.msys.mem = (r.foldl (fun m x =>
          m.store x.1.pa (toBytes (t.width / 8) x.2.1) x.1.key) s.msys).mem ∧
        u.job h = some { j with combined := true, flags := r.foldl (fun a x => a ||| x.2.2) 0 }) ∧
    (j.st = .completing → j.toCombine = false → j.card.doneAt = 0 →
      let w := BitVec.ofNat 64 (j.finished % 2 ^ 32 + j.card.asid * 2 ^ 32 + (if j.ended1 then 1 else j.fault) * 2 ^ 48
        + (if j.ended1 then 0 else j.flags.toNat) * 2 ^ 56)
      exec (.completionRecord h) s = .next (s.finishJob h w).releaseJobs ∧ (h, w) ∈ (s.finishJob h w).finished ∧
        (s.finishJob h w).job h = none) ∧
    (∀ p, s.Canonical → j.st = .completing → j.toCombine = false → j.card.doneAt ≠ 0 →
      s.vectorAccess s.msys (s.agentOf j) .store j.card.doneAt 8 8 = .ok p →
      let w := BitVec.ofNat 64 (j.finished % 2 ^ 32 + j.card.asid * 2 ^ 32 + (if j.ended1 then 1 else j.fault) * 2 ^ 48
        + (if j.ended1 then 0 else j.flags.toNat) * 2 ^ 56)
      ∃ u : State, exec (.completionRecord h) s = .next (u.finishJob h w).releaseJobs ∧ u.jobs = s.jobs ∧ u.finished = s.finished ∧
        u.msys.load p.key p.pa 8 = toBytes 8 w.toNat ∧ s.msys.sameBut u.msys [(p.pa, 8)]) ∧
    (∀ code, j.st = .completing → j.toCombine = false → j.card.doneAt ≠ 0 →
      s.vectorAccess s.msys (s.agentOf j) .store j.card.doneAt 8 8 = .error code →
      let w := BitVec.ofNat 64 (j.finished % 2 ^ 32 + j.card.asid * 2 ^ 32 + 4 * 2 ^ 48
        + (if j.ended1 then 0 else j.flags.toNat) * 2 ^ 56)
      ∃ l, exec (.completionRecord h) s = .next (((s.performAll (s.agentOf j).core (readsOf l)).finishJob h w).releaseJobs)) ∧
    (j.st ≠ .completing → ∃ u j', exec (.jobEndedBySupervisor h) s = .next u ∧ u.job h = some j' ∧ j'.ended1 = true ∧
      j'.st = .completing ∧ j'.cores = []) ∧
    (∀ x, j.waitSince = some x → x + 1000000 ≤ s.time → exec (.agingTick h) s = .next (s.setJob { j with
      waitSince := some (x + 1000000), level := if j.level < 62 ∧ j.card.prio < 62 then j.level + 1 else j.level })) ∧
    (∀ x, j.heldSince = some x → x + 1000000 ≤ s.time → exec (.levelReturn h) s = .next (s.setJob { j with level := j.card.prio }))) ∧
  (∀ (h : Nat) (s : State), s.winter = true →
    ∀ i ∈ [Instr.jobCombine h, .completionRecord h, .jobEndedBySupervisor h, .agingTick h, .levelReturn h], exec i s = .next s)

/-- R321, R340-R342: the CTX members raise trap 3 for a user and trap 4 for a base that is no multiple of 64. When every range
passes its checks, `csave` and `vsave` store the parts of their areas and change no register; `crest` and `vrest` take the registers
an area holds, and an area of another format or VLMAX raises trap 1. What `csave` writes, `crest` reads back. DEDUCED: the
misaligned base's trap 4, that every range is checked before anything changes, and that `crest` leaves PC and takes VL, VTYPE, STRIP
and ACSIZE as they are stored (log entry 29). -/
def Obligations.ContextsSaveAndRestore : Prop :=
  (∀ (f : W3) (s : State), s.Calm →
    let base := s.getS f.a
    let area := fun (n : Nat) => s.vecBytes s.msys s.me base 8 n
    let part := fun (off n : Nat) => s.vecBytes s.msys s.me (base + BitVec.ofNat 64 off) 8 (n / 8)
    let parts := vectorParts s.file s.vlmax s.myCore.mshape s.myCore.slip s.thr.asid (saveFull (area 2) s.vlmax s.thr.asid)
    let saves := fun (i : Instr) (u : State) (l : List (Nat × List Byte)) =>
      ∃ t, exec i s = .next t ∧ t.regs = { s.regs with pc := s.regs.pc + 8 } ∧ t.file = s.file ∧
        t.msys.mem = ((u.partEffects base l).foldl MemSys.apply u.msys).mem
    let looked := s.performAll s.cur.core (s.rangeReads s.msys .load false base 8 2)
    (∀ i ∈ [Instr.vsave f, .vrest f, .csave f, .crest f],
      (s.regs.priv = false → exec i s = .next (s.trapped 3 (encode i))) ∧
      (s.regs.priv = true → base.toNat % 64 ≠ 0 → exec i s = .next (s.trapped 4 base))) ∧
    (s.regs.priv = true → base.toNat % 64 = 0 →
      (s.partsBad base (threadParts s.regs s.thr.asid) = none → saves (.csave f) s (threadParts s.regs s.thr.asid)) ∧
      (s.vecRange s.msys s.me .load base 8 2 = none → s.msys.sameBut looked.msys [] ∧
        (looked.partsBad base parts = none → saves (.vsave f) looked parts)) ∧
      (s.vecRange s.msys s.me .load base 8 128 = none →
        (natAt (area 128) 0 4 ≠ 1 → exec (.crest f) s = .next (s.trapped 1 (encode (.crest f)))) ∧
        (natAt (area 128) 0 4 = 1 → ∃ t, exec (.crest f) s = .next t ∧ s.msys.sameBut t.msys [] ∧ t.side.resv = none ∧ t.side.vresv = [] ∧
          t.regs = { s.regs.restore (area 128) with pc := s.regs.pc + 8 } ∧ t.regs.priv = s.regs.priv)) ∧
      (s.vecRange s.msys s.me .load base 8 8 = none →
        (natAt (area 8) 0 4 ≠ 1 ∨ natAt (area 8) 4 1 % 2 ≠ 1 ∨ natAt (area 8) 8 2 ≠ s.vlmax →
          exec (.vrest f) s = .next (s.trapped 1 (encode (.vrest f)))) ∧
        (natAt (area 8) 0 4 = 1 → natAt (area 8) 4 1 % 2 = 1 → natAt (area 8) 8 2 = s.vlmax →
          s.vecRange s.msys s.me .load base 8 (areaBytes s.vlmax / 8) = none →
          let got := vectorLoad s.vlmax (s.accepted.getLsbD 4) part
          ∃ t, exec (.vrest f) s = .next t ∧ s.msys.sameBut t.msys [] ∧ t.file = got.1 ∧ t.vlmax = s.vlmax ∧
            t.regs = { s.regs with pc := s.regs.pc + 8, fflg := if got.2 then s.regs.fflg ||| flINV else s.regs.fflg })))) ∧
  (∀ (r q : ThreadRegs) (asid : Nat) (b : List Byte), r.vl < 65536 → r.vstart < 65536 →
    (∀ p ∈ threadParts r asid, bytesAt b p.1 p.2.length = p.2) →
    let u := q.restore b
    (∀ n, 0 < n → n < 64 → vget u.s n 0 = vget r.s n 0) ∧ u.vl = r.vl ∧ u.vtTy = r.vtTy ∧ u.vtEw = r.vtEw ∧ u.vtNeg = r.vtNeg ∧
    u.vstart = r.vstart ∧ u.satk = r.satk ∧ u.fflg = r.fflg ∧ u.srseed = r.srseed ∧ u.strip = r.strip ∧ u.tval = r.tval ∧
    u.acSlg = r.acSlg ∧ u.acNslot = r.acNslot ∧ u.tpc = r.tpc ∧ u.tcause = r.tcause ∧ u.tscratch = r.tscratch ∧ u.acHits = r.acHits ∧ u.acMiss = r.acMiss ∧
    u.acSquash = r.acSquash ∧ u.rstart = r.rstart ∧ u.faultWord = r.faultWord ∧ u.shadow = r.shadow ∧ u.pc = q.pc ∧ u.priv = q.priv)
-- Paired words, blocks, asynchronous traps ------------------------------------------------------------------------------------------

/-- R168-R170: both halves of a paired word read the state before the word. Slot A names the first 32 scalar (16 vector) registers and
slot B the others, X the other bank for S. A computing half writes its result at 64 bits, `.brz` and `.brnz` go to PC + 8 × IMM14
or on, a load or store accesses S + 8 × IMM14, and a half that traps leaves the other half undone. -/
def Obligations.PairsReadBeforeEitherWrites : Prop :=
  ∀ (a b : Half) (s : State), s.Calm →
    let reg := fun (n : BitVec 5) (bank : Bool) => n.setWidth 6 + (if bank then 32#6 else 0)
    let imm := fun (h : Half) => (h.low.signExtend 64 : Word)
    let src := fun (h : Half) (slotB : Bool) => s.getS (reg h.s (slotB != (h.x == 1)))
    let computes := fun (h : Half) => h.op ∈ ([.mov, .add, .sub, .and, .or, .xor, .shl, .shr, .sra, .min, .max, .slt, .addi,
      .li] : List HOp)
    let value := fun (h : Half) (slotB : Bool) =>
      let x := src h slotB
      let y := s.getS (reg h.t5 slotB)
      match h.op with
      | .mov => x | .add => x + y | .sub => x - y | .and => x &&& y | .or => x ||| y | .xor => x ^^^ y
      | .shl => x <<< (y.toNat % 64) | .shr => x >>> (y.toNat % 64) | .sra => x.sshiftRight (y.toNat % 64)
      | .min => if x.sle y then x else y | .max => if x.sle y then y else x | .slt => if x.slt y then 1 else 0
      | .addi => x + imm h | .li => imm h | _ => 0
    let word := Instr.pairedWord a b
    let wroteA := s.advance.setS (reg a.d false) (value a false)
    let va := src a false + (imm a <<< 3)
    (computes a → computes b →
      exec word s = .next ((wroteA.setS (reg b.d true) (value b true)).setEntered none)) ∧
    (a.op = .nop → computes b → exec word s = .next ((s.put (reg b.d true) (value b true)).setEntered none)) ∧
    (computes a → b.op = .nop → exec word s = .next ((s.put (reg a.d false) (value a false)).setEntered none)) ∧
    (computes a → b.op = .brz → exec word s = .next
      ((if src b true = 0 then wroteA.setPc (s.pc + (imm b <<< 3)) else wroteA).setEntered none)) ∧
    (computes a → b.op = .brnz → exec word s = .next
      ((if src b true = 0 then wroteA else wroteA.setPc (s.pc + (imm b <<< 3))).setEntered none)) ∧
    (∀ c, a.op = .ld → computes b → s.scalarAccess s.msys s.me .load va 8 8 false = .error c → trapsAfter word s s c va) ∧
    (∀ c, a.op = .st → computes b → s.scalarAccess s.msys s.me .store va 8 8 false = .error c → trapsAfter word s s c va) ∧
    (∀ p, a.op = .ld → computes b → s.scalarAccess s.msys s.me .load va 8 8 false = .ok p →
      ∃ t, exec word s = .next t ∧ t.regs = ((s.advance.setS (reg a.d false) (BitVec.ofNat 64 (ofBytes (s.loadAt s.msys p 8)))).setS
        (reg b.d true) (value b true)).regs ∧ s.msys.sameBut t.msys []) ∧
    (∀ p, s.Canonical → a.op = .st → computes b → s.scalarAccess s.msys s.me .store va 8 8 false = .ok p →
      ∃ t, exec word s = .next t ∧ t.regs = (s.advance.setS (reg b.d true) (value b true)).regs ∧
        ofBytes (t.msys.load p.key p.pa 8) = (s.getS (reg a.d false)).toNat ∧ s.msys.sameBut t.msys [(p.pa, 8)] ∧
        s.msys.sameOutside t.msys p.key [(p.pa, 8)]) ∧
    (a.op.isVector = true → b.op = .nop ∨ computes b → s.vlmax < s.vl → exec word s = .next (s.trapped 1 (encode word))) ∧
    (a.op.isVector = true → b.op = .nop ∨ computes b → s.vl ≤ s.vlmax → s.vlmax ≤ 2048 → s.vstart < s.vl → a.d.toNat < 16 →
      let va := a.s.toNat + (if a.x == 1 then 16 else 0)
      let elem := fun (r j : Nat) => BitVec.ofNat 32 ((s.velems .i32 r s.vl).getD j 0)
      ∃ t, exec word s = .next t ∧ t.pc = s.pc + 8 ∧ t.vstart = 0 ∧ t.msys = s.msys ∧
        (∀ r, r < 32 → r ≠ a.d.toNat → t.vreg r = s.vreg r) ∧
        (computes b → t.getS (reg b.d true) = (s.put (reg b.d true) (value b true)).getS (reg b.d true)) ∧
        ∀ j, s.vstart ≤ j → j < s.vl → (a.op ∈ ([.vadd, .vsub, .vmul] : List HOp) →
          BitVec.ofNat 32 (t.velem .i32 a.d.toNat j) = (match a.op with
            | .vadd => elem va j + elem a.t5.toNat j
            | .vsub => elem va j - elem a.t5.toNat j
            | _ => elem va j * elem a.t5.toNat j)))

/-- R44, R46, R47, R225: `vfetch` raises trap 4 for a target that is no multiple of 8 and trap 1 when no `vpend` ends its block within
32 words; when the block's active VPs all come to their `vpend`, their writes are committed and VSTART is 0; when one faults,
nothing is committed, VSTART is its index and TSTATE.BLK is 1. R360: a thread at a boundary with TE = 1 takes the pending cause
of the lowest code, with TPC at the next instruction and TSTATE.ASY 1; otherwise nothing changes. DEDUCED: a word of the search for
`vpend` that cannot be fetched traps with that fetch's code and address, and the VPs run in index order (log entry 11). -/
def Obligations.BlocksAndAsynchronousTraps : Prop :=
  (∀ (f : W3) (s : State), s.Calm →
    let target := (if f.a = 0 then s.pc else s.getS f.a) + (f.imm.signExtend 64 <<< 3)
    let vps := (List.range s.vl).filter (fun i => f.k == 0 || (s.kreg f.k.toNat).getLsbD i)
    (target.toNat % 8 ≠ 0 → exec (.vfetch f) s = .next (s.trapped 4 target)) ∧
    (target.toNat % 8 = 0 → s.vpendFrom 32 target = .ok none → exec (.vfetch f) s = .next (s.trapped 1 (encode (.vfetch f)))) ∧
    (∀ c a, target.toNat % 8 = 0 → s.vpendFrom 32 target = .error (c, a) →
      trapsAfter (.vfetch f) s s c a) ∧
    (∀ last, target.toNat % 8 = 0 → s.vpendFrom 32 target = .ok (some last) →
      (∀ i c v lines, s.vpAll target last none vps = .error (i, c, v, lines) →
        exec (.vfetch f) s = .next ((((s.performAll s.cur.core (readsOf lines.eraseDups)).setVstart i).setEntered none).enterTrap
          { code := c, val := v, point := s.pc, asy := false, blk := true, fid := 0 }) ∧ i ∈ vps) ∧
      (∀ l, s.vpAll target last none vps = .ok l →
        exec (.vfetch f) s = .next (s.commitBlock l).ended ∧ (s.commitBlock l).vstart = 0 ∧ l.map (fun p => p.idx) = vps) ∧
      (vps = [] → ∃ t, exec (.vfetch f) s = .next t ∧ t.regs = s.regs.vectorDone ∧ t.file = s.file ∧ t.msys = s.msys))) ∧
  (∀ (s : State), s.Calm →
    (s.thr.takes = false → exec (.asyncTrapTaken s.cur) s = .next s) ∧
    (s.thr.takes = true → ∃ p ∈ s.side.pending, (∀ x ∈ s.side.pending, p.code ≤ x.code) ∧
      exec (.asyncTrapTaken s.cur) s = .next ((s.setSide { s.side with pending := s.side.pending.erase p }).enterTrap
        { code := p.code, val := p.val, point := s.pc, asy := true, blk := false, fid := p.fid })))
-- The scheduler, the memory system, power -------------------------------------------------------------------------------------------

/-- R36, R39, R343, R354-R357, R361-R367: a grant whose conditions fail changes nothing; one that is made passes no placeable ready
job of a higher level and starts logical core 0's thread at ENTRY with `s1`..`s3` the arguments, strip 0 and the strip length,
supervisor privilege and zeros elsewhere. A pre-emption takes cores only of jobs below 63 and below a ready job that holds none, and
puts a resident logical core into a save slot and off its core; a resumption puts its threads back from that slot. A reply writes
the answer that the request's home gave before the stop into its entry, once, and lowers LEFT; fail-over, outside Winter, changes
the active replica and nothing else. DEDUCED: the reply is the answer that the home gave by the stop (log entry 22), and the save
slot taken and what a grant and a resumption ask for (log entry 31); a group stopped by Winter goes back to the core kept for it
(log entry 40). -/
def Obligations.SchedulerMovesLogicalCores : Prop :=
  (∀ (s : State) (h : Nat) (j : Job) (cores : List Nat), s.job h = some j →
    (s.grantOk j cores = false → exec (.grant h cores) s = .next s) ∧
    (s.grantOk j cores = true → exec (.grant h cores) s = .next (s.grantCores j cores) ∧
      ∀ x ∈ s.jobs, x.ready = true → x.handle ≠ j.handle → j.level < x.level → s.placeable x = false) ∧
    (∀ c, cores = [c] → s.grantOk j cores = true → j.cores = [] → j.lcores = [] → j.next = 0 → 0 < j.strips → j.card.eqx = false →
      j.card.threads = 1 →
      ∃ t, exec (.grant h cores) s = .next t ∧
        let r := (t.thread { core := c, thread := 0 }).regs
        r.pc = j.card.entry ∧ vget r.s 1 0 = j.card.args ∧ vget r.s 2 0 = 0 ∧ vget r.s 3 0 = j.card.slen.setWidth 64 ∧
        (∀ n, n ≠ 1 → n ≠ 2 → n ≠ 3 → vget r.s n 0 = 0) ∧ r.strip = 0 ∧ r.priv = true ∧ r.srseed = j.card.srseed ∧ r.vl = 0 ∧
        (t.thread { core := c, thread := 0 }).owner = some { job := j.handle, lcore := 0, tid := 0 })) ∧
  (∀ (s : State) (core slot : Nat),
    exec (.preempt core slot) s = .next ((s.victimsAt core).foldl (fun u c => u.saveCore c slot u.nextGroup) s) ∧
    (∀ c ∈ s.victimsAt core, ∃ v ∈ s.jobs, ∃ x ∈ s.jobs, c ∈ v.cores ∧ v.card.prio ≠ 63 ∧ x.ready = true ∧ x.cores = [] ∧
      v.level < x.level) ∧
    (s.winter = true ∨ s.levelDue = true → exec (.preempt core slot) s = .next s) ∧
    (∀ v c n cx, s.victimsAt core = [core] → s.holder core = some v → s.job v.handle = some v →
      (s.core core).residents = [(v.handle, c)] → (v.lcore c).slot = none → s.slotsFor [core] = true →
      s.context v.card.asid = some cx → cx.takeSlot slot = some n →
      ∃ t j, exec (.preempt core slot) s = .next t ∧ t.job v.handle = some j ∧ (j.lcore c).st = .saved ∧
        (j.lcore c).slot = some n ∧ core ∉ j.cores ∧
        ∀ i, i < v.card.threads → t.thread { core := core, thread := (v.lcore c).base + i } = Thread.zero)) ∧
  (∀ (s : State) (l : LRef) (core : Nat) (j : Job) (cx : Context), s.job l.job = some j → s.context j.card.asid = some cx →
    let c := j.lcore l.lcore
    (s.winter = true ∨ c.st ≠ .saved → exec (.resume l core) s = .next s) ∧
    (c.st = .saved → s.resumePlaces j cx c.group core = none → exec (.resume l core) s = .next s) ∧
    (∀ cores places, j.card.gang = true → j.keptGroup c.group = false → s.resumePlaces j cx c.group core = some (cores, places) →
      (∀ p ∈ places, s.groupFits j cx p.1 p.2 = true) ∧ (j.card.wholeQuads = true → cores.length = j.card.ncores) ∧
      (j.card.wholeQuads = false → cores.length = j.card.coresNeeded ∧ ∀ p ∈ places, p.2 ∈ cores)) ∧
    (∀ x n cores, s.winter = false → j.ended1 = false →
      core ∈ j.cores ∨ (s.levelDue = false ∧ s.firstToPlace j (!j.cores.isEmpty && !j.card.gang) = true) →
      j.lcores = [(l.lcore, c)] → c.st = .saved →
      c.slot = some n → c.threads = [x] → x.side.requests = [] → x.side.report = none → c.base < 4 →
      s.resumePlaces j cx c.group core = some (cores, [(c.group, core)]) →
      ∃ t j', exec (.resume l core) s = .next t ∧ t.job l.job = some j' ∧ (j'.lcore l.lcore).st = .resident core c.base ∧
        (t.thread { core := core, thread := c.base }).regs =
          ({ ThreadRegs.zero with pc := x.pc, priv := x.priv }).restore (s.msys.load 0 (cx.slotPa n) 1024) ∧
        (t.thread { core := core, thread := c.base }).owner = some { job := j.handle, lcore := l.lcore, tid := 0 })) ∧
  (∀ (s : State) (l : LRef) (tid fid : Nat) (j : Job) (cx : Context) (n : Nat) (x : SavedThread),
    s.job l.job = some j → s.context j.card.asid = some cx → (j.lcore l.lcore).st = .saved → (j.lcore l.lcore).slot = some n →
    (j.lcore l.lcore).threads[tid]? = some x → tid < 4 →
    let area := cx.slotPa n + 1024 * tid
    let base := cx.slotPa n + 4096 + 8192 * tid
    ((∀ r ∈ x.side.requests, r.fid ≠ fid) → exec (.replyArrival l tid fid) s = .next s) ∧
    (s.winter = true → exec (.replyArrival l tid fid) s = .next s) ∧
    (∀ r a, s.Canonical → s.winter = false → x.side.requests.find? (fun q => q.fid == fid) = some r →
      s.findEntry base fid (natAt (s.msys.load 0 (area + 0x300) 2) 0 2) 0 = some a →
      ∃ t, exec (.replyArrival l tid fid) s = .next t ∧ t.cores = s.cores ∧
        t.msys.load 0 a 16 = logEntry fid r.answer.state r.answer.code r.regByte r.elem r.answer.value ∧
        s.logLeft cx n tid = natAt (s.msys.load 0 (area + 0x302) 2) 0 2 ∧
        natAt (t.msys.load 0 (area + 0x302) 2) 0 2 = natAt (s.msys.load 0 (area + 0x302) 2) 0 2 - 1)) ∧
  (∀ s : State, exec .schedulerFailover s = .next (if s.winter then s else { s with replica := 1 - s.replica }))

/-- R107-R111, R117, R123, R400: the migration epoch of a die, once each ms of TIME, halves the counters of the sub-blocks homed on
it, leaves their placement, and starts a move only of one that is neither pinned nor moving: to a free HBM4 frame of the die whose
counter is largest, when that counter reaches the threshold and the ratio and the die is not the home, or, at the epoch after as
many with the counters all zero as the threshold names, where they still are and frames are short, to a free LPDDR frame of the half
homed in the home die. The home passes line by line; the last line of a move gives the record its new placement; four moves within
16 ms pin it for 256 ms. A poisoned line stays poisoned until it is written whole; PT of a core rises by 1 for every 64 A-cycles.
Another member's access is performed here and counted, one from no member changes nothing, and no access reaches a sub-block that a
package which is no member holds. In Winter a line can still be poisoned; nothing else of this happens, and another package's
request is held for retry. DEDUCED: the epoch acts on the records that the model lists (log entry 34), the first of each period
falls due where log entry 56 says, and another package's write is stored as it comes, without a key (log entry 35). -/
def Obligations.MemorySystemEventsChangeTheirRecords : Prop :=
  (∀ (s : State) (die : Nat), s.winter = false → die < 4 → let due := vget s.epochAt die 0
    (s.time < due → exec (.migrationEpoch die) s = .next s) ∧
    (due ≤ s.time → ∃ t, exec (.migrationEpoch die) s = .next t ∧ t.msys.mem = s.msys.mem ∧ t.msys.lines = s.msys.lines ∧
      vget t.epochAt die 0 = due + 1000000 ∧
      (∀ n r, SMap.find s.msys.records n = some r → ∃ r', SMap.find t.msys.records n = some r' ∧ r'.tier = r.tier ∧ r'.die = r.die ∧
        r'.dframe = r.dframe ∧ r'.pinned = r.pinned ∧ r'.moves = r.moves ∧
        (r.home s.pkg.toNat n ≠ some (s.pkg.toNat, die) → r' = r) ∧
        (r.home s.pkg.toNat n = some (s.pkg.toNat, die) →
          r'.cnt = r.cnt.map (fun (x : BitVec 8) => x >>> 1) ∧ r'.cntr = r.cntr >>> 1) ∧
        (r'.moving = true → r.moving = true ∨ r.pinned = false) ∧ (r.moving = true → r'.moving = true ∧ r'.dest = r.dest)) ∧
      (∀ n r r', SMap.find s.msys.records n = some r → SMap.find t.msys.records n = some r' →
        r.home s.pkg.toNat n = some (s.pkg.toNat, die) → r.pinned = false → r.moving = false →
        let c := fun (k : Nat) => (vget r'.cnt k 0).toNat
        let zero := (∀ k, k < 4 → c k = 0) ∧ r'.cntr = 0
        (zero → r'.quiet = r.quiet + 1) ∧ (¬ zero → r'.quiet = 0) ∧
        ∀ d, d < 4 → (∀ k, k < 4 → c k ≤ c d) → (∀ k, k < d → c k < c d) →
          let begun := fun (tier at_ : BitVec 2) (half : BitVec 25 → Prop) =>
            (∃ f, half f ∧ r'.moving = true ∧ r'.dest = some (tier, at_, f) ∧
              ∀ m q, m ≠ n → SMap.find t.msys.records m = some q → q.uses tier at_ f.toNat = false) ∨
            (r'.moving = false ∧ ∀ f : BitVec 25, half f →
              s.msys.frameFree tier at_ f.toNat = false ∨ t.msys.frameFree tier at_ f.toNat = false)
          let promotes := s.thPromote ≤ c d ∧ s.thRatio * c die ≤ c d ∧ d ≠ die
          let demotes := ¬ promotes ∧ r.tier = 0 ∧ zero ∧ s.thQuiet ≤ r.quiet ∧ s.accepted.getLsbD 5 = true
          (promotes → begun 0 (BitVec.ofNat 2 d) (fun _ => True)) ∧
          (demotes → s.msys.hbmShort r.die = true → begun 1 r.die (fun f => f.getLsbD 24 = (die % 2 == 1))) ∧
          (¬ promotes → ¬ (demotes ∧ t.msys.hbmShort r.die = true) → r'.moving = false)))) ∧
  (∀ (s : State) (n line : Nat), s.winter = false →
    let r := s.msys.record n
    let opens := r.moves = 0 ∨ r.windowAt + 16000000 ≤ s.time
    (∀ d, r.dest = some d → r.moving = true → line = r.moved → line < 1023 →
      exec (.migrationLineDone n line) s = .next { s with msys := s.msys.setRecord n { r with moved := line + 1 } }) ∧
    (∀ tier die frame pa, r.dest = some (tier, die, frame) → r.moving = true → line = r.moved → line < 1023 → s.subBlock pa = some n →
      ∃ t, exec (.migrationLineDone n line) s = .next t ∧
        t.homeDieOf pa = (if pa / 64 % 1024 ≠ line then s.homeDieOf pa
          else if tier = 1 then (if frame.getLsbD 24 then 1 else 0) + 2 * (n % 2) else die.toNat)) ∧
    (∀ tier die frame, r.dest = some (tier, die, frame) → r.moving = true → line = r.moved → 1023 ≤ line →
      ∃ t, exec (.migrationLineDone n line) s = .next t ∧ t.msys.mem = s.msys.mem ∧
        let r' := t.msys.record n
        r'.tier = tier ∧ r'.die = die ∧ r'.dframe = frame ∧ r'.moving = false ∧ r'.dest = none ∧ r'.cnt = r.cnt ∧
        (opens → r'.moves = 1 ∧ r'.windowAt = s.time) ∧ (¬ opens → r'.moves = min 4 (r.moves + 1) ∧ r'.windowAt = r.windowAt) ∧
        (¬ opens → 3 ≤ r.moves → r.pinned = false → r'.pinned = true ∧ r'.pinleft = 256 ∧ t.pinEvents = s.pinEvents + 1) ∧
        (opens ∨ r.moves < 3 → r'.pinned = r.pinned ∧ t.pinEvents = s.pinEvents)) ∧
    (r.dest = none ∨ r.moving = false ∨ line ≠ r.moved → exec (.migrationLineDone n line) s = .next s) ∧
    (r.moves ≠ 0 → r.windowAt + 16000000 ≤ s.time →
      exec (.movesWindowClose n) s = .next { s with msys := s.msys.setRecord n { r with moves := 0 } }) ∧
    (r.moves = 0 ∨ s.time < r.windowAt + 16000000 → exec (.movesWindowClose n) s = .next s) ∧
    (r.pinned = true → r.pinAt + 1000000 ≤ s.time → exec (.pinleftTick n) s = .next { s with msys := s.msys.setRecord n { r with
      pinleft := r.pinleft - 1, pinned := decide (1 < r.pinleft.toNat), pinAt := r.pinAt + 1000000 } }) ∧
    (r.pinned = false ∨ s.time < r.pinAt + 1000000 → exec (.pinleftTick n) s = .next s)) ∧
  (∀ (s : State) (line core : Nat),
    (∃ t, exec (.linePoisoned line) s = .next t ∧ t.msys.mem = s.msys.mem ∧ (t.msys.line line).poison = true ∧
      (t.msys.line line).key = (s.msys.line line).key ∧ ∀ n, n ≠ line → t.msys.line n = s.msys.line n) ∧
    (s.winter = false → core < 1024 → let k := s.clockCore core
      let n := (s.quadNow (quadOf k)).edges / 64
      (n ≤ (s.core k).ptTicks → exec (.ptAdvance core) s = .next s) ∧
      ((s.core k).ptTicks < n → ∃ t, exec (.ptAdvance core) s = .next t ∧ t.pt core = s.pt core + (n - (s.core k).ptTicks) ∧
        (t.core k).ptTicks = n ∧ t.msys = s.msys))) ∧
  (∀ (s : State) (pkg pa n : Nat), s.winter = false → s.member pkg = true → pkg ≠ s.pkg.toNat → s.subBlock pa = some n →
    (s.msys.record n).tier ≠ 2 ∨ s.member (s.msys.record n).rpkg.toNat = true →
    let counted := fun (t : State) => (t.msys.record n).cntr = satInc (s.msys.record n).cntr ∧ (t.msys.record n).cnt = (s.msys.record n).cnt
    (∀ k, ∃ t, exec (.accessFromOtherPackage pkg pa (.read k)) s = .next t ∧ s.msys.sameBut t.msys [] ∧ t.cores = s.cores ∧
      (0 < k → pa % 64 + k ≤ 64 → counted t)) ∧
    (∀ bytes, s.Canonical → 0 < bytes.length → s.poisoned s.msys .store pa bytes.length = false →
      ∃ t, exec (.accessFromOtherPackage pkg pa (.write bytes)) s = .next t ∧ t.cores = s.cores ∧
        t.msys.load 0 pa bytes.length = bytes ∧ s.msys.sameBut t.msys [(pa, bytes.length)] ∧
        s.msys.sameOutside t.msys 0 [(pa, bytes.length)] ∧ (pa % 64 + bytes.length ≤ 64 → counted t)) ∧
    (∀ bytes, 0 < bytes.length → s.poisoned s.msys .store pa bytes.length = true →
      ∃ t, exec (.accessFromOtherPackage pkg pa (.write bytes)) s = .next t ∧ t.cores = s.cores ∧ s.msys.sameBut t.msys [])) ∧
  (∀ (s : State) (pkg pa : Nat) (op : RemoteOp), s.winter = false → s.member pkg = false ∨ pkg = s.pkg.toNat ∨ s.subBlock pa = none →
    exec (.accessFromOtherPackage pkg pa op) s = .next s) ∧
  (∀ (s : State) (w : Who) (pa n : Nat) (kind : AccessKind), s.subBlock pa = some n → (s.msys.record n).tier = 2 →
    s.member (s.msys.record n).rpkg.toNat = false → s.reachable w pa kind = false) ∧
  (∀ (s : State) (die n line core pkg pa : Nat) (op : RemoteOp), s.winter = true →
    (∀ i ∈ [Instr.migrationEpoch die, .migrationLineDone n line, .movesWindowClose n, .pinleftTick n, .ptAdvance core],
      exec i s = .next s) ∧
    exec (.accessFromOtherPackage pkg pa op) s = .next { s with inbox := s.inbox ++ [.event (.accessFromOtherPackage pkg pa op)] })

/-- R28, R375-R384, R398, R402: a change of operating point begins and ends, and between the two the quad runs at the slower clock;
CYC counts on. A droop alarm at or beyond DRTH counts and latches its depth; from the next edge of the A-clock on six cycles last
two periods each, then 64 cycles issue at half rate. R385-R390, R376: the arithmetic slot of a core issues one group of 64 bits for
each of ALC lanes in each A-cycle that may issue, and a group is final at the edge that ends its cycle: work of so many bits is
final after as many edges as it has groups, and 32 more after an alarm. A PC sample, one for each 4,096 ns, shows the next thread,
the address of its oldest instruction that has not issued all its groups, and its quad's estimate. Ballast, window by window, keeps
a quad's estimate from falling below 87.5 % of the window before, and is charged to the contexts whose issued power fell. The cap
lease ends at its TIME. Winter stops the package and Spring restarts it once both causes are gone. A device reset leaves no job,
context, program or key but firmware's; it runs an image that verifies, and the fused minimum does not fall. DEDUCED or chosen by
the model: a change of point is two events, another point named between them is ignored, and the deepest sag of an alarm that waits
for its edge counts (log entry 47); when a halved window begins (log entry 32); which windows are looked at and what a fall is (log
entry 54); the number and the instant of a sample (log entry 56); and memory that is empty after a device reset and in recovery (log
entry 37). -/
def Obligations.PowerEventsActOnTheirQuads : Prop :=
  (∀ (s : State) (q n : Nat), s.winter = false →
    let x := s.quadNow q
    let deep := BitVec.ofNat 8 (min 255 n)
    (8 ≤ n → exec (.opPointChange q n) s = .next s) ∧
    (n < 8 → x.moving = none → n = x.op → exec (.opPointChange q n) s = .next s) ∧
    (n < 8 → x.moving = none → n ≠ x.op → ∃ t, exec (.opPointChange q n) s = .next t ∧ t = s.setQuad q { x with moving := some n } ∧
      opMhz (t.quad q).clock = min (opMhz x.op) (opMhz n) ∧ t.cyc q = s.cyc q) ∧
    (∀ p, n < 8 → x.moving = some p → n ≠ p → exec (.opPointChange q n) s = .next s) ∧
    (n < 8 → x.moving = some n → ∃ t, exec (.opPointChange q n) s = .next t ∧ t = s.setQuad q { x with op := n, moving := none } ∧
      (t.quad q).clock = n ∧ t.cyc q = s.cyc q) ∧
    (n ∈ ([4, 8, 16, 32] : List Nat) → ∃ t, exec (.alcChange q n) s = .next t ∧ (t.core q).alcWanted = n ∧ t.alc q ≤ n ∧
      t.msys = s.msys) ∧
    (n < x.drth.toNat → exec (.droopAlarm q n) s = .next s) ∧
    (x.drth.toNat ≤ n → x.alarm = true ∨ x.stretch ≠ 0 → exec (.droopAlarm q n) s = .next (s.setQuad q { x with
      drSag := if x.drSag < deep then deep else x.drSag })) ∧
    (x.drth.toNat ≤ n → x.alarm = false → x.stretch = 0 → exec (.droopAlarm q n) s = .next (s.setQuad q { x with
      drCnt := x.drCnt + 1, drSag := deep, drEv := true, alarm := true })) ∧
    (∀ i ∈ [Instr.stretchEnd q, .halvedIssueEnd q], exec i s = .next (s.setQuad q x) ∧ (s.setQuad q x).cyc q = s.cyc q) ∧
    (∃ t, exec (.ballastWindow q) s = .next t ∧
      { t with contexts := s.contexts, energy0 := s.energy0, fresh := s.fresh, quads := s.quads } = s ∧
      (x.edges / 64 ≤ (s.quad q).window → t = s) ∧
      ((s.quad q).window < x.edges / 64 → (∀ p, p ≠ q → t.quad p = s.quad p) ∧
        ∃ e l w, t.quad q = { s.quad q with window := x.edges / 64, estimate := e, issued := l, falls := w }) ∧
      ((s.quad q).window + 1 = x.edges / 64 → s.quadContexts q ≠ [] ∨ (s.quad q).estimate ≠ 0 → t = s.ballastStep q)) ∧
    ((∀ i, i < 4 → s.sampleNumber ≤ (s.core (4 * quadOf q + i)).samples) → exec (.pcSample q) s = .next s) ∧
    ((s.core q).samples < s.sampleNumber → ∃ t, exec (.pcSample q) s = .next t ∧ t.msys = s.msys ∧
      let k := s.sampleNumber
      let Q := quadOf q
      t.quad Q = (s.ballastTo Q (s.sampleInstant Q)).quad Q ∧
      let tid := (k + 3) % 4
      let thread := s.thread { core := q, thread := tid }
      let p := (t.core q).pcsamp
      (t.core q).samples = k ∧ p.extractLsb' 16 2 = BitVec.ofNat 2 tid ∧ p.extractLsb' 18 2 = BitVec.ofNat 2 k ∧
      p.extractLsb' 0 16 = BitVec.ofNat 16 (min 65535 (t.quad Q).estimate) ∧
      p.getLsbD 20 = (thread.owner.isSome && !thread.ended) ∧ p.extractLsb' 21 43 = (((s.sampleInstant Q).oldest (q % 4) tid).getD thread.regs.pc).extractLsb' 3 43)) ∧
  (∀ (s : State) (q : Nat),
    let t := s.ballastStep q
    let x := s.quad q
    let y := t.quad q
    let issued := (y.issued.map (fun p => p.2)).sum
    let energy := fun (u : State) => u.energy0 + (u.contexts.map (fun p => p.2.energy)).sum
    y.window = x.window + 1 ∧ y.estimate = max issued (if 8 * issued < 7 * x.estimate then 7 * x.estimate / 8 else 0) ∧
    ((∃ p ∈ x.issued, SMap.get y.issued 0 p.1 < p.2) →
      energy t = energy s + (y.estimate - issued) * 64 * opPeriod x.clock ∧
      ∀ a c, (∀ p ∈ x.issued, p.1 = a → p.2 ≤ SMap.get y.issued 0 a) → s.context a = some c → t.context a = some c)) ∧
  (∀ (x : Quad) (lanes : Nat → Nat) (n : Nat), x.alarm = true → x.moving = none → let y := x.after lanes n
    y.edges = x.edges + n ∧
    (1 ≤ n → n ≤ 6 → y.stretch = 7 - n ∧ y.halved = 0 ∧ y.cycle = 2 * opPeriod x.op) ∧
    (7 ≤ n → n ≤ 71 → y.stretch = 0 ∧ y.halved = 71 - n ∧ y.cycle = opPeriod x.op) ∧
    (7 ≤ n → y.edgeAt = x.edgeAt + x.cycle + (n + 5) * opPeriod x.op)) ∧
  (∀ (x : Quad) (lanes : Nat → Nat) (i t : Nat) (sl : Slot) (pc : Word) (bits n : Nat), x.slots = [(i, sl)] → t < 4 →
    sl.queue = vset (Vector.replicate 4 []) t [{ pc := pc, left := bits }] → 0 < bits →
    x.alarm = true ∨ (x.alarm = false ∧ x.stretch = 0 ∧ x.halved = 0) →
    let groups := fun (k : Nat) => if x.alarm = false ∨ k ≤ 6 then k else if k ≤ 70 then 6 + (k - 5) / 2 else k - 32
    let u := 64 * lanes i
    let y := (x.after lanes n).slot i
    (groups n * u < bits → vget y.queue t [] = [{ pc := pc, left := bits - groups n * u }]) ∧
    (bits ≤ groups n * u → vget y.queue t [] = []) ∧
    (0 < n → y.working t = decide (groups (n - 1) * u < bits))) ∧
  (∀ (s : State) (cap until_ : Nat), s.capLease = some (cap, until_) →
    (until_ ≤ s.time → exec .capLeaseExpiry s = .next { s with capLease := none }) ∧
    (s.time < until_ → exec .capLeaseExpiry s = .next s)) ∧
  (∀ s : State, ∃ t, exec .winterEntry s = .next t ∧ t.winter = true ∧ t.brownOut = true ∧ t.time = s.time ∧
    t.winterCount = (if s.winter then s.winterCount else s.winterCount + 1)) ∧
  (∀ s : State, ∃ t, exec .spring s = .next t ∧ t.brownOut = false ∧ t.winter = (s.winter && s.winterCmd) ∧ t.time = s.time) ∧
  (∀ s : State, let image := s.stored.getD s.running
    ∃ t, exec .deviceReset s = .next t ∧ t.jobs = [] ∧ t.contexts = [] ∧ (∀ n, t.keyOf n = none) ∧ t.cores = [] ∧ t.started = false ∧
      t.msys.mem = [] ∧ t.winter = false ∧ t.replies = [] ∧
      (image.accepted s.fusedMin = true → t.running = image ∧ t.recovery = false ∧ t.stored = none ∧
        t.fusedMin.toNat = max s.fusedMin.toNat image.arb.toNat) ∧
      (image.accepted s.fusedMin = false → t.recovery = true ∧ t.offer = 1 ∧ t.fusedMin = s.fusedMin))
-- The command endpoint --------------------------------------------------------------------------------------------------------------

/-- R391-R405, Table 30.2: a reply carries the message's TAG, a STATUS, its VALUE and what follows it. A message to I/O die 1 in
Winter is held and changes nothing; a malformed one is answered 3 and changes nothing else. In a device that has started, is neither
in Winter nor in recovery, each of the sixteen commands has its effect and its answer. DEDUCED or chosen by the model: the lowest
code that a card breaks is answered (log entry 30); the order of the checks of `map` and `unmap` and their STATUS (log entry 38);
the corners of keys and firmware, and a signature whose random part is free (log entry 39); and `unmap` writing zeros (log entry
51). -/
def Obligations.HostCommandsActAndAnswer : Prop :=
  (∀ (s : State) (st : Nat) (v : Word) (tail : List Byte),
    let bytes := toBytes 8 s.command.tag.toNat ++ toBytes 1 st ++ toBytes 7 0 ++ toBytes 8 v.toNat ++ tail
    s.answer st v tail = { s with replies := s.replies ++ [{ conn := s.command.conn, seq := s.command.seq, bytes := bytes }] }) ∧
  (∀ (s : State), ∀ i ∈ [Instr.submit, .bind, .unbind, .map, .unmap, .powerCap, .enterWinter, .liftWinter, .readCounter, .firmwareUpdate,
      .loadKey, .attest, .readOffer, .accept, .jobStatus, .podTable],
    (s.winter = true → s.command.iodie ≠ 0 → exec i s = .next s) ∧
    (s.winter = false → s.command.reserved ≠ 0 ∨ s.command.blen ≠ s.command.body.length → exec i s = .next (s.answer 3 0 []))) ∧
  (∀ (s : State), s.command.reserved = 0 → s.command.blen = s.command.body.length → s.started = true → s.winter = false →
      s.recovery = false →
    let arg := fun (off n : Nat) => natAt s.command.body off n
    let len := s.command.body.length
    let zero := fun (off n : Nat) => natAt s.command.body off n = 0
    let asid := arg 0 2
    let unwrapped := keyUnwrap (kemSecret (bytesAt s.command.body 8 1568)) (bytesAt s.command.body 1576 40)
    (len = 128 → s.jobs.length < 65536 →
      (∀ h u, s.submitCard (cardOf s.command.body) true true = (.accepted h, u) →
        exec .submit s = .next (u.answer 0 (BitVec.ofNat 64 h) [])) ∧
      (∀ n u, s.submitCard (cardOf s.command.body) true true = (.refused n, u) →
        exec .submit s = .next (u.answer 1 (0x8000000000000000 + BitVec.ofNat 64 n) []))) ∧
    (len = 128 → 65536 ≤ s.jobs.length →
      let c := cardOf s.command.body
      let table := s.footprintsOf c
      let n := s.refusal c (table.1.map (fun b => (footprintOf b).2)) true (s.bound c.asid) table.2.2.isSome
      ∃ u : State, s.msys.sameBut u.msys [] ∧ u.jobs = s.jobs ∧
        exec .submit s = .next (u.answer 1 (0x8000000000000000 + BitVec.ofNat 64 (if n = 0 ∨ n = 11 then 10 else n)) [])) ∧
    (len = 8 → 2 ^ 63 ≤ arg 0 8 → exec .jobStatus s = .next (s.answer 0 (BitVec.ofNat 64 (arg 0 8)) [])) ∧
    (len = 8 → arg 0 8 < 2 ^ 63 → exec .jobStatus s = .next (s.answer 0 ((s.jobWord (arg 0 8)).getD 0) [])) ∧
    (len = 256 → s.bindCode asid s.bindBody ≠ 0 →
      exec .bind s = .next (s.answer 1 (BitVec.ofNat 64 (s.bindCode asid s.bindBody)) [])) ∧
    (len = 256 → s.bindCode asid s.bindBody = 0 → ∃ t c, exec .bind s = .next t ∧ t.context asid = some c ∧
      c.keyid = arg 2 2 ∧ c.sroot = arg 8 8 ∧ c.wtab = arg 0x10 8 ∧ c.spool = arg 0x38 8 ∧ c.scnt = arg 0x40 4 ∧
      (s.context asid = none → c.dies = BitVec.ofNat 4 (arg 4 1) ∧ c.bpkg = BitVec.ofNat 512 (arg 0x78 64) ∧ c.slots = []) ∧
      (∀ o, s.context asid = some o → c.dies = o.dies ||| BitVec.ofNat 4 (arg 4 1) ∧ c.slots = o.slots) ∧
      (∀ d, d < 4 → (BitVec.ofNat 4 (arg 4 1)).getLsbD d = true → vget c.windows d [] = readWindows s.msys (arg 0x10 8)) ∧
      t.replies = (s.answer 0 0 []).replies ∧ s.msys.sameBut t.msys []) ∧
    (len = 8 → zero 2 6 → s.context asid = none → exec .unbind s = .next (s.answer 1 10 [])) ∧
    (len = 8 → zero 2 6 → (s.context asid).isSome = true → (∃ j ∈ s.jobs, j.card.asid = asid ∧ j.st = .active) →
      exec .unbind s = .next (s.answer 1 11 [])) ∧
    (len = 8 → zero 2 6 → (s.context asid).isSome = true → (∀ j ∈ s.jobs, j.card.asid = asid → j.st ≠ .active) →
      exec .unbind s = .next ((s.unbind asid).answer 0 0 []) ∧ (s.unbind asid).contexts = SMap.erase s.contexts asid ∧
      { s.unbind asid with contexts := s.contexts, quads := s.quads } = s ∧ ∀ q, (s.unbind asid).quad q = { s.quad q with
        issued := SMap.erase (s.quad q).issued asid, falls := SMap.erase (s.quad q).falls asid }) ∧
    (∀ i e, (i = .map ∧ len = 32 ∧ e = BitVec.ofNat 128 (ofBytes (bytesAt s.command.body 16 16))) ∨ (i = .unmap ∧ len = 16 ∧ e = 0) →
      zero 4 4 →
      let rec_ : Word := BitVec.ofNat 64 (arg 8 8)
      (rec_.toNat % 8 ≠ 0 ∨ 16384 ≤ arg 2 2 → exec i s = .next (s.answer 1 1 [])) ∧
      (rec_.toNat % 8 = 0 → arg 2 2 < 16384 → weBad e = true → exec i s = .next (s.answer 1 4 [])) ∧
      (rec_.toNat % 8 = 0 → arg 2 2 < 16384 → weBad e = false → s.context asid = none → exec i s = .next (s.answer 1 10 [])) ∧
      (∀ cx p, s.Canonical → rec_.toNat % 8 = 0 → arg 2 2 < 16384 → weBad e = false → s.context asid = some cx →
        let cx' := cx.setEntry (arg 2 2) e
        let u := s.setContext asid cx'
        (∀ d, d < 4 → vget cx'.windows d [] =
          if cx.dies.getLsbD d then SMap.set (vget cx.windows d []) (arg 2 2) e else vget cx.windows d []) ∧
        (∀ code, u.vectorAccess u.msys (u.deviceAgent asid) .store rec_ 8 8 = .error code →
          ∃ l, exec i s = .next ((s.performAll (u.deviceAgent asid).core (readsOf l)).answer 1 7 [])) ∧
        (u.vectorAccess u.msys (u.deviceAgent asid) .store rec_ 8 8 = .ok p →
        ∃ t, exec i s = .next t ∧ t.context asid = some cx' ∧
          t.msys.load p.key p.pa 8 = toBytes 8 1 ∧ t.replies = (s.answer 0 0 []).replies ∧
          (p.pa + 8 ≤ cx.wtab + 16 * arg 2 2 ∨ cx.wtab + 16 * arg 2 2 + 16 ≤ p.pa →
            p.pa / 64 ∉ linesOf (cx.wtab + 16 * arg 2 2) 16 → p.pa % 8 = 0 →
            t.msys.load 0 (cx.wtab + 16 * arg 2 2) 16 = toBytes 16 e.toNat)))) ∧
    (len = 16 → zero 10 2 → let seq : Word := BitVec.ofNat 64 (arg 0 8)
      let lease := if arg 12 4 = 0 then none else some (min 2600 (max 260 (arg 8 2)), s.time + arg 12 4 * 1000000)
      (s.capLast < seq → exec .powerCap s = .next ({ s with capLast := seq, capLease := lease }.answer 0 seq [])) ∧
      (¬ s.capLast < seq → exec .powerCap s = .next (s.answer 0 s.capLast []))) ∧
    (len = 0 → ∃ t, exec .enterWinter s = .next t ∧ t.winter = true ∧ t.winterCmd = true ∧ t.winterCount = s.winterCount + 1 ∧
      t.replies = (s.answer 0 0 []).replies) ∧
    (len = 0 → exec .liftWinter s = .next ({ s with winterCmd := false }.answer 0 0 [])) ∧
    (len = 8 → arg 0 8 = 0 → exec .readCounter s = .next (s.answer 0 s.pinEvents [])) ∧
    (len = 8 → arg 0 8 = 1 → exec .readCounter s = .next (s.answer 0 s.winterCount [])) ∧
    (len = 8 → arg 0 8 = 2 → exec .readCounter s = .next (s.answer 0 (BitVec.ofNat 64 (s.energy0 / 78000000)) [])) ∧
    (len = 8 → arg 0 8 = 4 → exec .readCounter s = .next (s.answer 0 s.corrected [])) ∧
    (len = 8 → arg 0 8 = 5 → exec .readCounter s = .next (s.answer 0 s.failures [])) ∧
    (∀ cx, len = 8 → arg 0 8 % 65536 = 3 → arg 0 8 < 2 ^ 32 → s.context (arg 0 8 / 65536) = some cx →
      exec .readCounter s = .next (s.answer 0 (BitVec.ofNat 64 (cx.energy / 78000000)) [])) ∧
    (len = 16 + arg 8 4 → 1 ≤ arg 8 4 → arg 8 4 ≤ 65520 → 1 < arg 4 4 → arg 4 4 ≤ 1024 → zero 12 4 → arg 0 4 = 0 →
      let u := { s with staged := s.command.body.drop 16, stagedNext := 1, stagedOf := arg 4 4 }
      exec .firmwareUpdate s = .next (u.answer 0 (BitVec.ofNat 64 (len - 16)) [])) ∧
    (len = 16 + arg 8 4 → 1 ≤ arg 8 4 → arg 8 4 ≤ 65520 → 1 < arg 4 4 → arg 4 4 ≤ 1024 → zero 12 4 → arg 0 4 ≠ 0 →
      arg 0 4 ≠ s.stagedNext → exec .firmwareUpdate s = .next (s.answer 1 (BitVec.ofNat 64 s.stagedNext) [])) ∧
    (len = 1616 → zero 2 6 → asid = 0 → exec .loadKey s = .next (s.answer 5 0 [])) ∧
    (∀ key, len = 1616 → zero 2 6 → 0 < asid → asid < 8192 → unwrapped = some key → key ≠ 0 →
      ∃ t, exec .loadKey s = .next t ∧ t.keyOf asid = some key ∧ t.keyLoads = s.keyLoads + 1 ∧
        t.replies = (s.answer 0 0 []).replies ∧ ∀ n, n ≠ asid → t.keyOf n = s.keyOf n) ∧
    (len = 1616 → zero 2 6 → 0 < asid → asid < 8192 → unwrapped = none →
      exec .loadKey s = .next (s.answer 5 0 [])) ∧
    (len = 32 → exec .attest s = .next ({ s with fresh := s.fresh + 1 }.answer 0 30976
        (s.report ++ slhSign identityKey (beBytes 32 (Config.signRandom s.fresh).toNat) s.report)) ∧
      bytesAt s.report 0 32 = s.command.body) ∧
    (len = 0 → exec .readOffer s = .next (s.answer 0 (s.offer.setWidth 64) (toBytes 24 (s.offer.toNat / 2 ^ 64)))) ∧
    (len = 64 → zero 36 28 → exec .accept s = .next (s.answer 6 0 [])) ∧
    (len = 16 + 32 * arg 2 2 → 1 ≤ arg 2 2 → arg 2 2 ≤ 2047 → asid + arg 2 2 ≤ 8192 → zero 4 12 →
      (∀ k, k < arg 2 2 → arg (16 + 32 * k) 16 < 2) →
      (s.accepted.getLsbD 6 = false → exec .podTable s = .next (s.answer 5 0 [])) ∧
      (s.accepted.getLsbD 6 = true → ∃ t v, exec .podTable s = .next t ∧ t.replies = (s.answer 0 v []).replies ∧ t.msys = s.msys ∧
        ∀ k, k < arg 2 2 → SMap.get t.pod 0 (asid + k) = BitVec.ofNat 256 (arg (16 + 32 * k) 32)))) ∧
  (∀ (s : State), s.command.reserved = 0 → s.command.blen = 64 → s.command.body.length = 64 → s.started = false → s.winter = false →
    s.recovery = false → natAt s.command.body 36 28 = 0 →
    let set := BitVec.ofNat 256 (natAt s.command.body 0 32) ||| 1
    let pkg := natAt s.command.body 32 2
    let floor := natAt s.command.body 34 2
    let ok := set &&& ~~~s.offer = 0 ∧ (s.offer.getLsbD 5 = true → set.getLsbD 5 = true) ∧ pkg < 8192 ∧
      (floor = 0 ∨ 520 ≤ floor ∧ floor ≤ 2600)
    let u := { s with started := true, accepted := set, pkg := BitVec.ofNat 13 pkg, capFloor := if floor = 0 then 1040 else floor }
    (ok → exec .accept s = .next (u.answer 0 0 [])) ∧
    (¬ ok → exec .accept s = .next (s.answer 1 0 []))) ∧
  (∀ (s : State), s.started = false → s.winter = false → s.command.reserved = 0 → s.command.blen = 8 → s.command.body.length = 8 →
    exec .jobStatus s = .next (s.answer 4 0 []))

-- Words, steps, invariants -----------------------------------------------------------------------------------------------------------

/-- Tables 13.1-13.9, 14.1, 14.2: the worked words of chapters 13 to 25 decode to the instructions they stand for. -/
def Obligations.WorkedWordsDecode : Prop :=
  decodeWord 0x011461C005400000 = .ok (.div { d := 5, a := 6, b := 7, c := 0, ty := .i32, k := 0, q := 0, imm := 0 }) ∧
  decodeWord 0x101C500000606003 =
    .ok (.ld { d := 7, a := 5, b := 0, c := 0, ty := .i64, k := 0, ord := .acq, scope := .pkg, off := 3 }) ∧
  decodeWord 0x0320000000018000 = .ok (.li { d := 8, a := 0, imm := 24 }) ∧
  decodeWord 0x081401FFFFFFFFFF = .ok (.brNe { a := 5, b := 0, off := 0xFFFFFFFFFF }) ∧
  decodeWord 0x200C108000440000 = .ok (.vadd { d := 3, a := 1, b := 2, c := 0, ty := .i32, k := 2, q := 0, imm := 0 }) ∧
  decodeWord 0x1938A00001000000 = .ok (.acwait { d := 14, a := 10, b := 0, c := 0, ty := .i8, k := 0, q := 0, imm := 0 }) ∧
  decodeWord 0x84320B0024043FFE = .ok (.pairedWord { op := .add, d := 3, s := 4, x := 0, low := 0x0B00 }
    { op := .brnz, d := 0, s := 8, x := 0, low := 0x3FFE }) ∧
  decodeWord 0x0600000000000000 = .error .opUnassigned ∧ decodeWord 0x0000000005000000 = .error .fnUnassigned ∧
  decodeWord 0x0C00000003000000 = .error .vpOnly ∧ decodeWord 0x8000000080000000 = .error .pairRule

/-- R161-R169, R176-R182: no bit of an encoding is dropped. The word of a well-formed instruction that has one decodes to it, with
every operand at every value its encoding admits, and a word that decodes to an instruction is that instruction's word. -/
def Obligations.DecodeAndEncodeAgree : Prop :=
  (∀ i : Instr, hasWord i = true → WellFormed i = true → decodeWord (encode i) = .ok i) ∧
  (∀ (w : Word) (i : Instr), decodeWord w = .ok i → hasWord i = true ∧ WellFormed i = true ∧ encode i = w)

/-- R49, R144, R182, R183, R223, R360, R380: a turn of a thread that can run and takes no asynchronous trap fetches the 8 bytes at
PC, little-endian, and runs what they encode: the instruction, when its feature is accepted, or the trap of a reserved word or of a
failed fetch; a pending asynchronous trap runs in its place, and a `waiti` that waits goes on with its wait. Around it the step
takes the PC samples and the ballast windows that are due, counts a stall only of an instruction that reads a scalar of vector work
or loads where an element store may be incomplete, makes the reads of the fetch, forgets the turn's stop, puts the element groups of
an element-wise vector instruction into the arithmetic slot (R385, log entry 3) and lets TIME pass. A turn that is an event runs
that event, one that is a message the command it carries, and a replayed request changes nothing, while one that is none is held in
Winter (the agenda is the model's: log entry 7). DEDUCED: a thread waits whose next word may name a register that another one has
half written (log entry 52), and one whose next word may name the register of an unconfirmed acknowledgement confirms its probes
first (log entry 23); whether a stall counts is free (log entry 41), and samples are taken at the start of a turn (log entry 56). -/
def Obligations.StepRunsTheDecodedInstruction : Prop :=
  (∀ (s s' : State) (turn : Turn), s.account.nextTurn = (turn, s') →
    (∀ (h : Hart) (u : State), turn = .run h → State.canRun { s' with cur := h } h = true →
      u = State.settleRequests { s' with cur := h } → u.canRun h = true →
      (u.thr.takes = true → ∀ t, exec (.asyncTrapTaken u.cur) u = .next t → step s = .next t.tick) ∧
      (∀ d deadline t, u.thr.takes = false → u.thr.waiting = some (d, deadline) → (u.waitTo d deadline).finish = .next t →
        step s = .next t.tick) ∧
      (u.thr.takes = false → u.thr.waiting = none → u.waitsForReg = true →
        step s = .next (State.tick (u.setThr { u.thr with burst := false }))) ∧
      (∀ v, u.thr.takes = false → u.thr.waiting = none → u.waitsForReg = false → u.needsAck = true → u.confirm = (v, true) →
        step s = .next v.tick) ∧
      (∀ v, u.thr.takes = false → u.thr.waiting = none → u.waitsForReg = false →
        (u.needsAck = false ∧ v = u) ∨ (u.needsAck = true ∧ u.confirm = (v, false)) →
        let runs := fun (i : Instr) => ∀ w,
          (v.stall i = (w, true) → step s = .next w.tick) ∧
          (v.stall i = (w, false) → w.fetched = w.issue ((w.fetchLines w.pc).map (fun x => .read x.1 x.2)) ∧
            ∀ t, exec i { w.fetched with stopAt := none, await := [] } = .next t →
              step s = .next (State.tick ((State.leave { t with stopAt := none, await := [] } w.pc i (vectorWork i w.wordAtPc)
                (w.storeSpans i none)).occupy w i none)))
        (∀ c, v.scalarAccess v.view v.me .fetch v.pc 8 8 false = .error c → runs .instructionFetchFault) ∧
        (∀ p, v.scalarAccess v.view v.me .fetch v.pc 8 8 false = .ok p →
          let w : Word := BitVec.ofNat 64 (ofBytes (v.loadAt v.view p 8))
          let accepted := ∀ n, n < 5 → (featureNeed w).testBit n = true → v.accepted.getLsbD n = true
          (∀ i, decodeWord w = .ok i → accepted → runs i) ∧
          ((∀ i, decodeWord w ≠ .ok i) ∨ ¬ accepted → runs (.reservedInstruction w))))) ∧
    (∀ (i : Instr) (t : State), turn = .event i → isEvent i = true → WellFormed i = true → exec i s' = .next t → step s = .next t.tick) ∧
    (∀ (io conn seq : Nat) (bytes : List Byte) (m : Msg) (i : Instr) (t : State), turn = .message io conn seq bytes →
      (∀ r ∈ s'.replies, r.conn = conn → r.seq ≠ seq) → (s'.winter = true → io = 0) →
      decodeMessage io conn seq bytes = (m, some i) → exec i { s' with command := m } = .next t → step s = .next t.tick) ∧
    (∀ (io conn seq : Nat) (bytes : List Byte), turn = .message io conn seq bytes → s'.winter = true → io ≠ 0 →
      step s = .next (State.tick { s' with inbox := s'.inbox ++ [turn] })) ∧
    (∀ (src ln die : Nat) (seq : BitVec 32) (e : Effect), turn = .replay src ln seq die e → s'.isReplay src ln seq die = true →
      step s = .next s'.tick) ∧
    (∀ (src ln die : Nat) (seq : BitVec 32) (e : Effect), turn = .replay src ln seq die e → s'.isReplay src ln seq die = false →
      s'.winter = true → step s = .next (State.tick { s' with inbox := s'.inbox ++ [turn] })) ∧
    (s.winter = true ∨ s.inbox = [] → ∀ rest, s.agenda = turn :: rest → s' = { s.account with agenda := rest }) ∧
    (s.winter = false → ∀ rest, s.inbox = turn :: rest → s' = { s.account with inbox := rest })) ∧
  (∀ (s : State), (∀ c, s.sampleNumber ≤ (s.core c).samples) → (∀ q, (s.quadNow q).edges / 64 ≤ (s.quad q).window) → s.account = s) ∧
  (∀ (s : State) (i : Instr), scalarSources i = (0, 0) → s.scalarSpan i = [] → s.stall i = (s, false)) ∧
  (∀ (s : State) (i : Instr), s.file.busy = 0 → s.thr.reads = 0 → s.thr.stores = [] → s.stall i = (s, false))

/-- R361, R262, R39: every step goes on, with a next state, and keeps two things true of it: memory stays in its canonical form, and
every core's VLMAX is 512, 1,024 or 2,048. -/
def Obligations.EveryStepGoesOnAndKeepsTheInvariant : Prop :=
  ∀ s : State, s.Legal → ∃ t, step s = .next t ∧ t.Legal

/-- R119, R398: reset leaves memory canonical, every VLMAX 512, every scalar register and flag zero, no job, no context, Winter off
and the device not started (the values that the spec does not give are log entry 2). DESIGN CHOICE: memory that nothing has written
reads as zero at reset (log entry 1). -/
def Obligations.ResetMeetsTheInvariant : Prop :=
  State.reset.Legal ∧ (∀ c, (State.reset.core c).vlmax = 512) ∧
  (∀ h : Hart, h.thread < 4 → (State.reset.thread h).owner = none ∧ (State.reset.thread h).regs = ThreadRegs.zero ∧
    (∀ n, vget (State.reset.thread h).regs.s n 0 = 0) ∧ (State.reset.thread h).regs.fflg = 0 ∧ (State.reset.thread h).regs.pc = 0 ∧
    (State.reset.thread h).regs.vl = 0) ∧
  State.reset.msys.mem.wf = true ∧ (∀ key a, State.reset.msys.readByte key a = 0) ∧ State.reset.jobs = [] ∧
  State.reset.contexts = [] ∧ State.reset.winter = false ∧ State.reset.started = false
end

