-- ==== Sys2Proof/Laws/Sparse.lean ====
section
/-!
SUPPORT. Read-after-write laws of sparse maps and of byte memory, and that memory operations keep the canonical form.
-/
namespace Sys2Proof.Machine
open Sys2Proof

-- Sparse maps ------------------------------------------------------------------------------------------------------------

@[simp] theorem SMap.get_set_self {α : Type} (m : SMap α) (d : α) (k : Nat) (v : α) : SMap.get (SMap.set m k v) d k = v := by
  induction m with
  | nil => simp [SMap.set, SMap.get]
  | cons p r ih =>
    obtain ⟨j, u⟩ := p
    simp only [SMap.set]
    split
    · simp [SMap.get]
    · split
      · simp [SMap.get]
      · simp [SMap.get, *]

theorem SMap.get_set_ne {α : Type} (m : SMap α) (d : α) {k j : Nat} (v : α) (h : j ≠ k) :
    SMap.get (SMap.set m k v) d j = SMap.get m d j := by
  induction m with
  | nil => simp [SMap.set, SMap.get, Ne.symm h]
  | cons p r ih =>
    obtain ⟨i, u⟩ := p
    simp only [SMap.set]
    split
    · simp only [SMap.get, if_neg (Ne.symm h)]
      split
      · have : i ≠ j := by omega
        have : j < i := by omega
        simp [*]
      · rfl
    · split
      · subst i; simp [SMap.get, Ne.symm h]
      · simp only [SMap.get, ih]

@[simp] theorem SMap.find_set_self {α : Type} (m : SMap α) (k : Nat) (v : α) : SMap.find (SMap.set m k v) k = some v := by
  induction m with
  | nil => simp [SMap.set, SMap.find]
  | cons p r ih =>
    obtain ⟨j, u⟩ := p
    rcases Nat.lt_trichotomy k j with h | h | h
    · simp [SMap.set, SMap.find, h]
    · simp [SMap.set, SMap.find, h]
    · simp [SMap.set, SMap.find, Nat.lt_asymm h, Nat.ne_of_lt h, ih]

@[simp] theorem SMap.set_set {α : Type} (m : SMap α) (k : Nat) (u v : α) :
    SMap.set (SMap.set m k u) k v = SMap.set m k v := by
  induction m with
  | nil => simp [SMap.set]
  | cons p r ih =>
    obtain ⟨i, x⟩ := p
    simp only [SMap.set]
    split
    · simp [SMap.set]
    · split
      · simp [SMap.set, *]
      · simp [SMap.set, *]

-- Memory -----------------------------------------------------------------------------------------------------------------

theorem Memory.read_below (m : Memory) (lo a : Nat) (h : Memory.wfFrom lo m = true) (ha : a < lo) :
    Memory.read m a = Memory.unlisted := by
  cases m with
  | nil => rfl
  | cons p r =>
    obtain ⟨j, v⟩ := p
    simp [Memory.wfFrom] at h
    have : j ≠ a := by omega
    have : a < j := by omega
    simp [Memory.read, *]

theorem Memory.wfFrom_mono (m : Memory) {lo lo' : Nat} (h : Memory.wfFrom lo m = true) (hl : lo' ≤ lo) :
    Memory.wfFrom lo' m = true := by
  cases m with
  | nil => rfl
  | cons p r =>
    obtain ⟨j, v⟩ := p
    simp only [Memory.wfFrom, Bool.and_eq_true, decide_eq_true_eq] at *
    exact ⟨⟨by omega, h.1.2⟩, h.2⟩

theorem Memory.write_wfFrom (m : Memory) (lo a : Nat) (v : Byte) (h : Memory.wfFrom lo m = true) (ha : lo ≤ a) :
    Memory.wfFrom lo (m.write a v) = true := by
  induction m generalizing lo with
  | nil => by_cases hv : v = Memory.unlisted <;> simp [Memory.write, Memory.wfFrom, hv, ha]
  | cons p r ih =>
    obtain ⟨j, u⟩ := p
    simp only [Memory.wfFrom, Bool.and_eq_true, decide_eq_true_eq] at h
    obtain ⟨⟨h1, h2⟩, h3⟩ := h
    simp only [Memory.write]
    split
    · split
      · simp [Memory.wfFrom, *]
      · simp [Memory.wfFrom, *] <;> omega
    · split
      · subst j
        split
        · exact Memory.wfFrom_mono r h3 (by omega)
        · simp [Memory.wfFrom, *]
      · simp only [Memory.wfFrom, Bool.and_eq_true, decide_eq_true_eq]
        exact ⟨⟨h1, h2⟩, ih (j + 1) h3 (by omega)⟩

/-- A byte store keeps the canonical form. -/
theorem Memory.filter_wfFrom (p : Nat × Byte → Bool) (m : Memory) : ∀ lo, Memory.wfFrom lo m = true → Memory.wfFrom lo (m.filter p) = true := by
  induction m with
  | nil => intros; rfl
  | cons x r ih =>
    intro lo h
    simp only [Memory.wfFrom, Bool.and_eq_true, decide_eq_true_eq] at h
    obtain ⟨⟨h1, h2⟩, h3⟩ := h
    simp only [List.filter_cons]
    split
    · simp only [Memory.wfFrom, Bool.and_eq_true, decide_eq_true_eq]
      exact ⟨⟨h1, h2⟩, ih _ h3⟩
    · exact ih _ (Memory.wfFrom_mono _ h3 (by omega))
/-- Taking entries out keeps the canonical form. -/
theorem Memory.filter_wf (p : Nat × Byte → Bool) (m : Memory) (h : m.wf = true) : Memory.wf (m.filter p) = true :=
  Memory.filter_wfFrom p m 0 h
theorem Memory.write_wf (m : Memory) (a : Nat) (v : Byte) (h : m.wf = true) : (m.write a v).wf = true :=
  Memory.write_wfFrom m 0 a v h (Nat.zero_le a)

/-- A store of bytes keeps the canonical form. -/
theorem Memory.writeBytes_wf (m : Memory) (a : Nat) (l : List Byte) (h : m.wf = true) : (m.writeBytes a l).wf = true := by
  induction l generalizing m a with
  | nil => exact h
  | cons b r ih => exact ih _ _ (Memory.write_wf m a b h)

theorem Memory.read_write_from (m : Memory) (lo a b : Nat) (v : Byte) (h : Memory.wfFrom lo m = true) :
    (m.write a v).read b = if b = a then v else m.read b := by
  induction m generalizing lo with
  | nil =>
    by_cases hv : v = Memory.unlisted <;> by_cases hb : b = a <;> simp [Memory.write, Memory.read, hv, hb, eq_comm]
    intro h; exact absurd h.symm hb
  | cons p r ih =>
    obtain ⟨j, u⟩ := p
    simp only [Memory.wfFrom, Bool.and_eq_true, decide_eq_true_eq] at h
    obtain ⟨⟨h1, h2⟩, h3⟩ := h
    simp only [Memory.write]
    split
    · split
      · by_cases hb : b = a
        · subst b
          have : j ≠ a := by omega
          simp [Memory.read, *]
        · simp [hb]
      · by_cases hb : b = a
        · subst b; simp [Memory.read]
        · simp only [Memory.read, if_neg hb, if_neg (Ne.symm hb)]
          by_cases hlt : b < a
          · have : j ≠ b := by omega
            have : b < j := by omega
            simp [*]
          · simp [hlt]
    · split
      · subst j
        split
        · by_cases hb : b = a
          · subst b
            simp [*, Memory.read_below r (a + 1) a h3 (by omega)]
          · simp only [if_neg hb, Memory.read, if_neg (Ne.symm hb)]
            by_cases hlt : b < a
            · simp [hlt, Memory.read_below r (a + 1) b h3 (by omega)]
            · simp [hlt]
        · by_cases hb : b = a
          · subst b; simp [Memory.read]
          · simp [Memory.read, hb, Ne.symm hb]
      · simp only [Memory.read, ih (j + 1) h3]
        by_cases hb : b = a
        · have : ¬ j = b := by omega
          have : ¬ b < j := by omega
          simp [*]
        · simp [hb]

/-- Reading after a byte store, in a memory of canonical form. -/
theorem Memory.read_write (m : Memory) (a b : Nat) (v : Byte) (h : m.wf = true) :
    (m.write a v).read b = if b = a then v else m.read b := Memory.read_write_from m 0 a b v h

/-- Reading after a store of bytes: the stored byte inside, the old byte outside. -/
theorem Memory.read_writeBytes (m : Memory) (a b : Nat) (l : List Byte) (h : m.wf = true) :
    (m.writeBytes a l).read b = if a ≤ b ∧ b < a + l.length then l.getD (b - a) 0 else m.read b := by
  induction l generalizing m a with
  | nil => rw [Memory.writeBytes, if_neg (by simp only [List.length_nil]; omega)]
  | cons x r ih =>
    simp only [Memory.writeBytes]
    rw [ih _ _ (Memory.write_wf m a x h), Memory.read_write m a b x h]
    by_cases hb : b = a
    · rw [if_neg (by omega), if_pos hb, if_pos (by simp; omega), hb]
      simp
    · by_cases hlt : a ≤ b ∧ b < a + (x :: r).length
      · have h1 : a + 1 ≤ b ∧ b < a + 1 + r.length := by simp at hlt; omega
        rw [if_pos h1, if_pos hlt]
        obtain ⟨k, hk⟩ : ∃ k, b - a = k + 1 := ⟨b - a - 1, by omega⟩
        rw [hk, show b - (a + 1) = k by omega]
        simp
      · have h1 : ¬ (a + 1 ≤ b ∧ b < a + 1 + r.length) := by simp at hlt; omega
        rw [if_neg h1, if_neg hlt, if_neg hb]

end Sys2Proof.Machine
end

