-- ==== Sys2Proof/Laws/Mem.lean ====
section
/-!
SUPPORT. What the operations on the memory system do to its bytes: each keeps the canonical form, and those that keep
every byte say so.
-/
namespace Sys2Proof.Machine
open Sys2Proof

@[simp] theorem MemSys.setLine_mem (m : MemSys) (n : Nat) (x : Line) : (m.setLine n x).mem = m.mem := rfl
@[simp] theorem MemSys.setLine_records (m : MemSys) (n : Nat) (x : Line) : (m.setLine n x).records = m.records := rfl
@[simp] theorem MemSys.setRecord_mem (m : MemSys) (n : Nat) (x : Residence) : (m.setRecord n x).mem = m.mem := rfl
@[simp] theorem MemSys.setRecord_lines (m : MemSys) (n : Nat) (x : Residence) : (m.setRecord n x).lines = m.lines := rfl
@[simp] theorem MemSys.line_setLine_self (m : MemSys) (n : Nat) (x : Line) : (m.setLine n x).line n = x :=
  SMap.get_set_self _ _ _ _
theorem MemSys.line_setLine_ne (m : MemSys) {n k : Nat} (x : Line) (h : k ≠ n) : (m.setLine n x).line k = m.line k :=
  SMap.get_set_ne _ _ _ h

/-- A fold whose every step keeps the canonical form keeps it. -/
theorem foldl_keeps {α β : Type} (P : β → Prop) (g : β → α → β) (h : ∀ b a, P b → P (g b a)) (l : List α) (b : β)
    (hb : P b) : P (l.foldl g b) := by
  induction l generalizing b with
  | nil => exact hb
  | cons x r ih => exact ih _ (h b x hb)

theorem MemSys.rekey_wf (m : MemSys) (n : Nat) (key : BitVec 256) (h : m.mem.wf = true) : (m.rekey n key).mem.wf = true := by
  simp only [MemSys.rekey]
  split
  · exact h
  · exact Memory.writeBytes_wf _ _ _ h

/-- A store keeps the canonical form. -/
theorem MemSys.store_wf (m : MemSys) (pa : Nat) (bytes : List Byte) (key : BitVec 256) (h : m.mem.wf = true) :
    (m.store pa bytes key).mem.wf = true := by
  simp only [MemSys.store]
  split
  · exact h
  · refine foldl_keeps (fun x : MemSys => x.mem.wf = true) _ (fun b a hb => by simpa using hb) _ _ ?_
    exact Memory.writeBytes_wf _ _ _
      (foldl_keeps (fun x : MemSys => x.mem.wf = true) _ (fun b a hb => MemSys.rekey_wf _ _ _ hb) _ _ h)

/-- Every effect keeps the canonical form. -/
theorem MemSys.apply_wf (m : MemSys) (e : Effect) (h : m.mem.wf = true) : (m.apply e).mem.wf = true := by
  cases e with
  | store pa b k => exact MemSys.store_wf _ _ _ _ h
  | nibble pa hi v k => exact MemSys.store_wf _ _ _ _ h
  | add1 pa k => exact MemSys.store_wf _ _ _ _ h
  | advance pa t k => exact MemSys.store_wf _ _ _ _ h
  | resync _ => exact h
  | read _ _ => exact h
  | rowIssued _ _ => exact h
  | clearCount _ => exact h
  | accRow _ _ _ => exact h
  | tile a b c d e f g i =>
    simp only [MemSys.apply]
    split
    · exact MemSys.store_wf _ _ _ _ (MemSys.store_wf _ _ _ _ h)
    · exact h

end Sys2Proof.Machine
end

