-- ==== Sys2Proof/Laws/State.lean ====
section
/-!
SUPPORT. One lemma per field and update of the state's operations, so that no later proof unfolds a record update: what a
write of a core, a quad, a thread or the current thread's registers changes, and that it changes nothing else.
-/
namespace Sys2Proof.Machine
open Sys2Proof

-- Vectors ----------------------------------------------------------------------------------------------------------------

theorem vget_vset_self {α : Type} {n : Nat} (v : Vector α n) (i : Nat) (x d : α) (h : i < n) :
    vget (vset v i x) i d = x := by
  simp [vget, vset, h]
theorem vget_vset_ne {α : Type} {n : Nat} (v : Vector α n) {i j : Nat} (x d : α) (h : j ≠ i) :
    vget (vset v i x) j d = vget v j d := by
  simp [vget, vset, Vector.toList_setIfInBounds, List.getD_eq_getElem?_getD, Ne.symm h]
@[simp] theorem vset_vset {α : Type} {n : Nat} (v : Vector α n) (i : Nat) (x y : α) : vset (vset v i x) i y = vset v i y := by
  simp [vset]

-- Cores ------------------------------------------------------------------------------------------------------------------

@[simp] theorem State.core_setCore_self (s : State) (c : Nat) (x : Core) : (s.setCore c x).core c = x :=
  SMap.get_set_self _ _ _ _
theorem State.core_setCore_ne (s : State) {c d : Nat} (x : Core) (h : d ≠ c) : (s.setCore c x).core d = s.core d :=
  SMap.get_set_ne _ _ _ h
@[simp] theorem State.setCore_setCore (s : State) (c : Nat) (x y : Core) : (s.setCore c x).setCore c y = s.setCore c y := by
  simp [State.setCore]
@[simp] theorem State.setCore_msys (s : State) (c : Nat) (x : Core) : (s.setCore c x).msys = s.msys := rfl
@[simp] theorem State.setCore_cur (s : State) (c : Nat) (x : Core) : (s.setCore c x).cur = s.cur := rfl
@[simp] theorem State.setCore_time (s : State) (c : Nat) (x : Core) : (s.setCore c x).time = s.time := rfl
@[simp] theorem State.setCore_quads (s : State) (c : Nat) (x : Core) : (s.setCore c x).quads = s.quads := rfl
@[simp] theorem State.setCore_stopAt (s : State) (c : Nat) (x : Core) : (s.setCore c x).stopAt = s.stopAt := rfl
@[simp] theorem State.setCore_fresh (s : State) (c : Nat) (x : Core) : (s.setCore c x).fresh = s.fresh := rfl
@[simp] theorem State.setCore_jobs (s : State) (c : Nat) (x : Core) : (s.setCore c x).jobs = s.jobs := rfl
@[simp] theorem State.setCore_contexts (s : State) (c : Nat) (x : Core) : (s.setCore c x).contexts = s.contexts := rfl
@[simp] theorem State.setCore_barriers (s : State) (c : Nat) (x : Core) : (s.setCore c x).barriers = s.barriers := rfl
/-- A core's write changes the cores alone. -/
theorem State.setCore_rest (s : State) (c : Nat) (x : Core) : { s.setCore c x with cores := s.cores } = s := rfl

-- Quads ------------------------------------------------------------------------------------------------------------------

@[simp] theorem State.quad_setQuad_self (s : State) (q : Nat) (x : Quad) : (s.setQuad q x).quad q = x :=
  SMap.get_set_self _ _ _ _
theorem State.quad_setQuad_ne (s : State) {q k : Nat} (x : Quad) (h : k ≠ q) : (s.setQuad q x).quad k = s.quad k :=
  SMap.get_set_ne _ _ _ h
@[simp] theorem State.setQuad_msys (s : State) (q : Nat) (x : Quad) : (s.setQuad q x).msys = s.msys := rfl
@[simp] theorem State.setQuad_cores (s : State) (q : Nat) (x : Quad) : (s.setQuad q x).cores = s.cores := rfl
@[simp] theorem State.setQuad_cur (s : State) (q : Nat) (x : Quad) : (s.setQuad q x).cur = s.cur := rfl
/-- A quad's write changes the quads alone. -/
theorem State.setQuad_rest (s : State) (q : Nat) (x : Quad) : { s.setQuad q x with quads := s.quads } = s := rfl

-- Threads ----------------------------------------------------------------------------------------------------------------

theorem State.thread_setThread_self (s : State) (t : Hart) (x : Thread) (h : t.thread < 4) :
    (s.setThread t x).thread t = x := by
  simp [State.thread, State.setThread, vget_vset_self _ _ _ _ h]
theorem State.thread_setThread_ne (s : State) {t u : Hart} (x : Thread) (h : u ≠ t) :
    (s.setThread t x).thread u = s.thread u := by
  simp only [State.thread, State.setThread]
  by_cases hc : u.core = t.core
  · have ht : u.thread ≠ t.thread := fun e => h (by cases u; cases t; simp_all)
    rw [hc, State.core_setCore_self, vget_vset_ne _ _ _ ht]
  · rw [State.core_setCore_ne _ _ hc]
@[simp] theorem State.setThread_setThread (s : State) (t : Hart) (x y : Thread) :
    (s.setThread t x).setThread t y = s.setThread t y := by
  simp [State.setThread]
@[simp] theorem State.setThread_msys (s : State) (t : Hart) (x : Thread) : (s.setThread t x).msys = s.msys := rfl
@[simp] theorem State.setThread_cur (s : State) (t : Hart) (x : Thread) : (s.setThread t x).cur = s.cur := rfl
@[simp] theorem State.setThread_time (s : State) (t : Hart) (x : Thread) : (s.setThread t x).time = s.time := rfl
@[simp] theorem State.setThread_quads (s : State) (t : Hart) (x : Thread) : (s.setThread t x).quads = s.quads := rfl
/-- A thread's write keeps what its core holds beside its threads. -/
theorem State.setThread_core (s : State) (t : Hart) (x : Thread) (c : Nat) :
    (s.setThread t x).core c = { s.core c with threads := ((s.setThread t x).core c).threads } := by
  simp only [State.setThread]
  by_cases hc : c = t.core
  · subst hc; simp
  · rw [State.core_setCore_ne _ _ hc]

-- The current thread -------------------------------------------------------------------------------------------------------

theorem State.thr_setThr (s : State) (x : Thread) (h : s.cur.thread < 4) : (s.setThr x).thr = x := by
  simp only [State.thr, State.setThr, State.setThread_cur]
  exact State.thread_setThread_self s s.cur x h
@[simp] theorem State.setThr_setThr (s : State) (x y : Thread) : (s.setThr x).setThr y = s.setThr y := by
  simp [State.setThr]
@[simp] theorem State.setThr_msys (s : State) (x : Thread) : (s.setThr x).msys = s.msys := rfl
@[simp] theorem State.setThr_cur (s : State) (x : Thread) : (s.setThr x).cur = s.cur := rfl
@[simp] theorem State.setThr_time (s : State) (x : Thread) : (s.setThr x).time = s.time := rfl
@[simp] theorem State.setRegs_msys (s : State) (r : ThreadRegs) : (s.setRegs r).msys = s.msys := rfl
@[simp] theorem State.setRegs_cur (s : State) (r : ThreadRegs) : (s.setRegs r).cur = s.cur := rfl
@[simp] theorem State.setRegs_time (s : State) (r : ThreadRegs) : (s.setRegs r).time = s.time := rfl
@[simp] theorem State.setSide_msys (s : State) (x : Side) : (s.setSide x).msys = s.msys := rfl
@[simp] theorem State.setSide_cur (s : State) (x : Side) : (s.setSide x).cur = s.cur := rfl
@[simp] theorem State.setEntered_msys (s : State) (x : Option Word) : (s.setEntered x).msys = s.msys := rfl
@[simp] theorem State.setEntered_cur (s : State) (x : Option Word) : (s.setEntered x).cur = s.cur := rfl

theorem State.thr_setRegs (s : State) (r : ThreadRegs) (h : s.cur.thread < 4) :
    (s.setRegs r).thr = { s.thr with regs := r } := State.thr_setThr s _ h
theorem State.regs_setRegs (s : State) (r : ThreadRegs) (h : s.cur.thread < 4) : (s.setRegs r).regs = r := by
  simp [State.regs, State.thr_setRegs s r h]
theorem State.setRegs_setRegs (s : State) (r q : ThreadRegs) (h : s.cur.thread < 4) :
    (s.setRegs r).setRegs q = s.setRegs q := by
  simp only [State.setRegs, State.thr_setThr s _ h, State.setThr_setThr]
/-- A write of the registers keeps what its core holds beside its threads. -/
theorem State.myCore_setRegs (s : State) (r : ThreadRegs) :
    (s.setRegs r).myCore = { s.myCore with threads := (s.setRegs r).myCore.threads } :=
  State.setThread_core s s.cur _ s.cur.core
theorem State.side_setRegs (s : State) (r : ThreadRegs) (h : s.cur.thread < 4) : (s.setRegs r).side = s.side := by
  simp [State.side, State.thr_setRegs s r h]

-- Registers, PC and flags --------------------------------------------------------------------------------------------------

theorem State.pc_setPc (s : State) (v : Word) (h : s.cur.thread < 4) : (s.setPc v).pc = v := by
  simp [State.pc, State.setPc, State.regs_setRegs s _ h]
/-- What a write of a scalar register leaves in each (Table 13.10). -/
theorem State.getS_setS (s : State) (d r : BitVec 6) (v : Word) (h : s.cur.thread < 4) :
    (s.setS d v).getS r = if r = 0 then 0 else if r = d then v else s.getS r := by
  by_cases hr : r = 0
  · simp [State.getS, hr]
  · by_cases hd : d = 0
    · by_cases hrd : r = d
      · exact absurd (hrd.trans hd) hr
      · simp only [State.setS, hd, if_true, if_neg hr]
    · by_cases hrd : r = d
      · subst hrd
        simp only [State.getS, State.setS, hr, if_false, State.regs_setRegs s _ h, if_true]
        exact vget_vset_self _ _ _ _ r.isLt
      · simp only [State.getS, State.setS, hr, hd, if_false, State.regs_setRegs s _ h, if_neg hrd]
        exact vget_vset_ne _ _ _ (fun e => hrd (BitVec.eq_of_toNat_eq e))
@[simp] theorem State.setS_cur (s : State) (d : BitVec 6) (v : Word) : (s.setS d v).cur = s.cur := by
  simp only [State.setS]; split <;> simp
@[simp] theorem State.setS_msys (s : State) (d : BitVec 6) (v : Word) : (s.setS d v).msys = s.msys := by
  simp only [State.setS]; split <;> simp
/-- A write of a scalar register changes the current thread's registers alone. -/
theorem State.regs_setS (s : State) (d : BitVec 6) (v : Word) (h : s.cur.thread < 4) :
    (s.setS d v).regs = { s.regs with s := if d = 0 then s.regs.s else vset s.regs.s d.toNat v } := by
  by_cases hd : d = 0
  · simp [State.setS, hd]
  · simp only [State.setS, if_neg hd, State.regs_setRegs s _ h]
@[simp] theorem State.advance_cur (s : State) : s.advance.cur = s.cur := rfl
@[simp] theorem State.advance_msys (s : State) : s.advance.msys = s.msys := rfl
@[simp] theorem State.orFlags_cur (s : State) (f : BitVec 6) : (s.orFlags f).cur = s.cur := rfl
@[simp] theorem State.orFlags_msys (s : State) (f : BitVec 6) : (s.orFlags f).msys = s.msys := rfl
theorem State.pc_advance (s : State) (h : s.cur.thread < 4) : s.advance.pc = s.pc + 8 := State.pc_setPc s _ h
theorem State.regs_advance (s : State) (h : s.cur.thread < 4) : s.advance.regs = { s.regs with pc := s.regs.pc + 8 } :=
  State.regs_setRegs s _ h
theorem State.regs_orFlags (s : State) (f : BitVec 6) (h : s.cur.thread < 4) :
    (s.orFlags f).regs = { s.regs with fflg := s.regs.fflg ||| f } := State.regs_setRegs s _ h

-- Register files ----------------------------------------------------------------------------------------------------------

@[simp] theorem RegFile.putV_v (f : RegFile) (r : Nat) (x : VReg) : (f.putV r x).v = vset f.v r x := rfl
@[simp] theorem RegFile.putV_k (f : RegFile) (r : Nat) (x : VReg) : (f.putV r x).k = f.k := rfl
@[simp] theorem RegFile.putV_acc (f : RegFile) (r : Nat) (x : VReg) : (f.putV r x).acc = f.acc := rfl
@[simp] theorem RegFile.putV_b (f : RegFile) (r : Nat) (x : VReg) : (f.putV r x).b = f.b := rfl
@[simp] theorem RegFile.putV_dirty (f : RegFile) (r : Nat) (x : VReg) : (f.putV r x).dirty = f.dirty ||| (1#32 <<< r) := rfl
@[simp] theorem RegFile.putV_busy (f : RegFile) (r : Nat) (x : VReg) : (f.putV r x).busy = f.busy ||| busyV r := rfl

-- Jobs and contexts --------------------------------------------------------------------------------------------------------

@[simp] theorem State.setJob_msys (s : State) (j : Job) : (s.setJob j).msys = s.msys := rfl
@[simp] theorem State.setJob_cores (s : State) (j : Job) : (s.setJob j).cores = s.cores := rfl
@[simp] theorem State.setJob_contexts (s : State) (j : Job) : (s.setJob j).contexts = s.contexts := rfl
/-- A job's write changes the jobs alone. -/
theorem State.setJob_rest (s : State) (j : Job) : { s.setJob j with jobs := s.jobs } = s := rfl
/-- The job of a handle after its write: the new one, when there was one. -/
theorem State.job_setJob_self (s : State) (j : Job) (h : (s.job j.handle).isSome = true) : (s.setJob j).job j.handle = some j := by
  simp only [State.job, State.setJob, List.find?_map] at h ⊢
  have same : ((fun k : Job => k.handle == j.handle) ∘ fun k => if k.handle == j.handle then j else k) = fun k => k.handle == j.handle := by
    funext k; by_cases hk : k.handle = j.handle <;> simp [hk]
  obtain ⟨k, hk⟩ := Option.isSome_iff_exists.mp h
  have found := List.find?_some hk
  rw [same, hk, Option.map_some, if_pos found]
@[simp] theorem State.context_setContext_self (s : State) (n : Nat) (x : Context) : (s.setContext n x).context n = some x :=
  SMap.find_set_self _ _ _
@[simp] theorem State.setContext_msys (s : State) (n : Nat) (x : Context) : (s.setContext n x).msys = s.msys := rfl
@[simp] theorem State.setContext_jobs (s : State) (n : Nat) (x : Context) : (s.setContext n x).jobs = s.jobs := rfl
@[simp] theorem State.setContext_cores (s : State) (n : Nat) (x : Context) : (s.setContext n x).cores = s.cores := rfl
/-- A context's write changes the contexts alone. -/
theorem State.setContext_rest (s : State) (n : Nat) (x : Context) : { s.setContext n x with contexts := s.contexts } = s := rfl

-- What a thread has stopped in --------------------------------------------------------------------------------------------------

@[simp] theorem Side.abandon_done (x : Side) : x.abandon.done = none := rfl
@[simp] theorem Side.abandon_rows (x : Side) : x.abandon.rows = [] := rfl
@[simp] theorem Side.abandon_vstcFail (x : Side) : x.abandon.vstcFail = [] := rfl
/-- What is abandoned leaves the rest: reservations, probes, requests and marks. -/
theorem Side.abandon_rest (x : Side) : { x.abandon with done := x.done, rows := x.rows, vstcFail := x.vstcFail } = x := rfl
/-- Arming and disarming change the done set alone, and of it the mark alone. -/
theorem Side.arm_rest (x : Side) (pc : Word) : { x.arm pc with done := x.done } = x := rfl
theorem Side.disarm_rest (x : Side) : { x.disarm with done := x.done } = x := rfl
@[simp] theorem Side.arm_disarm (x : Side) (pc : Word) : x.disarm.arm pc = x.arm pc := by
  cases h : x.done <;> simp [Side.arm, Side.disarm, h]

end Sys2Proof.Machine
end

