-- ==== Sys2Proof/Laws/Calm.lean ====
section
/-!
SUPPORT. How the endings of a meaning look for a calm thread: confirmation does nothing, memory is seen as performed, the
register files are the core's, and a trap enters its handler at once.
-/
namespace Sys2Proof.Machine
open Sys2Proof

namespace State.Calm

variable {s : State} (h : s.Calm)
include h

theorem confirm : s.confirm = (s, false) := by
  simp [State.confirm, State.confirmFuel, h.probes]
theorem confirming (k : State → Done) : s.confirming k = k s := by
  simp [State.confirming, h.confirm]
theorem holding (k : State → Done) : s.holding k = k s := by
  simp [State.holding, h.held]
theorem inOrder (o : Ord) (spans : State → List (Nat × Nat)) (k : State → Done) : s.inOrder o spans k = k s := by
  simp [State.inOrder, h.held]
theorem view : s.view = s.msys := by simp [State.view, MemSys.applyHeld, h.held]
theorem file_eq : s.file = s.myCore.file := by simp [State.file, h.file]
theorem issue (es : List Effect) : s.issue es = s.performAll s.cur.core es := by
  simp [State.issue, State.issueAs, h.file]
theorem issueAs (o : Ord) (es : List Effect) : s.issueAs o es = s.performAll s.cur.core es := by simp [State.issueAs, h.file]
theorem raise (t : Trap) : s.raise t = s.enterTrap t := by simp [State.raise, h.confirm]

theorem setThr (x : Thread) (h1 : x.specFile = none) (h2 : x.side.probes = []) (h3 : x.held = []) : (s.setThr x).Calm where
  placed := h.placed
  file := by rw [State.thr_setThr s x h.placed]; exact h1
  probes := by rw [State.side, State.thr_setThr s x h.placed]; exact h2
  held := by rw [State.thr_setThr s x h.placed]; exact h3
theorem setRegs (r : ThreadRegs) : (s.setRegs r).Calm := h.setThr _ h.file h.probes h.held
theorem setS (d : BitVec 6) (v : Word) : (s.setS d v).Calm := by
  simp only [State.setS]; split
  · exact h
  · exact h.setRegs _
theorem advance : s.advance.Calm := h.setRegs _
theorem orFlags (f : BitVec 6) : (s.orFlags f).Calm := h.setRegs _
theorem setVstart (n : Nat) : (s.setVstart n).Calm := h.setRegs _
theorem setEntered (x : Option Word) : (s.setEntered x).Calm := h.setThr _ h.file h.probes h.held
theorem setSide (x : Side) (hx : x.probes = []) : (s.setSide x).Calm := h.setThr _ h.file hx h.held

/-- A trap of the instruction enters its handler. -/
theorem finish_trapHere (c : Nat) (v : Word) : (s.trapHere c v).finish = .next (s.trapped c v) := by
  simp [State.trapHere, Done.finish, (h.setEntered none).raise, State.trapped]
theorem finish_illegal (i : Instr) (c : Nat) : (s.illegal i c).finish = .next (s.trapped c (encode i)) :=
  h.finish_trapHere c _

end State.Calm

theorem State.finish_complete (s : State) : s.complete.finish = .next s.ended := rfl

end Sys2Proof.Machine
end

