-- ==== Sys2Proof/Laws/Store.lean ====
section
/-!
SUPPORT. What a store does to every byte (R5, R116): a reader under the store's key receives the stored bytes where they
went and what it received before everywhere else, and a reader under any key receives what it did outside the lines
touched.
-/
namespace Sys2Proof.Machine
open Sys2Proof

theorem mem_linesOf {pa n : Nat} (h : 0 < n) (k : Nat) : k ∈ linesOf pa n ↔ pa / 64 ≤ k ∧ k ≤ (pa + n - 1) / 64 := by
  simp only [linesOf, List.mem_map, List.mem_range]
  constructor
  · rintro ⟨i, hi, rfl⟩; omega
  · intro ⟨h1, h2⟩; exact ⟨k - pa / 64, by omega, by omega⟩
theorem linesOf_nodup (pa n : Nat) : (linesOf pa n).Nodup :=
  List.Pairwise.map _ (fun _ _ h e => h (by omega)) List.nodup_range
/-- The line of a stored byte is touched. -/
theorem line_mem_linesOf {pa n a : Nat} (h1 : pa ≤ a) (h2 : a < pa + n) : a / 64 ∈ linesOf pa n :=
  (mem_linesOf (by omega) _).2 ⟨by omega, by omega⟩

@[simp] theorem MemSys.rekey_lines (m : MemSys) (n : Nat) (key : BitVec 256) : (m.rekey n key).lines = m.lines := by
  simp only [MemSys.rekey]; split <;> rfl
@[simp] theorem MemSys.rekey_records (m : MemSys) (n : Nat) (key : BitVec 256) : (m.rekey n key).records = m.records := by
  simp only [MemSys.rekey]; split <;> rfl

theorem Memory.readBytes_length (m : Memory) (a n : Nat) : (m.readBytes a n).length = n := by
  induction n generalizing a with
  | zero => rfl
  | succ n ih => simp [Memory.readBytes, ih]
theorem foreignLine_length (written read : BitVec 256) (addr : Nat) (l : List Byte) :
    (foreignLine written read addr l).length = 64 := by simp [foreignLine]
theorem MemSys.lineUnder_length (m : MemSys) (n : Nat) (key : BitVec 256) : (m.lineUnder n key).length = 64 := by
  simp only [MemSys.lineUnder]
  split
  · exact Memory.readBytes_length _ _ _
  · exact foreignLine_length _ _ _ _

/-- A line brought under a key holds what a reader under that key received (R116). -/
theorem MemSys.rekey_read (m : MemSys) (n : Nat) (key : BitVec 256) (hm : m.mem.wf = true) (a : Nat) :
    (m.rekey n key).mem.read a = if a / 64 = n then m.readByte key a else m.mem.read a := by
  by_cases h : (m.line n).opens key
  · simp only [MemSys.rekey, if_pos h]
    split
    · rename_i ha
      subst ha
      simp only [MemSys.readByte, if_pos h]
    · rfl
  · simp only [MemSys.rekey, if_neg h]
    rw [Memory.read_writeBytes _ _ _ _ hm, MemSys.lineUnder_length]
    by_cases ha : a / 64 = n
    · subst ha
      rw [if_pos (by omega), if_pos rfl]
      simp only [MemSys.readByte, if_neg h]
      congr 1
      omega
    · rw [if_neg ha, if_neg (by omega)]

theorem Memory.readBytes_congr {m m' : Memory} (n : Nat) : ∀ a, (∀ b, a ≤ b → b < a + n → m'.read b = m.read b) →
    m'.readBytes a n = m.readBytes a n := by
  induction n with
  | zero => intros; rfl
  | succ n ih =>
    intro a h
    simp only [Memory.readBytes]
    rw [h a (by omega) (by omega), ih (a + 1) (fun b h1 h2 => h b (by omega) (by omega))]
/-- What a reader receives of a byte depends on the key its line was written under and on the bytes of that line. -/
theorem MemSys.readByte_congr {m m' : MemSys} {a : Nat} (hl : (m'.line (a / 64)).key = (m.line (a / 64)).key)
    (hr : ∀ b, b / 64 = a / 64 → m'.mem.read b = m.mem.read b) (key : BitVec 256) :
    m'.readByte key a = m.readByte key a := by
  have e : m'.mem.readBytes (64 * (a / 64)) 64 = m.mem.readBytes (64 * (a / 64)) 64 :=
    Memory.readBytes_congr 64 _ (fun b h1 h2 => hr b (by omega))
  simp only [MemSys.readByte, MemSys.lineUnder, Line.opens, hl, e, hr a rfl]
  rfl

theorem MemSys.rekeys (key : BitVec 256) (l : List Nat) (hn : l.Nodup) (m : MemSys) (hm : m.mem.wf = true) :
    (l.foldl (fun m n => m.rekey n key) m).lines = m.lines ∧ (l.foldl (fun m n => m.rekey n key) m).mem.wf = true ∧
      (l.foldl (fun m n => m.rekey n key) m).records = m.records ∧
      ∀ a, (l.foldl (fun m n => m.rekey n key) m).mem.read a = if a / 64 ∈ l then m.readByte key a else m.mem.read a := by
  induction l generalizing m with
  | nil => exact ⟨rfl, hm, rfl, fun a => by simp⟩
  | cons n r ih =>
    obtain ⟨h1, h2, h3, h4⟩ := ih hn.of_cons (m.rekey n key) (MemSys.rekey_wf m n key hm)
    refine ⟨by simpa using h1, h2, by simpa using h3, fun a => ?_⟩
    simp only [List.foldl_cons, h4]
    have hnot : n ∉ r := (List.nodup_cons.1 hn).1
    by_cases ha : a / 64 = n
    · have : a / 64 ∉ r := ha ▸ hnot
      rw [if_neg this, MemSys.rekey_read m n key hm, if_pos ha, if_pos (by simp [ha])]
    · have e : ∀ b, b / 64 = a / 64 → (m.rekey n key).mem.read b = m.mem.read b := fun b hb => by
        rw [MemSys.rekey_read m n key hm, if_neg (by omega)]
      by_cases hr : a / 64 ∈ r
      · rw [if_pos hr, if_pos (by simp [hr]), MemSys.readByte_congr (by simp only [MemSys.line, MemSys.rekey_lines]) e]
      · rw [if_neg hr, if_neg (by simp [ha, hr]), e a rfl]

/-- The marks a store leaves on the lines it touches, and on no other. -/
theorem MemSys.marks (f : Nat → Line → Line) (l : List Nat) (hn : l.Nodup) (m : MemSys) :
    let m' := l.foldl (fun m n => m.setLine n (f n (m.line n))) m
    m'.mem = m.mem ∧ m'.records = m.records ∧ ∀ n, m'.line n = if n ∈ l then f n (m.line n) else m.line n := by
  induction l generalizing m with
  | nil => exact ⟨rfl, rfl, fun n => by simp⟩
  | cons k r ih =>
    obtain ⟨h1, h2, h3⟩ := ih hn.of_cons (m.setLine k (f k (m.line k)))
    have hnot : k ∉ r := (List.nodup_cons.1 hn).1
    refine ⟨h1, h2, fun n => ?_⟩
    simp only [List.foldl_cons] at h3 ⊢
    rw [h3]
    by_cases hk : n = k
    · subst hk; rw [if_neg hnot, if_pos (by simp)]; simp
    · by_cases hr : n ∈ r
      · rw [if_pos hr, if_pos (by simp [hr]), MemSys.line_setLine_ne _ _ hk]
      · rw [if_neg hr, if_neg (by simp [hk, hr]), MemSys.line_setLine_ne _ _ hk]

theorem MemSys.store_nil (m : MemSys) (pa : Nat) (key : BitVec 256) : m.store pa [] key = m := by simp [MemSys.store]

/-- A store (R116, R117): the raw bytes, and the marks of every line. -/
theorem MemSys.store_spec (m : MemSys) (pa : Nat) (bytes : List Byte) (key : BitVec 256) (hm : m.mem.wf = true) (hb : bytes ≠ []) :
    (m.store pa bytes key).records = m.records ∧
    (∀ n, (m.store pa bytes key).line n = if n ∈ linesOf pa bytes.length then
        { m.line n with
          writes := (m.line n).writes + 1, key := if key = 0 then (m.line n).key else key,
          poison := (m.line n).poison && !(decide (pa ≤ 64 * n) && decide (64 * n + 64 ≤ pa + bytes.length)) }
      else m.line n) ∧
    ∀ a, (m.store pa bytes key).mem.read a = if pa ≤ a ∧ a < pa + bytes.length then bytes.getD (a - pa) 0
      else if a / 64 ∈ linesOf pa bytes.length then m.readByte key a else m.mem.read a := by
  have hl : ¬ bytes.length = 0 := by simpa using hb
  obtain ⟨h1, h2, h3, h4⟩ := MemSys.rekeys key (linesOf pa bytes.length) (linesOf_nodup _ _) m hm
  simp only [MemSys.store, if_neg hl]
  obtain ⟨k1, k2, k3⟩ := MemSys.marks (fun n (x : Line) =>
      { x with
        writes := x.writes + 1, key := if key = 0 then x.key else key,
        poison := x.poison && !(decide (pa ≤ 64 * n) && decide (64 * n + 64 ≤ pa + bytes.length)) })
    (linesOf pa bytes.length) (linesOf_nodup _ _)
    { ((linesOf pa bytes.length).foldl (fun m n => m.rekey n key) m) with
      mem := ((linesOf pa bytes.length).foldl (fun m n => m.rekey n key) m).mem.writeBytes pa bytes }
  refine ⟨k2.trans h3, fun n => ?_, fun a => ?_⟩
  · rw [k3]; simp only [MemSys.line, h1]
  · rw [k1]
    simp only []
    rw [Memory.read_writeBytes _ _ _ _ h2, h4]

/-- A reader under the store's key receives the stored bytes, and elsewhere what it received before. -/
theorem MemSys.readByte_store (m : MemSys) (pa : Nat) (bytes : List Byte) (key : BitVec 256) (hm : m.mem.wf = true) (a : Nat) :
    (m.store pa bytes key).readByte key a
      = if pa ≤ a ∧ a < pa + bytes.length then bytes.getD (a - pa) 0 else m.readByte key a := by
  by_cases hb : bytes = []
  · subst hb; rw [MemSys.store_nil, if_neg (by simp)]
  · obtain ⟨-, h2, h3⟩ := MemSys.store_spec m pa bytes key hm hb
    by_cases hr : a / 64 ∈ linesOf pa bytes.length
    · have raw : (m.store pa bytes key).readByte key a = (m.store pa bytes key).mem.read a := by
        have e : ((m.store pa bytes key).line (a / 64)).key = if key = 0 then (m.line (a / 64)).key else key := by rw [h2, if_pos hr]
        unfold MemSys.readByte
        refine if_pos ?_
        by_cases hk : key = 0#256
        · simp [Line.opens, hk]
        · simp [Line.opens, e, hk]
      rw [raw, h3, if_pos hr]
    · rw [if_neg (fun hc => hr (line_mem_linesOf hc.1 hc.2))]
      have e : (m.store pa bytes key).line (a / 64) = m.line (a / 64) := by rw [h2, if_neg hr]
      refine MemSys.readByte_congr (by rw [e]) (fun b hb' => ?_) key
      rw [h3, if_neg (fun hc => hr (hb' ▸ line_mem_linesOf hc.1 hc.2)), if_neg (hb' ▸ hr)]
theorem MemSys.sameOutside_store (m : MemSys) (pa : Nat) (bytes : List Byte) (key : BitVec 256) (hm : m.mem.wf = true) :
    m.sameOutside (m.store pa bytes key) key [(pa, bytes.length)] := by
  intro a ha
  have := ha _ (List.mem_singleton.2 rfl)
  rw [MemSys.readByte_store m pa bytes key hm, if_neg (by simp only at this; omega)]
/-- A reader under any key receives what it did outside the lines touched. -/
theorem MemSys.sameBut_store (m : MemSys) (pa : Nat) (bytes : List Byte) (key : BitVec 256) (hm : m.mem.wf = true) :
    m.sameBut (m.store pa bytes key) [(pa, bytes.length)] := by
  intro a k ha
  have hr : a / 64 ∉ linesOf pa bytes.length := ha _ (List.mem_singleton.2 rfl)
  by_cases hb : bytes = []
  · subst hb; rw [MemSys.store_nil]
  · obtain ⟨-, h2, h3⟩ := MemSys.store_spec m pa bytes key hm hb
    have e : (m.store pa bytes key).line (a / 64) = m.line (a / 64) := by rw [h2, if_neg hr]
    refine MemSys.readByte_congr (by rw [e]) (fun b hb' => ?_) k
    rw [h3, if_neg (fun hc => hr (hb' ▸ line_mem_linesOf hc.1 hc.2)), if_neg (hb' ▸ hr)]

theorem MemSys.load_length (m : MemSys) (key : BitVec 256) (a n : Nat) : (m.load key a n).length = n := by
  induction n generalizing a with
  | zero => rfl
  | succ n ih => simp [MemSys.load, ih]
theorem MemSys.getD_load (m : MemSys) (key : BitVec 256) (n : Nat) : ∀ (a i : Nat), i < n → (m.load key a n).getD i 0 = m.readByte key (a + i) := by
  induction n with
  | zero => intro a i h; omega
  | succ n ih =>
    intro a i h
    cases i with
    | zero => rfl
    | succ i =>
      simp only [MemSys.load, List.getD_cons_succ]
      rw [ih (a + 1) i (by omega), Nat.add_right_comm, Nat.add_assoc]
/-- A load depends on its bytes alone. -/
theorem MemSys.load_congr {m m' : MemSys} {key : BitVec 256} {a n : Nat} (h : ∀ i, i < n → m'.readByte key (a + i) = m.readByte key (a + i)) :
    m'.load key a n = m.load key a n := by
  induction n generalizing a with
  | zero => rfl
  | succ n ih =>
    simp only [MemSys.load]
    have h0 := h 0 (by omega)
    simp only [Nat.add_zero] at h0
    rw [h0, ih (fun i hi => by have := h (i + 1) (by omega); rwa [← Nat.add_assoc, Nat.add_right_comm] at this)]
/-- Reading back what was stored under the same key (R5). -/
theorem MemSys.load_store (m : MemSys) (pa : Nat) (bytes : List Byte) (key : BitVec 256) (hm : m.mem.wf = true) :
    (m.store pa bytes key).load key pa bytes.length = bytes := by
  refine List.ext_getElem (MemSys.load_length ..) (fun i h1 h2 => ?_)
  have h := MemSys.getD_load (m.store pa bytes key) key bytes.length pa i h2
  rw [MemSys.readByte_store m pa bytes key hm, if_pos (by omega)] at h
  simpa [List.getD_eq_getElem?_getD, h1, h2] using h
/-- Reading elsewhere under the same key. -/
theorem MemSys.load_store_disjoint (m : MemSys) (pa : Nat) (bytes : List Byte) (key : BitVec 256) (hm : m.mem.wf = true) (a n : Nat)
    (h : a + n ≤ pa ∨ pa + bytes.length ≤ a) : (m.store pa bytes key).load key a n = m.load key a n :=
  MemSys.load_congr (fun i hi => by rw [MemSys.readByte_store m pa bytes key hm, if_neg (by omega)])

end Sys2Proof.Machine
end

