-- ==== Sys2Proof/Laws/Ops.lean ====
section
/-!
SUPPORT. What each shared operation of a meaning does, said once: a scalar result, entering a trap and returning from one,
performing an effect, and the checked ranges of the vector port.
-/
namespace Sys2Proof.Machine
open Sys2Proof

-- A scalar result -------------------------------------------------------------------------------------------------------------

/-- A scalar result and the advance are `put`. -/
theorem State.setS_advance (s : State) (d : BitVec 6) (v : Word) (h : s.placed) : (s.setS d v).advance = s.put d v := by
  simp only [State.advance, State.setPc, State.pc, State.setS, State.put, ThreadRegs.put]
  split
  · rfl
  · rw [State.regs_setRegs s _ h, State.setRegs_setRegs s _ _ h]
theorem State.setS_orFlags_advance (s : State) (d : BitVec 6) (v : Word) (fl : Flags) (h : s.placed) :
    ((s.setS d v).orFlags fl).advance = s.putFlags d v fl := by
  simp only [State.advance, State.setPc, State.pc, State.orFlags, State.setS, State.putFlags, ThreadRegs.put]
  split
  · rw [State.regs_setRegs s _ h, State.setRegs_setRegs s _ _ h]
  · rw [State.regs_setRegs s _ h, State.setRegs_setRegs s _ _ h, State.regs_setRegs s _ h, State.setRegs_setRegs s _ _ h]
/-- What `put` leaves: register d, PC, and nothing else of the registers. -/
theorem State.regs_put (s : State) (d : BitVec 6) (v : Word) (h : s.placed) : (s.put d v).regs = s.regs.put d v :=
  State.regs_setRegs s _ h
theorem State.getS_put (s : State) (d r : BitVec 6) (v : Word) (h : s.placed) :
    (s.put d v).getS r = if r = 0 then 0 else if r = d then v else s.getS r := by
  simp only [State.getS, State.regs_put s d v h, ThreadRegs.put]
  by_cases hr : r = 0
  · simp only [if_pos hr]
  · by_cases hd : d = 0
    · have e : r ≠ d := fun e => hr (e.trans hd)
      simp only [if_neg hr, if_pos hd, if_neg e]
    · by_cases e : r = d
      · subst e; simp only [if_neg hr, if_true]; exact vget_vset_self _ _ _ _ r.isLt
      · have hn : r.toNat ≠ d.toNat := fun h' => e (BitVec.eq_of_toNat_eq h')
        simp only [if_neg hr, if_neg hd, if_neg e]; exact vget_vset_ne _ _ _ hn

-- Traps -----------------------------------------------------------------------------------------------------------------------

/-- A trap that is no double trap enters its handler: the registers R361 gives, the reservations lost, no more. -/
theorem State.enterTrap_open (s : State) (t : Trap) (h : s.open_) :
    s.enterTrap t = (s.setSide s.side.loseReservations.disarm).setRegs (s.regs.enter t) := by
  have : ¬ (s.regs.priv && !s.regs.te) = true := by rw [show (s.regs.priv && !s.regs.te) = false from h]; simp
  simp only [State.enterTrap, if_neg this]
theorem State.enterTrap_regs (s : State) (t : Trap) (h : s.open_) (hp : s.placed) : (s.enterTrap t).regs = s.regs.enter t := by
  rw [State.enterTrap_open s t h]; exact State.regs_setRegs _ _ hp
theorem State.enterTrap_msys (s : State) (t : Trap) (h : s.open_) : (s.enterTrap t).msys = s.msys := by
  rw [State.enterTrap_open s t h]; rfl
theorem State.enterTrap_thread_ne (s : State) (t : Trap) (h : s.open_) (u : Hart) (hu : u ≠ s.cur) :
    (s.enterTrap t).thread u = s.thread u := by
  rw [State.enterTrap_open s t h]
  exact (State.thread_setThread_ne _ _ (by exact hu)).trans (State.thread_setThread_ne _ _ hu)
/-- A double trap ends the job (R361). -/
theorem State.enterTrap_double (s : State) (t : Trap) (h : (s.regs.priv && !s.regs.te) = true) (o : Owner) (ho : s.thr.owner = some o) :
    s.enterTrap t = ({ s with failures := s.failures + 1 } : State).endJob o.job := by
  simp only [State.enterTrap, if_pos h]
  have : ({ s with failures := s.failures + 1 } : State).thr.owner = some o := ho
  simp only [this]
/-- Entering and leaving a trap gives back the privilege (R222, R361). -/
theorem ThreadRegs.leave_enter (r : ThreadRegs) (t : Trap) :
    (r.enter t).leave.priv = r.priv ∧ (r.enter t).leave.te = true ∧ (r.enter t).leave.pc = t.point ∧ (r.enter t).leave.s = r.s := ⟨rfl, rfl, rfl, rfl⟩

-- Effects ---------------------------------------------------------------------------------------------------------------------

/-- A core with the logical clock of another one, the counts of its matrix array and those of resynchronisations. -/
def Core.but (c x : Core) : Core :=
  { c with pt := x.pt, bubbles := x.bubbles, rows := x.rows, dropped := x.dropped, resyncReg := x.resyncReg,
           resyncMem := x.resyncMem }

/-- Counting an effect changes the counts alone. -/
theorem Core.count_but (c : Core) (e : Effect) : c.count e = c.but (c.count e) := by
  cases e with
  | clearCount item => rcases item with _ | _ | _ | _ | n <;> rfl
  | resync m => cases m <;> rfl
  | _ => rfl

/-- Only the memory system, and of the cores their logical clocks and counts, differ. -/
structure State.MemOnly (s t : State) : Prop where
  cores : ∀ c, ∃ x, t.core c = (s.core c).but x
  rest : ∃ m cs, t = { s with msys := m, cores := cs }

namespace State.MemOnly
theorem same (s : State) (cs : ∀ c, s.core c = s.core c) : ∀ c, ∃ x, s.core c = (s.core c).but x :=
  fun c => ⟨_, cs c⟩
theorem refl (s : State) : s.MemOnly s := ⟨same s (fun _ => rfl), ⟨s.msys, s.cores, rfl⟩⟩
theorem trans {s t u : State} (h : s.MemOnly t) (k : t.MemOnly u) : s.MemOnly u where
  cores c := by
    obtain ⟨_, hn⟩ := h.cores c
    obtain ⟨x, hm⟩ := k.cores c
    exact ⟨x, by rw [hm, hn]; rfl⟩
  rest := by
    obtain ⟨m, cs, rfl⟩ := h.rest
    obtain ⟨m', cs', rfl⟩ := k.rest
    exact ⟨m', cs', rfl⟩
theorem cur {s t : State} (h : s.MemOnly t) : t.cur = s.cur := by obtain ⟨m, cs, rfl⟩ := h.rest; rfl
theorem time {s t : State} (h : s.MemOnly t) : t.time = s.time := by obtain ⟨m, cs, rfl⟩ := h.rest; rfl
theorem jobs {s t : State} (h : s.MemOnly t) : t.jobs = s.jobs := by obtain ⟨m, cs, rfl⟩ := h.rest; rfl
theorem contexts {s t : State} (h : s.MemOnly t) : t.contexts = s.contexts := by obtain ⟨m, cs, rfl⟩ := h.rest; rfl
theorem quads {s t : State} (h : s.MemOnly t) : t.quads = s.quads := by obtain ⟨m, cs, rfl⟩ := h.rest; rfl
theorem thread {s t : State} (h : s.MemOnly t) (u : Hart) : t.thread u = s.thread u := by
  obtain ⟨_, hn⟩ := h.cores u.core
  simp only [State.thread, hn, Core.but]
theorem thr {s t : State} (h : s.MemOnly t) : t.thr = s.thr := by rw [State.thr, h.cur]; exact h.thread _
theorem regs {s t : State} (h : s.MemOnly t) : t.regs = s.regs := by rw [State.regs, h.thr]; rfl
theorem side {s t : State} (h : s.MemOnly t) : t.side = s.side := by rw [State.side, h.thr]; rfl
theorem coreFile {s t : State} (h : s.MemOnly t) (c : Nat) : (t.core c).file = (s.core c).file := by
  obtain ⟨_, hn⟩ := h.cores c; rw [hn]; rfl
theorem file {s t : State} (h : s.MemOnly t) : t.file = s.file := by
  simp only [State.file, h.thr, State.myCore, h.cur, h.coreFile]
theorem vlmax {s t : State} (h : s.MemOnly t) : t.vlmax = s.vlmax := by
  obtain ⟨_, hn⟩ := h.cores s.cur.core
  simp only [State.vlmax, State.myCore, h.cur, hn, Core.but]
theorem foldl {α : Type} (g : State → α → State) (hg : ∀ (s : State) (a : α), s.MemOnly (g s a)) (l : List α) (s : State) : s.MemOnly (l.foldl g s) := by
  induction l generalizing s with
  | nil => exact refl s
  | cons x r ih => exact (hg s x).trans (ih _)
theorem msys (s : State) (m : MemSys) : s.MemOnly { s with msys := m } := ⟨fun _ => ⟨_, rfl⟩, ⟨m, s.cores, rfl⟩⟩
theorem setCore (s : State) (c : Nat) (x : Core) : s.MemOnly (s.setCore c ((s.core c).but x)) where
  cores k := by
    by_cases h : k = c
    · subst h; exact ⟨x, State.core_setCore_self ..⟩
    · exact ⟨_, State.core_setCore_ne _ _ h⟩
  rest := ⟨s.msys, _, rfl⟩
theorem setPt (s : State) (c n : Nat) : s.MemOnly (s.setPt c n) := by
  simp only [State.setPt]
  split
  · exact setCore s _ { s.core (s.clockCore c) with pt := n }
  · exact refl s
theorem countAccess (s : State) (pa : Nat) (d : Option Nat) : s.MemOnly (s.countAccess pa d) := by
  simp only [State.countAccess]
  split
  · exact refl s
  · exact msys s _
theorem request (s : State) (src ln : Nat) (w : Bool) (a : Ack) : s.MemOnly (s.request src ln w a) := by
  unfold State.request
  exact msys s _
theorem touchStore (s : State) (c ln : Nat) : s.MemOnly (s.touchStore c ln) := by
  simp only [State.touchStore]
  exact ((((msys s _).trans (setPt _ _ _)).trans (countAccess _ _ _)).trans (request _ _ _ _ _) :)
theorem touchLoad (s : State) (c : Nat) (acq : Bool) (ln : Nat) : s.MemOnly (s.touchLoad c acq ln) := by
  simp only [State.touchLoad]
  exact ((((msys s _).trans (setPt _ _ _)).trans (countAccess _ _ _)).trans (request _ _ _ _ _) :)
theorem counted (s : State) (c : Nat) (e : Effect) : s.MemOnly (s.setCore c ((s.core c).count e)) := by
  rw [Core.count_but]
  exact setCore s c _
theorem written (s : State) (c : Nat) (e : Effect) :
    s.MemOnly (e.lines.foldl (fun s ln => s.touchStore c ln) { s with msys := s.msys.apply e }) :=
  (msys s _).trans (foldl _ (fun s ln => touchStore s c ln) _ _)
/-- Performing an effect changes memory, clocks and counts only. -/
theorem perform (s : State) (c : Nat) (e : Effect) : s.MemOnly (s.perform c e) := by
  unfold State.perform
  split
  · exact touchLoad s c _ _
  · exact counted s c _
  · exact counted s c _
  · exact counted s c _
  · exact refl s
  · dsimp only
    split
    · exact written s c _
    · split
      · exact refl s
      · exact (countAccess _ _ _).trans (request _ _ _ _ _)
theorem performs (c : Nat) (es : List Effect) (s : State) : s.MemOnly (s.performAll c es) :=
  foldl _ (fun s e => perform s c e) es s
/-- Issuing effects in a calm thread changes memory, clocks and counts only. -/
theorem issueAs {s : State} (h : s.Calm) (o : Ord) (es : List Effect) : s.MemOnly (s.issueAs o es) := by
  rw [h.issueAs o es]
  exact performs _ es s
theorem issue {s : State} (h : s.Calm) (es : List Effect) : s.MemOnly (s.issue es) := issueAs h _ es
/-- A calm thread stays calm. -/
theorem calm {s t : State} (h : s.MemOnly t) (k : s.Calm) : t.Calm where
  placed := by rw [h.cur]; exact k.placed
  file := by rw [h.thr]; exact k.file
  probes := by rw [h.side]; exact k.probes
  held := by rw [h.thr]; exact k.held
end State.MemOnly

/-- The marks of a performed access: bytes and keys of no line change. -/
structure MemSys.SameBytes (m m' : MemSys) : Prop where
  mem : m'.mem = m.mem
  keys : ∀ n, (m'.line n).key = (m.line n).key

namespace MemSys.SameBytes
theorem refl (m : MemSys) : m.SameBytes m := ⟨rfl, fun _ => rfl⟩
theorem trans {a b c : MemSys} (h : a.SameBytes b) (k : b.SameBytes c) : a.SameBytes c := ⟨k.mem.trans h.mem, fun n => (k.keys n).trans (h.keys n)⟩
theorem readByte {m m' : MemSys} (h : m.SameBytes m') (key : BitVec 256) (a : Nat) : m'.readByte key a = m.readByte key a :=
  MemSys.readByte_congr (h.keys _) (fun b _ => by rw [h.mem]) key
theorem load {m m' : MemSys} (h : m.SameBytes m') (key : BitVec 256) (a n : Nat) : m'.load key a n = m.load key a n :=
  MemSys.load_congr (fun i _ => h.readByte key (a + i))
theorem setLine (m : MemSys) (n : Nat) (x : Line) (h : x.key = (m.line n).key) : m.SameBytes (m.setLine n x) :=
  ⟨rfl, fun k => by
    by_cases hk : k = n
    · subst hk; rw [MemSys.line_setLine_self, h]
    · rw [MemSys.line_setLine_ne _ _ hk]⟩
theorem foldl {α : Type} (g : State → α → State) (hg : ∀ (s : State) (a : α), s.msys.SameBytes (g s a).msys) (l : List α) (s : State) :
    s.msys.SameBytes (l.foldl g s).msys := by
  induction l generalizing s with
  | nil => exact refl _
  | cons x r ih => exact (hg s x).trans (ih _)
theorem countAccess (s : State) (pa : Nat) (d : Option Nat) : s.msys.SameBytes (s.countAccess pa d).msys := by
  simp only [State.countAccess]
  split
  · exact refl _
  · exact ⟨rfl, fun _ => rfl⟩
theorem sources (m : MemSys) (x : SMap Source) : m.SameBytes { m with sources := x } := ⟨rfl, fun _ => rfl⟩
theorem tagged (m : MemSys) (x : SMap Source) (n : Nat) (w : Option (Nat × BitVec 32)) :
    m.SameBytes (MemSys.setLine { m with sources := x } n { MemSys.line { m with sources := x } n with writer := w }) :=
  trans (sources m x) (setLine _ _ _ rfl)
theorem request (s : State) (src ln : Nat) (w : Bool) (a : Ack) : s.msys.SameBytes (s.request src ln w a).msys := by
  simp only [State.request]
  split
  · exact tagged _ _ _ _
  · exact sources _ _
theorem setPt (s : State) (c n : Nat) : (s.setPt c n).msys = s.msys := by
  simp only [State.setPt]; split <;> rfl
theorem touchStore (s : State) (c ln : Nat) : s.msys.SameBytes (s.touchStore c ln).msys := by
  simp only [State.touchStore]
  refine trans (trans ?_ (countAccess _ _ _)) (request _ _ _ _ _)
  rw [setPt]
  exact setLine s.msys ln _ rfl
theorem touchLoad (s : State) (c : Nat) (acq : Bool) (ln : Nat) : s.msys.SameBytes (s.touchLoad c acq ln).msys := by
  simp only [State.touchLoad]
  refine trans (trans ?_ (countAccess _ _ _)) (request _ _ _ _ _)
  rw [setPt]
  exact setLine s.msys ln _ rfl
end MemSys.SameBytes

/-- A home that performs nothing of an effect leaves what `apply` leaves. -/
theorem MemSys.apply_rejected (m : MemSys) (e : Effect) (h : (m.ackOf e).done = false) : m.apply e = m := by
  cases e with
  | tile hdr hb pay pb expected hkey pkey ack =>
    have hn : ¬ natAt (m.load hkey hdr 16) 10 2 = expected.toNat := fun he => by
      have : BitVec.ofNat 16 (natAt (m.load hkey hdr 16) 10 2) = expected := by
        apply BitVec.eq_of_toNat_eq; rw [he]; simp
      simp [MemSys.ackOf, MemSys.tileAck, this] at h
    simp only [MemSys.apply, if_neg hn]
  | _ => simp [MemSys.ackOf] at h

/-- An effect performed for an agent leaves the bytes that `apply` leaves. -/
theorem State.perform_bytes (s : State) (c : Nat) (e : Effect) : (s.msys.apply e).SameBytes (s.perform c e).msys := by
  unfold State.perform
  split
  · exact MemSys.SameBytes.touchLoad s c _ _
  · exact MemSys.SameBytes.refl _
  · exact MemSys.SameBytes.refl _
  · exact MemSys.SameBytes.refl _
  · exact MemSys.SameBytes.refl _
  · dsimp only
    split
    · exact MemSys.SameBytes.foldl _ (fun s ln => MemSys.SameBytes.touchStore s c ln) _ { s with msys := s.msys.apply _ }
    · rename_i h
      rw [MemSys.apply_rejected _ _ (by simpa using h)]
      split
      · exact MemSys.SameBytes.refl _
      · exact (MemSys.SameBytes.countAccess _ _ _).trans (MemSys.SameBytes.request _ _ _ _ _)
theorem State.perform_canonical (s : State) (c : Nat) (e : Effect) (h : s.Canonical) : (s.perform c e).Canonical := by
  show (s.perform c e).msys.mem.wf = true
  rw [(State.perform_bytes s c e).mem]; exact MemSys.apply_wf _ _ h
theorem State.performs_canonical (c : Nat) (es : List Effect) (s : State) (h : s.Canonical) : (s.performAll c es).Canonical :=
  foldl_keeps (fun s : State => s.Canonical) _ (fun s e h => State.perform_canonical s c e h) es s h

theorem State.issue_canonical {s : State} (k : s.Calm) (es : List Effect) (h : s.Canonical) : (s.issue es).Canonical := by
  rw [k.issue es]
  exact State.performs_canonical _ es s h

/-- A stretch of memory set to zero keeps the canonical form. -/
theorem MemSys.zeroRange_wf (m : MemSys) (pa n : Nat) (h : m.mem.wf = true) : (m.zeroRange pa n).mem.wf = true :=
  Memory.filter_wf _ _ h

-- Ranges on the vector port ---------------------------------------------------------------------------------------------------

/-- A range passes when each of its units does (Table 9.5). -/
theorem State.vecRange_eq_none (s : State) (m : MemSys) (w : Who) (k : AccessKind) (unit n : Nat) :
    ∀ va : Word, s.vecRange m w k va unit n = none ↔
      ∀ i, i < n → ∃ p, s.vectorAccess m w k (va + BitVec.ofNat 64 (i * unit)) unit unit = .ok p := by
  induction n with
  | zero => intro va; simp [State.vecRange]
  | succ n ih =>
    intro va
    simp only [State.vecRange]
    cases h : s.vectorAccess m w k va unit unit with
    | error c =>
      simp only [reduceCtorEq, false_iff]
      intro hf
      obtain ⟨p, hp⟩ := hf 0 (by omega)
      simp [h] at hp
    | ok p =>
      simp only [ih]
      constructor
      · intro hf i hi
        cases i with
        | zero => exact ⟨p, by simpa using h⟩
        | succ i =>
          obtain ⟨q, hq⟩ := hf i (by omega)
          refine ⟨q, ?_⟩
          rw [← hq, BitVec.add_assoc, ← BitVec.ofNat_add]
          congr 2
          rw [Nat.succ_mul, Nat.add_comm]
      · intro hf i hi
        obtain ⟨q, hq⟩ := hf (i + 1) (by omega)
        refine ⟨q, ?_⟩
        rw [← hq, BitVec.add_assoc, ← BitVec.ofNat_add]
        congr 2
        rw [Nat.succ_mul, Nat.add_comm]

end Sys2Proof.Machine
end

