-- ==== Sys2Proof/Laws/Regs.lean ====
section
/-!
SUPPORT. Writes of the vector, mask, accumulator and stationary registers of a calm thread: each changes its own register and
leaves every other register, the scalar registers and memory.
-/
namespace Sys2Proof.Machine
open Sys2Proof

namespace State.Calm
variable {s : State} (h : s.Calm)
include h

/-- A write of the register files changes the core's files and nothing else. -/
theorem setFile (f : RegFile) : s.setFile f = s.setMyCore { s.myCore with file := f } := by
  simp [State.setFile, h.file]
theorem myCore_setFile (f : RegFile) : (s.setFile f).myCore = { s.myCore with file := f } := by
  rw [h.setFile]; exact State.core_setCore_self _ _ _
theorem thread_setFile (f : RegFile) (u : Hart) : (s.setFile f).thread u = s.thread u := by
  rw [h.setFile]
  simp only [State.thread, State.setMyCore]
  by_cases hu : u.core = s.cur.core
  · rw [hu, State.core_setCore_self]; rfl
  · rw [State.core_setCore_ne _ _ hu]
theorem thr_setFile (f : RegFile) : (s.setFile f).thr = s.thr := by
  rw [h.setFile]
  exact (congrArg (fun x : State => x.thread s.cur) (h.setFile f)).symm.trans (h.thread_setFile f s.cur)
theorem regs_setFile (f : RegFile) : (s.setFile f).regs = s.regs := by rw [State.regs, h.thr_setFile]; rfl
theorem msys_setFile (f : RegFile) : (s.setFile f).msys = s.msys := by rw [h.setFile]; rfl
theorem cur_setFile (f : RegFile) : (s.setFile f).cur = s.cur := by rw [h.setFile]; rfl
theorem file_setFile (f : RegFile) : (s.setFile f).file = f := by
  simp only [State.file, h.thr_setFile, h.file, h.myCore_setFile]
theorem vlmax_setFile (f : RegFile) : (s.setFile f).vlmax = s.vlmax := by simp only [State.vlmax, h.myCore_setFile]
theorem calm_setFile (f : RegFile) : (s.setFile f).Calm where
  placed := by rw [h.cur_setFile]; exact h.placed
  file := by rw [h.thr_setFile]; exact h.file
  probes := by rw [State.side, h.thr_setFile]; exact h.probes
  held := by rw [h.thr_setFile]; exact h.held

theorem vreg_setVreg (r q : Nat) (x : VReg) (hr : r < 32) : (s.setVreg r x).vreg q = if q = r then x else s.vreg q := by
  simp only [State.vreg, State.setVreg, h.file_setFile, RegFile.putV_v]
  by_cases e : q = r
  · subst e; rw [if_pos rfl, vget_vset_self _ _ _ _ hr]
  · rw [if_neg e, vget_vset_ne _ _ _ e]
theorem kreg_setVreg (r q : Nat) (x : VReg) : (s.setVreg r x).kreg q = s.kreg q := by
  simp only [State.kreg, State.setVreg, h.file_setFile, RegFile.putV_k]
theorem regs_setVreg (r : Nat) (x : VReg) : (s.setVreg r x).regs = s.regs := h.regs_setFile _
theorem msys_setVreg (r : Nat) (x : VReg) : (s.setVreg r x).msys = s.msys := h.msys_setFile _
theorem setVreg (r : Nat) (x : VReg) : (s.setVreg r x).Calm := h.calm_setFile _
theorem kreg_setKreg (r q : Nat) (x : BitVec 2048) (hr : r < 8) :
    (s.setKreg r x).kreg q = if q = r then BitVec.ofNat 2048 (x.toNat % 2 ^ s.vlmax) else s.kreg q := by
  simp only [State.kreg, State.setKreg, h.file_setFile]
  by_cases e : q = r
  · subst e; rw [if_pos rfl, vget_vset_self _ _ _ _ hr]
  · rw [if_neg e, vget_vset_ne _ _ _ e]
theorem vreg_setKreg (r q : Nat) (x : BitVec 2048) : (s.setKreg r x).vreg q = s.vreg q := by
  simp only [State.vreg, State.setKreg, h.file_setFile]
theorem regs_setKreg (r : Nat) (x : BitVec 2048) : (s.setKreg r x).regs = s.regs := h.regs_setFile _
theorem msys_setKreg (r : Nat) (x : BitVec 2048) : (s.setKreg r x).msys = s.msys := h.msys_setFile _
theorem setKreg (r : Nat) (x : BitVec 2048) : (s.setKreg r x).Calm := h.calm_setFile _
theorem accReg_setAcc (r q : Nat) (x : AccRow) (hr : r < 8) : (s.setAcc r x).accReg q = if q = r then x else s.accReg q := by
  simp only [State.accReg, State.setAcc, h.file_setFile]
  by_cases e : q = r
  · subst e; rw [if_pos rfl, vget_vset_self _ _ _ _ hr]
  · rw [if_neg e, vget_vset_ne _ _ _ e]
theorem bReg_setB (r q : Nat) (x : Option BReg) (hr : r < 4) : (s.setB r x).bReg q = if q = r then x else s.bReg q := by
  simp only [State.bReg, State.setB, h.file_setFile]
  by_cases e : q = r
  · subst e; rw [if_pos rfl, vget_vset_self _ _ _ _ hr]
  · rw [if_neg e, vget_vset_ne _ _ _ e]

end State.Calm

end Sys2Proof.Machine
end

