-- ==== Sys2Proof/Laws/Turns.lean ====
section
/-!
SUPPORT. What surrounds an instruction in a turn: a core that no sample is due of, an instruction that waits for nothing, and
what the end of an instruction leaves alone.
-/
namespace Sys2Proof.Machine
open Sys2Proof

/-- With no sample due on any core of them, the samples of some cores change nothing (R380). -/
theorem State.sampleCores_of_none (s : State) (l : List Nat) (h : ∀ c ∈ l, s.sampleNumber ≤ (s.core c).samples) :
    s.sampleCores l = s := by
  induction l with
  | nil => rfl
  | cons c r ih =>
    have hc : s.sampleCore c = s := by simp [State.sampleCore, h c (by simp)]
    show State.sampleCores (s.sampleCore c) r = s
    rw [hc]
    exact ih (fun x hx => h x (by simp [hx]))
theorem State.sample_of_none (s : State)
    (h : ∀ q ∈ s.activeQuads, ∀ i < 4, s.sampleNumber ≤ (s.core (4 * q + i)).samples) : s.sample = s := by
  have step : ∀ l : List Nat, (∀ q ∈ l, ∀ i < 4, s.sampleNumber ≤ (s.core (4 * q + i)).samples) → l.foldl State.sampleQuad s = s := by
    intro l
    induction l with
    | nil => exact fun _ => rfl
    | cons q r ih =>
      intro hl
      have hq : s.sampleQuad q = s := by
        apply State.sampleCores_of_none
        intro c hc
        obtain ⟨i, hi, rfl⟩ := List.mem_map.mp hc
        exact hl q (by simp) i (List.mem_range.mp hi)
      rw [List.foldl_cons, hq]
      exact ih (fun q' h' => hl q' (by simp [h']))
  exact step _ h

/-- What is not due stalls nothing (R49). -/
@[simp] theorem State.stallIf_false (s : State) (mem : Bool) : s.stallIf false mem = (s, false) := rfl
/-- An instruction that reads no scalar of vector work, and no memory that an element store of its thread may still write, stalls for
nothing (R49). -/
theorem State.stall_of_ready (s : State) (i : Instr) (h1 : (scalarSources i).1 &&& s.file.busy = 0)
    (h2 : (scalarSources i).2 &&& s.thr.reads = 0)
    (h3 : s.thr.stores.all (fun l => !l.any (fun x => (s.scalarSpan i).any (overlap x))) = true) : s.stall i = (s, false) := by
  unfold State.stall
  simp only [h1, h2, bne_self_eq_false, Bool.or_self, State.stallIf_false, Bool.false_eq_true, if_false, h3, Bool.not_true, if_true]

/-- The end of an instruction writes threads alone: memory, TIME, the agenda and every unit but the cores stay. -/
theorem State.leave_frame (s : State) (pc : Word) (i : Instr) (vector : Bool) (spans : List (Nat × Nat)) :
    ∃ cores, s.leave pc i vector spans = { s with cores := cores } := by
  have hset : ∀ (r : State) (t : Hart) (x : Thread), (∃ c, r = { s with cores := c }) → ∃ c, r.setThread t x = { s with cores := c } := by
    rintro _ t x ⟨c, rfl⟩
    exact ⟨_, rfl⟩
  have hfold : ∀ (l : List Nat) (f : State → Nat → State),
      (∀ r n, (∃ c, r = { s with cores := c }) → ∃ c, f r n = { s with cores := c }) →
      ∀ r : State, (∃ c, r = { s with cores := c }) → ∃ c, l.foldl f r = { s with cores := c } := by
    intro l f hf
    induction l with
    | nil => exact fun r h => h
    | cons n l ih => exact fun r h => ih _ (hf r n h)
  have hthr : ∀ (p : Prop) [Decidable p] (x : Thread), ∃ c, (if p then s else s.setThr x) = { s with cores := c } := by
    intro p _ x
    by_cases hp : p
    · exact ⟨s.cores, if_pos hp⟩
    · exact ⟨_, if_neg hp⟩
  unfold State.leave
  by_cases h : s.thr.owner.isNone = true
  · exact ⟨s.cores, if_pos h⟩
  · rw [if_neg h]
    cases vector
    · exact hthr _ _
    · refine hfold _ _ (fun r n hr => ?_) _ (hthr _ _)
      dsimp only
      split
      · exact hr
      · exact hset r _ _ hr

end Sys2Proof.Machine
end

