-- ==== Sys2Proof/Tests/Slice0.lean ====
section
/-!
SUPPORT. Tests of the model on small cases worked out from the spec, the decoding of a written-out word for every encoded
instruction, ill-formed terms that the checks refuse, and states and operands that meet the hypotheses of each statement.
-/
namespace Sys2Proof.Tests
set_option Elab.async false
open Sys2Proof Sys2Proof.Machine

-- Helpers -----------------------------------------------------------------------------------------------------------------

/-- W3, WM and WI fields with zeros elsewhere. -/
def w3 (d a b : BitVec 6) (ty : Ty) : W3 := { d := d, a := a, b := b, c := 0, ty := ty, k := 0, q := 0, imm := 0 }
def wm (d a b : BitVec 6) (ty : Ty) : WM :=
  { d := d, a := a, b := b, c := 0, ty := ty, k := 0, ord := .plain, scope := .lane, off := 0 }

/-- The state a result answers meets p. -/
def gives (r : Result) (p : State → Bool) : Bool := match r with | .next t => p t | _ => false

/-- Window 0 of a context on die 0 at PA 0x1000_0000. -/
def win0 : Vector (SMap (BitVec 128)) 4 := vset (Vector.replicate 4 []) 0 [(0, 7 + (1#128 <<< 6) + (0x10000#128 <<< 64))]
/-- Context 1 with its window 0 at PA 0x1000_0000, and the loaded one-strip job of `State.load` standing at 0x1000. -/
def loaded : State :=
  let s := State.reset.load 0
  let cx := { loaderContext 0 with windows := win0 }
  let s := { s with contexts := SMap.set s.contexts 1 cx }
  s.setRegs { s.regs with te := true, tvecBase := 0x100 }
/-- The same with `s1` to `s4` set. -/
def demo (a b c d : Word) : State :=
  loaded.setRegs { loaded.regs with s := vset (vset (vset (vset loaded.regs.s 1 a) 2 b) 3 c) 4 d }
/-- A PLAIN vector register of the given elements. -/
def plainV (t : Ty) (l : List Nat) : VReg :=
  { VReg.zero with ty := t, n := l.length, prog := l.length, data := BitVec.ofNat 65536 (packElems t.width l) }
/-- `v1`, `v2` and `k1` set, with VL. -/
def lanes (s : State) (t : Ty) (v1 v2 : List Nat) (k1 : Nat) (vl : Nat) : State :=
  let f := s.file
  let v := vset (vset f.v 1 (plainV t v1)) 2 (plainV t v2)
  let s := s.setMyCore { s.myCore with file := { f with v := v, k := vset f.k 1 (BitVec.ofNat 2048 k1) } }
  s.setRegs { s.regs with vl := vl }

def calmB (s : State) : Bool := decide (s.cur.thread < 4) && s.thr.specFile.isNone && s.side.probes.isEmpty && s.thr.held.isEmpty
theorem calm_of {s : State} (h : calmB s = true) : s.Calm := by
  simp only [calmB, Bool.and_eq_true, decide_eq_true_eq, Option.isNone_iff_eq_none, List.isEmpty_iff] at h
  exact ⟨h.1.1.1, h.1.1.2, h.1.2, h.2⟩
theorem placed_of {s : State} (h : s.cur.thread < 4) : s.placed := h
theorem ok_of {ε α : Type} {x : Except ε α} {p : α} (h : x.toOption = some p) : x = .ok p := by
  cases x <;> simp_all [Except.toOption]
theorem ex_ok {ε α : Type} {x : Except ε α} (h : x.toOption.isSome = true) : ∃ p, x = .ok p := by
  cases x <;> simp_all [Except.toOption]
theorem ex_fst {ε α β : Type} {x : Except ε (α × β)} {a : α} (h : x.toOption.map (fun p => p.1) = some a) : ∃ b, x = .ok (a, b) := by
  rcases x with e | ⟨p, q⟩ <;> simp_all [Except.toOption]
theorem ex_error {ε α : Type} {x : Except ε α} (h : x.toOption.isNone = true) : ∃ c, x = .error c := by
  cases x <;> simp_all [Except.toOption]

-- Words of the spec (every encoded constructor once) ------------------------------------------------------------------------

/-- SYS: words from Tables 13.1-13.4, 14.1, 14.2 and 14.4. -/
theorem test_decode_sys : ([
    (0x0000000000000000, Instr.nop { d := 0, a := 0, b := 0, c := 0, ty := .i8, k := 0, q := 0, imm := 0 }),
    (0x0000000002000000, Instr.eret { d := 0, a := 0, b := 0, c := 0, ty := .i8, k := 0, q := 0, imm := 0 }),
    (0x0000000004000000, Instr.yield { d := 0, a := 0, b := 0, c := 0, ty := .i8, k := 0, q := 0, imm := 0 }),
    (0x0000000001003FFF, Instr.trap { d := 0, a := 0, b := 0, c := 0, ty := .i8, k := 0, q := 0, imm := 16383 }),
    (0x0017F00003000000, Instr.waiti { d := 5, a := 63, b := 0, c := 0, ty := .i8, k := 0, q := 0, imm := 0 })] : List (Word × Instr)).all
    (fun x => decide ((decodeWord x.1).toOption = some x.2)) = true := by decide +kernel

/-- INT3: words from Tables 13.1-13.4, 14.1, 14.2 and 14.4. -/
theorem test_decode_int3 : ([
    (0x01060FC000204000, Instr.add { d := 1, a := 32, b := 63, c := 0, ty := .i16, k := 0, q := 1, imm := 0 }),
    (0x01060FC001204000, Instr.sub { d := 1, a := 32, b := 63, c := 0, ty := .i16, k := 0, q := 1, imm := 0 }),
    (0x01060FC002204000, Instr.mul { d := 1, a := 32, b := 63, c := 0, ty := .i16, k := 0, q := 1, imm := 0 }),
    (0x01060FC003200000, Instr.mulh { d := 1, a := 32, b := 63, c := 0, ty := .i16, k := 0, q := 0, imm := 0 }),
    (0x01060FC004500000, Instr.mulhn { d := 1, a := 32, b := 63, c := 0, ty := .n32, k := 0, q := 0, imm := 0 }),
    (0x01060FC005204000, Instr.div { d := 1, a := 32, b := 63, c := 0, ty := .i16, k := 0, q := 1, imm := 0 }),
    (0x01060FC006500000, Instr.divn { d := 1, a := 32, b := 63, c := 0, ty := .n32, k := 0, q := 0, imm := 0 }),
    (0x01060FC007200000, Instr.rem { d := 1, a := 32, b := 63, c := 0, ty := .i16, k := 0, q := 0, imm := 0 }),
    (0x01060FC008500000, Instr.remn { d := 1, a := 32, b := 63, c := 0, ty := .n32, k := 0, q := 0, imm := 0 }),
    (0x01060FC009200000, Instr.and { d := 1, a := 32, b := 63, c := 0, ty := .i16, k := 0, q := 0, imm := 0 }),
    (0x01060FC00A200000, Instr.or { d := 1, a := 32, b := 63, c := 0, ty := .i16, k := 0, q := 0, imm := 0 }),
    (0x01060FC00B200000, Instr.xor { d := 1, a := 32, b := 63, c := 0, ty := .i16, k := 0, q := 0, imm := 0 }),
    (0x01060FC00C200000, Instr.andn { d := 1, a := 32, b := 63, c := 0, ty := .i16, k := 0, q := 0, imm := 0 }),
    (0x01060FC00D200000, Instr.orn { d := 1, a := 32, b := 63, c := 0, ty := .i16, k := 0, q := 0, imm := 0 }),
    (0x01060FC00E200000, Instr.shl { d := 1, a := 32, b := 63, c := 0, ty := .i16, k := 0, q := 0, imm := 0 }),
    (0x01060FC00F500000, Instr.shr { d := 1, a := 32, b := 63, c := 0, ty := .n32, k := 0, q := 0, imm := 0 }),
    (0x01060FC010200000, Instr.sra { d := 1, a := 32, b := 63, c := 0, ty := .i16, k := 0, q := 0, imm := 0 }),
    (0x01060FC011200000, Instr.rot { d := 1, a := 32, b := 63, c := 0, ty := .i16, k := 0, q := 0, imm := 0 }),
    (0x01060FC012200000, Instr.min { d := 1, a := 32, b := 63, c := 0, ty := .i16, k := 0, q := 0, imm := 0 }),
    (0x01060FC013200000, Instr.max { d := 1, a := 32, b := 63, c := 0, ty := .i16, k := 0, q := 0, imm := 0 }),
    (0x01060FC014500000, Instr.minn { d := 1, a := 32, b := 63, c := 0, ty := .n32, k := 0, q := 0, imm := 0 }),
    (0x01060FC015500000, Instr.maxn { d := 1, a := 32, b := 63, c := 0, ty := .n32, k := 0, q := 0, imm := 0 }),
    (0x01060FC016200000, Instr.slt { d := 1, a := 32, b := 63, c := 0, ty := .i16, k := 0, q := 0, imm := 0 }),
    (0x01060FC017500000, Instr.sltn { d := 1, a := 32, b := 63, c := 0, ty := .n32, k := 0, q := 0, imm := 0 }),
    (0x01060FC018200000, Instr.seq { d := 1, a := 32, b := 63, c := 0, ty := .i16, k := 0, q := 0, imm := 0 }),
    (0x010420C419600000, Instr.sel { d := 1, a := 2, b := 3, c := 4, ty := .i64, k := 0, q := 0, imm := 0 }),
    (0x0124A0001A700000, Instr.clz { d := 9, a := 10, b := 0, c := 0, ty := .n64, k := 0, q := 0, imm := 0 }),
    (0x0124A0001B700000, Instr.ctz { d := 9, a := 10, b := 0, c := 0, ty := .n64, k := 0, q := 0, imm := 0 }),
    (0x0124A0001C700000, Instr.popc { d := 9, a := 10, b := 0, c := 0, ty := .n64, k := 0, q := 0, imm := 0 }),
    (0x0124A0001D700000, Instr.bswap { d := 9, a := 10, b := 0, c := 0, ty := .n64, k := 0, q := 0, imm := 0 }),
    (0x0124A0001E60020C, Instr.bext { d := 9, a := 10, b := 0, c := 0, ty := .i64, k := 0, q := 0, imm := 524 }),
    (0x0124A0001F701000, Instr.bins { d := 9, a := 10, b := 0, c := 0, ty := .n64, k := 0, q := 0, imm := 4096 })] : List (Word × Instr)).all
    (fun x => decide ((decodeWord x.1).toOption = some x.2)) = true := by decide +kernel

/-- INTI: words from Tables 13.1-13.4, 14.1, 14.2 and 14.4. -/
theorem test_decode_inti : ([
    (0x021E8FFFFFFF8000, Instr.addi { d := 7, a := 40, imm := 4294967288 }),
    (0x021E8FFFFFFF8001, Instr.andi { d := 7, a := 40, imm := 4294967288 }),
    (0x021E8FFFFFFF8002, Instr.ori { d := 7, a := 40, imm := 4294967288 }),
    (0x021E8FFFFFFF8003, Instr.xori { d := 7, a := 40, imm := 4294967288 }),
    (0x021E8FFFFFFF8008, Instr.slti { d := 7, a := 40, imm := 4294967288 }),
    (0x021E8FFFFFFF8009, Instr.sltni { d := 7, a := 40, imm := 4294967288 }),
    (0x021E8FFFFFFF800A, Instr.mini { d := 7, a := 40, imm := 4294967288 }),
    (0x021E8FFFFFFF800B, Instr.maxi { d := 7, a := 40, imm := 4294967288 }),
    (0x021E80000003F004, Instr.shli { d := 7, a := 40, imm := 63 }),
    (0x021E80000003F005, Instr.shri { d := 7, a := 40, imm := 63 }),
    (0x021E80000003F006, Instr.srai { d := 7, a := 40, imm := 63 }),
    (0x021E80000003F007, Instr.roti { d := 7, a := 40, imm := 63 })] : List (Word × Instr)).all
    (fun x => decide ((decodeWord x.1).toOption = some x.2)) = true := by decide +kernel

/-- LI: words from Tables 13.1-13.4, 14.1, 14.2 and 14.4. -/
theorem test_decode_li : ([
    (0x0320000000018000, Instr.li { d := 8, a := 0, imm := 24 }),
    (0x0320080000001001, Instr.lih { d := 8, a := 0, imm := 2147483649 })] : List (Word × Instr)).all
    (fun x => decide ((decodeWord x.1).toOption = some x.2)) = true := by decide +kernel

/-- LEA: words from Tables 13.1-13.4, 14.1, 14.2 and 14.4. -/
theorem test_decode_lea : ([
    (0x041461C000003FF8, Instr.lea { d := 5, a := 6, b := 7, c := 0, ty := .i8, k := 0, q := 0, imm := 16376 })] : List (Word × Instr)).all
    (fun x => decide ((decodeWord x.1).toOption = some x.2)) = true := by decide +kernel

/-- FLT3: words from Tables 13.1-13.4, 14.1, 14.2 and 14.4. -/
theorem test_decode_flt3 : ([
    (0x0510518000B18000, Instr.fadd { d := 4, a := 5, b := 6, c := 0, ty := .d, k := 0, q := 6, imm := 0 }),
    (0x0510518001B18000, Instr.fsub { d := 4, a := 5, b := 6, c := 0, ty := .d, k := 0, q := 6, imm := 0 }),
    (0x0510518002B18000, Instr.fmul { d := 4, a := 5, b := 6, c := 0, ty := .d, k := 0, q := 6, imm := 0 }),
    (0x0510518003B18000, Instr.ffma { d := 4, a := 5, b := 6, c := 0, ty := .d, k := 0, q := 6, imm := 0 }),
    (0x0510518004B18000, Instr.fdiv { d := 4, a := 5, b := 6, c := 0, ty := .d, k := 0, q := 6, imm := 0 }),
    (0x0510500005A04000, Instr.fsqrt { d := 4, a := 5, b := 0, c := 0, ty := .f, k := 0, q := 1, imm := 0 }),
    (0x0510518006800000, Instr.fmin { d := 4, a := 5, b := 6, c := 0, ty := .h, k := 0, q := 0, imm := 0 }),
    (0x0510518007800000, Instr.fmax { d := 4, a := 5, b := 6, c := 0, ty := .h, k := 0, q := 0, imm := 0 }),
    (0x0510518008900007, Instr.fcmp { d := 4, a := 5, b := 6, c := 0, ty := .bf, k := 0, q := 0, imm := 7 }),
    (0x0510500009B00000, Instr.fclass { d := 4, a := 5, b := 0, c := 0, ty := .d, k := 0, q := 0, imm := 0 }),
    (0x051050000BB00000, Instr.fabs { d := 4, a := 5, b := 0, c := 0, ty := .d, k := 0, q := 0, imm := 0 }),
    (0x051050000CB00000, Instr.fneg { d := 4, a := 5, b := 0, c := 0, ty := .d, k := 0, q := 0, imm := 0 }),
    (0x051050000A40400A, Instr.fcvt { d := 4, a := 5, b := 0, c := 0, ty := .i32, k := 0, q := 1, imm := 10 })] : List (Word × Instr)).all
    (fun x => decide ((decodeWord x.1).toOption = some x.2)) = true := by decide +kernel

/-- BR, JAL: words from Tables 13.1-13.4, 14.1, 14.2 and 14.4. -/
theorem test_decode_brjal : ([
    (0x081460FFFFFFFFFF, Instr.brEq { a := 5, b := 6, off := 1099511627775 }),
    (0x081461FFFFFFFFFE, Instr.brNe { a := 5, b := 6, off := 1099511627774 }),
    (0x081462FFFFFFFFFD, Instr.brLt { a := 5, b := 6, off := 1099511627773 }),
    (0x081463FFFFFFFFFC, Instr.brGe { a := 5, b := 6, off := 1099511627772 }),
    (0x081464FFFFFFFFFB, Instr.brLtn { a := 5, b := 6, off := 1099511627771 }),
    (0x081465FFFFFFFFFA, Instr.brGen { a := 5, b := 6, off := 1099511627770 }),
    (0x09FC000000000004, Instr.jal { a := 63, b := 0, off := 4 })] : List (Word × Instr)).all
    (fun x => decide ((decodeWord x.1).toOption = some x.2)) = true := by decide +kernel

/-- JR: words from Tables 13.1-13.4, 14.1, 14.2 and 14.4. -/
theorem test_decode_jr : ([
    (0x0A03F00000003FF8, Instr.jr { d := 0, a := 63, b := 0, c := 0, ty := .i8, k := 0, q := 0, imm := 16376 })] : List (Word × Instr)).all
    (fun x => decide ((decodeWord x.1).toOption = some x.2)) = true := by decide +kernel

/-- BLOCK: words from Tables 13.1-13.4, 14.1, 14.2 and 14.4. -/
theorem test_decode_block : ([
    (0x0C00300000040010, Instr.vfetch { d := 0, a := 3, b := 0, c := 0, ty := .i8, k := 2, q := 0, imm := 16 })] : List (Word × Instr)).all
    (fun x => decide ((decodeWord x.1).toOption = some x.2)) = true := by decide +kernel

/-- STATE: words from Tables 13.1-13.4, 14.1, 14.2 and 14.4. -/
theorem test_decode_state : ([
    (0x0E14000000000030, Instr.rds { d := 5, a := 0, b := 0, c := 0, ty := .i8, k := 0, q := 0, imm := 48 }),
    (0x0E00B00001000004, Instr.wrs { d := 0, a := 11, b := 0, c := 0, ty := .i8, k := 0, q := 0, imm := 4 }),
    (0x0E00B00001000000, Instr.vlWrite { d := 0, a := 11, b := 0, c := 0, ty := .i8, k := 0, q := 0, imm := 0 }),
    (0x0E00B00001000003, Instr.vstartWrite { d := 0, a := 11, b := 0, c := 0, ty := .i8, k := 0, q := 0, imm := 3 }),
    (0x0E00B00001000007, Instr.fflgWrite { d := 0, a := 11, b := 0, c := 0, ty := .i8, k := 0, q := 0, imm := 7 }),
    (0x0E00B0000100000D, Instr.mshapeWrite { d := 0, a := 11, b := 0, c := 0, ty := .i8, k := 0, q := 0, imm := 13 }),
    (0x0E00B00001000040, Instr.drthWrite { d := 0, a := 11, b := 0, c := 0, ty := .i8, k := 0, q := 0, imm := 64 }),
    (0x0E00B00001000041, Instr.drstatWrite { d := 0, a := 11, b := 0, c := 0, ty := .i8, k := 0, q := 0, imm := 65 }),
    (0x0E00B00001000043, Instr.railqWrite { d := 0, a := 11, b := 0, c := 0, ty := .i8, k := 0, q := 0, imm := 67 }),
    (0x0E2802C002000001, Instr.tstamp { d := 10, a := 0, b := 11, c := 0, ty := .i8, k := 0, q := 0, imm := 1 })] : List (Word × Instr)).all
    (fun x => decide ((decodeWord x.1).toOption = some x.2)) = true := by decide +kernel

/-- LDS: words from Tables 13.1-13.4, 14.1, 14.2 and 14.4. -/
theorem test_decode_lds : ([
    (0x101C500900606003, Instr.ld { d := 7, a := 5, b := 0, c := 9, ty := .i64, k := 0, ord := .acq, scope := .pkg, off := 3 }),
    (0x1020500001600000, Instr.ldl { d := 8, a := 5, b := 0, c := 0, ty := .i64, k := 0, ord := .plain, scope := .lane, off := 0 }),
    (0x1000500002001FFF, Instr.pref { d := 0, a := 5, b := 0, c := 0, ty := .i8, k := 0, ord := .plain, scope := .die, off := 2047 })] : List (Word × Instr)).all
    (fun x => decide ((decodeWord x.1).toOption = some x.2)) = true := by decide +kernel

/-- STS: words from Tables 13.1-13.4, 14.1, 14.2 and 14.4. -/
theorem test_decode_sts : ([
    (0x11006240004007FF, Instr.st { d := 0, a := 6, b := 9, c := 0, ty := .i32, k := 0, ord := .plain, scope := .lane, off := 2047 }),
    (0x112452800160A000, Instr.stc { d := 9, a := 5, b := 10, c := 0, ty := .i64, k := 0, ord := .rel, scope := .pkg, off := 0 })] : List (Word × Instr)).all
    (fun x => decide ((decodeWord x.1).toOption = some x.2)) = true := by decide +kernel

/-- VLD: words from Tables 13.1-13.4, 14.1, 14.2 and 14.4. -/
theorem test_decode_vld : ([
    (0x121050000046D802, Instr.vld { d := 4, a := 5, b := 0, c := 0, ty := .i32, k := 3, ord := .ar, scope := .die, off := 2 }),
    (0x121051C001460002, Instr.vlds { d := 4, a := 5, b := 7, c := 0, ty := .i32, k := 3, ord := .plain, scope := .lane, off := 2 }),
    (0x1210520002460002, Instr.vldg { d := 4, a := 5, b := 8, c := 0, ty := .i32, k := 3, ord := .plain, scope := .lane, off := 2 }),
    (0x1210520003460002, Instr.vldl { d := 4, a := 5, b := 8, c := 0, ty := .i32, k := 3, ord := .plain, scope := .lane, off := 2 }),
    (0x121051C005C60002, Instr.vldt { d := 4, a := 5, b := 7, c := 0, ty := .q8, k := 3, ord := .plain, scope := .lane, off := 2 }),
    (0x121051C006C60002, Instr.vldtt { d := 4, a := 5, b := 7, c := 0, ty := .q8, k := 3, ord := .plain, scope := .lane, off := 2 }),
    (0x1210500004A00000, Instr.vlde { d := 4, a := 5, b := 0, c := 0, ty := .f, k := 0, ord := .plain, scope := .lane, off := 0 })] : List (Word × Instr)).all
    (fun x => decide ((decodeWord x.1).toOption = some x.2)) = true := by decide +kernel

/-- VST: words from Tables 13.1-13.4, 14.1, 14.2 and 14.4. -/
theorem test_decode_vst : ([
    (0x1310500000560000, Instr.vst { d := 4, a := 5, b := 0, c := 0, ty := .n32, k := 3, ord := .plain, scope := .lane, off := 0 }),
    (0x131051C001560000, Instr.vsts { d := 4, a := 5, b := 7, c := 0, ty := .n32, k := 3, ord := .plain, scope := .lane, off := 0 }),
    (0x1310520002560000, Instr.vstg { d := 4, a := 5, b := 8, c := 0, ty := .n32, k := 3, ord := .plain, scope := .lane, off := 0 }),
    (0x1310520003560000, Instr.vstc { d := 4, a := 5, b := 8, c := 0, ty := .n32, k := 3, ord := .plain, scope := .lane, off := 0 }),
    (0x1310500304D00000, Instr.vste { d := 4, a := 5, b := 0, c := 3, ty := .q4, k := 0, ord := .plain, scope := .lane, off := 0 }),
    (0x1310518705D20000, Instr.vstt { d := 4, a := 5, b := 6, c := 7, ty := .q4, k := 1, ord := .plain, scope := .lane, off := 0 })] : List (Word × Instr)).all
    (fun x => decide ((decodeWord x.1).toOption = some x.2)) = true := by decide +kernel

/-- MEMCTL: words from Tables 13.1-13.4, 14.1, 14.2 and 14.4. -/
theorem test_decode_memctl : ([
    (0x140000000000E000, Instr.fence { d := 0, a := 0, b := 0, c := 0, ty := .i8, k := 0, ord := .ar, scope := .pkg, off := 0 }),
    (0x1400500001000001, Instr.cflush { d := 0, a := 5, b := 0, c := 0, ty := .i8, k := 0, ord := .plain, scope := .lane, off := 1 }),
    (0x1400500002000000, Instr.cinvData { d := 0, a := 5, b := 0, c := 0, ty := .i8, k := 0, ord := .plain, scope := .lane, off := 0 }),
    (0x1404500002000000, Instr.cinvInstruction { d := 1, a := 5, b := 0, c := 0, ty := .i8, k := 0, ord := .plain, scope := .lane, off := 0 }),
    (0x1408500002000000, Instr.cinvTranslation { d := 2, a := 5, b := 0, c := 0, ty := .i8, k := 0, ord := .plain, scope := .lane, off := 0 }),
    (0x140C000002000000, Instr.cinvTranslationAll { d := 3, a := 0, b := 0, c := 0, ty := .i8, k := 0, ord := .plain, scope := .lane, off := 0 }),
    (0x1400500003008804, Instr.czero { d := 0, a := 5, b := 0, c := 0, ty := .i8, k := 0, ord := .rel, scope := .core, off := 4 })] : List (Word × Instr)).all
    (fun x => decide ((decodeWord x.1).toOption = some x.2)) = true := by decide +kernel

/-- MTX: words from Tables 13.1-13.4, 14.1, 14.2 and 14.4. -/
theorem test_decode_mtx : ([
    (0x1800800000000000, Instr.mshape { d := 0, a := 8, b := 0, c := 0, ty := .i8, k := 0, q := 0, imm := 0 }),
    (0x180461C001C00001, Instr.mldb { d := 1, a := 6, b := 7, c := 0, ty := .q8, k := 0, q := 0, imm := 1 }),
    (0x1808404002C00005, Instr.mma { d := 2, a := 4, b := 1, c := 0, ty := .q8, k := 0, q := 0, imm := 5 }),
    (0x1808404003C00005, Instr.mmaz { d := 2, a := 4, b := 1, c := 0, ty := .q8, k := 0, q := 0, imm := 5 }),
    (0x1818200004A00000, Instr.mdrain { d := 6, a := 2, b := 0, c := 0, ty := .f, k := 0, q := 0, imm := 0 }),
    (0x181C000005000000, Instr.mclrAcc { d := 7, a := 0, b := 0, c := 0, ty := .i8, k := 0, q := 0, imm := 0 }),
    (0x180C000005000001, Instr.mclrB { d := 3, a := 0, b := 0, c := 0, ty := .i8, k := 0, q := 0, imm := 1 }),
    (0x1814000006002020, Instr.mstat { d := 5, a := 0, b := 0, c := 0, ty := .i8, k := 0, q := 0, imm := 8224 })] : List (Word × Instr)).all
    (fun x => decide ((decodeWord x.1).toOption = some x.2)) = true := by decide +kernel

/-- AUTUMN: words from Tables 13.1-13.4, 14.1, 14.2 and 14.4. -/
theorem test_decode_autumn : ([
    (0x191461C800A00000, Instr.acprobe { d := 5, a := 6, b := 7, c := 8, ty := .f, k := 0, q := 0, imm := 0 }),
    (0x191461C800804003, Instr.acprobeSpec { d := 5, a := 6, b := 7, c := 8, ty := .h, k := 0, q := 1, imm := 3 }),
    (0x1938A00001000000, Instr.acwait { d := 14, a := 10, b := 0, c := 0, ty := .i8, k := 0, q := 0, imm := 0 }),
    (0x193CB30D02A00000, Instr.acstore { d := 15, a := 11, b := 12, c := 13, ty := .f, k := 0, q := 0, imm := 0 }),
    (0x1900900003000000, Instr.acdrop { d := 0, a := 9, b := 0, c := 0, ty := .i8, k := 0, q := 0, imm := 0 }),
    (0x1900000003000001, Instr.acdropAll { d := 0, a := 0, b := 0, c := 0, ty := .i8, k := 0, q := 0, imm := 1 })] : List (Word × Instr)).all
    (fun x => decide ((decodeWord x.1).toOption = some x.2)) = true := by decide +kernel

/-- VINT: words from Tables 13.1-13.4, 14.1, 14.2 and 14.4. -/
theorem test_decode_vint : ([
    (0x2014418000006000, Instr.vadd { d := 5, a := 4, b := 6, c := 0, ty := .i8, k := 0, q := 1, imm := 8192 }),
    (0x2014418001006000, Instr.vsub { d := 5, a := 4, b := 6, c := 0, ty := .i8, k := 0, q := 1, imm := 8192 }),
    (0x2014418002006000, Instr.vmul { d := 5, a := 4, b := 6, c := 0, ty := .i8, k := 0, q := 1, imm := 8192 }),
    (0x2014418009006000, Instr.vshl { d := 5, a := 4, b := 6, c := 0, ty := .i8, k := 0, q := 1, imm := 8192 }),
    (0x200C108003340000, Instr.vmulh { d := 3, a := 1, b := 2, c := 0, ty := .n16, k := 2, q := 0, imm := 0 }),
    (0x200C108004340000, Instr.vmin { d := 3, a := 1, b := 2, c := 0, ty := .n16, k := 2, q := 0, imm := 0 }),
    (0x200C108005340000, Instr.vmax { d := 3, a := 1, b := 2, c := 0, ty := .n16, k := 2, q := 0, imm := 0 }),
    (0x200C108006340000, Instr.vand { d := 3, a := 1, b := 2, c := 0, ty := .n16, k := 2, q := 0, imm := 0 }),
    (0x200C108007340000, Instr.vor { d := 3, a := 1, b := 2, c := 0, ty := .n16, k := 2, q := 0, imm := 0 }),
    (0x200C108008340000, Instr.vxor { d := 3, a := 1, b := 2, c := 0, ty := .n16, k := 2, q := 0, imm := 0 }),
    (0x200C10800A340000, Instr.vshr { d := 3, a := 1, b := 2, c := 0, ty := .n16, k := 2, q := 0, imm := 0 }),
    (0x200C10800B340000, Instr.vsra { d := 3, a := 1, b := 2, c := 0, ty := .n16, k := 2, q := 0, imm := 0 }),
    (0x200C10000C4E0000, Instr.vabs { d := 3, a := 1, b := 0, c := 0, ty := .i32, k := 7, q := 0, imm := 0 }),
    (0x200C10000D4E0000, Instr.vneg { d := 3, a := 1, b := 0, c := 0, ty := .i32, k := 7, q := 0, imm := 0 }),
    (0x200C10840EE00000, Instr.vsel { d := 3, a := 1, b := 2, c := 4, ty := .e8, k := 0, q := 0, imm := 0 }),
    (0x202020C00F200000, Instr.vmulw { d := 8, a := 2, b := 3, c := 0, ty := .i16, k := 0, q := 0, imm := 0 }),
    (0x202020C010500005, Instr.vmacw { d := 8, a := 2, b := 3, c := 0, ty := .n32, k := 0, q := 0, imm := 5 })] : List (Word × Instr)).all
    (fun x => decide ((decodeWord x.1).toOption = some x.2)) = true := by decide +kernel

/-- VFLT: words from Tables 13.1-13.4, 14.1, 14.2 and 14.4. -/
theorem test_decode_vflt : ([
    (0x2110524000A6A000, Instr.vfadd { d := 4, a := 5, b := 9, c := 0, ty := .f, k := 3, q := 2, imm := 8192 }),
    (0x2110524001A6A000, Instr.vfsub { d := 4, a := 5, b := 9, c := 0, ty := .f, k := 3, q := 2, imm := 8192 }),
    (0x2110524002A6A000, Instr.vfmul { d := 4, a := 5, b := 9, c := 0, ty := .f, k := 3, q := 2, imm := 8192 }),
    (0x2110524003A6A000, Instr.vffma { d := 4, a := 5, b := 9, c := 0, ty := .f, k := 3, q := 2, imm := 8192 }),
    (0x2110524004A6A000, Instr.vffms { d := 4, a := 5, b := 9, c := 0, ty := .f, k := 3, q := 2, imm := 8192 }),
    (0x2110524005A6A000, Instr.vfnma { d := 4, a := 5, b := 9, c := 0, ty := .f, k := 3, q := 2, imm := 8192 }),
    (0x2110524006A6A000, Instr.vfdiv { d := 4, a := 5, b := 9, c := 0, ty := .f, k := 3, q := 2, imm := 8192 }),
    (0x2110500007918000, Instr.vfsqrt { d := 4, a := 5, b := 0, c := 0, ty := .bf, k := 0, q := 6, imm := 0 }),
    (0x2110500008918000, Instr.vfrcp { d := 4, a := 5, b := 0, c := 0, ty := .bf, k := 0, q := 6, imm := 0 }),
    (0x2110500009918000, Instr.vfrsqrt { d := 4, a := 5, b := 0, c := 0, ty := .bf, k := 0, q := 6, imm := 0 }),
    (0x211050000A918000, Instr.vfexp2 { d := 4, a := 5, b := 0, c := 0, ty := .bf, k := 0, q := 6, imm := 0 }),
    (0x211050000B918000, Instr.vflog2 { d := 4, a := 5, b := 0, c := 0, ty := .bf, k := 0, q := 6, imm := 0 }),
    (0x211057C00C800000, Instr.vfmin { d := 4, a := 5, b := 31, c := 0, ty := .h, k := 0, q := 0, imm := 0 }),
    (0x211057C00D800000, Instr.vfmax { d := 4, a := 5, b := 31, c := 0, ty := .h, k := 0, q := 0, imm := 0 }),
    (0x211050000EA20000, Instr.vfabs { d := 4, a := 5, b := 0, c := 0, ty := .f, k := 1, q := 0, imm := 0 }),
    (0x211050000FA20000, Instr.vfneg { d := 4, a := 5, b := 0, c := 0, ty := .f, k := 1, q := 0, imm := 0 }),
    (0x2110500010A20000, Instr.vfclass { d := 4, a := 5, b := 0, c := 0, ty := .f, k := 1, q := 0, imm := 0 })] : List (Word × Instr)).all
    (fun x => decide ((decodeWord x.1).toOption = some x.2)) = true := by decide +kernel

/-- VCVT: words from Tables 13.1-13.4, 14.1, 14.2 and 14.4. -/
theorem test_decode_vcvt : ([
    (0x220810000080000A, Instr.vcvt { d := 2, a := 1, b := 0, c := 0, ty := .h, k := 0, q := 0, imm := 10 })] : List (Word × Instr)).all
    (fun x => decide ((decodeWord x.1).toOption = some x.2)) = true := by decide +kernel

/-- VCMP: words from Tables 13.1-13.4, 14.1, 14.2 and 14.4. -/
theorem test_decode_vcmp : ([
    (0x230C210000600005, Instr.vcmp { d := 3, a := 2, b := 4, c := 0, ty := .i64, k := 0, q := 0, imm := 5 }),
    (0x230C110001A02002, Instr.vfcmp { d := 3, a := 1, b := 4, c := 0, ty := .f, k := 0, q := 0, imm := 8194 })] : List (Word × Instr)).all
    (fun x => decide ((decodeWord x.1).toOption = some x.2)) = true := by decide +kernel

/-- VRED: words from Tables 13.1-13.4, 14.1, 14.2 and 14.4. -/
theorem test_decode_vred : ([
    (0x2408100000A00001, Instr.vrsum { d := 2, a := 1, b := 0, c := 0, ty := .f, k := 0, q := 0, imm := 1 }),
    (0x2408100001000000, Instr.vrmax { d := 2, a := 1, b := 0, c := 0, ty := .i8, k := 0, q := 0, imm := 0 }),
    (0x24081000029A0000, Instr.vrmin { d := 2, a := 1, b := 0, c := 0, ty := .bf, k := 5, q := 0, imm := 0 }),
    (0x2414400003A00000, Instr.vscanSum { d := 5, a := 4, b := 0, c := 0, ty := .f, k := 0, q := 0, imm := 0 }),
    (0x2414400003100001, Instr.vscanMax { d := 5, a := 4, b := 0, c := 0, ty := .n8, k := 0, q := 0, imm := 1 }),
    (0x2414400003800002, Instr.vscanMin { d := 5, a := 4, b := 0, c := 0, ty := .h, k := 0, q := 0, imm := 2 }),
    (0x240C100004AE0000, Instr.vcompress { d := 3, a := 1, b := 0, c := 0, ty := .f, k := 7, q := 0, imm := 0 }),
    (0x240C100005C20000, Instr.vspread { d := 3, a := 1, b := 0, c := 0, ty := .q8, k := 1, q := 0, imm := 0 })] : List (Word × Instr)).all
    (fun x => decide ((decodeWord x.1).toOption = some x.2)) = true := by decide +kernel

/-- VPERM: words from Tables 13.1-13.4, 14.1, 14.2 and 14.4. -/
theorem test_decode_vperm : ([
    (0x250C108000200000, Instr.vperm { d := 3, a := 1, b := 2, c := 0, ty := .i16, k := 0, q := 0, imm := 0 }),
    (0x250C100001400007, Instr.vslideup { d := 3, a := 1, b := 0, c := 0, ty := .i32, k := 0, q := 0, imm := 7 }),
    (0x250C124002402000, Instr.vslidedn { d := 3, a := 1, b := 9, c := 0, ty := .i32, k := 0, q := 0, imm := 8192 }),
    (0x250C0A0003A03000, Instr.vbcastScalar { d := 3, a := 0, b := 40, c := 0, ty := .f, k := 0, q := 0, imm := 12288 }),
    (0x250C1A0003A02000, Instr.vbcastElementIndexed { d := 3, a := 1, b := 40, c := 0, ty := .f, k := 0, q := 0, imm := 8192 }),
    (0x250C100003A00009, Instr.vbcastElement { d := 3, a := 1, b := 0, c := 0, ty := .f, k := 0, q := 0, imm := 9 }),
    (0x2524300004400005, Instr.vextr { d := 9, a := 3, b := 0, c := 0, ty := .i32, k := 0, q := 0, imm := 5 }),
    (0x250C928005402000, Instr.vins { d := 3, a := 9, b := 10, c := 0, ty := .i32, k := 0, q := 0, imm := 8192 }),
    (0x250C000006500000, Instr.viota { d := 3, a := 0, b := 0, c := 0, ty := .n32, k := 0, q := 0, imm := 0 }),
    (0x250C100007800000, Instr.vrev { d := 3, a := 1, b := 0, c := 0, ty := .h, k := 0, q := 0, imm := 0 })] : List (Word × Instr)).all
    (fun x => decide ((decodeWord x.1).toOption = some x.2)) = true := by decide +kernel

/-- VENC: words from Tables 13.1-13.4, 14.1, 14.2 and 14.4. -/
theorem test_decode_venc : ([
    (0x260C100000400000, Instr.vencAuto { d := 3, a := 1, b := 0, c := 0, ty := .i32, k := 0, q := 0, imm := 0 }),
    (0x260C100000400001, Instr.vencRun { d := 3, a := 1, b := 0, c := 0, ty := .i32, k := 0, q := 0, imm := 1 }),
    (0x260C100000400002, Instr.vencDict { d := 3, a := 1, b := 0, c := 0, ty := .i32, k := 0, q := 0, imm := 2 }),
    (0x260C100000400003, Instr.vencDelta { d := 3, a := 1, b := 0, c := 0, ty := .i32, k := 0, q := 0, imm := 3 }),
    (0x260C100001A00000, Instr.vexpand { d := 3, a := 1, b := 0, c := 0, ty := .f, k := 0, q := 0, imm := 0 }),
    (0x2624300002000000, Instr.vinfo { d := 9, a := 3, b := 0, c := 0, ty := .i8, k := 0, q := 0, imm := 0 })] : List (Word × Instr)).all
    (fun x => decide ((decodeWord x.1).toOption = some x.2)) = true := by decide +kernel

/-- MASK: words from Tables 13.1-13.4, 14.1, 14.2 and 14.4. -/
theorem test_decode_mask : ([
    (0x270421C000000000, Instr.kand { d := 1, a := 2, b := 7, c := 0, ty := .i8, k := 0, q := 0, imm := 0 }),
    (0x270421C001000000, Instr.kor { d := 1, a := 2, b := 7, c := 0, ty := .i8, k := 0, q := 0, imm := 0 }),
    (0x270421C002000000, Instr.kxor { d := 1, a := 2, b := 7, c := 0, ty := .i8, k := 0, q := 0, imm := 0 }),
    (0x2704000003000000, Instr.knot { d := 1, a := 0, b := 0, c := 0, ty := .i8, k := 0, q := 0, imm := 0 }),
    (0x2704000006000000, Instr.kmov { d := 1, a := 0, b := 0, c := 0, ty := .i8, k := 0, q := 0, imm := 0 }),
    (0x271C700004000000, Instr.kpopc { d := 7, a := 7, b := 0, c := 0, ty := .i8, k := 0, q := 0, imm := 0 }),
    (0x271C700005000000, Instr.kfirst { d := 7, a := 7, b := 0, c := 0, ty := .i8, k := 0, q := 0, imm := 0 })] : List (Word × Instr)).all
    (fun x => decide ((decodeWord x.1).toOption = some x.2)) = true := by decide +kernel

/-- VCFG: words from Tables 13.1-13.4, 14.1, 14.2 and 14.4. -/
theorem test_decode_vcfg : ([
    (0x281440000000002A, Instr.setvl { d := 5, a := 4, b := 0, c := 0, ty := .i8, k := 0, q := 0, imm := 42 })] : List (Word × Instr)).all
    (fun x => decide ((decodeWord x.1).toOption = some x.2)) = true := by decide +kernel

/-- COPY: words from Tables 13.1-13.4, 14.1, 14.2 and 14.4. -/
theorem test_decode_copy : ([
    (0x300050000000000B, Instr.cpset { d := 0, a := 5, b := 0, c := 0, ty := .i8, k := 0, q := 0, imm := 11 }),
    (0x3024000001000000, Instr.cpstart { d := 9, a := 0, b := 0, c := 0, ty := .i8, k := 0, q := 0, imm := 0 }),
    (0x3028900002000000, Instr.cpwait { d := 10, a := 9, b := 0, c := 0, ty := .i8, k := 0, q := 0, imm := 0 }),
    (0x302C000003000002, Instr.cpstat { d := 11, a := 0, b := 0, c := 0, ty := .i8, k := 0, q := 0, imm := 2 })] : List (Word × Instr)).all
    (fun x => decide ((decodeWord x.1).toOption = some x.2)) = true := by decide +kernel

/-- CBUF: words from Tables 13.1-13.4, 14.1, 14.2 and 14.4. -/
theorem test_decode_cbuf : ([
    (0x3100500000000003, Instr.cbinit { d := 0, a := 5, b := 0, c := 0, ty := .i8, k := 0, q := 0, imm := 3 }),
    (0x3118700001000003, Instr.cbwait { d := 6, a := 7, b := 0, c := 0, ty := .i8, k := 0, q := 0, imm := 3 }),
    (0x310070000200000F, Instr.cbrel { d := 0, a := 7, b := 0, c := 0, ty := .i8, k := 0, q := 0, imm := 15 })] : List (Word × Instr)).all
    (fun x => decide ((decodeWord x.1).toOption = some x.2)) = true := by decide +kernel

/-- BAR: words from Tables 13.1-13.4, 14.1, 14.2 and 14.4. -/
theorem test_decode_bar : ([
    (0x3200518700001007, Instr.barinit { d := 0, a := 5, b := 6, c := 7, ty := .i8, k := 0, q := 0, imm := 4103 }),
    (0x322000000100103F, Instr.barrive { d := 8, a := 0, b := 0, c := 0, ty := .i8, k := 0, q := 0, imm := 4159 }),
    (0x32248000020029FF, Instr.barwait { d := 9, a := 8, b := 0, c := 0, ty := .i8, k := 0, q := 0, imm := 10751 }),
    (0x322000000300180C, Instr.phend { d := 8, a := 0, b := 0, c := 0, ty := .i8, k := 0, q := 0, imm := 6156 })] : List (Word × Instr)).all
    (fun x => decide ((decodeWord x.1).toOption = some x.2)) = true := by decide +kernel

/-- JOB: words from Tables 13.1-13.4, 14.1, 14.2 and 14.4. -/
theorem test_decode_job : ([
    (0x3314600000000000, Instr.jlaunch { d := 5, a := 6, b := 0, c := 0, ty := .i8, k := 0, q := 0, imm := 0 }),
    (0x331C500001000000, Instr.jwait { d := 7, a := 5, b := 0, c := 0, ty := .i8, k := 0, q := 0, imm := 0 })] : List (Word × Instr)).all
    (fun x => decide ((decodeWord x.1).toOption = some x.2)) = true := by decide +kernel

/-- CTX: words from Tables 13.1-13.4, 14.1, 14.2 and 14.4. -/
theorem test_decode_ctx : ([
    (0x3403800000000000, Instr.vsave { d := 0, a := 56, b := 0, c := 0, ty := .i8, k := 0, q := 0, imm := 0 }),
    (0x3403800001000000, Instr.vrest { d := 0, a := 56, b := 0, c := 0, ty := .i8, k := 0, q := 0, imm := 0 }),
    (0x3403800002000000, Instr.csave { d := 0, a := 56, b := 0, c := 0, ty := .i8, k := 0, q := 0, imm := 0 }),
    (0x3403800003000000, Instr.crest { d := 0, a := 56, b := 0, c := 0, ty := .i8, k := 0, q := 0, imm := 0 })] : List (Word × Instr)).all
    (fun x => decide ((decodeWord x.1).toOption = some x.2)) = true := by decide +kernel

/-- Pairs of Table 13.10's example and of chapter 21, a word of two `nop` halves, and a load beside an immediate. -/
theorem test_decode_pairs : ([
    (0x84320B0024043FFE, Instr.pairedWord { op := .add, d := 3, s := 4, x := 0, low := 0x0B00 }
      { op := .brnz, d := 0, s := 8, x := 0, low := 0x3FFE }),
    (0x8000000000000000, .pairedWord { op := .nop, d := 0, s := 0, x := 0, low := 0 } { op := .nop, d := 0, s := 0, x := 0, low := 0 }),
    (0x9E3200101A843FF8, .pairedWord { op := .ld, d := 3, s := 4, x := 0, low := 0x10 }
      { op := .addi, d := 8, s := 8, x := 0, low := 0x3FF8 })] : List (Word × Instr)).all
    (fun x => decide ((decodeWord x.1).toOption = some x.2)) = true := by decide +kernel

/-- Words that the checks of R169 and R182 reject: an unassigned group, member, condition, type, order and scope, a field that must be
zero, a VP instruction outside a block, bit 31 of a pair, a half opcode beyond 24, and a branch in slot A. -/
theorem test_decode_rejects : ([0x0600000000000000, 0x0000000005000000, 0x0800060000000000, 0x0104108000F00000, 0x101C500000614003,
    0x101C500000607003, 0x0104108100400000, 0x0C00000003000000, 0x8000000080000000, 0xB200000000000000, 0xA200000000000000]
    : List Word).all (fun w => decide ((decodeWord w).toOption = none)) = true := by decide +kernel

-- Ill-formed terms: one for each check of WellFormed ---------------------------------------------------------------------------

/-- SYS, INT3, INTI, LI, LEA, FLT3, JAL, JR, BLOCK, STATE. -/
theorem test_illformed_scalar : ([Instr.nop (w3 1 0 0 .i8), .trap { w3 0 0 0 .i8 with q := 1 }, .waiti { w3 1 2 0 .i8 with imm := 1 },
    .add (w3 1 2 3 .f), .add { w3 1 2 3 .i8 with q := 2 }, .mulh (w3 1 2 3 .n8), .divn (w3 1 2 3 .i8), .and { w3 1 2 3 .i8 with q := 1 },
    .sel { w3 1 2 3 .d with c := 4 }, .clz (w3 1 2 3 .i8), .bext { w3 1 2 0 .i32 with imm := 0x40 }, .bins (w3 1 2 0 .i64),
    .bext { w3 1 2 0 .i64 with imm := 0x1001 }, .shli { d := 1, a := 2, imm := 64 }, .li { d := 1, a := 2, imm := 0 }, .lea (w3 1 2 3 .n8),
    .fadd (w3 1 2 3 .i32), .fadd { w3 1 2 3 .f with q := 7 }, .fsqrt (w3 1 2 3 .f), .fcmp { w3 1 2 3 .f with imm := 8 },
    .fcvt { w3 1 2 0 .f with imm := 10 }, .jal { a := 1, b := 1, off := 0 }, .jr (w3 1 2 3 .i8), .vfetch (w3 1 2 0 .i8),
    .rds { w3 1 0 0 .i8 with imm := 0x15 }, .wrs { w3 0 1 0 .i8 with imm := 3 }, .vlWrite { w3 0 1 0 .i8 with imm := 1 },
    .tstamp (w3 2 0 2 .i8)] : List Instr).all (fun i => WellFormed i == false) = true := by decide +kernel

/-- LDS, STS, VLD, VST, MEMCTL. -/
theorem test_illformed_memory : ([Instr.ld (wm 1 2 0 .q8), .ld { wm 1 2 0 .i64 with ord := .rel }, .ld { wm 1 2 0 .i64 with scope := .core },
    .ldl (wm 1 2 0 .i16), .pref (wm 0 2 0 .i8), .st (wm 1 2 3 .i8), .st { wm 0 2 3 .i8 with ord := .acq }, .stc (wm 1 2 3 .h),
    .vld (wm 32 2 0 .i8), .vld (wm 3 2 0 .i64), .vlds (wm 3 2 4 .q4), .vldg (wm 2 3 5 .i64), .vldl (wm 2 3 4 .i8), .vlde { wm 1 2 0 .i8 with k := 1 },
    .vldt (wm 1 2 3 .f), .vst (wm 1 2 3 .i8), .vstc (wm 1 2 3 .i32), .vstt (wm 1 2 3 .q8), .fence (wm 0 0 0 .i8),
    .cflush { wm 0 1 0 .i8 with ord := .sc }, .cinvData (wm 1 2 0 .i8), .cinvTranslationAll (wm 3 1 0 .i8), .czero { wm 0 1 0 .i8 with ord := .ar }]
    : List Instr).all (fun i => WellFormed i == false) = true := by decide +kernel

/-- The vector groups, MTX and AUTUMN. -/
theorem test_illformed_vector : ([Instr.mshape (w3 1 2 0 .i8), .mldb (w3 4 1 2 .q8), .mma (w3 8 1 0 .q8), .mdrain (w3 1 2 0 .d),
    .mclrAcc { w3 1 0 0 .i8 with imm := 1 }, .mclrB (w3 1 0 0 .i8), .mstat { w3 1 0 0 .i8 with imm := 4 },
    .mstat { w3 1 0 0 .i8 with imm := 0x2000 }, .acprobe { w3 1 2 3 .f with imm := 1 }, .acprobeSpec { w3 1 2 3 .f with q := 1 },
    .acstore (w3 1 2 3 .i8), .acdrop { w3 0 2 0 .i8 with imm := 1 }, .acdropAll (w3 0 0 0 .i8), .vadd (w3 1 2 3 .f),
    .vadd { w3 1 2 3 .i8 with imm := 1 }, .vmulh { w3 1 2 3 .i8 with q := 1 }, .vabs (w3 1 2 3 .i8), .vsel { w3 1 2 3 .i8 with c := 8 },
    .vmulw (w3 1 1 3 .i8), .vmulw { w3 2 4 6 .i64 with imm := 0 }, .vfadd (w3 1 2 3 .i8), .vfsqrt (w3 1 2 3 .f), .vfmin { w3 1 2 3 .f with q := 1 },
    .vcvt { w3 1 2 0 .f with imm := 10 }, .vcvt { w3 1 1 0 .h with imm := 10 }, .vcmp { w3 1 2 3 .i8 with imm := 6 }, .vfcmp (w3 8 2 3 .f),
    .vrsum { w3 1 2 0 .i8 with imm := 1 }, .vrmax { w3 1 2 0 .i8 with q := 1 }, .vscanSum (w3 2 2 0 .i8), .vscanMax (w3 1 2 0 .i8),
    .vcompress (w3 2 2 0 .i8), .vperm (w3 3 2 3 .i8), .vslideup { w3 1 2 3 .i8 with imm := 4 }, .vbcastScalar (w3 1 0 3 .i8),
    .vbcastElementIndexed (w3 1 2 3 .i8), .vbcastElement { w3 1 2 0 .i8 with imm := 0x2000 }, .vextr (w3 1 2 3 .i8), .vins (w3 33 2 0 .i8),
    .viota (w3 1 0 0 .f), .vencAuto (w3 1 2 0 .q8), .vencDelta { w3 1 2 0 .f with imm := 3 }, .vexpand (w3 1 2 3 .i8), .vinfo (w3 1 2 0 .f),
    .kand (w3 1 2 8 .i8), .knot (w3 1 2 1 .i8), .kpopc (w3 1 8 0 .i8), .setvl { w3 1 2 0 .i8 with imm := 0xF }] : List Instr).all
    (fun i => WellFormed i == false) = true := by decide +kernel

/-- The engines, the halves and the units that events name. -/
theorem test_illformed_system : ([Instr.cpset { w3 0 1 0 .i8 with imm := 12 }, .cpstart (w3 1 2 0 .i8), .cpwait { w3 1 2 0 .i8 with imm := 1 },
    .cpstat { w3 1 0 0 .i8 with imm := 12 }, .cbinit { w3 0 1 0 .i8 with imm := 16 }, .cbwait (w3 1 2 0 .n8), .cbrel (w3 1 2 0 .i8),
    .barinit { w3 0 1 2 .i8 with imm := 0x0810 }, .barrive (w3 1 0 0 .i8), .barwait { w3 1 2 0 .i8 with imm := 0x1040 },
    .phend { w3 1 0 0 .i8 with imm := 0x3007 }, .jlaunch { w3 1 2 0 .i8 with imm := 1 }, .jwait (w3 1 2 3 .i8), .vsave (w3 1 2 0 .i8),
    .crest { w3 0 2 0 .i8 with k := 1 },
    .pairedWord { op := .brz, d := 0, s := 1, x := 0, low := 1 } { op := .nop, d := 0, s := 0, x := 0, low := 0 },
    .pairedWord { op := .nop, d := 0, s := 0, x := 0, low := 0 } { op := .ld, d := 1, s := 1, x := 0, low := 1 },
    .pairedWord { op := .add, d := 1, s := 1, x := 0, low := 1 } { op := .nop, d := 0, s := 0, x := 0, low := 0 },
    .pairedWord { op := .vadd, d := 16, s := 1, x := 0, low := 0x100 } { op := .nop, d := 0, s := 0, x := 0, low := 0 },
    .asyncTrapTaken { core := 1024, thread := 0 }, .probeResolve { core := 0, thread := 4 } 0, .copyModeCopy 256 0, .copyModeFill 0 4,
    .grant 1 [1024], .preempt 1024 0, .resume { job := 1, lcore := 0 } 1024, .replyArrival { job := 1, lcore := 0 } 4 1, .migrationEpoch 4,
    .migrationLineDone 0 1024, .ptAdvance 1024, .accessFromOtherPackage 8192 0 (.read 8), .droopAlarm 256 1, .opPointChange 0 8,
    .alcChange 0 5, .podPhaseMessage 0 512] : List Instr).all (fun i => WellFormed i == false) = true := by decide +kernel

-- Small cases --------------------------------------------------------------------------------------------------------------

/-- D of an instruction on the demo state, with its flags. -/
def gotS (i : Instr) (s : State) (d : BitVec 6) (x : Word) (fl : Flags) : Bool :=
  gives (exec i s) (fun t => t.getS d == x && t.regs.fflg == fl && t.pc == s.pc + 8)

/-- Table 17.3, row by row. -/
theorem test_division_table :
    (gotS (.div (w3 5 1 2 .i32)) (demo 7 0 0 0) 5 0xFFFFFFFFFFFFFFFF 0 && gotS (.divn (w3 5 1 2 .n32)) (demo 7 0 0 0) 5 0xFFFFFFFF 0
    && gotS (.rem (w3 5 1 2 .i32)) (demo 7 0 0 0) 5 7 0 && gotS (.div (w3 5 1 2 .i32)) (demo (-7) 2 0 0) 5 (-3) 0
    && gotS (.rem (w3 5 1 2 .i32)) (demo (-7) 2 0 0) 5 (-1) 0
    && gotS (.div (w3 5 1 2 .i32)) (demo 0x80000000 (-1) 0 0) 5 0xFFFFFFFF80000000 0
    && gotS (.div { w3 5 1 2 .i32 with q := 1 }) (demo 0x80000000 (-1) 0 0) 5 0x7FFFFFFF (flSAT ||| flNX)
    && gotS (.rem (w3 5 1 2 .i32)) (demo 0x80000000 (-1) 0 0) 5 0 0) = true := by decide +kernel
/-- R208: `.i8` wraps and sign-extends; `.n8` zero-extends. -/
theorem test_add_wraps : (gotS (.add (w3 5 1 2 .i8)) (demo 127 1 0 0) 5 (-128) 0 && gotS (.add (w3 5 1 2 .n8)) (demo 255 1 0 0) 5 0 0) = true := by
  decide +kernel
/-- R69: 127 + 1 saturates. -/
theorem test_add_saturates : gotS (.add { w3 5 1 2 .i8 with q := 1 }) (demo 127 1 0 0) 5 127 (flSAT ||| flNX) = true := by decide +kernel
/-- Table 13.10: a write of `s0` is discarded. -/
theorem test_s0 : gotS (.add (w3 0 1 2 .i64)) (demo 1 2 0 0) 0 0 0 = true := by decide +kernel
theorem test_sub_borrow : gotS (.sub (w3 5 1 2 .n16)) (demo 0 1 0 0) 5 0xFFFF 0 = true := by decide +kernel
theorem test_mulh : (gotS (.mulh (w3 5 1 2 .i16)) (demo (-1) 1 0 0) 5 (-1) 0 && gotS (.mulhn (w3 5 1 2 .n16)) (demo 0xFFFF 0xFFFF 0 0) 5 0xFFFE 0)
    = true := by decide +kernel
/-- Table 17.2: a shift by w is a shift by 0; the arithmetic shift keeps the sign. -/
theorem test_shift_amount : (gotS (.shl (w3 5 1 2 .i8)) (demo 1 8 0 0) 5 1 0 && gotS (.sra (w3 5 1 2 .i8)) (demo 0x80 7 0 0) 5 (-1) 0
    && gotS (.rot (w3 5 1 2 .n8)) (demo 0x81 1 0 0) 5 3 0) = true := by decide +kernel
theorem test_counts : (gotS (.clz (w3 5 1 0 .n16)) (demo 1 0 0 0) 5 15 0 && gotS (.ctz (w3 5 1 0 .n16)) (demo 0 0 0 0) 5 16 0
    && gotS (.popc (w3 5 1 0 .i8)) (demo 0x1FF 0 0 0) 5 8 0 && gotS (.bswap (w3 5 1 0 .n32)) (demo 0x11223344 0 0 0) 5 0x44332211 0) = true := by
  decide +kernel
/-- R210: the worked `bext.i64 s9, s10, 12, 8`, signed, and a `bins` of 4 bits at 60. -/
theorem test_bit_fields : (gotS (.bext { w3 5 1 0 .i64 with imm := 0x20C }) (demo 0x80000 0 0 0) 5 (-128) 0
    && gotS (.bins { w3 1 2 0 .n64 with imm := 60 + 64 * 4 }) (demo 5 0xFF 0 0) 1 0xF000000000000005 0) = true := by decide +kernel
/-- R213: `li` then `lih`; R214: `s6` + 8·`s7` − 8. -/
theorem test_constants : (gotS (.li { d := 5, a := 0, imm := 0x80000000 }) (demo 0 0 0 0) 5 0xFFFFFFFF80000000 0
    && gotS (.lih { d := 1, a := 0, imm := 1 }) (demo 0xFFFFFFFF80000000 0 0 0) 1 0x180000000 0
    && gotS (.lea { w3 5 1 2 .i8 with imm := 0x3FF8 }) (demo 0x100 3 0 0) 5 0x110 0) = true := by decide +kernel
/-- Table 17.4: `slti` is signed, `sltni` is not. -/
theorem test_compare_immediate : (gotS (.slti { d := 5, a := 1, imm := 0xFFFFFFFF }) (demo 0 0 0 0) 5 0 0
    && gotS (.sltni { d := 5, a := 1, imm := 0xFFFFFFFF }) (demo 0 0 0 0) 5 1 0) = true := by decide +kernel
/-- R217: `fcvt.f.d` of 10^300 gives 0x7F7F_FFFF with FFLG.SAT and FFLG.NX. -/
theorem test_fcvt_overflow : gotS (.fcvt { w3 5 1 0 .f with imm := 11 }) (demo 0x7E37E43C8800759C 0 0 0) 5 0x7F7FFFFF (flSAT ||| flNX) = true := by
  decide +kernel
/-- R71, R77: 1 + 2 = 3 in `.f`; −0 orders below +0; R216: −0 equals +0. -/
theorem test_float : (gotS (.fadd (w3 5 1 2 .f)) (demo 0x3F800000 0x40000000 0 0) 5 0x40400000 0
    && gotS (.fmin (w3 5 1 2 .h)) (demo 0 0x8000 0 0) 5 0x8000 0 && gotS (.fcmp (w3 5 1 2 .h)) (demo 0 0x8000 0 0) 5 1 0
    && gotS (.fdiv (w3 5 1 2 .f)) (demo 0x3F800000 0 0 0) 5 0x7F800000 flDZ && gotS (.fsqrt (w3 5 1 0 .d)) (demo 0x4010000000000000 0 0 0) 5
      0x4000000000000000 0) = true := by decide +kernel
/-- R218: `br.ne s5, s0, -1` of chapter 17 goes back one word; not taken it goes on. -/
theorem test_branch : (gives (exec (.brNe { a := 1, b := 0, off := 0xFFFFFFFFFF }) (demo 1 0 0 0)) (fun t => t.pc == 0xFF8)
    && gives (exec (.brNe { a := 1, b := 0, off := 0xFFFFFFFFFF }) (demo 0 0 0 0)) (fun t => t.pc == 0x1008)) = true := by decide +kernel
/-- R220: `jr s63, s63` reads its target before it writes the link. -/
theorem test_jr_link : gives (exec (.jr (w3 1 1 0 .i8)) (demo 0x2000 0 0 0)) (fun t => t.pc == 0x2000 && t.getS 1 == 0x1008) = true := by
  decide +kernel
/-- R221, R361: `trap 5` enters at TVEC.BASE × 64 with TPC past it. -/
theorem test_trap : gives (exec (.trap { w3 0 0 0 .i8 with imm := 5 }) (demo 0 0 0 0)) (fun t => t.regs.tcause == 12 && t.regs.tval == 5
    && t.regs.tpc == 0x1008 && t.pc == 0x4000 && t.regs.te == false && t.regs.priv) = true := by decide +kernel
/-- R172: `rds` of VLMAX after reset is 512; `wrs` of ENCP keeps its five bits. -/
theorem test_state_registers : (gotS (.rds { w3 5 0 0 .i8 with imm := 1 }) (demo 0 0 0 0) 5 512 0
    && gives (exec (.wrs { w3 0 1 0 .i8 with imm := 4 }) (demo 0xFFF3 0 0 0)) (fun t => t.readReg 4 == 0x13)) = true := by decide +kernel
/-- R262: 600 elements of `.f` at VLMAX 512 become 512, of `.h` 600. -/
theorem test_setvl : (gives (exec (.setvl { w3 5 1 0 .i8 with imm := 10 }) (demo 600 0 0 0)) (fun t => t.vl == 512 && t.getS 5 == 512)
    && gives (exec (.setvl { w3 5 1 0 .i8 with imm := 8 }) (demo 600 0 0 0)) (fun t => t.vl == 600)) = true := by decide +kernel
/-- R232: a store then a load of the same half word, little-endian, sign-extended. -/
theorem test_store_load : gives (exec (.st { wm 0 1 2 .i16 with off := 1 }) (demo 0x40 0x1234FFFE 0 0)) (fun t =>
    gives (exec (.ld (wm 5 1 0 .i8)) { t with cur := t.cur }) (fun u => u.getS 5 == 0)
    && gives (exec (.ld { wm 5 1 0 .i16 with off := 1 }) t) (fun u => u.getS 5 == 0xFFFFFFFFFFFFFFFE)
    && gives (exec (.ld { wm 5 1 0 .n8 with off := 3 }) t) (fun u => u.getS 5 == 0xFF)) = true := by decide +kernel
/-- Table 9.5: a misaligned load raises trap 4, an address beyond the page trap 5 or 6, with TVAL the address. -/
theorem test_load_faults : (gives (exec (.ld (wm 5 1 0 .i64)) (demo 0x41 0 0 0)) (fun t => t.regs.tcause == 4 && t.regs.tval == 0x41)
    && gives (exec (.ld (wm 5 1 0 .i64)) (demo 0x100000000000000 0 0 0)) (fun t => t.regs.tcause == 5 && t.getS 5 == 0)) = true := by
  decide +kernel
/-- R235: `ldl` then `stc` succeeds once. -/
theorem test_reservation : gives (exec (.ldl (wm 5 1 0 .i64)) (demo 0x40 9 0 0)) (fun t =>
    gives (exec (.stc (wm 6 1 2 .i64)) t) (fun u => u.getS 6 == 0 && gives (exec (.stc (wm 6 1 2 .i64)) u) (fun v => v.getS 6 == 1))) = true := by
  decide +kernel
/-- R82: masked-off elements are zero; `.i8` wraps. -/
theorem test_vadd : gives (exec (.vadd { w3 3 1 2 .i8 with k := 1 }) (lanes (demo 0 0 0 0) .i8 [1, 200, 3] [2, 100, 4] 0b011 3)) (fun t =>
    t.velems .i8 3 3 == [3, 44, 0] && t.vstart == 0 && t.pc == 0x1008) = true := by decide +kernel
/-- R69: the saturated element is marked in `k7` (SATK after reset of the thread). -/
theorem test_vadd_sat : gives (exec (.vadd { w3 3 1 2 .i8 with q := 1 }) (lanes (demo 0 0 0 0) .i8 [1, 100] [2, 100] 0 2)) (fun t =>
    t.velems .i8 3 2 == [3, 127] && t.kreg 7 == 2 && t.regs.fflg == flSAT ||| flNX) = true := by decide +kernel
/-- R272: bits beyond VL are 0. -/
theorem test_vcmp : gives (exec (.vcmp { w3 3 1 2 .i32 with imm := 2 }) (lanes (demo 0 0 0 0) .i32 [1, 5, 0xFFFFFFFF] [2, 5, 0] 0 3)) (fun t =>
    t.kreg 3 == 0b101) = true := by decide +kernel
/-- R274: the sum goes to element 0. -/
theorem test_vrsum : gives (exec (.vrsum (w3 3 1 0 .i16)) (lanes (demo 0 0 0 0) .i16 [1, 2, 0xFFFF] [] 0 3)) (fun t =>
    t.velems .i16 3 3 == [2, 0, 0]) = true := by decide +kernel
/-- R277: `vcompress` closes the active elements up; R283: `kpopc` counts below VL. -/
theorem test_vcompress : (gives (exec (.vcompress { w3 3 1 0 .i32 with k := 1 }) (lanes (demo 0 0 0 0) .i32 [7, 8, 9] [] 0b101 3)) (fun t =>
    t.velems .i32 3 3 == [7, 9, 0]) && gotS (.kpopc (w3 5 1 0 .i8)) (lanes (demo 0 0 0 0) .i32 [] [] 0b1101 3) 5 2 0) = true := by decide +kernel
/-- R238: two elements of `.i32`, little-endian, through window 0; R239 stores them back. -/
theorem test_vst_vld : gives (exec (.vst (wm 1 1 0 .i32)) (lanes (demo 0x40 0 0 0) .i32 [0x11223344, 5] [] 0 2)) (fun t =>
    t.msys.mem.read 0x10000040 == 0x44 && t.msys.mem.read 0x10000044 == 5
    && gives (exec (.vld (wm 3 1 0 .i32)) t) (fun u => u.velems .i32 3 2 == [0x11223344, 5])) = true := by decide +kernel
/-- A number is the natural number n. -/
def isNat (x : FVal) (n : Nat) : Bool :=
  match x with | .fin false m e => (if 0 ≤ e then m * 2 ^ e.toNat == n else m == n * 2 ^ (-e).toNat) | _ => false
/-- R62: the worked code 0x4C at (2, 5) of an E4M3 tile with E = 130, r[2] = 1 and c[5] = 3 decodes to 3. -/
theorem test_tile_code : (let h : List Byte := [0x15, 0x82, 0x10, 0, 0, 0, 0, 0x0C, 0, 0, 0, 0, 0, 0, 0, 0]
    isNat (tileVal .q8 0x4C (tileScale .q8 h 2 5)) 3) = true := by decide +kernel
/-- R168: the worked pair of Table 13.10 adds, then branches back two words on a non-zero `s40`. -/
theorem test_pair : gives (exec (.pairedWord { op := .add, d := 3, s := 1, x := 0, low := 0x0500 }
    { op := .brnz, d := 0, s := 8, x := 0, low := 0x3FFE }) ((demo 5 6 0 0).setS 40 1)) (fun t => t.getS 3 == 11 && t.pc == 0xFF0) = true := by
  decide +kernel
/-- R327: the first launch on channel 0 has id 4; R333: one arrival of two leaves the phase. -/
theorem test_engine : (gives (exec (.cpstart (w3 5 0 0 .i8)) ((demo 0 0 0 0).setRegs { (demo 0 0 0 0).regs with
    shadow := vset (vset (Vector.replicate 12 0) 2 8) 5 1 })) (fun t => t.getS 5 == 4)) = true := by decide +kernel
/-- R339: an unknown handle answers all ones, a refusal value itself. -/
theorem test_jwait : (gotS (.jwait (w3 5 1 0 .i8)) (demo 99 0 0 0) 5 (BitVec.allOnes 64) 0
    && gotS (.jwait (w3 5 1 0 .i8)) (demo 0x8000000000000003 0 0 0) 5 0x8000000000000003 0) = true := by decide +kernel
/-- R340, R342: `csave` writes format 1 and the scalar registers; `crest` takes them back. -/
theorem test_csave : gives (exec (.csave (w3 0 1 0 .i8)) (demo 0x400 77 0 0)) (fun t => gives (exec (.crest (w3 0 1 0 .i8))
    ((t.setS 2 0).setS 1 0x400)) (fun u => u.getS 2 == 77)) = true := by decide +kernel
/-- R396: the worked power cap message is answered with STATUS 0 and VALUE 7. -/
theorem test_power_cap : gives (State.receive State.reset 0 1 1 ([6, 0, 0, 0, 16, 0, 0, 0, 0x21, 0, 0, 0, 0, 0, 0, 0,
    7, 0, 0, 0, 0, 0, 0, 0, 0xD0, 7, 0, 0, 0, 0, 0, 0])) (fun t => (t.replies.map (fun r => r.bytes)) ==
      [[0x21, 0, 0, 0, 0, 0, 0, 0, 0, 0, 0, 0, 0, 0, 0, 0, 7, 0, 0, 0, 0, 0, 0, 0]]) = true := by decide +kernel
/-- A quad whose next edge lies 130 or more 78ths of a nanosecond after TIME 0 stands still there. -/
theorem quadNow_still {s : State} {q : Nat} (hw : s.winter = false) (ht : s.time = 0) (he : 130 ≤ (s.quad q).edgeAt + (s.quad q).cycle) :
    s.quadNow q = s.quad q := by
  have h : s.ticks q < (s.quad q).edgeAt + (s.quad q).cycle := by simp only [State.ticks, ht, clockPhase]; omega
  simp only [State.quadNow, hw, Bool.false_eq_true, if_false, Quad.at]
  cases (s.quad q).horizon <;> rw [Quad.run, if_pos h]
theorem quadNow_loaded : loaded.quadNow 0 = loaded.quad 0 := quadNow_still (by decide +kernel) (by decide +kernel) (by decide +kernel)
/-- R377: a sag at the threshold counts and stretches. -/
theorem test_droop : gives (execDroopAlarm 0 40 loaded) (fun t => (t.quad 0).drCnt == 1 && (t.quad 0).alarm && (t.quad 0).drEv) = true := by
  simp only [execDroopAlarm, quadNow_loaded]
  decide +kernel

-- States and operands that meet the hypotheses of the statements -----------------------------------------------------------

theorem witness_WrappingArithmeticWritesLowBits : ∃ (f : W3) (s : State), s.placed ∧ f.ty.isInt = true ∧ f.q.getLsbD 0 = false :=
  ⟨w3 5 1 2 .n64, demo 1 2 0 0, placed_of (by decide +kernel), by decide, by decide⟩
theorem witness_SaturatingArithmeticClamps : ∃ (f : W3) (s : State), s.placed ∧ f.ty.isInt = true ∧ f.q.getLsbD 0 = true ∧
    f.ty.signed = true ∧ valBV f.ty (s.getS f.b) ≠ 0 :=
  ⟨{ w3 5 1 2 .i8 with q := 1 }, demo 0x80 0xFF 0 0, placed_of (by decide +kernel), by decide, by decide, by decide, by decide +kernel⟩
theorem witness_DivisionNeverTraps : (∃ (f : W3) (s : State), s.placed ∧ f.ty.signed = true ∧ f.q.getLsbD 0 = true ∧
      lowBV f.ty (s.getS f.b) = 0) ∧
    (∃ (f : W3) (s : State), s.placed ∧ f.ty.signed = true ∧ f.q.getLsbD 0 = true ∧
      lowBV f.ty (s.getS f.a) = BitVec.intMin f.ty.width ∧ lowBV f.ty (s.getS f.b) = BitVec.allOnes f.ty.width) ∧
    (∃ (f : W3) (s : State), s.placed ∧ f.ty.signed = true ∧ f.q.getLsbD 0 = true ∧ lowBV f.ty (s.getS f.b) ≠ 0 ∧
      ¬ (lowBV f.ty (s.getS f.a) = BitVec.intMin f.ty.width ∧ lowBV f.ty (s.getS f.b) = BitVec.allOnes f.ty.width)) ∧
    (∃ (f : W3) (s : State), s.placed ∧ f.q = 0 ∧ f.ty.signed = true ∧ lowBV f.ty (s.getS f.b) = 0) ∧
    (∃ (f : W3) (s : State), s.placed ∧ f.q = 0 ∧ f.ty.unsigned = true ∧ lowBV f.ty (s.getS f.b) ≠ 0) :=
  ⟨⟨{ w3 5 1 2 .i8 with q := 1 }, demo 7 0 0 0, placed_of (by decide +kernel), by decide, by decide, by decide +kernel⟩,
    ⟨{ w3 5 1 2 .i8 with q := 1 }, demo 0x80 0xFF 0 0, placed_of (by decide +kernel), by decide, by decide, by decide +kernel, by decide +kernel⟩,
    ⟨{ w3 5 1 2 .i8 with q := 1 }, demo 0x81 0xFF 0 0, placed_of (by decide +kernel), by decide, by decide, by decide +kernel, by decide +kernel⟩,
    ⟨w3 5 1 2 .i64, demo 7 0 0 0, placed_of (by decide +kernel), rfl, by decide, by decide +kernel⟩,
    ⟨w3 5 1 2 .n16, demo 7 1 0 0, placed_of (by decide +kernel), rfl, by decide, by decide +kernel⟩⟩
theorem witness_BitwiseAndShiftMembers : ∃ (f g : W3) (s : State), s.placed ∧ f.ty.isInt = true ∧ f.q = 0 ∧ f.ty.unsigned = true ∧
    g.ty.isInt = true ∧ g.q = 0 ∧ g.ty.signed = true :=
  ⟨w3 5 1 2 .n8, w3 5 1 2 .i64, demo 1 8 0 0, placed_of (by decide +kernel), by decide, rfl, by decide, by decide, rfl, by decide⟩
theorem witness_HighHalfCompareAndSelect : ∃ (f g : W3) (s : State), s.placed ∧ f.q = 0 ∧ f.ty.signed = true ∧ g.q = 0 ∧
    g.ty.unsigned = true ∧ f.ty.isInt = true :=
  ⟨w3 5 1 2 .i8, w3 5 1 2 .n64, demo 1 8 0 0, placed_of (by decide +kernel), rfl, by decide, rfl, by decide, by decide⟩
theorem witness_CountsReversalAndBitFields : ∃ (f : W3) (s : State), s.placed ∧ f.ty.isInt = true ∧ f.q = 0 ∧
    WellFormed (.bext f) = true ∧ WellFormed (.bins f) = true ∧ f.immBits 5 0 + f.immBits 12 6 = 64 :=
  ⟨{ w3 5 1 0 .i64 with imm := 60 + 64 * 4 }, demo 1 8 0 0, placed_of (by decide +kernel), by decide, rfl, by decide, by decide, by decide⟩
theorem witness_ImmediateMembersComputeAt64Bits : ∃ s : State, s.placed := ⟨demo 0 0 0 0, placed_of (by decide +kernel)⟩
theorem witness_ScalarWriteFrame : ∃ s : State, s.placed := ⟨demo 0 0 0 0, placed_of (by decide +kernel)⟩
theorem witness_FloatMembersRoundOnce : ∃ (f g : W3) (s : State), s.placed ∧ f.ty.isFloat = true ∧ g.ty.isVFloat = true :=
  ⟨w3 5 1 2 .d, w3 5 1 2 .h, demo 0 0 0 0, placed_of (by decide +kernel), by decide, by decide⟩
theorem witness_NanOperandGivesDefaultNan : ∃ (f : W3) (s : State), s.placed ∧ f.ty.isFloat = true ∧ s.regs.frmFz = false ∧
    isNaN f.ty (lowBV f.ty (s.getS f.a)) = true ∧ isNaN f.ty (lowBV f.ty (s.getS f.d)) = true :=
  ⟨w3 3 1 2 .f, demo 0x7F800001 0 0x7FC00000 0, placed_of (by decide +kernel), by decide, by decide +kernel, by decide +kernel, by decide +kernel⟩
theorem witness_FloatOrderSignAndClass : ∃ (f : W3) (s : State), s.placed ∧ f.ty.isFloat = true ∧ s.regs.frmFz = false :=
  ⟨w3 3 1 2 .h, demo 0x8000 0 0 0, placed_of (by decide +kernel), by decide, by decide +kernel⟩
theorem witness_ConversionsClamp : ∃ (f g : W3) (s : State), s.placed ∧ Ty.ofCode (f.immBits 3 0) = some .i32 ∧ f.ty.isInt = true ∧
    f.ty.isNumber = true ∧ Ty.ofCode (g.immBits 3 0) = some .f ∧ g.ty.isInt = true ∧ isNaN .f (lowBV .f (s.getS g.a)) = true :=
  ⟨{ w3 3 1 0 .i8 with imm := 4 }, { w3 3 1 0 .n64 with imm := 10 }, demo 0x7F800001 0 0 0, placed_of (by decide +kernel), by decide, by decide,
    by decide, by decide, by decide, by decide +kernel⟩
theorem witness_BranchesGoWhereTheySay : ∃ s : State, s.placed := ⟨demo 0 0 0 0, placed_of (by decide +kernel)⟩
theorem witness_JumpRegisterChecksItsTarget : ∃ (f g : W3) (s : State), s.placed ∧ s.Calm ∧ WellFormed (.jr f) = true ∧
    (s.getS f.a + f.imm.signExtend 64).toNat % 8 = 0 ∧ (s.getS g.a + g.imm.signExtend 64).toNat % 8 ≠ 0 :=
  ⟨w3 5 1 0 .i8, { w3 5 1 0 .i8 with imm := 0x3FFF }, demo 8 0 0 0, placed_of (by decide +kernel), calm_of (by decide +kernel), by decide,
    by decide +kernel, by decide +kernel⟩
/-- A reservation that the thread holds. -/
def held8 (s : State) (va pa : Nat) : State :=
  s.setSide { s.side with resv := some { va := BitVec.ofNat 64 va, pa := pa, size := 8, writes := (s.msys.line (pa / 64)).writes, lost := false } }
def resv8 : Reservation :=
  { va := 0x40, pa := 0x200040, size := 8, writes := ((demo 0 0 0 0).msys.line (0x200040 / 64)).writes, lost := false }
theorem witness_TrapEntrySavesAndVectors : ∃ (s : State) (r : Reservation), s.placed ∧ s.open_ ∧ s.side.resv = some r :=
  ⟨held8 (demo 0 0 0 0) 0x40 0x200040, resv8, placed_of (by decide +kernel), (by decide +kernel : ((held8 (demo 0 0 0 0) 0x40 0x200040).regs.priv &&
    !(held8 (demo 0 0 0 0) 0x40 0x200040).regs.te) = false), by decide +kernel⟩
/-- The demo state with TE = 0. -/
def shut : State := (demo 0 0 0 0).setRegs { (demo 0 0 0 0).regs with te := false }
theorem witness_DoubleTrapEndsTheJob : ∃ (s : State) (o : Owner) (j : Job), s.placed ∧ s.regs.priv = true ∧ s.regs.te = false ∧
    s.thr.owner = some o ∧ s.job o.job = some j :=
  ⟨shut, { job := 1, lcore := 0, tid := 0 }, (shut.job 1).getD (loaderJob 1), placed_of (by decide +kernel), by decide +kernel, by decide +kernel,
    by decide +kernel, by decide +kernel⟩
theorem demo_open : (demo 0 0 0 0).open_ := (by decide +kernel : ((demo 0 0 0 0).regs.priv && !(demo 0 0 0 0).regs.te) = false)
theorem witness_TrapInstructionRaisesItsCode : ∃ (f g : W3) (s : State), s.Calm ∧ s.open_ ∧ f.imm.toNat = 16382 ∧ g.imm.toNat = 16383 :=
  ⟨{ w3 0 0 0 .i8 with imm := 16382 }, { w3 0 0 0 .i8 with imm := 16383 }, demo 0 0 0 0, calm_of (by decide +kernel), demo_open, by decide, by decide⟩
/-- The demo state at user privilege, and with a TPC. -/
def user : State := (demo 0 0 0 0).setRegs { (demo 0 0 0 0).regs with priv := false }
def withTpc (x : Word) : State := (demo 0 0 0 0).setRegs { (demo 0 0 0 0).regs with tpc := x }
theorem witness_EretRestores : ∃ s t u : State, s.Calm ∧ s.regs.priv = false ∧ t.Calm ∧ t.regs.priv = true ∧ t.regs.tpc.toNat % 8 ≠ 0 ∧
    u.Calm ∧ u.regs.priv = true ∧ u.regs.tpc.toNat % 8 = 0 :=
  ⟨user, withTpc 0x2007, withTpc 0x2008, calm_of (by decide +kernel), by decide +kernel, calm_of (by decide +kernel), by decide +kernel,
    by decide +kernel, calm_of (by decide +kernel), by decide +kernel, by decide +kernel⟩
theorem witness_ReservedWordsAndFailedFetchesTrap : ∃ (s : State) (c : Nat), s.Calm ∧ s.fetchWord s.pc = .error c :=
  ⟨(demo 0 0 0 0).setPc 0x200000, (ex_error (x := ((demo 0 0 0 0).setPc 0x200000).fetchWord ((demo 0 0 0 0).setPc 0x200000).pc)
    (by decide +kernel)).choose, calm_of (by decide +kernel), (ex_error (by decide +kernel)).choose_spec⟩
theorem witness_HintsAndFencesOnlyAdvance : ∃ s : State, s.placed ∧ s.Calm := ⟨demo 0 0 0 0, placed_of (by decide +kernel), calm_of (by decide +kernel)⟩
/-- A thread waiting at a `waiti`, and one whose copy is not complete. -/
def waiting : State := (demo 0 0 0 0).setThr { (demo 0 0 0 0).thr with waiting := some (5, 0) }
def lostOne : State :=
  let r : Reservation := { va := 0x40, pa := 0x200040, size := 8, writes := 0, lost := true }
  (demo 1000 0 0 0).setSide { (demo 0 0 0 0).side with resv := some r }
theorem witness_WaitAndYield :
    (∃ (f : W3) (s : State), s.placed ∧ (s.getS f.a).toNat = s.time) ∧
    (∃ (f : W3) (s : State), s.placed ∧ s.time < (s.getS f.a).toNat ∧ (match s.side.resv with | some r => !s.holds r | none => false) = true) ∧
    (∃ (f : W3) (s : State), s.placed ∧ s.time < (s.getS f.a).toNat ∧ (match s.side.resv with | some r => !s.holds r | none => false) = false) ∧
    (∃ (s : State) (d : BitVec 6) (deadline : Word), s.placed ∧ s.thr.waiting = some (d, deadline) ∧ s.thr.ended = false ∧
      deadline.toNat ≤ s.time) ∧
    (∃ (s : State) (o : Owner) (j : Job), s.Calm ∧ s.thr.owner = some o ∧ s.job o.job = some j ∧ s.transferring = false ∧ j.ended1 = false ∧
      j.card.eqx = false ∧ j.next < j.strips) :=
  ⟨⟨w3 5 1 0 .i8, demo 0 0 0 0, placed_of (by decide +kernel), by decide +kernel⟩,
    ⟨w3 5 1 0 .i8, lostOne, placed_of (by decide +kernel), by decide +kernel, by decide +kernel⟩,
    ⟨w3 5 1 0 .i8, demo 1 0 0 0, placed_of (by decide +kernel), by decide +kernel, by decide +kernel⟩,
    ⟨waiting, 5, 0, placed_of (by decide +kernel), by decide +kernel, by decide +kernel, by decide +kernel⟩,
    ⟨(demo 0 0 0 0).setJob { loaderJob 1 with strips := 2, next := 1 }, { job := 1, lcore := 0, tid := 0 }, { loaderJob 1 with strips := 2, next := 1 },
      calm_of (by decide +kernel), by decide +kernel, by decide +kernel, by decide +kernel, by decide, by decide, by decide⟩⟩
theorem witness_RdsReadsEveryRegister : ∃ (f g : W3) (s : State), s.placed ∧ (userBarred f.stateReg && !s.regs.priv) = false ∧ s.Calm ∧
    userBarred g.stateReg = true ∧ s.regs.priv = false ∧ s.cur.core < 1024 ∧ s.cur.thread < 4 :=
  ⟨{ w3 5 0 0 .i8 with imm := 1 }, { w3 5 0 0 .i8 with imm := 0x20 }, user, placed_of (by decide +kernel), by decide +kernel, calm_of (by decide +kernel),
    by decide, by decide +kernel, by decide +kernel, by decide +kernel⟩
theorem witness_WriteThenReadKeepsTheFields : ∃ (f g : W3) (s : State), s.Calm ∧ s.regs.priv = true ∧ g.stateReg = f.stateReg ∧ f.stateReg = 0x057 :=
  ⟨{ w3 0 1 0 .i8 with imm := 0x57 }, { w3 5 0 0 .i8 with imm := 0x57 }, demo 1 0 0 0, calm_of (by decide +kernel), by decide +kernel, by decide,
    by decide⟩
theorem witness_ReadOnlyAndOwnWriteRegisters : ∃ s t : State, s.Calm ∧ s.regs.priv = true ∧ t.Calm ∧ t.regs.priv = false ∧
    ({ w3 0 1 0 .i8 with imm := 0x43 } : W3).stateReg = 0x43 ∧ userBarred 0x20 = true :=
  ⟨demo 0 0 0 0, user, calm_of (by decide +kernel), by decide +kernel, calm_of (by decide +kernel), by decide +kernel, by decide, by decide⟩
theorem witness_TimestampAndSetVectorLength : ∃ (f g : W3) (s t : State), s.placed ∧ s.Calm ∧ Ty.ofCode (f.immBits 3 0) = some .f ∧
    vlRequest f = none ∧ WellFormed (.setvl g) = true ∧ vlRequest g = some 2048 ∧ 2048 ≠ s.vlmax ∧ vrfBanks 2048 + s.myCore.scrb ≤ 23 ∧
    t.Calm ∧ 2048 ≠ t.vlmax ∧ 23 < vrfBanks 2048 + t.myCore.scrb :=
  ⟨{ w3 5 1 0 .i8 with imm := 10 }, { w3 5 1 0 .i8 with imm := 0x3A }, demo 600 0 0 0,
    (demo 600 0 0 0).setMyCore { (demo 600 0 0 0).myCore with scrb := 12 }, placed_of (by decide +kernel), calm_of (by decide +kernel), by decide,
    by decide, by decide, by decide, by decide +kernel, by decide +kernel, calm_of (by decide +kernel), by decide +kernel, by decide +kernel⟩
/-- The demo state whose second thread stands between two elements, and one whose first has 64 loads out to every slice it may use. -/
def insideTwo : State :=
  (demo 600 0 0 0).setThread { core := 0, thread := 1 }
    { Thread.zero with owner := some { job := 1, lcore := 0, tid := 1 }, stopped := some (0x1000, none) }
def askedOf (slice : Nat) : Request :=
  { fid := 1, kind := 0, reg := 5, elem := 0, va := 0x40, ty := .i64, answer := { state := 1, code := 0, value := 0 }, slice := some slice }
def asked (slice : Nat) : State :=
  let s := demo 0x40 0 0 0
  s.setSide { s.side with requests := List.replicate 64 (askedOf slice) }
theorem witness_SetvlWaitsAndRequestsRunOut : insideTwo.Calm ∧ insideTwo.othersInside = true ∧ 2048 ≠ insideTwo.vlmax ∧
    vrfBanks 2048 + insideTwo.myCore.scrb ≤ 23 ∧ (demo 600 0 0 0).othersInside = false ∧
    64 ≤ (asked ((demo 0x40 0 0 0).sourceKey 0 (0x200040 / 64))).unacknowledged ((demo 0x40 0 0 0).sourceKey 0 (0x200040 / 64)) ∧
    (demo 0x40 0 0 0).unacknowledged 0 < 64 :=
  ⟨calm_of (by decide +kernel), by decide +kernel, by decide +kernel, by decide +kernel, by decide +kernel, by decide +kernel, by decide +kernel⟩
theorem demo_canonical (a b c d : Word) (h : (demo a b c d).msys.mem.wf = true) : (demo a b c d).Canonical := h
theorem witness_LoadsReadMemory : (∃ (f : WM) (s : State) (p : Place), s.Calm ∧ f.c = 0 ∧
      s.scalarAccess s.msys s.me .load (s.getS f.a + f.off.signExtend 64 * BitVec.ofNat 64 (f.ty.width / 8)) (f.ty.width / 8) (f.ty.width / 8) false
        = .ok p) ∧
    (∃ (f : WM) (s : State) (c : Nat), s.Calm ∧ f.c = 0 ∧
      s.scalarAccess s.msys s.me .load (s.getS f.a + f.off.signExtend 64 * BitVec.ofNat 64 (f.ty.width / 8)) (f.ty.width / 8) (f.ty.width / 8) false
        = .error c) :=
  ⟨⟨wm 5 1 0 .i64, demo 0x1FFFF8 0 0 0, _, calm_of (by decide +kernel), rfl, (ex_ok (by decide +kernel)).choose_spec⟩,
    ⟨wm 5 1 0 .i64, demo 0x200000 0 0 0, _, calm_of (by decide +kernel), rfl, (ex_error (by decide +kernel)).choose_spec⟩⟩
theorem witness_StoresWriteTheirBytesOnly : (∃ (f : WM) (s : State) (p q : Place), s.Calm ∧ s.Canonical ∧ f.c = 0 ∧ 0 < f.ty.width / 8 ∧
      s.scalarAccess s.msys s.me .store (s.getS f.a + f.off.signExtend 64 * BitVec.ofNat 64 (f.ty.width / 8)) (f.ty.width / 8) (f.ty.width / 8) false
        = .ok p ∧ s.scalarAccess s.msys s.me .store (s.getS f.a + f.off.signExtend 64 * 64) 64 64 true = .ok q) ∧
    (∃ (f : WM) (s : State) (c e : Nat), s.Calm ∧ s.Canonical ∧ f.c = 0 ∧
      s.scalarAccess s.msys s.me .store (s.getS f.a + f.off.signExtend 64 * BitVec.ofNat 64 (f.ty.width / 8)) (f.ty.width / 8) (f.ty.width / 8) false
        = .error c ∧ s.scalarAccess s.msys s.me .store (s.getS f.a + f.off.signExtend 64 * 64) 64 64 true = .error e) :=
  ⟨⟨wm 5 1 2 .i8, demo 0x1FFFC0 0 0 0, _, _, calm_of (by decide +kernel), demo_canonical _ _ _ _ (by decide +kernel), rfl, by decide,
      (ex_ok (by decide +kernel)).choose_spec, (ex_ok (by decide +kernel)).choose_spec⟩,
    ⟨wm 5 1 2 .i8, demo 0x200000 0 0 0, _, _, calm_of (by decide +kernel), demo_canonical _ _ _ _ (by decide +kernel), rfl,
      (ex_error (by decide +kernel)).choose_spec, (ex_error (by decide +kernel)).choose_spec⟩⟩
theorem witness_ConditionalStoreNeedsItsReservation : ∃ (f : WM) (s t : State) (p q : Place), s.Calm ∧ s.Canonical ∧ f.c = 0 ∧
    0 < f.ty.width / 8 ∧
    s.scalarAccess s.msys s.me .store (s.getS f.a + f.off.signExtend 64 * BitVec.ofNat 64 (f.ty.width / 8)) (f.ty.width / 8) (f.ty.width / 8) false
      = .ok p ∧
    (∃ r, s.side.resv = some r ∧ r.va = s.getS f.a + f.off.signExtend 64 * BitVec.ofNat 64 (f.ty.width / 8) ∧ r.size = f.ty.width / 8 ∧
      r.lost = false ∧ (s.msys.line (r.pa / 64)).writes = r.writes) ∧
    t.Calm ∧ t.Canonical ∧ t.side.resv = none ∧
    t.scalarAccess t.msys t.me .store (t.getS f.a + f.off.signExtend 64 * BitVec.ofNat 64 (f.ty.width / 8)) (f.ty.width / 8) (f.ty.width / 8) false
      = .ok q :=
  ⟨wm 5 1 2 .i64, held8 (demo 0x40 0 0 0) 0x40 0x200040, demo 0x40 0 0 0, _, _, calm_of (by decide +kernel),
    (by decide +kernel : (held8 (demo 0x40 0 0 0) 0x40 0x200040).msys.mem.wf = true), rfl, by decide, (ex_ok (by decide +kernel)).choose_spec,
    ⟨{ va := 0x40, pa := 0x200040, size := 8, writes := ((demo 0x40 0 0 0).msys.line (0x200040 / 64)).writes, lost := false },
      by decide +kernel, by decide +kernel, by decide, rfl, by decide +kernel⟩,
    calm_of (by decide +kernel), demo_canonical _ _ _ _ (by decide +kernel), by decide +kernel, (ex_ok (by decide +kernel)).choose_spec⟩
theorem witness_ProgressWordRisesByOne : (∃ (f : WM) (s : State) (p q : Place), s.Calm ∧ s.Canonical ∧ f.c ≠ 0 ∧
      s.scalarAccess s.msys s.me .store (s.getS f.c) 8 8 false = .ok q ∧
      s.scalarAccess s.msys s.me .load (s.getS f.a + f.off.signExtend 64 * BitVec.ofNat 64 (f.ty.width / 8)) (f.ty.width / 8) (f.ty.width / 8) false
        = .ok p) ∧
    (∃ (f : WM) (s : State) (c : Nat), s.Calm ∧ s.Canonical ∧ f.c ≠ 0 ∧ s.scalarAccess s.msys s.me .store (s.getS f.c) 8 8 false = .error c) :=
  ⟨⟨{ wm 5 1 0 .i64 with c := 3 }, demo 0x40 0 0x40 0, _, _, calm_of (by decide +kernel), demo_canonical _ _ _ _ (by decide +kernel), by decide,
      (ex_ok (by decide +kernel)).choose_spec, (ex_ok (by decide +kernel)).choose_spec⟩,
    ⟨{ wm 5 1 0 .i64 with c := 3 }, demo 0x40 0 0x41 0, _, calm_of (by decide +kernel), demo_canonical _ _ _ _ (by decide +kernel), by decide,
      (ex_error (by decide +kernel)).choose_spec⟩⟩

-- The vector statements -----------------------------------------------------------------------------------------------------

/-- Two lanes of `.i32` with base 0x40 in `s1` and a stride of 8 in `s2`, and the same from a VSTART on. -/
def two : State := lanes (demo 0x40 8 0 0) .i32 [1, 2] [1, 2] 3 2
def from1 : State := two.setRegs { two.regs with vstart := 1 }
def beyond : State := two.setRegs { two.regs with vl := 513 }
theorem two_calm : two.Calm := calm_of (by decide +kernel)
theorem two_placed : two.placed := placed_of (by decide +kernel)
theorem two_canonical : two.Canonical := (by decide +kernel : two.msys.mem.wf = true)

theorem witness_ElementwiseMembersComplete : ∃ (f : W3) (s t u : State) (e : ElemSpec), s.placed ∧ elemSpecOf s.regs (.vadd f) = some e ∧
    s.fits e.types (e.k != 0 || (match e.c with | .mask _ => true | _ => false)) = true ∧ s.vstart < s.vl ∧ s.stopAt = none ∧
    t.placed ∧ t.fits [f.ty] false = true ∧ t.vl ≤ t.vstart ∧ u.Calm ∧ u.fits [f.ty, f.ty, f.ty] false = false :=
  ⟨w3 3 1 2 .i32, from1, two.setRegs { two.regs with vl := 1, vstart := 1 }, beyond, specVadd (w3 3 1 2 .i32), placed_of (by decide +kernel), rfl,
    by decide +kernel, by decide +kernel, by decide +kernel, placed_of (by decide +kernel), by decide +kernel, by decide +kernel,
    calm_of (by decide +kernel), by decide +kernel⟩
theorem witness_ElementsAreRead : (∀ r, (from1.vreg r).Sound) ∧ from1.vlmax ∈ ([512, 1024, 2048] : List Nat) ∧ vOk .i32 3 ∧
    (from1.vreg 3).tag ≠ .run ∧ 0 < from1.vstart := by
  refine ⟨fun r => ?_, by decide +kernel, (by decide : (3#6).toNat < 32), by decide +kernel, by decide +kernel⟩
  have h : (from1.vreg r).tag = .plain := by
    by_cases hr : r < 32
    · exact (by decide +kernel : ∀ r, r < 32 → (from1.vreg r).tag = .plain) r hr
    · simp [State.vreg, vget, hr, VReg.zero]
  simp [VReg.Sound, h]
theorem witness_ElementResultsAreIndependent : ∃ (s : State) (e : ElemSpec) (n : Nat), (∀ t, (t = e.ta ∨ t = e.td) → t.isTile = false) ∧
    (∀ t r, e.b = .vec t r → t.isTile = false) ∧ s.vstart + n < s.vl :=
  ⟨two, specVadd (w3 3 1 2 .i32), 1, by rintro t (rfl | rfl) <;> decide, by
    intro t r h
    cases h
    decide, by decide +kernel⟩
theorem witness_VectorIntegerElements : ∃ (f g : W3), f.ty.isInt = true ∧ f.q = 0 ∧ Ty.ofCode (g.immBits 3 0) = some .n8 ∧
    wideTy g.ty .n8 = some .i32 ∧ g.ty.isInt = true ∧ Ty.n8.isInt = true ∧ g.q.getLsbD 0 = false :=
  ⟨w3 3 1 2 .n64, { w3 4 1 2 .i16 with imm := 1 }, by decide, rfl, by decide, by decide, by decide, by decide, by decide⟩
theorem witness_ComparisonsWriteMaskBits : ∃ (f g : W3) (c e : CmpFn) (s : State), s.placed ∧ cmpOf s.regs (.vcmp f) = some (f, c) ∧
    cmpOf s.regs (.vfcmp g) = some (g, e) ∧ f.ty.isTile = false ∧ g.ty.isTile = false ∧ s.fits [f.ty] true = true ∧ s.fits [g.ty] true = true ∧
    f.d.toNat < 8 ∧ s.stopAt = none ∧ s.vstart < s.vl ∧ s.vlmax ≤ 2048 :=
  ⟨w3 7 1 2 .i32, w3 7 1 2 .f, _, _, from1, placed_of (by decide +kernel), rfl, rfl, by decide, by decide, by decide +kernel, by decide +kernel,
    by decide, by decide +kernel, by decide +kernel, by decide +kernel⟩
theorem witness_ReductionsAndScans : ∃ (f : W3) (s : State), s.placed ∧ s.fits [f.ty] (f.k != 0) = true ∧ vOk f.ty f.d ∧ s.vlmax ≤ 2048 ∧
    f.ty.isInt = true ∧ f.q = 0 ∧ f.imm = 0 ∧ f.k = 0 ∧ 0 < s.vl :=
  ⟨w3 31 1 0 .i32, two, two_placed, by decide +kernel, (by decide : (31#6).toNat < 32), by decide +kernel, by decide, rfl, rfl, rfl, by decide +kernel⟩
theorem witness_LaneMovesAndElementAccess : ∃ (f g : W3) (s : State), s.placed ∧ s.fits [f.ty] (f.k != 0) = true ∧ vOk f.ty f.d ∧
    s.vlmax ≤ 2048 ∧ s.fits [f.ty] false = true ∧ f.immBits 12 0 < s.vl ∧ s.vl ≤ g.immBits 12 0 ∧ f.bScalar = false ∧ g.bScalar = false :=
  ⟨{ w3 31 1 2 .i32 with k := 1, imm := 1 }, { w3 31 1 2 .i32 with imm := 2 }, two, two_placed, by decide +kernel,
    (by decide : (31#6).toNat < 32), by decide +kernel, by decide +kernel, by decide +kernel, by decide +kernel, by decide, by decide⟩
theorem witness_ReencodingKeepsValues : ∃ (f g : W3) (s : State), s.placed ∧ s.fits [f.ty] false = true ∧ vOk f.ty f.d ∧
    s.vlmax ∈ ([512, 1024, 2048] : List Nat) ∧ f.ty.wide = false ∧ f.ty.isInt = true ∧ s.fits [g.ty] false = true ∧ vOk g.ty g.d ∧ g.ty.wide = true :=
  ⟨w3 31 1 0 .i32, w3 30 2 0 .i64, two, two_placed, by decide +kernel, (by decide : (31#6).toNat < 32), by decide +kernel, by decide, by decide,
    by decide +kernel, (by decide : (30#6).toNat < 31), by decide⟩
theorem witness_DescriptorsAndMaskMembers : ∃ (f : W3) (s t : State), s.placed ∧ f.d.toNat = 7 ∧ s.vlmax ≤ 2048 ∧ 0 < min s.vl s.vlmax ∧
    (s.kreg f.a.toNat).getLsbD 1 = true ∧ 1 < min s.vl s.vlmax ∧ (∀ j, j < 1 → (s.kreg f.a.toNat).getLsbD j = false) ∧ t.placed ∧
    (∀ j, j < min t.vl t.vlmax → (t.kreg f.a.toNat).getLsbD j = false) :=
  ⟨w3 7 1 1 .i8, lanes (demo 0 0 0 0) .i32 [] [] 2 2, lanes (demo 0 0 0 0) .i32 [] [] 4 2, placed_of (by decide +kernel), by decide, by decide +kernel,
    by decide +kernel, by decide +kernel, by decide +kernel, by decide +kernel, placed_of (by decide +kernel), by decide +kernel⟩

/-- Where element j of a unit-stride access of `.i32` at VA 0x40 stands. -/
def acc4 (j : Nat) : Place := { pa := 0x10000040 + 4 * j, key := 1 }
/-- The last word of window 0: its first element passes, its second lies in window 1, which has no entry. -/
def edge : State := lanes (demo 0xFFFFFFC 8 0 0) .i32 [1, 2] [1, 2] 3 2
def accEdge (_ : Nat) : Place := { pa := 0x1FFFFFFC, key := 1 }
theorem edge_open : edge.open_ := (by decide +kernel : (edge.regs.priv && !edge.regs.te) = false)
theorem witness_VectorLoadsGiveElements :
    (∃ (f : WM) (s t : State) (acc : Nat → Place), s.Calm ∧ f.c = 0 ∧ s.fits [f.ty] (f.k != 0) = true ∧ s.stopAt = none ∧ s.side.done = none ∧
      vOk f.ty f.d ∧ s.vlmax ≤ 2048 ∧ s.vstart < s.vl ∧
      (∀ j, j < 2 → s.vectorAccess s.msys s.me .load (State.unitAt f s j).va (State.unitAt f s j).size (State.unitAt f s j).size = .ok (acc j)) ∧
      s.vl = 2 ∧ t.Calm ∧ t.fits [f.ty] (f.k != 0) = true ∧ t.stopAt = none ∧ t.side.done = none ∧ t.vl ≤ t.vstart) ∧
    (∃ (f : WM) (s : State) (c : Nat), s.Calm ∧ f.c = 0 ∧ s.fits [f.ty] (f.k != 0) = true ∧ s.open_ ∧ s.vstart ≤ 1 ∧ 1 < s.vl ∧ f.k = 0 ∧
      (∀ j, s.vstart ≤ j → j < 1 →
        s.vectorAccess s.msys s.me .load (State.unitAt f s j).va (State.unitAt f s j).size (State.unitAt f s j).size = .ok (accEdge j)) ∧
      s.vectorAccess s.msys s.me .load (State.unitAt f s 1).va (State.unitAt f s 1).size (State.unitAt f s 1).size = .error c) :=
  ⟨⟨wm 31 1 0 .i32, two, two.setRegs { two.regs with vl := 0 }, acc4, two_calm, rfl, by decide +kernel, by decide +kernel, by decide +kernel,
      (by decide : (31#6).toNat < 32), by decide +kernel, by decide +kernel, fun j hj => ok_of ((by decide +kernel : ∀ j, j < 2 →
        (two.vectorAccess two.msys two.me .load (State.unitAt (wm 31 1 0 .i32) two j).va (State.unitAt (wm 31 1 0 .i32) two j).size
          (State.unitAt (wm 31 1 0 .i32) two j).size).toOption = some (acc4 j)) j hj), by decide +kernel, calm_of (by decide +kernel),
      by decide +kernel, by decide +kernel, by decide +kernel, by decide +kernel⟩,
    ⟨wm 3 1 0 .i32, edge, _, calm_of (by decide +kernel), rfl, by decide +kernel, edge_open, by decide +kernel, by decide +kernel, rfl,
      fun j _ hj => ok_of ((by decide +kernel : ∀ j, j < 1 → (edge.vectorAccess edge.msys edge.me .load (State.unitAt (wm 3 1 0 .i32) edge j).va
        (State.unitAt (wm 3 1 0 .i32) edge j).size (State.unitAt (wm 3 1 0 .i32) edge j).size).toOption = some (accEdge j)) j hj),
      (ex_error (by decide +kernel)).choose_spec⟩⟩
/-- The elements a store without a mask has to do, from VSTART 0. -/
theorem witness_VectorStoresWriteElements :
    (∃ (f : WM) (s t : State), s.Calm ∧ s.Canonical ∧ f.c = 0 ∧ s.fits [f.ty] (f.k != 0) = true ∧ s.stopAt = none ∧ s.side.done = none ∧
      s.vlmax ≤ 2048 ∧ s.vstart < s.vl ∧ f.k = 0 ∧ s.vl = 2 ∧
      (∀ j, j < 2 → s.vectorAccess s.msys s.me .store (State.unitAt f s j).va (State.unitAt f s j).size (State.unitAt f s j).size
        = .ok { pa := 0x10000040 + 4 * j, key := 1 }) ∧ t.Calm ∧ t.vl ≤ t.vstart) ∧
    (∃ (f : WM) (s : State), s.Calm ∧ s.Canonical ∧ f.c = 0 ∧ s.fits [f.ty] (f.k != 0) = true ∧ f.k ≠ 0 ∧
      (∀ j, j < s.vl → s.scatterOk f.ty (State.indexedAt f s) (fun j => f.k == 0 || (s.kreg f.k.toNat).getLsbD j) j = false)) ∧
    (∃ (f : WM) (s : State) (c : Nat), s.Calm ∧ s.Canonical ∧ f.c = 0 ∧ f.k = 0 ∧ s.open_ ∧ s.vstart ≤ 1 ∧ 1 < s.vl ∧
      (∀ j, j < 1 → s.vectorAccess s.msys s.me .store (State.unitAt f s j).va (State.unitAt f s j).size (State.unitAt f s j).size
        = .ok { pa := 0x1FFFFFFC, key := 1 }) ∧
      s.vectorAccess s.msys s.me .store (State.unitAt f s 1).va (State.unitAt f s 1).size (State.unitAt f s 1).size = .error c) :=
  ⟨⟨wm 1 1 0 .i32, two, two.setRegs { two.regs with vl := 0 }, two_calm, two_canonical, rfl, by decide +kernel, by decide +kernel, by decide +kernel,
      by decide +kernel, by decide +kernel, rfl, by decide +kernel, fun j hj => ok_of ((by decide +kernel : ∀ j, j < 2 →
        (two.vectorAccess two.msys two.me .store (State.unitAt (wm 1 1 0 .i32) two j).va (State.unitAt (wm 1 1 0 .i32) two j).size
          (State.unitAt (wm 1 1 0 .i32) two j).size).toOption = some { pa := 0x10000040 + 4 * j, key := 1 }) j hj), calm_of (by decide +kernel),
      by decide +kernel⟩,
    ⟨{ wm 1 1 2 .i32 with k := 1 }, two, two_calm, two_canonical, rfl, by decide +kernel, by decide, by decide +kernel⟩,
    ⟨wm 1 1 0 .i32, edge, _, calm_of (by decide +kernel), (by decide +kernel : edge.msys.mem.wf = true), rfl, rfl, edge_open, by decide +kernel,
      by decide +kernel, fun j hj => ok_of ((by decide +kernel : ∀ j, j < 1 → (edge.vectorAccess edge.msys edge.me .store
        (State.unitAt (wm 1 1 0 .i32) edge j).va (State.unitAt (wm 1 1 0 .i32) edge j).size (State.unitAt (wm 1 1 0 .i32) edge j).size).toOption
          = some { pa := 0x1FFFFFFC, key := 1 }) j hj), (ex_error (by decide +kernel)).choose_spec⟩⟩
/-- Memory at 0x40 of window 0 holding the image of `v1`. -/
def withImage : State := { two with msys := two.msys.store 0x10000040 (two.image .i32 1) 1 }
theorem ex_pair {ε α β : Type} {x : Except ε (Option (α × β))} (h : (match x with | .ok (some _) => true | _ => false) = true) :
    ∃ p q, x = .ok (some (p, q)) := by
  rcases x with e | (_ | ⟨p, q⟩) <;> simp_all
theorem is_none {ε α : Type} {x : Except ε (Option α)} (h : (match x with | .ok none => true | _ => false) = true) : x = .ok none := by
  rcases x with e | (_ | p) <;> simp_all
theorem ex_error2 {α β γ : Type} {x : Except (α × β) γ} (h : x.toOption.isNone = true) : ∃ a b, x = .error (a, b) := by
  rcases x with ⟨a, b⟩ | p <;> simp_all [Except.toOption]
theorem ex_some2 {α β : Type} {x : Option (α × β)} (h : x.isSome = true) : ∃ a b, x = some (a, b) := by
  rcases x with _ | ⟨a, b⟩ <;> simp_all
theorem witness_ImagesHoldTheElements :
    (∃ (f g : WM) (s t : State), s.Calm ∧ s.Canonical ∧ f.c = 0 ∧ s.fits [f.ty] false = true ∧ vOk f.ty f.d ∧ s.vlmax ≤ 2048 ∧
      (s.getS f.a + f.off.signExtend 64 * 16).toNat % 16 = 0 ∧ s.readImage s.msys (s.getS f.a + f.off.signExtend 64 * 16) f.ty s.vl = .ok none ∧
      t.Calm ∧ (∃ h planes, t.readImage t.msys (t.getS f.a + f.off.signExtend 64 * 16) f.ty t.vl = .ok (some (h, planes))) ∧
      (s.getS g.a + g.off.signExtend 64 * 16).toNat % 16 = 8) ∧
    (∃ (f : WM) (s : State), s.Calm ∧ f.c = 0 ∧ s.open_ ∧ (s.getS f.a + f.off.signExtend 64 * 16).toNat % 16 = 0 ∧
      (∃ c a, s.readImage s.msys (s.getS f.a + f.off.signExtend 64 * 16) f.ty s.vl = .error (c, a)) ∧
      (∃ c a, s.vecRange s.msys s.me .store (s.getS f.a + f.off.signExtend 64 * 16) 8 ((s.image f.ty f.d.toNat).length / 8) = some (c, a))) ∧
    (∃ (f : WM) (s : State), (s.image f.ty f.d.toNat).length / 8 = 3 ∧ ∀ u, u < 3 →
      s.vectorAccess s.msys s.me .store (s.getS f.a + f.off.signExtend 64 * 16 + BitVec.ofNat 64 (8 * u)) 8 8
        = .ok { pa := 0x10000040 + 8 * u, key := 1 }) :=
  ⟨⟨wm 1 1 0 .i32, wm 1 2 0 .i32, two, withImage, two_calm, two_canonical, rfl, by decide +kernel, (by decide : (1#6).toNat < 32), by decide +kernel,
      by decide +kernel, is_none (by decide +kernel), calm_of (by decide +kernel), ex_pair (by decide +kernel), by decide +kernel⟩,
    ⟨wm 1 1 0 .i32, lanes (demo 0x10000000 0 0 0) .i32 [1, 2] [] 0 2, calm_of (by decide +kernel), rfl,
      (by decide +kernel : ((lanes (demo 0x10000000 0 0 0) .i32 [1, 2] [] 0 2).regs.priv && !(lanes (demo 0x10000000 0 0 0) .i32 [1, 2] [] 0 2).regs.te) = false),
      by decide +kernel, ex_error2 (by decide +kernel), ex_some2 (by decide +kernel)⟩,
    ⟨wm 1 1 0 .i32, two, by decide +kernel, fun u hu => ok_of ((by decide +kernel : ∀ u, u < 3 → (two.vectorAccess two.msys two.me .store
      (two.getS 1 + (0 : BitVec 11).signExtend 64 * 16 + BitVec.ofNat 64 (8 * u)) 8 8).toOption = some { pa := 0x10000040 + 8 * u, key := 1 }) u hu)⟩⟩
/-- One tile's elements with a payload at 0x400 of window 0 and a header at 0x40. -/
def tile1 (b c : Word) : State := lanes (demo 0x400 b c 0) .q8 [1, 2] [] 0 2
theorem witness_TilesLoadAndStore :
    (∃ (f : WM) (s : State) (H P : Nat → List Byte), s.Calm ∧ s.Canonical ∧ s.fits [f.ty] (f.k != 0) = true ∧ f.ty.isTile = true ∧ f.d.toNat < 32 ∧
      s.vlmax ≤ 2048 ∧ s.stopAt = none ∧ s.vstart = 0 ∧ 0 < s.vl ∧ f.c = 0 ∧ (s.vl + 255) / 256 = 1 ∧
      (s.getS f.a + f.off.signExtend 64 * BitVec.ofNat 64 256).toNat % 256 = 0 ∧ (s.getS f.b).toNat % 16 = 0 ∧
      ∀ k, k < 1 → s.readTile s.msys (s.getS f.b + BitVec.ofNat 64 (16 * k)) (s.getS f.a + f.off.signExtend 64 * BitVec.ofNat 64 256
        + BitVec.ofNat 64 (256 * k)) 256 = .ok (H k, P k)) ∧
    (∃ (f : WM) (s t u : State), f.ty = .q8 ∧ s.Calm ∧ s.vstart % 256 = 1 ∧ t.Calm ∧ t.vstart % 256 = 0 ∧ f.c = 0 ∧
      (t.getS f.a + f.off.signExtend 64 * BitVec.ofNat 64 256).toNat % 256 ≠ 0 ∧ u.Calm ∧ u.vl ≤ u.vstart) ∧
    (∃ (f : WM) (s t : State) (c e : TileControl), tileControl (s.getS f.b) f.ty s.vl = some c ∧ s.fits [f.ty, c.sty] (f.k != 0) = true ∧
      s.vstart = 0 ∧ 0 < s.vl ∧ c.vers = false ∧ (s.getS f.c).toNat % 16 = 0 ∧
      (∀ k, k < 1 → s.tileCheck s.msys .store (s.getS f.a + BitVec.ofNat 64 (256 * k)) 32 (s.getS f.c + BitVec.ofNat 64 (16 * k)) 2 = none) ∧
      tileControl (t.getS f.b) f.ty t.vl = some e ∧ e.vers = true ∧ e.ev = 0 ∧ t.vstart < t.vl ∧
      (∃ p, t.vectorAccess t.msys t.me .store (t.getS f.a) 256 256 = .ok p) ∧ (∃ p, t.vectorAccess t.msys t.me .store (t.getS f.c) 16 16 = .ok p)) :=
  ⟨⟨wm 3 1 2 .q8, tile1 0x40 0, fun _ => List.replicate 16 0, fun _ => List.replicate 256 0, calm_of (by decide +kernel),
      (by decide +kernel : (tile1 0x40 0).msys.mem.wf = true), by decide +kernel, by decide, by decide, by decide +kernel, by decide +kernel, by decide +kernel,
      by decide +kernel, rfl, by decide +kernel, by decide +kernel, by decide +kernel, fun k hk => ok_of ((by decide +kernel : ∀ k, k < 1 →
        ((tile1 0x40 0).readTile (tile1 0x40 0).msys ((tile1 0x40 0).getS 2 + BitVec.ofNat 64 (16 * k)) ((tile1 0x40 0).getS 1
          + (0 : BitVec 11).signExtend 64 * BitVec.ofNat 64 256 + BitVec.ofNat 64 (256 * k)) 256).toOption
            = some (List.replicate 16 0, List.replicate 256 0)) k hk)⟩,
    ⟨wm 3 2 2 .q8, (tile1 0x40 0).setRegs { (tile1 0x40 0).regs with vstart := 257 }, tile1 0x40 0,
      (tile1 0x400 0).setRegs { (tile1 0x400 0).regs with vl := 0 }, rfl, calm_of (by decide +kernel), by decide +kernel, calm_of (by decide +kernel),
      by decide +kernel, rfl, by decide +kernel, calm_of (by decide +kernel), by decide +kernel⟩,
    ⟨{ wm 1 1 2 .q8 with c := 3 }, tile1 0x29 0x40, tile1 0x229 0x40, { ct := 1, sty := .f, rnd := 0, vers := false, ev := 0 },
      { ct := 1, sty := .f, rnd := 0, vers := true, ev := 0 }, by decide +kernel, by decide +kernel, by decide +kernel, by decide +kernel, rfl,
      by decide +kernel, by decide +kernel, by decide +kernel, rfl, rfl, by decide +kernel, ex_ok (by decide +kernel), ex_ok (by decide +kernel)⟩⟩

-- Matrix, engines, scheduler, memory system, power, host --------------------------------------------------------------------

/-- The state a result answers. -/
def after (r : Result) (s : State) : State := match r with | .next t => t | _ => s
/-- A ready job of a higher level that needs a whole quad, quad 0, whose core 0 the loaded job holds. -/
def gangJob : Job :=
  { loaderJob 2 with
    card := { loaderCard with nlog := 16, ctrl := 0x4000C2 }, strips := 16, cores := [], level := 10, readySince := some 0, waitSince := some 0,
    scopeAt := some 0 }
def busy : State := { loaded with jobs := loaded.jobs ++ [gangJob] }
/-- A ready job that one free core serves. -/
def oneJob : Job := { loaderJob 2 with cores := [], readySince := some 0, waitSince := some 0, scopeAt := none }
def queued : State := { loaded with jobs := loaded.jobs ++ [oneJob] }
/-- The loaded job stopped and saved, alone. -/
def stopped : State :=
  let t := after (exec (.preempt 0 0) busy) busy
  { t with jobs := t.jobs.take 1 }
/-- MSHAPE of one K-group and one N-group for types of codes a and b. -/
def shape (a b : Nat) : BitVec 19 := BitVec.ofNat 19 (1 + 32 + 512 * a + 8192 * b)
def shapedBy (s : State) (m : BitVec 19) : State := s.setMyCore { s.myCore with mshape := m }
def matQ : State := shapedBy (demo 0x400 0x40 1 0) (shape 12 12)
def matH : State := shapedBy (demo 0x400 0 32 0) (shape 8 8)
def zeros16 : List Byte := List.replicate 16 0
def zeros256 : List Byte := List.replicate 256 0
def wmat (ty : Ty) : W3 := { w3 0 1 2 ty with c := 3 }
theorem witness_StationaryOperandHoldsItsValues :
    matQ.Calm ∧ (shapeOk ((demo (BitVec.ofNat 64 (shape 12 12).toNat) 0 0 0).getS 1 |>.setWidth 19) = true ∧
    shapeOk ((demo 0 0 0 0).getS 1 |>.setWidth 19) = false ∧
    shaped matQ.myCore.mshape = true ∧ shapeB matQ.myCore.mshape = some .q8 ∧ shapeNg matQ.myCore.mshape ≤ (matQ.getS 3).toNat ∧
    (matQ.getS 1).toNat % payloadSize .q8 = 0 ∧ (matQ.getS 2).toNat % 16 = 0 ∧ shapeKg matQ.myCore.mshape = 1 ∧ shapeNg matQ.myCore.mshape = 1) ∧
    matQ.readTile matQ.msys (matQ.getS 2) (matQ.getS 1) 256 = .ok (zeros16, zeros256) ∧
    (shaped (demo 0 0 0 0).myCore.mshape = false ∧
    shapeB matH.myCore.mshape = some .h ∧ 2 * (16 * shapeNg matH.myCore.mshape) ≤ (matH.getS 3).toNat ∧ (matH.getS 3).toNat % 2 = 0) ∧
    (∀ k, k < 16 → ∀ n, n < 16 → matH.vectorAccess matH.msys matH.me .load (matH.getS 1 + BitVec.ofNat 64 (k * 32 + 2 * n)) 2 2
      = .ok { pa := 0x10000400 + 32 * k + 2 * n, key := 1 }) :=
  ⟨calm_of (by decide +kernel), by decide +kernel, ok_of (by decide +kernel), by decide +kernel, fun k hk n hn => ok_of ((by decide +kernel : ∀ k, k < 16 → ∀ n, n < 16 → (matH.vectorAccess matH.msys matH.me .load
      (matH.getS 1 + BitVec.ofNat 64 (k * 32 + 2 * n)) 2 2).toOption = some { pa := 0x10000400 + 32 * k + 2 * n, key := 1 }) k hk n hn)⟩
/-- The same after `mldb`, with a `.q8` row in `v1` and VL 16. -/
def matB : State := lanes (after (exec (.mldb (wmat .q8)) matQ) matQ) .q8 (List.replicate 16 0x38) [] 0 16
def matD : State := matB.setRegs { matB.regs with s := vset matB.regs.s 3 0 }
theorem witness_MatrixRowsAccumulateAndDrain :
    matD.placed ∧ (matD.vlmax ≤ 2048 ∧ (matD.bReg 0).isSome = true ∧ shaped matD.myCore.mshape = true ∧ shapeA matD.myCore.mshape = some .q8 ∧
    ((matD.bReg 0).map (fun b => (b.kg, b.ng, b.bty))) = some (shapeKg matD.myCore.mshape, shapeNg matD.myCore.mshape, .q8) ∧
    shapeB matD.myCore.mshape = some .q8 ∧ (matD.getS 3 + 0).toNat + 16 * shapeKg matD.myCore.mshape ≤ matD.cap .q8 ∧
    shapeNg matD.myCore.mshape ≤ 8 ∧ matD.bReg 1 = none) ∧ matD.Calm ∧ matD.vl ≤ matD.cap .f ∧
    (matD.getS 3 + 0).toNat + 16 * shapeNg matD.myCore.mshape ≤ matD.vl ∧ vOk .f 3 :=
  ⟨placed_of (by decide +kernel), by decide +kernel, calm_of (by decide +kernel), by decide +kernel, by decide +kernel, (by decide : (3#6).toNat < 32)⟩
/-- One Autumn slot at 0x1000 of 4 KiB; key 5, input at 0x40, 16 elements, output at 0x80. -/
def autumn : State := (demo 5 0x40 16 0x80).setRegs { (demo 5 0x40 16 0x80).regs with acBase := 0x1000, acSlg := 12, acNslot := 1 }
def probed : State := after (exec (.acprobe { w3 5 1 2 .f with c := 3 }) autumn) autumn
def resolved : State := after (exec (.probeResolve probed.cur 0) probed) probed
theorem witness_AutumnProbesAndSlots :
    autumn.placed ∧ autumn.Calm ∧ autumn.regs.acBad .f 16 = false ∧ (demo 5 0x40 16 0x80).regs.acBad .f 16 = true ∧ (demo 5 0x40 16 0x80).Calm ∧
    (autumn.rangesBad .load ((0x40, 4, 16) :: slotRanges 0x1000 .f 16) = none ∧ (autumn.headerPlace 0x1000).any (fun hdr => autumn.probeBlocker hdr == none) = true ∧
    autumn.thr.held = [] ∧ autumn.tears (autumn.vectorSpans .load 0x40 4 16 ++ autumn.vectorSpans .load 0x1000 8 8 ++ autumn.vectorSpans .load 0x1040 4 16) = false ∧
    (autumn.side.probes.filter (fun p => p.spec && !p.confirmed)).length < 4 ∧ autumn.side.probes = []) ∧
    probed.placed ∧ (∃ p, probed.side.probes = [p] ∧ p.result = none ∧ p.ck = none) ∧ probed.thr.specFile = none ∧ probed.thr.held = [] ∧
    (∃ p r, resolved.side.probes = [p] ∧ p.ticket = resolved.getS 5 ∧ p.spec = false ∧ p.confirmed = false ∧ p.result = some r) ∧
    autumn.rangesBad .load [(0x40, 4, 16), (0x80, 4, 16)] = none ∧ autumn.rangesBad .store (slotRanges 0x1000 .f 16) = none ∧
    autumn.slotHeld (fun pa => (autumn.headerPlace 0x1000).any (·.pa == pa)) = false ∧ (demo 5 0x40 16 0x80).regs.acNslot = 0 ∧
    (demo 5 0x40 16 0x80).slotHeld (demo 5 0x40 16 0x80).inRegion = false ∧ autumn.regs.acNslot = 1 ∧
    autumn.rangesBad .store [(0x1000, 8, 8)] = none ∧ autumn.slotHeld autumn.inRegion = false :=
  ⟨placed_of (by decide +kernel), calm_of (by decide +kernel), by decide +kernel, by decide +kernel, calm_of (by decide +kernel), by decide +kernel,
    placed_of (by decide +kernel), ⟨probed.side.probes.head (by decide +kernel), by decide +kernel, by decide +kernel, by decide +kernel⟩,
    by decide +kernel, by decide +kernel, ⟨resolved.side.probes.head (by decide +kernel), { hit := false, reason := 1, metric := 0 }, by decide +kernel, by decide +kernel, by decide +kernel,
      by decide +kernel, by decide +kernel⟩, by decide +kernel⟩

/-- A shadow set from SRC, DST, LEN, ROWS, MODE, mask, version and FPOUT. -/
def shadowOf (src dst len rows mode mask vers out : Word) : Vector Word 12 :=
  vset (vset (vset (vset (vset (vset (vset (vset (Vector.replicate 12 0) 0 src) 1 dst) 2 len) 5 rows) 6 mode) 7 mask) 9 vers) 10 out
def xfer (v : Vector Word 12) : Transfer :=
  { count := 1, owner := { job := 1, lcore := 0, tid := 0 }, core := 0, asid := 1, shadow := v, begun := 0, pos := 0, claims := [] }
/-- The demo state whose channel 0 holds n copies of a transfer; cores 0 and 1 have 32 KiB of scratch, which window 3 maps, and barrier
0 of `core` is held. -/
def engine (n : Nat) (t : Transfer) : State :=
  let s := demo 4 0 0 0
  let s := (s.setMyCore { s.myCore with scrb := 1 }).setCore 1 { s.core 1 with scrb := 1 }
  let cx := (s.context 1).getD (loaderContext 0)
  let w := SMap.set (SMap.set (vget cx.windows 0 []) 1 (0x17 + (1#128 <<< 6))) 3 (7 + (1#128 <<< 6) + (0x400000000#128 <<< 64))
  let s := s.setContext 1 { cx with bcore := 1, poolBase := 0x4000000, poolCnt := 4, cntBase := 0x600000, fpBase := 0x601000, windows := vset cx.windows 0 w }
  s.setQuad 0 ((s.quad 0).setChan 0 { launched := n, queue := List.replicate n t })
def shadowed (s : State) (v : Vector Word 12) : State := s.setRegs { s.regs with shadow := v }
def copyV : Vector Word 12 := shadowOf 0x40 0x80 8 1 0 0 0 0
theorem witness_CopyMembersLaunchAndWait :
    (shadowed (engine 7 (xfer copyV)) copyV).Calm ∧ (shadowBad copyV = false ∧ shadowBad (shadowOf 0 0 0 1 0 0 0 0) = true ∧
    shBarEn (shadowOf 0 0 0 1 0 0 0 0) = false ∧ shBarEn copyV = false ∧
    ((shadowed (engine 7 (xfer copyV)) copyV).myQuad.chan 0).queue.length = 7 ∧
    8 ≤ ((shadowed (engine 8 (xfer copyV)) copyV).myQuad.chan 0).queue.length) ∧ (shadowed (engine 8 (xfer copyV)) copyV).Calm ∧
    shBarEn (vset copyV 8 0x8801) = true ∧ barrierIdOk (shBarId (vset copyV 8 0x8801)) = true ∧
    (engine 0 (xfer copyV)).holdsBarrier (engine 0 (xfer copyV)).thr.asid (idScope 0x801) (idIndex 0x801) = false ∧
    (engine 0 (xfer copyV)).getS 2 < (4 : Word) ∧ ¬ (engine 0 (xfer copyV)).getS 1 < (4 : Word) ∧
    ({ w3 5 0 0 .i8 with imm := 3 } : W3).immBits 3 2 = 0 ∧ ({ w3 5 0 0 .i8 with imm := 7 } : W3).immBits 3 2 = 1 ∧
    ({ w3 5 0 0 .i8 with imm := 11 } : W3).immBits 3 2 = 2 ∧ ({ w3 5 0 0 .i8 with imm := 12 } : W3).immBits 3 2 = 3 :=
  ⟨calm_of (by decide +kernel), by decide +kernel, calm_of (by decide +kernel), by decide +kernel⟩
theorem engine_canonical (n : Nat) (t : Transfer) (h : (engine n t).msys.mem.wf = true) : (engine n t).Canonical := h
def multiV : Vector Word 12 := shadowOf 0x40 0 8 1 1 1 0 0
def lineV (mode vers : Word) : Vector Word 12 := shadowOf 0x40 0x80 64 1 mode 0 vers 0
def recordV : Vector Word 12 := vset (vset (shadowOf 0x400 0x800 128 1 0x1002 0 0 0) 3 0x40) 4 0x80
def dedupV (out : Word) : Vector Word 12 := shadowOf 0x1000 0x10000000 4096 1 5 0 0 out
def slotV : Vector Word 12 := shadowOf 0x40 0 8 1 8 0 0 0
/-- The same with buffer 0 of core 0 set to two slots of 64 bytes. -/
def engineCb (t : Transfer) : State :=
  let s := engine 1 t
  s.setCore 0 ((s.core 0).setCbuf 0 { CBuf.zero with slotsz := 1, nslot := 2 })
/-- The access checks of the engine for a state and transfer. -/
def eng (t : Transfer) (k : AccessKind) (va : Word) (n a : Nat) : Except Nat Place :=
  (engine 1 t).vectorAccess (engine 1 t).msys ((engine 1 t).engine t) k va n a
theorem witness_CopyModesPerformTheirUnits :
    (engine 1 (xfer copyV)).Canonical ∧ (engine 1 (xfer copyV)).headOf 0 0 0 = some (xfer copyV) ∧ (engine 0 (xfer copyV)).headOf 0 0 0 = none ∧
    shCb copyV = false ∧ eng (xfer copyV) .load 0x40 8 1 = .ok { pa := 0x10000040, key := 1 } ∧ inScratch 0x80 = false ∧
    eng (xfer copyV) .store 0x80 8 1 = .ok { pa := 0x10000080, key := 1 } ∧ (engine 1 (xfer copyV)).strange (xfer copyV) 0x10000080 = false ∧
    eng (xfer copyV) .store 0x30100000 8 1 = .ok { pa := 0x400000100000, key := 0 } ∧
    (engine 1 (xfer copyV)).strange (xfer copyV) 0x400000100000 = true ∧ (∃ c, eng (xfer copyV) .store 0x20000080 8 1 = .error c) ∧
    (∃ c, eng (xfer copyV) .load 0x20000080 8 1 = .error c) ∧
    (engine 1 { xfer copyV with pos := 8 }).headOf 0 0 0 = some { xfer copyV with pos := 8 } :=
  ⟨engine_canonical _ _ (by decide +kernel), by decide +kernel, by decide +kernel, by decide +kernel, ok_of (by decide +kernel), by decide +kernel,
    ok_of (by decide +kernel), by decide +kernel, ok_of (by decide +kernel), by decide +kernel, ex_error (by decide +kernel),
    ex_error (by decide +kernel), by decide +kernel⟩
theorem witness_CopyModesFillSlotsAndTargets :
    ((engine 1 (xfer slotV)).headOf 0 0 0 = some (xfer slotV) ∧ shCb slotV = true ∧
    ((engine 1 (xfer slotV)).core 0).runs 2 = false ∧ ((engine 1 (xfer slotV)).core 0).runs 1 = true ∧
    (((engine 1 (xfer slotV)).core 0).cbuf 0).nextFree 0 0 = none ∧ (((engine 1 (xfer slotV)).core 0).cbuf 0).nslot = 0 ∧
    (engineCb (xfer slotV)).headOf 0 0 0 = some (xfer slotV) ∧ (((engineCb (xfer slotV)).core 0).cbuf 0).nextFree 2 0 = some 0 ∧
    (((engineCb (xfer slotV)).core 0).cbuf 0).slotOffset 0 + 8 ≤ (engineCb (xfer slotV)).scratchSize 0) ∧
    (engineCb (xfer slotV)).vectorAccess (engineCb (xfer slotV)).msys ((engineCb (xfer slotV)).engine (xfer slotV)) .load 0x40 8 1
      = .ok { pa := 0x10000040, key := 1 } ∧ (engineCb (xfer slotV)).msys.mem.wf = true ∧
    (engine 1 (xfer multiV)).headOf 0 0 1 = some (xfer multiV) ∧ ((engine 1 (xfer multiV)).core 0).runs 1 = true ∧
    8 ≤ (engine 1 (xfer multiV)).scratchSize 0 ∧ bitOf (vget multiV 7 0).toNat 0 = true ∧
    (engine 1 (xfer (vset multiV 6 9))).headOf 0 0 1 = some (xfer (vset multiV 6 9)) ∧ shCb (vset multiV 6 9) = true ∧
    ((engine 1 (xfer (vset multiV 6 9))).core 0).runs 2 = false ∧
    (engineCb (xfer (vset multiV 6 9))).headOf 0 0 1 = some (xfer (vset multiV 6 9)) ∧
    (∀ i, i < 4 → bitOf (vget (vset multiV 6 9) 7 0).toNat i = true → i = 0) ∧
    (engine 1 (xfer (vset (lineV 2 0) 10 0x200))).strange (xfer (vset (lineV 2 0) 10 0x200)) 0x10000200 = false ∧ inScratch 0x200 = false :=
  ⟨by decide +kernel, ok_of (by decide +kernel), by decide +kernel⟩
theorem witness_CopyModesWriteLinesRecordsAndPages :
    ((engine 1 (xfer (lineV 2 0))).headOf 0 0 2 = some (xfer (lineV 2 0)) ∧ (engine 1 (xfer (lineV 0x403 1))).headOf 0 0 3 = some (xfer (lineV 0x403 1)) ∧
    (vget (lineV 0x403 1) 6 0).toNat / 256 % 16 = 4 ∧ shTrec (lineV 2 0) = false ∧
    ((engine 1 (xfer (lineV 2 0))).engineRead ((engine 1 (xfer (lineV 2 0))).engine (xfer (lineV 2 0))) 64 64 0x40).toOption.isSome = true) ∧
    eng (xfer (lineV 2 0)) .store 0x80 64 64 = .ok { pa := 0x10000080, key := 1 } ∧
    eng (xfer (lineV 0x403 1)) .load 0x80 64 64 = .ok { pa := 0x10000080, key := 1 } ∧
    ((engine 1 (xfer (lineV 2 0))).strange (xfer (lineV 2 0)) 0x10000080 = false ∧
    ((engine 1 (xfer (lineV 2 0))).msys.line (0x10000080 / 64)).version.toNat = 0 ∧
    ((engine 1 (xfer (lineV 2 0))).outcomeBit (xfer (lineV 2 0)) 0 false).toOption = some [] ∧
    (engine 1 (xfer recordV)).headOf 0 0 2 = some (xfer recordV) ∧ shTrec recordV = true ∧
    ((engine 1 (xfer recordV)).engineRead ((engine 1 (xfer recordV)).engine (xfer recordV)) 16 16 0x40).toOption.isSome = true ∧
    ((engine 1 (xfer recordV)).engineRead ((engine 1 (xfer recordV)).engine (xfer recordV)) 128 128 0x400).toOption.isSome = true) ∧
    eng (xfer recordV) .store 0x80 16 16 = .ok { pa := 0x10000080, key := 1 } ∧
    eng (xfer recordV) .store 0x800 128 128 = .ok { pa := 0x10000800, key := 1 } ∧ 0x10000080 / 64 ∉ linesOf 0x10000800 128 ∧
    natAt ((engine 1 (xfer recordV)).loadAt (engine 1 (xfer recordV)).msys { pa := 0x10000080, key := 1 } 16) 10 2 = 0 ∧
    (engine 1 (xfer (dedupV 0x80))).headOf 0 0 5 = some (xfer (dedupV 0x80)) ∧
    (((engine 1 (xfer (dedupV 0x80))).dedupReady (xfer (dedupV 0x80)) 0 0).toOption.map (fun p => p.out.pa % 16)) = some 0 ∧
    ((engine 1 (xfer (dedupV 0x20000080))).dedupReady (xfer (dedupV 0x20000080)) 0 0).toOption.isSome = false :=
  ⟨by decide +kernel, ok_of (by decide +kernel), ok_of (by decide +kernel), by decide +kernel, ok_of (by decide +kernel), ok_of (by decide +kernel),
    by decide +kernel⟩

/-- A buffer of two slots of 64 bytes with one filled, and barrier 0 of `core` initialised for one arrival and one credit. -/
def buffered : State :=
  let s := engine 0 (xfer copyV)
  let b : CBuf := { base := 0, slotsz := 1, nslot := 2, filled := [0], transit := [], fillPos := 1, readPos := 0 }
  s.setMyCore (s.myCore.setCbuf 3 b)
def inTransit : State := buffered.setMyCore (buffered.myCore.setCbuf 3 { buffered.myCore.cbuf 3 with transit := [1] })
/-- The value of a `cbinit` word for a number of slots of 64 bytes. -/
def geometry (n : Nat) : Word := BitVec.ofNat 64 (2 ^ 20 + n * 2 ^ 36)
def withA (s : State) (x : Word) : State := s.setS 1 x
def cb3 : W3 := { w3 5 1 0 .i8 with imm := 3 }
/-- Barrier 0 of `core`: its id, its record and a state in which it stands at EA, EB with PHASE. -/
def bar0 : W3 := { w3 5 1 2 .i8 with c := 3, imm := 0x800 }
def barred (ra rb : Int) (ph : Word) (a : Word) : State :=
  let b : Barrier := { Barrier.zero with ea := 2, eb := 0, ra := ra, rb := rb, phase := ph }
  ((engine 0 (xfer copyV)).setBarrier (barrierOf 0 1 0) b).setS 1 a
def marked (from_ : Word) (ph : Word) : State :=
  let s := barred 1 0 ph 0
  s.setSide { s.side with phend := [(s.pc, barrierOf 0 1 0, from_)] }
def joined : State :=
  { demo 0 0 0 0 with
    pod := [(7, 1), (9, 1)], pkg := 3, accepted := 0x41, contexts := [(1, { loaderContext 0 with pod := true, bpkg := 1, peers := [7, 8] })] }
theorem witness_BuffersAndBarriersCount :
    (withA inTransit 0).Calm ∧ (inTransit.myCore.cbuf (cb3.immBits 3 0)).transit ≠ [] ∧ (withA buffered (geometry 0)).Calm ∧
    ((buffered.myCore.cbuf 3).transit = [] ∧ (geometry 255).toNat < 2 ^ 44 ∧ (geometry 255).toNat / 2 ^ 20 % 65536 = 1 ∧ (geometry 255).toNat % 64 = 0 ∧
    (geometry 255).toNat % 2 ^ 20 + (geometry 255).toNat / 2 ^ 36 % 256 * ((geometry 255).toNat / 2 ^ 20 % 65536) * 64 ≤ buffered.scratchSize 0 ∧
    (demo (geometry 1) 0 0 0).scratchSize 0 < (geometry 1).toNat % 2 ^ 20 + (geometry 1).toNat / 2 ^ 36 % 256 * ((geometry 1).toNat / 2 ^ 20 % 65536) * 64 ∧
    ¬ (1 ≤ (0 : Word).toNat / 2 ^ 20 % 65536) ∧ (buffered.myCore.cbuf 3).nslot = 2 ∧ (buffered.myCore.cbuf 3).filled.length = 1 ∧
    (buffered.myCore.cbuf 4).nslot = 0) ∧
    (barred 1 0 5 4).Calm ∧ ((barred 1 0 5 4).holdsBarrier 1 (idScope bar0.imm.toNat) (idIndex bar0.imm.toNat) = true ∧
    (barred 1 0 5 4).thr.asid = 1 ∧ (demo 0 0 0 0).holdsBarrier 1 1 0 = false ∧ (demo 1 0 0 0).getS 1 = 1 ∧ (demo 1 0 0 0).getS 2 = 0 ∧
    ((barred 2 0 5 0).actBarrier 0 1 0 1 0).2 = false ∧ ((barred 1 0 5 0).actBarrier 0 1 0 1 0).2 = false ∧
    (5 : Word) < (((barred 1 0 5 0).actBarrier 0 1 0 1 0).1.barrier (barrierOf 0 1 0)).phase ∧
    ¬ (5 : Word) < (((barred 2 0 5 0).actBarrier 0 1 0 1 0).1.barrier (barrierOf 0 1 0)).phase ∧
    (barred 1 0 5 4).getS 1 < ((barred 1 0 5 4).barrier (barrierOf 0 1 0)).phase ∧ ¬ (barred 1 0 5 5).getS 1 < ((barred 1 0 5 5).barrier (barrierOf 0 1 0)).phase ∧
    (barred 1 0 5 0).side.phendMark (barred 1 0 5 0).pc (barrierOf 0 1 0) = none ∧
    (marked 5 5).side.phendMark (marked 5 5).pc (barrierOf 0 1 0) = some 5) ∧ (marked 5 5).Calm ∧ (¬ (5 : Word) < ((marked 5 5).barrier (barrierOf 0 1 0)).phase ∧
    (marked 5 6).side.phendMark (marked 5 6).pc (barrierOf 0 1 0) = some 5 ∧ (5 : Word) < ((marked 5 6).barrier (barrierOf 0 1 0)).phase ∧
    joined.otherMembers 0 = [7] ∧ 8 ∉ joined.otherMembers 0 ∧ 9 ∉ joined.otherMembers 0 ∧ joined.winter = false) ∧
    { joined with winter := true }.winter = true :=
  ⟨calm_of (by decide +kernel), by decide +kernel, calm_of (by decide +kernel), by decide +kernel, calm_of (by decide +kernel), by decide +kernel,
    calm_of (by decide +kernel), by decide +kernel, rfl⟩

/-- A job card at VA 0x100 of the scalar path, for context 1, one logical core with its entry at 0x1000. -/
def cardBytes (entry ctrl : Nat) : List Byte :=
  toBytes 8 entry ++ toBytes 8 0 ++ toBytes 8 1 ++ toBytes 4 0 ++ toBytes 4 1 ++ toBytes 8 ctrl ++ toBytes 88 0
def carded (entry ctrl : Nat) : State :=
  let s := demo 0x100 0 0 0
  { s with msys := s.msys.store 0x200100 (cardBytes entry ctrl) 1 }
/-- The demo state with one more job. -/
def withJob (j : Job) : State := { demo 0 0 0 0 with jobs := [j], finished := [(9, 77)] }
/-- A job whose strips are done, with one column of `.i32` at 0x40 to combine by sums into 0x80, or from an unmapped place. -/
def combineJob (src : Word) : Job :=
  { loaderJob 2 with
    st := .completing, cores := [], strips := 1, finished := 1,
    card := { loaderCard with ctrl := 0x400082 + 2 ^ 43 + 4 * 2 ^ 46, cmbsrc := src, cmbdst := 0x80, cmblen := 1, doneAt := 0x40 } }
def doneJob (at_ : Word) : Job := { combineJob 0x40 with card := { (combineJob 0x40).card with doneAt := at_ }, combined := true }
/-- The state after the reads of a `jlaunch`. -/
def launching (entry ctrl : Nat) : State :=
  let s := carded entry ctrl
  match s.scalarBytes s.me 16 0x100 with
  | .ok (_, reads) => s.performAll s.cur.core (readsOf reads.eraseDups)
  | .error _ => s
theorem witness_JobsLaunchCombineAndComplete :
    (carded 0x1000 0x400082).Calm ∧ ((carded 0x1000 0x400082).getS 1).toNat % 128 = 0 ∧ ((demo 0x140 0 0 0).getS 1).toNat % 128 = 64 ∧
    (∃ reads, (carded 0x1000 0x400082).scalarBytes (carded 0x1000 0x400082).me 16 0x100 = .ok (cardBytes 0x1000 0x400082, reads)) ∧
    ((cardOf (cardBytes 0x1000 0x400082)).asid = 1 ∧ (carded 0x1000 0x400082).thr.asid = 1 ∧ (carded 0x1000 0x400082).jobs.length < 65536 ∧
    (match ((launching 0x1000 0x400082).submitCard (cardOf (cardBytes 0x1000 0x400082)) false true).1 with | .accepted h => h == 2 | _ => false) = true ∧
    (match ((launching 0x1004 0x400082).submitCard (cardOf (cardBytes 0x1004 0x400082)) false true).1 with | .refused n => n == 1 | _ => false) = true ∧
    (cardOf (cardBytes 0x1004 0x400082)).entry.toNat % 8 ≠ 0 ∧ (cardOf (cardBytes 0x1000 0x82)).asid ≠ user.thr.asid ∧ user.regs.priv = false ∧
    ((demo 0x8000000000000001 0 0 0).getS 1).getLsbD 63 = true) ∧ (∃ j ∈ (demo 1 0 0 0).jobs, j.handle = ((demo 1 0 0 0).getS 1).toNat) ∧
    (((withJob (doneJob 0)).setS 1 9).getS 1 = 9 ∧ (withJob (doneJob 0)).finished = [(9, 77)] ∧ (∀ j ∈ (withJob (doneJob 0)).jobs, j.handle ≠ 9) ∧
    (∀ x ∈ (demo 5 0 0 0).finished, x.1 ≠ 5) ∧
    (withJob (combineJob 0x40)).job 2 = some (combineJob 0x40) ∧ (combineJob 0x40).toCombine = true ∧ (withJob (combineJob 0x40)).winter = false ∧
    ((withJob (combineJob 0x40)).combineFrom ((withJob (combineJob 0x40)).agentOf (combineJob 0x40)) (combineJob 0x40).card .i32 1 1 0).isSome = true ∧
    ((withJob (combineJob 0x20000000)).combineFrom ((withJob (combineJob 0x20000000)).agentOf (combineJob 0x20000000)) (combineJob 0x20000000).card .i32 1 1 0) = none ∧
    (combineJob 0x40).card.cmbTy = some .i32 ∧
    (doneJob 0).st = .completing ∧ (doneJob 0).toCombine = false ∧ (doneJob 0).card.doneAt = 0 ∧ (doneJob 0x40).card.doneAt ≠ 0 ∧
    (withJob (doneJob 0x40)).job 2 = some (doneJob 0x40)) ∧
    (withJob (doneJob 0x40)).vectorAccess (withJob (doneJob 0x40)).msys ((withJob (doneJob 0x40)).agentOf (doneJob 0x40)) .store 0x40 8 8
      = .ok { pa := 0x10000040, key := 1 } ∧
    (∃ c, (withJob (doneJob 0x20000000)).vectorAccess (withJob (doneJob 0x20000000)).msys ((withJob (doneJob 0x20000000)).agentOf
      (doneJob 0x20000000)) .store 0x20000000 8 8 = .error c) ∧
    65536 ≤ ({ carded 0x1000 0x400082 with jobs := List.replicate 65536 (loaderJob 1) }).jobs.length ∧
    (gangJob.st ≠ .completing ∧ busy.job 2 = some gangJob ∧ gangJob.waitSince = some 0 ∧ 1000000 ≤ { busy with time := 1000000 }.time) ∧
    ({ loaderJob 1 with heldSince := some 0 }).heldSince = some 0 :=
  ⟨calm_of (by decide +kernel), by decide +kernel, by decide +kernel, ex_fst (by decide +kernel), by decide +kernel,
    ⟨(demo 1 0 0 0).jobs.head (by decide +kernel), by decide +kernel, by decide +kernel⟩, by decide +kernel, ok_of (by decide +kernel),
    ex_error (by decide +kernel), Nat.le_of_eq (List.length_replicate ..).symm, by decide +kernel, rfl⟩

/-- The demo state with all 512 KiB of the core's scratch allocated, after `csave` there, and with the header of a vector area there. -/
def roomy : State :=
  let s := demo 0x007FFFFFFFF00000 0 0 0
  s.setCore 0 { s.core 0 with scrb := 16 }
def csaved : State := after (exec (.csave (w3 0 1 0 .i8)) roomy) roomy
def vsaved : State := { roomy with msys := roomy.msys.store 0x400000000000 [1, 0, 0, 0, 1, 0, 0, 0, 0, 2] 0 }
def areaOf (s : State) (n : Nat) : List Byte := s.vecBytes s.msys s.me 0x007FFFFFFFF00000 8 n
/-- A range of words in the allocated scratch passes the checks. -/
theorem vecRange_scratch {s : State} {w : Who} {m : MemSys} {k : AccessKind} (hs : s.scratchSize w.core = 524288) (n : Nat) :
    ∀ (va : Word) (off : Nat), va.toNat = 0x007FFFFFFFF00000 + off → off % 8 = 0 → off + 8 * n ≤ 524288 →
      s.vecRange m w k va 8 n = none := by
  induction n with
  | zero => intros; rfl
  | succ n ih =>
    intro va off hv h8 hn
    have e1 : canonical va = true := by simp only [canonical, hv, Bool.or_eq_true, beq_iff_eq]; omega
    have e2 : va56 va = 0x007FFFFFFFF00000 + off := by simp only [va56, hv]; omega
    have e3 : inScratch va = true := by simp only [inScratch, e2, Bool.and_eq_true, decide_eq_true_eq]; omega
    have e4 : (0x007FFFFFFFF00000 + off) % 2 ^ 20 = off := by omega
    have e5 : (0x007FFFFFFFF00000 + off) % 8 = 0 := by omega
    have e6 : ¬ 524288 < off + 8 := by omega
    have ha : s.vectorAccess m w k va 8 8 = .ok { pa := s.scratchPa w.core off, key := 0 } := by
      simp only [State.vectorAccess, e1, e2, e3, e4, hv, e5, hs, e6, if_false, if_true, Bool.not_true, Bool.false_eq_true, bne_self_eq_false]
    have he : (va + BitVec.ofNat 64 8).toNat = 0x007FFFFFFFF00000 + (off + 8) := by
      rw [BitVec.toNat_add, hv]; simp; omega
    simp only [State.vecRange, ha, ih _ (off + 8) he (by omega) (by omega)]
theorem partsBad_scratch {s : State} (hs : s.scratchSize s.me.core = 524288) (base : Word) (hbase : base.toNat = 0x007FFFFFFFF00000)
    (l : List (Nat × List Byte)) (h : ∀ p ∈ l, p.1 % 8 = 0 ∧ p.1 + p.2.length ≤ 524288) : s.partsBad base l = none := by
  induction l with
  | nil => rfl
  | cons p l ih =>
    have hp := h p (by simp)
    have hv : (base + BitVec.ofNat 64 p.1).toNat = 0x007FFFFFFFF00000 + p.1 := by rw [BitVec.toNat_add, hbase]; simp; omega
    simp only [State.partsBad, vecRange_scratch (k := .store) (m := s.msys) hs (p.2.length / 8) _ p.1 hv hp.1 (by omega),
      ih (fun q hq => h q (by simp [hq]))]
theorem toBytes_length (n x : Nat) : (toBytes n x).length = n := by
  induction n generalizing x with
  | zero => rfl
  | succ n ih => simp [toBytes, ih]
theorem flatten_length {α β : Type} (f : α → List β) (c : Nat) (h : ∀ x, (f x).length = c) (l : List α) :
    ((l.map f).flatten).length = c * l.length := by
  induction l with
  | nil => rfl
  | cons x l ih => simp only [List.map_cons, List.flatten_cons, List.length_append, ih, h, List.length_cons, Nat.mul_add]; omega
theorem vectorParts_fit (f : RegFile) (ms : BitVec 19) (sl : BitVec 4) (a : Nat) (full : Bool) (hb : ∀ n, vget f.b n none = none) :
    ∀ p ∈ vectorParts f 512 ms sl a full, p.1 % 8 = 0 ∧ p.1 + p.2.length ≤ 524288 := by
  intro p hp
  simp only [vectorParts, List.mem_append, List.mem_map, List.mem_cons, List.not_mem_nil, or_false, List.mem_filter, List.mem_range] at hp
  have hk : (((List.range 8).map (fun n => toBytes (512 / 8) (vget f.k n 0).toNat)).flatten).length = 512 := by
    rw [flatten_length _ 64 (fun _ => toBytes_length _ _)]; rfl
  have ha : (((List.range 8).map (fun n => ((vget f.acc n (Vector.replicate 128 0)).toList.map w80Bytes).flatten)).flatten).length = 16384 := by
    rw [flatten_length _ 2048 (fun n => ?_)]; rfl
    rw [flatten_length w80Bytes 16 (fun _ => toBytes_length _ _)]; simp
  rcases hp with ((rfl | ⟨n, ⟨hn, -⟩, rfl⟩) | rfl | rfl) | ⟨n, hn, rfl⟩
  · have hd : (((List.range 4).map (fun n => toBytes 8 (bDescriptor (vget f.b n none)))).flatten).length = 32 := by
      rw [flatten_length _ 8 (fun _ => toBytes_length _ _)]; rfl
    simp only [vectorHeader, List.length_append, toBytes_length, hd]; decide
  · simp only [VReg.slotImage, List.length_append, toBytes_length, slotBytes]; omega
  · simp only [hk, maskOffset, slotBytes]; decide
  · simp only [ha, accOffset, maskOffset, slotBytes]; decide
  · simp only [hb, List.nil_append, List.length_nil, List.length_replicate, bOffset, accOffset, maskOffset, slotBytes]; omega
theorem threadParts_fit (r : ThreadRegs) (a : Nat) : ∀ p ∈ threadParts r a, p.1 % 8 = 0 ∧ p.1 + p.2.length ≤ 524288 := by
  intro p hp
  have hw : ∀ l : List Word, (wordBytes l).length = 8 * l.length := flatten_length _ 8 (fun _ => toBytes_length _ _)
  simp only [threadParts, List.mem_cons, List.not_mem_nil, or_false] at hp
  rcases hp with rfl | rfl
  · simp [hw, toBytes_length, ThreadRegs.savedList]
  · simp [hw, toBytes_length]
/-- A thread area built from its two parts. -/
def threadArea (r : ThreadRegs) : List Byte :=
  match threadParts r 1 with
  | [p, q] => p.2 ++ List.replicate (q.1 - p.2.length) 0 ++ q.2
  | _ => []
theorem bytesAt_mid (a l c : List Byte) : bytesAt (a ++ l ++ c) a.length l.length = l := by
  refine List.ext_getElem (by simp [bytesAt]) (fun i h1 h2 => ?_)
  simp only [bytesAt, List.getElem_map, List.getElem_range, List.getD_eq_getElem?_getD]
  rw [List.getElem?_append_left (by simp; omega), List.getElem?_append_right (by omega)]
  simp [h2]
theorem threadArea_holds (r : ThreadRegs) : ∀ p ∈ threadParts r 1, bytesAt (threadArea r) p.1 p.2.length = p.2 := by
  have hw : ∀ l : List Word, (wordBytes l).length = 8 * l.length := flatten_length _ 8 (fun _ => toBytes_length _ _)
  intro p hp
  simp only [threadParts, List.mem_cons, List.not_mem_nil, or_false] at hp
  rcases hp with rfl | rfl
  · simpa only [threadArea, threadParts, List.nil_append, List.append_assoc, List.length_nil] using
      bytesAt_mid [] (toBytes 4 1 ++ toBytes 4 1 ++ wordBytes (r.s.toList.drop 1) ++ wordBytes r.savedList ++ toBytes 16 0) _
  · have h := bytesAt_mid ((toBytes 4 1 ++ toBytes 4 1 ++ wordBytes (r.s.toList.drop 1) ++ wordBytes r.savedList ++ toBytes 16 0)
        ++ List.replicate (0x340 - (toBytes 4 1 ++ toBytes 4 1 ++ wordBytes (r.s.toList.drop 1) ++ wordBytes r.savedList ++ toBytes 16 0).length) 0)
      (wordBytes r.shadow.toList ++ toBytes 96 0) []
    have hl : ((toBytes 4 1 ++ toBytes 4 1 ++ wordBytes (r.s.toList.drop 1) ++ wordBytes r.savedList ++ toBytes 16 0)
        ++ List.replicate (0x340 - (toBytes 4 1 ++ toBytes 4 1 ++ wordBytes (r.s.toList.drop 1) ++ wordBytes r.savedList ++ toBytes 16 0).length)
          (0 : Byte)).length = 0x340 := by
      have : (toBytes 4 1 ++ toBytes 4 1 ++ wordBytes (r.s.toList.drop 1) ++ wordBytes r.savedList ++ toBytes 16 0).length ≤ 0x340 := by
        simp [hw, toBytes_length, ThreadRegs.savedList]
      rw [List.length_append, List.length_replicate]; omega
    rw [hl, List.append_nil] at h
    exact h
theorem witness_ContextsSaveAndRestore :
    user.Calm ∧ user.regs.priv = false ∧ (demo 0x420 0 0 0).Calm ∧ (demo 0x420 0 0 0).regs.priv = true ∧ ((demo 0x420 0 0 0).getS 1).toNat % 64 ≠ 0 ∧
    roomy.Calm ∧ roomy.regs.priv = true ∧ roomy.getS 1 = 0x007FFFFFFFF00000 ∧ (roomy.getS 1).toNat % 64 = 0 ∧
    roomy.partsBad (roomy.getS 1) (threadParts roomy.regs 1) = none ∧
    (∀ full, roomy.partsBad (roomy.getS 1) (vectorParts roomy.file 512 roomy.myCore.mshape roomy.myCore.slip 1 full) = none) ∧
    roomy.rangeReads roomy.msys .load false (roomy.getS 1) 8 2 = [] ∧
    (∀ n, n ≤ 65536 → roomy.vecRange roomy.msys roomy.me .load (roomy.getS 1) 8 n = none) ∧ areaBytes roomy.vlmax / 8 ≤ 65536 ∧
    natAt (areaOf roomy 128) 0 4 ≠ 1 ∧ csaved.Calm ∧ natAt (areaOf csaved 128) 0 4 = 1 ∧
    vsaved.Calm ∧ natAt (areaOf vsaved 8) 0 4 = 1 ∧ natAt (areaOf vsaved 8) 4 1 % 2 = 1 ∧ natAt (areaOf vsaved 8) 8 2 = vsaved.vlmax ∧
    (∀ n, n ≤ 65536 → vsaved.vecRange vsaved.msys vsaved.me .load (vsaved.getS 1) 8 n = none) ∧
    roomy.regs.vl < 65536 ∧ roomy.regs.vstart < 65536 ∧
    (∀ p ∈ threadParts roomy.regs 1, bytesAt (threadArea roomy.regs) p.1 p.2.length = p.2) := by
  have h1 : roomy.getS 1 = 0x007FFFFFFFF00000 := by decide +kernel
  have h2 : vsaved.getS 1 = 0x007FFFFFFFF00000 := by decide +kernel
  have hs : roomy.scratchSize roomy.me.core = 524288 := by decide +kernel
  have ht : vsaved.scratchSize vsaved.me.core = 524288 := by decide +kernel
  have hb : roomy.file.b = Vector.replicate 4 none := by decide +kernel
  refine ⟨calm_of (by decide +kernel), by decide +kernel, calm_of (by decide +kernel), by decide +kernel, by decide +kernel, calm_of (by decide +kernel),
    by decide +kernel, h1, by decide +kernel, ?_, fun full => ?_, by decide +kernel, fun n hn => ?_, by decide +kernel, by decide +kernel, calm_of (by decide +kernel),
    by decide +kernel, calm_of (by decide +kernel), by decide +kernel, by decide +kernel, by decide +kernel, fun n hn => ?_, by decide +kernel,
    by decide +kernel, threadArea_holds _⟩
  · exact partsBad_scratch hs _ (by rw [h1]; rfl) _ (threadParts_fit _ _)
  · refine partsBad_scratch hs _ (by rw [h1]; rfl) _ (vectorParts_fit _ _ _ _ _ (fun n => ?_))
    simp only [hb, vget, Vector.toList_replicate, List.getD_eq_getElem?_getD, List.getElem?_replicate]
    split <;> rfl
  · exact vecRange_scratch hs n _ 0 (by rw [h1]; rfl) rfl (by omega)
  · exact vecRange_scratch ht n _ 0 (by rw [h2]; rfl) rfl (by omega)

/-- Halves of each kind: a sum, a load and a store at the word after `s1`, a branch, a vector sum. -/
def hAdd : Half := { op := .add, d := 3, s := 1, x := 0, low := 0x0500 }
def hBr : Half := { op := .brz, d := 0, s := 8, x := 0, low := 2 }
def hLd : Half := { op := .ld, d := 3, s := 1, x := 0, low := 1 }
def hNop : Half := { op := .nop, d := 0, s := 0, x := 0, low := 0 }
def hVadd : Half := { op := .vadd, d := 15, s := 1, x := 0, low := 0x0500 }
theorem witness_PairsReadBeforeEitherWrites :
    (demo 0x40 0 0 0).Calm ∧ WellFormed (.pairedWord hAdd hAdd) = true ∧ WellFormed (.pairedWord hAdd hBr) = true ∧
    WellFormed (.pairedWord hLd hAdd) = true ∧ WellFormed (.pairedWord hVadd hNop) = true ∧ WellFormed (.pairedWord { hLd with op := .st } hAdd) = true ∧
    (demo 0x40 0 0 0).scalarAccess (demo 0x40 0 0 0).msys (demo 0x40 0 0 0).me .load 0x48 8 8 false = .ok { pa := 0x200048, key := 1 } ∧
    (demo 0x40 0 0 0).scalarAccess (demo 0x40 0 0 0).msys (demo 0x40 0 0 0).me .store 0x48 8 8 false = .ok { pa := 0x200048, key := 1 } ∧
    (∃ c, (demo 0x41 0 0 0).scalarAccess (demo 0x41 0 0 0).msys (demo 0x41 0 0 0).me .load 0x49 8 8 false = .error c) ∧
    (∃ c, (demo 0x41 0 0 0).scalarAccess (demo 0x41 0 0 0).msys (demo 0x41 0 0 0).me .store 0x49 8 8 false = .error c) ∧ (demo 0x41 0 0 0).Calm ∧
    (demo 0x40 0 0 0).Canonical ∧ hVadd.op.isVector = true ∧ two.vl ≤ two.vlmax ∧ two.vlmax ≤ 2048 ∧ two.vstart < two.vl ∧ hVadd.d.toNat < 16 ∧
    two.Calm ∧ beyond.vlmax < beyond.vl ∧ beyond.Calm :=
  ⟨calm_of (by decide +kernel), by decide, by decide, by decide, by decide, by decide, ok_of (by decide +kernel), ok_of (by decide +kernel),
    ex_error (by decide +kernel), ex_error (by decide +kernel), calm_of (by decide +kernel), demo_canonical _ _ _ _ (by decide +kernel), by decide,
    by decide +kernel, by decide +kernel, by decide +kernel, by decide, two_calm, by decide +kernel, calm_of (by decide +kernel)⟩
/-- Words from VA 0x1010 on: `vpend`, or a reserved word before it, in a state with VL elements. -/
def coded (l : List Nat) (vl : Nat) : State :=
  let s := lanes (demo 0 0 0 0) .i32 [1, 2] [] 0 vl
  { s with msys := s.msys.store 0x201010 (l.flatMap codeBytes) 1 }
def vf : W3 := { w3 0 0 0 .i8 with imm := 2 }
def pending : State :=
  let s := demo 0 0 0 0
  s.setSide { s.side with pending := [{ code := 16, val := 0x40, fid := 0 }, { code := 11, val := 3, fid := 0 }] }
theorem witness_BlocksAndAsynchronousTraps :
    (coded [0x0C00000003000000] 2).Calm ∧ (0x1000 + ((vf.imm.signExtend 64 : Word) <<< 3)).toNat % 8 = 0 ∧ (coded [0x0C00000003000000] 2).pc = 0x1000 ∧
    (coded [0x0C00000003000000] 2).vpendFrom 32 0x1010 = .ok (some 0x1010) ∧ (coded [] 2).vpendFrom 32 0x1010 = .ok none ∧ (coded [] 2).Calm ∧
    (∃ c a, (coded [] 2).vpendFrom 32 0x1FFFF8 = .error (c, a)) ∧
    ((coded [0x0C00000003000000] 2).vpAll 0x1010 0x1010 none [0, 1]).toOption.isSome = true ∧
    (coded [0x0600000000000000, 0x0C00000003000000] 2).vpendFrom 32 0x1010 = .ok (some 0x1018) ∧
    ((coded [0x0600000000000000, 0x0C00000003000000] 2).vpAll 0x1010 0x1018 none [0, 1]).toOption.isSome = false ∧
    (List.range (coded [0x0C00000003000000] 0).vl) = [] ∧ ((demo 4 0 0 0).getS 1).toNat % 8 ≠ 0 ∧
    pending.Calm ∧ pending.thr.takes = true ∧ (demo 0 0 0 0).thr.takes = false :=
  ⟨calm_of (by decide +kernel), by decide, by decide +kernel, ok_of (by decide +kernel), ok_of (by decide +kernel), calm_of (by decide +kernel),
    ex_error2 (by decide +kernel), by decide +kernel, ok_of (by decide +kernel), by decide +kernel, by decide +kernel, by decide +kernel,
    calm_of (by decide +kernel), by decide +kernel, by decide +kernel⟩


-- Scheduler, memory system, power, host, steps -------------------------------------------------------------------------------

/-- Job 1 stopped and saved into slot 0 of context 1, with the requests and reply log given. -/
def saved1 (rs : List Request) : Job :=
  { loaderJob 1 with
    cores := [], started := 1, readySince := some 0,
    lcores := [(0, { LCore.zero with
      st := .saved, slot := some 0, group := 1,
      threads := [{ side := { Side.zero with requests := rs }, ended := false, pc := 0x1010, priv := true, stopped := none }] })] }
def stoppedWith (rs : List Request) (log hdr : List Byte) : State :=
  { demo 0 0 0 0 with
    jobs := [saved1 rs], cores := [],
    contexts := SMap.set loaded.contexts 1 { loaderContext 0 with slots := [(0, { job := 1, lcore := 0 })], windows := win0 },
    msys := (loaded.msys.store (0x500000 + 4096) log 0).store (0x500000 + 0x300) hdr 0 }
def ask : Request := { fid := 5, kind := 1, reg := 3, elem := 1, va := 0x40, ty := .i64, answer := { state := 1, code := 0, value := 7 }, slice := none }
def replying : State := stoppedWith [ask] [5, 0, 0, 0, 67, 0, 1, 0] [1, 0, 1, 0]

theorem witness_SchedulerMovesLogicalCores :
    (queued.job 2 = some oneJob ∧ queued.grantOk oneJob [1] = true ∧ queued.grantOk oneJob [0] = false ∧ oneJob.cores = [] ∧ oneJob.lcores = [] ∧
    oneJob.next = 0 ∧ 0 < oneJob.strips ∧ oneJob.card.eqx = false ∧ oneJob.card.threads = 1 ∧
    busy.victimsAt 5 = [] ∧ busy.victimsAt 0 = [0] ∧ busy.holder 0 = some (busy.jobs.head (by decide +kernel)) ∧
    busy.job 1 = some (busy.jobs.head (by decide +kernel)) ∧ (busy.core 0).residents = [(1, 0)] ∧
    (busy.jobs.head (by decide +kernel)).handle = 1 ∧ ((busy.jobs.head (by decide +kernel)).lcore 0).slot = none ∧
    ((busy.context 1).bind (fun cx => cx.takeSlot 0)) = some 0 ∧ busy.slotsFor [0] = true) ∧ { busy with winter := true }.winter = true ∧
    (((busy.jobs.head (by decide +kernel)).lcore 0).st ≠ .saved ∧ (saved1 []).ended1 = false ∧ (stoppedWith [] [] []).levelDue = false ∧
    (stoppedWith [] [] []).job 1 = some (saved1 []) ∧ ((saved1 []).lcore 0).st = .saved ∧ (stoppedWith [] [] []).winter = false ∧
    (stoppedWith [] [] []).firstToPlace (saved1 []) (!(saved1 []).cores.isEmpty && !(saved1 []).card.gang) = true ∧
    ((stoppedWith [] [] []).context 1).bind (fun cx => (stoppedWith [] [] []).resumePlaces (saved1 []) cx 1 3) = some ([3], [(1, 3)]) ∧
    ((stoppedWith [] [] []).context 1).bind (fun cx => (stoppedWith [] [] []).resumePlaces (saved1 []) cx 1 1023) = none ∧
    ((stoppedWith [] [] []).context 1).isSome = true) ∧ { stoppedWith [] [] [] with winter := true }.winter = true ∧ replying.winter = false ∧
    replying.job 1 = some (saved1 [ask]) ∧ ((saved1 [ask]).lcore 0).threads.length = 1 ∧ replying.Canonical ∧
    [ask].find? (fun q => q.fid == 5) = some ask ∧ (∀ r ∈ [ask], r.fid ≠ 6) ∧
    replying.findEntry (0x500000 + 4096) 5 (natAt (replying.msys.load 0 (0x500000 + 0x300) 2) 0 2) 0 = some 0x501000 :=
  ⟨by decide +kernel, rfl, by decide +kernel, rfl, by decide +kernel, by decide +kernel, by decide +kernel,
    (by decide +kernel : replying.msys.mem.wf = true), by decide +kernel, by decide +kernel, by decide +kernel⟩

/-- The saved job as a GANG job, of one core or, as an HPQ job of 4 threads on a die, of one whole quad. -/
def gangSaved (whole : Bool) : Job :=
  let c := { loaderCard with ctrl := if whole then 0x40C0C3 else 0x4000C2, nlog := if whole then 4 else 1 }
  { saved1 [] with card := c }
def gangStopped (whole : Bool) : State := (stoppedWith [] [] []).setJob (gangSaved whole)
theorem witness_GangsResumeWhole : (gangSaved false).card.gang = true ∧ (gangSaved false).card.wholeQuads = false ∧ (gangSaved true).card.gang = true ∧
    (gangSaved true).card.wholeQuads = true ∧ (gangSaved true).keptGroup 1 = false ∧
    ((gangStopped false).context 1).bind (fun cx => (gangStopped false).resumePlaces (gangSaved false) cx 1 3) = some ([3], [(1, 3)]) ∧
    ((gangStopped true).context 1).bind (fun cx => (gangStopped true).resumePlaces (gangSaved true) cx 1 4) = some ([4, 5, 6, 7], [(1, 4)]) := by
  decide +kernel

/-- A sub-block that moves, one that is pinned, one that has moved three times long ago and one just now, as records 0 to 3. -/
def moving : State :=
  let go : Residence := { Residence.zero with tier := 0, moving := true, dest := some (1, 1, 3), moved := 1022 }
  { loaded with
    time := 16000000, accepted := loaded.accepted ||| 64, pod := [(2, 1)],
    msys := { loaded.msys with records := [(0, go), (1, { Residence.zero with tier := 0, pinned := true, pinleft := 1 }),
      (2, { go with moved := 1023, moves := 3 }), (3, { go with moved := 1023, moves := 3, windowAt := 1000000 })] } }
def poisonedLine : State := { moving with msys := moving.msys.setLine 1 { moving.msys.line 1 with poison := true } }
/-- The loaded machine when quad 0 has come to 640 edges of its A-clock. -/
def ticked : State := loaded.setQuad 0 { loaded.quad 0 with edges := 640 }
theorem quadNow_ticked : ticked.quadNow 0 = ticked.quad 0 := quadNow_still (by decide +kernel) (by decide +kernel) (by decide +kernel)
theorem witness_MemorySystemEventsChangeTheirRecords :
    (moving.winter = false ∧ loaded.time < vget loaded.epochAt 0 0 ∧ vget moving.epochAt 0 0 ≤ moving.time ∧
    SMap.find moving.msys.records 1 = some (moving.msys.record 1) ∧
    (moving.msys.record 1).home moving.pkg.toNat 1 = some (moving.pkg.toNat, 0) ∧ (moving.msys.record 0).dest = some (1, 1, 3) ∧ (moving.msys.record 0).moving = true ∧
    (moving.msys.record 0).moved < 1023 ∧ 1023 ≤ (moving.msys.record 2).moved ∧ 3 ≤ (moving.msys.record 3).moves ∧
    (moving.msys.record 3).pinned = false ∧ (moving.msys.record 2).moves ≠ 0 ∧ (moving.msys.record 2).windowAt + 16000000 ≤ moving.time ∧
    ¬ ((moving.msys.record 3).moves = 0 ∨ (moving.msys.record 3).windowAt + 16000000 ≤ moving.time) ∧ 1023 ≤ (moving.msys.record 3).moved ∧
    (moving.msys.record 0).moves < 3 ∧ (moving.msys.record 1).dest = none ∧ loaded.time < (loaded.msys.record 0).windowAt + 16000000 ∧
    (moving.msys.record 1).pinned = true ∧ (moving.msys.record 1).pinAt + 1000000 ≤ moving.time ∧ (loaded.msys.record 0).pinned = false ∧
    moving.member 2 = true ∧ 2 ≠ moving.pkg.toNat ∧ moving.subBlock 0x40 = some 0) ∧ moving.Canonical ∧
    (moving.poisoned moving.msys .store 0x40 8 = false ∧ poisonedLine.poisoned poisonedLine.msys .store 0x40 8 = true ∧
    moving.member 3 = false ∧ moving.subBlock (2 ^ 43) = none) ∧ { moving with winter := true }.winter = true :=
  ⟨by decide +kernel, (by decide +kernel : moving.msys.mem.wf = true), by decide +kernel, rfl⟩
theorem witness_ClockOfACoreRises :
    (loaded.quadNow (quadOf (loaded.clockCore 0))).edges / 64 ≤ (loaded.core (loaded.clockCore 0)).ptTicks ∧
    (ticked.core (ticked.clockCore 0)).ptTicks < (ticked.quadNow (quadOf (ticked.clockCore 0))).edges / 64 := by
  rw [show loaded.clockCore 0 = 0 by decide +kernel, show ticked.clockCore 0 = 0 by decide +kernel, show quadOf 0 = 0 from rfl, quadNow_loaded,
    quadNow_ticked]
  exact ⟨by decide +kernel, by decide +kernel⟩

/-- Sub-blocks homed in die 0: one that die 2 uses most, and one that has been quiet for long. -/
def epochal : State :=
  let at0 : Residence := { Residence.zero with tier := 0, dframe := 7 }
  { moving with msys := { loaded.msys with records := [(0, { at0 with cnt := vset at0.cnt 2 100 }), (1, { at0 with dframe := 8, quiet := 63 })] } }
theorem witness_MovesAreChosen :
    (epochal.msys.record 0).home epochal.pkg.toNat 0 = some (epochal.pkg.toNat, 0) ∧ (epochal.msys.record 0).pinned = false ∧
    (epochal.msys.record 0).moving = false ∧ epochal.thPromote ≤ 50 ∧ epochal.thRatio * 0 ≤ 50 ∧ (2 : Nat) ≠ 0 ∧ epochal.thQuiet ≤ 64 ∧
    (epochal.msys.record 1).home epochal.pkg.toNat 1 = some (epochal.pkg.toNat, 0) ∧ epochal.subBlock 0x40 = some 0 ∧ 0x40 / 64 % 1024 = 1 := by
  decide +kernel

/-- Quad 0 with an alarm that waits for its edge, in a stretch, and moving to point 2. -/
def alarmed : State := loaded.setQuad 0 { loaded.quad 0 with alarm := true }
def stretched : State := loaded.setQuad 0 { loaded.quad 0 with stretch := 3 }
def changing : State := loaded.setQuad 0 { loaded.quad 0 with moving := some 2 }
/-- Quad 0 at the end of its first window, and one where a context that has left it issued work in the window before. -/
def ticked1 : State := loaded.setQuad 0 { loaded.quad 0 with edges := 64 }
theorem quadNow_ticked1 : ticked1.quadNow 0 = ticked1.quad 0 := quadNow_still (by decide +kernel) (by decide +kernel) (by decide +kernel)
def fallen : State := loaded.setQuad 0 { loaded.quad 0 with estimate := 100, issued := [(99, 100)] }
theorem witness_WindowsEndAndPowerFalls : (ticked1.quad 0).window + 1 = (ticked1.quadNow 0).edges / 64 ∧ ticked1.quadContexts 0 ≠ [] ∧
    ((99, 100) ∈ (fallen.quad 0).issued ∧ (fallen.quadContexts 0) = [1] ∧ (fallen.context 1).isSome = true) := by
  rw [quadNow_ticked1]
  decide +kernel
/-- A device whose image meets the fused minimum, and one whose stored image does not. -/
def bootable : State := { loaded with running := { loaded.running with arb := 5 }, fusedMin := 1 }
def unbootable : State := { bootable with stored := some { loaded.running with arb := 0 } }
theorem witness_PowerEventsActOnTheirQuads :
    loaded.winter = false ∧ (loaded.quadNow 0).moving = none ∧ (loaded.quadNow 0).op = 5 ∧ (changing.quadNow 0).moving = some 2 ∧ changing.winter = false ∧
    3 < (loaded.quadNow 0).drth.toNat ∧ (loaded.quadNow 0).drth.toNat ≤ 40 ∧ (loaded.quadNow 0).alarm = false ∧ (loaded.quadNow 0).stretch = 0 ∧
    (alarmed.quadNow 0).alarm = true ∧ (alarmed.quadNow 0).drth.toNat ≤ 40 ∧ alarmed.winter = false ∧ (stretched.quadNow 0).stretch ≠ 0 ∧
    (loaded.quadNow 0).edges / 64 ≤ (loaded.quadNow 0).window ∧ (ticked.quadNow 0).window < (ticked.quadNow 0).edges / 64 ∧ ticked.winter = false := by
  rw [quadNow_loaded, quadNow_ticked, quadNow_still (s := changing) (q := 0) (by decide +kernel) (by decide +kernel) (by decide +kernel),
    quadNow_still (s := alarmed) (q := 0) (by decide +kernel) (by decide +kernel) (by decide +kernel),
    quadNow_still (s := stretched) (q := 0) (by decide +kernel) (by decide +kernel) (by decide +kernel)]
  decide +kernel
theorem witness_SamplesLeasesAndReset :
    (loaded.sampleNumber ≤ (loaded.core 0).samples ∧ (moving.core 0).samples < moving.sampleNumber ∧
    (alarmed.quad 0).alarm = true ∧ (alarmed.quad 0).moving = none) ∧
    { loaded with capLease := some (300, 0) }.capLease = some (300, 0) ∧ 0 ≤ { loaded with capLease := some (300, 0) }.time ∧
    { loaded with capLease := some (300, 9) }.time < 9 ∧ (bootable.stored.getD bootable.running).accepted bootable.fusedMin = true ∧
    (unbootable.stored.getD unbootable.running).accepted unbootable.fusedMin = false :=
  ⟨by decide +kernel, rfl, Nat.zero_le _, by decide +kernel, by decide +kernel, by decide +kernel⟩

/-- A started, or a fresh, device with a command of the given body. -/
def told (b : List Byte) : State :=
  { moving with accepted := moving.accepted ||| 64, command := { iodie := 0, conn := 1, seq := 0, reserved := 0, tag := 7, blen := b.length, body := b } }
def fresh (b : List Byte) : State :=
  { State.reset with
    offer := State.reset.offer ||| 1, command := { iodie := 0, conn := 1, seq := 0, reserved := 0, tag := 7, blen := b.length, body := b } }
/-- Fields of given widths, one after the other. -/
def fields (l : List (Nat × Nat)) : List Byte := l.flatMap (fun (n, x) => toBytes n x)
def bindOf (asid keyid : Nat) : List Byte :=
  fields [(2, asid), (2, keyid), (1, 8), (1, 0), (2, 0), (8, 0x900000), (8, 0xA00000), (8, 0), (4, 0), (4, 0), (8, 0), (8, 0), (8, 0xB00000), (4, 1), (4, 0),
    (16, 0), (16, 0), (16, 0), (16, 0), (16, 0), (16, 0), (16, 0), (16, 0), (16, 0), (16, 0), (16, 0), (8, 0)]
def mapOf (slot at_ entry : Nat) : List Byte := fields [(2, 1), (2, slot), (4, 0), (8, at_), (16, entry)]
def good (s : State) : Bool :=
  s.command.reserved == 0 && s.command.blen == s.command.body.length && s.started && !s.winter && !s.recovery
def capOf (seq len : Nat) : List Byte := fields [(8, seq), (2, 900), (2, 0), (4, len)]
def fwOf (i : Nat) : List Byte := fields [(4, i), (4, 2), (4, 1), (4, 0), (1, 9)]
def keyMsg (n : Nat) : List Byte := fields [(8, n)] ++ List.replicate 1608 0
def podMsg : List Byte := fields [(2, 4), (2, 1), (12, 0), (32, 1)]
def acceptOf (set pkg floor : Nat) : List Byte := fields [(32, set), (2, pkg), (2, floor), (28, 0)]
/-- The loaded context, and it with window 5 mapped. -/
def cx1 : Context := { loaderContext 0 with windows := win0 }
def mapped : State := (told []).setContext 1 (cx1.setEntry 5 7)
theorem witness_HostCommandsSubmitAndBind :
    ({ told [] with winter := true, command := { (told []).command with iodie := 1 } }).command.iodie ≠ 0 ∧
    ({ told [] with command := { (told []).command with reserved := 1 } }).command.reserved ≠ 0 ∧
    (good (told (cardBytes 0x1000 0x400082)) = true ∧ (cardBytes 0x1000 0x400082).length = 128 ∧ (told []).jobs.length < 65536 ∧
    (match ((told (cardBytes 0x1000 0x400082)).submitCard (cardOf (cardBytes 0x1000 0x400082)) true true).1 with | .accepted h => h == 2 | _ => false) = true ∧
    (match ((told (cardBytes 0x1004 0x400082)).submitCard (cardOf (cardBytes 0x1004 0x400082)) true true).1 with | .refused n => n == 1 | _ => false) = true) ∧
    65536 ≤ ({ told (cardBytes 0x1000 0x400082) with jobs := List.replicate 65536 (loaderJob 1) }).jobs.length ∧
    (toBytes 8 (2 ^ 63)).length = 8 ∧ 2 ^ 63 ≤ natAt (told (toBytes 8 (2 ^ 63))).command.body 0 8 ∧ natAt (told (toBytes 8 1)).command.body 0 8 < 2 ^ 63 ∧
    good (told (bindOf 2 1)) = true ∧ (bindOf 2 1).length = 256 ∧ (told (bindOf 2 1)).bindCode 2 (told (bindOf 2 1)).bindBody = 0 ∧
    (told (bindOf 1 1)).bindCode 1 (told (bindOf 1 1)).bindBody ≠ 0 ∧ (told (bindOf 2 1)).context 2 = none :=
  ⟨by decide, by decide, by decide +kernel, Nat.le_of_eq (List.length_replicate ..).symm, by decide +kernel⟩
/-- What a key message unwraps to under the package's secret. -/
def unwrapped4 : Option (BitVec 256) := keyUnwrap (kemSecret (bytesAt (keyMsg 4) 8 1568)) (bytesAt (keyMsg 4) 1576 40)
theorem witness_HostCommandsActAndAnswer :
    (natAt (fields [(2, 3), (6, 0)]) 2 6 = 0 ∧ (told []).context 3 = none ∧ ((told []).context 1).isSome = true) ∧
    (∃ j ∈ (told []).jobs, j.card.asid = 1 ∧ j.st = .active) ∧ (∀ j ∈ ({ told [] with jobs := [] }).jobs, j.card.asid = 1 → j.st ≠ .active) ∧
    (good (told (mapOf 5 0x40 0x7)) = true ∧ (mapOf 5 0x40 0x7).length = 32 ∧ natAt (mapOf 5 0x40 0x7) 4 4 = 0 ∧ (fields [(2, 1), (2, 5), (4, 0), (8, 0x40)]).length = 16 ∧
    natAt (mapOf 5 0x41 0x7) 8 8 % 8 ≠ 0 ∧ natAt (mapOf 5 0x40 0x7) 2 2 < 16384 ∧ 16384 ≤ natAt (mapOf 16384 0x40 0x7) 2 2 ∧
    weBad (BitVec.ofNat 128 (ofBytes (bytesAt (mapOf 5 0x40 0xF) 16 16))) = true ∧ weBad (BitVec.ofNat 128 (ofBytes (bytesAt (mapOf 5 0x40 0x7) 16 16))) = false ∧
    (told []).context 1 = some cx1) ∧
    mapped.vectorAccess mapped.msys (mapped.deviceAgent 1) .store 0x40 8 8 = .ok { pa := 0x10000040, key := 1 } ∧
    (∃ c, mapped.vectorAccess mapped.msys (mapped.deviceAgent 1) .store 0x20000040 8 8 = .error c) ∧
    (0x10000040 / 64 ∉ linesOf (cx1.wtab + 16 * 5) 16 ∧ cx1.wtab + 16 * 5 + 16 ≤ 0x10000040) ∧
    (told []).Canonical ∧ ((capOf 1 5).length = 16 ∧ natAt (capOf 1 5) 10 2 = 0 ∧ (told []).capLast < BitVec.ofNat 64 (natAt (capOf 1 5) 0 8) ∧
    ¬ (told []).capLast < BitVec.ofNat 64 (natAt (capOf 0 5) 0 8) ∧ good (told []) = true ∧ natAt (toBytes 8 0) 0 8 = 0 ∧ natAt (toBytes 8 1) 0 8 = 1 ∧
    natAt (toBytes 8 0x10003) 0 8 % 65536 = 3 ∧ ((told []).context (natAt (toBytes 8 0x10003) 0 8 / 65536)).isSome = true ∧
    (fwOf 0).length = 16 + natAt (fwOf 0) 8 4 ∧ natAt (fwOf 0) 12 4 = 0 ∧ natAt (fwOf 0) 4 4 = 2 ∧ natAt (fwOf 3) 0 4 ≠ (told (fwOf 3)).stagedNext ∧
    (keyMsg 4).length = 1616 ∧ natAt (keyMsg 4) 2 6 = 0 ∧ natAt (keyMsg 4) 0 2 = 4 ∧ natAt (keyMsg 0) 0 2 = 0) ∧
    ((∃ key, unwrapped4 = some key ∧ key ≠ 0) ∨ unwrapped4 = some 0 ∨ unwrapped4 = none) ∧
    podMsg.length = 16 + 32 * natAt podMsg 2 2 ∧ natAt podMsg 2 2 = 1 ∧ natAt podMsg 4 12 = 0 ∧ natAt podMsg 16 16 < 2 ∧
    (told podMsg).accepted.getLsbD 6 = true ∧ ({ told podMsg with accepted := 1 }).accepted.getLsbD 6 = false ∧
    (fresh (acceptOf 1 0 0)).started = false ∧ (fresh (acceptOf 1 0 0)).recovery = false ∧ (fresh (acceptOf 1 0 0)).winter = false ∧
    (acceptOf 1 0 0).length = 64 ∧ natAt (acceptOf 1 0 0) 36 28 = 0 ∧
    (BitVec.ofNat 256 (natAt (acceptOf 1 0 0) 0 32) ||| 1) &&& ~~~(fresh []).offer = 0 ∧ natAt (acceptOf 1 8192 0) 32 2 = 8192 := by
  have key : (∃ key, unwrapped4 = some key ∧ key ≠ 0) ∨ unwrapped4 = some 0 ∨ unwrapped4 = none := by
    rcases unwrapped4 with _ | k
    · exact .inr (.inr rfl)
    · by_cases hk : k = 0
      · exact .inr (.inl (by rw [hk]))
      · exact .inl ⟨k, rfl, hk⟩
  exact ⟨by decide +kernel, ⟨(told []).jobs.head (by decide +kernel), by decide +kernel, by decide +kernel, by decide +kernel⟩,
    fun j hj => absurd hj (List.not_mem_nil), by decide +kernel, ok_of (by decide +kernel), ex_error (by decide +kernel), by decide +kernel,
    (by decide +kernel : (told []).msys.mem.wf = true), by decide +kernel, key, by decide +kernel⟩

theorem witness_DecodeAndEncodeAgree : hasWord (.add (w3 3 1 2 .i64)) = true ∧ WellFormed (.add (w3 3 1 2 .i64)) = true ∧
    decodeWord 0x011461C005400000 = .ok (.div { d := 5, a := 6, b := 7, c := 0, ty := .i32, k := 0, q := 0, imm := 0 }) :=
  ⟨by decide, by decide, ok_of (by decide +kernel)⟩
/-- Turns of the loaded thread: its word, its pending trap, a fetch outside its code; and one whose next word, `vadd v3, v1, v2`,
names what another thread of the core is writing, or `add s5, s1, s2`, what an acknowledgement will set. -/
def hart0 : Hart := { core := 0, thread := 0 }
def lost : State := (demo 0 0 0 0).setRegs { (demo 0 0 0 0).regs with pc := 0x40000000 }
def atWord (w : Nat) : State := let s := coded [w] 2; s.setRegs { s.regs with pc := 0x1010 }
def writing3 : State :=
  let s := atWord 0x200C108000440000
  s.setThread { core := 0, thread := 1 } { s.thread { core := 0, thread := 1 } with stopped := some (0x1010, some 3) }
def acked : State := let s := atWord 0x0114108000400000; s.setThr { s.thr with acks := [5] }
/-- The same under a `.spec` probe that will miss. -/
def ackedSpec : State :=
  let s := after (exec (.acprobeSpec { w3 5 1 2 .f with c := 3 }) autumn) autumn
  { s.setThr { s.thr with acks := [5], regs := { s.regs with pc := 0x1010 } } with msys := s.msys.store 0x201010 (codeBytes 0x0114108000400000) 1 }
def waitUntil (t : Word) (s : State) : State := s.setThr { s.thr with waiting := some (5, t) }
def turnOf (t : Turn) (s : State) : State := { s with agenda := [t] }
def ready0 (s : State) : Bool :=
  State.canRun { s with agenda := [], cur := hart0 } hart0 && (State.settleRequests { s with agenda := [], cur := hart0 }).canRun hart0
def settled (s : State) : State := State.settleRequests { s with agenda := [], cur := hart0 }
theorem witness_StepRunsTheDecodedInstruction :
    (turnOf (.run hart0) (demo 0 0 0 0)).sample.nextTurn = (.run hart0, { demo 0 0 0 0 with agenda := [] }) ∧
    (ready0 (demo 0 0 0 0) = true ∧ ready0 pending = true ∧ ready0 lost = true ∧ ready0 writing3 = true ∧ ready0 acked = true ∧ ready0 ackedSpec = true ∧
    (settled pending).thr.takes = true ∧ (settled (demo 0 0 0 0)).thr.takes = false ∧ (settled (demo 0 0 0 0)).waitsForReg = false ∧
    (settled (demo 0 0 0 0)).needsAck = false ∧ (settled writing3).thr.takes = false ∧ (settled writing3).waitsForReg = true ∧
    (settled acked).needsAck = true ∧ (settled acked).confirm.2 = false ∧ (settled ackedSpec).needsAck = true ∧ (settled ackedSpec).confirm.2 = true ∧
    (settled ackedSpec).waitsForReg = false ∧ (settled lost).thr.takes = false) ∧
    (∃ c, (settled lost).scalarAccess (settled lost).view (settled lost).me .fetch (settled lost).pc 8 8 false = .error c) ∧
    (settled (demo 0 0 0 0)).scalarAccess (settled (demo 0 0 0 0)).view (settled (demo 0 0 0 0)).me .fetch (settled (demo 0 0 0 0)).pc 8 8 false
      = .ok { pa := 0x201000, key := 1 } ∧
    (settled (demo 0 0 0 0)).loadAt (settled (demo 0 0 0 0)).view { pa := 0x201000, key := 1 } 8 = toBytes 8 0 ∧
    (settled (waitUntil 9 (demo 0 0 0 0))).thr.waiting = some (5, 9) ∧ ready0 (waitUntil 9 (demo 0 0 0 0)) = true ∧
    ((demo 0 0 0 0).file.busy = 0 ∧ (demo 0 0 0 0).thr.reads = 0 ∧ (demo 0 0 0 0).thr.stores = [] ∧
    scalarSources (.nop (w3 0 0 0 .i8)) = (0, 0) ∧ (demo 0 0 0 0).scalarSpan (.nop (w3 0 0 0 .i8)) = []) ∧
    (∀ c, (demo 0 0 0 0).sampleNumber ≤ ((demo 0 0 0 0).core c).samples) :=
  ⟨rfl, by decide +kernel, ex_error (by decide +kernel), ok_of (by decide +kernel), by decide +kernel, by decide +kernel, by decide +kernel,
    by decide +kernel, fun _ => Nat.zero_le _⟩
/-- A line whose latest request, of core 0, has sequence 1. -/
def requested : State := (demo 0 0 0 0).request 0 0x40 true { done := true, version := 0 }
theorem witness_StepRunsEventsMessagesAndReplays :
    (decodeWord 0).toOption.isSome = true ∧ (featureNeed 0).testBit 1 = false ∧ (decodeWord 0x0600000000000000).toOption = none ∧
    (turnOf (.event .schedulerFailover) (demo 0 0 0 0)).sample.nextTurn = (.event .schedulerFailover, { demo 0 0 0 0 with agenda := [] }) ∧
    isEvent .schedulerFailover = true ∧ WellFormed .schedulerFailover = true ∧
    (∃ t, exec .schedulerFailover { demo 0 0 0 0 with agenda := [] } = .next t) ∧
    (∀ r ∈ (demo 0 0 0 0).replies, r.conn = 1 → r.seq ≠ 0) ∧ (demo 0 0 0 0).winter = false ∧
    (decodeMessage 0 1 0 (toBytes 16 8)).2 = some .liftWinter ∧
    (∃ t, exec .liftWinter { demo 0 0 0 0 with agenda := [], command := (decodeMessage 0 1 0 (toBytes 16 8)).1 } = .next t) ∧
    requested.isReplay 0 0x40 1 0 = true ∧ (demo 0 0 0 0).inbox = [] ∧ { demo 0 0 0 0 with winter := true }.winter = true ∧
    { demo 0 0 0 0 with inbox := [.elapse 1] }.sample.nextTurn = (.elapse 1, demo 0 0 0 0) :=
  ⟨by decide +kernel, by decide +kernel, by decide +kernel, rfl, by decide +kernel, by decide +kernel, ⟨_, rfl⟩, by decide +kernel,
    by decide +kernel, by decide +kernel, ⟨_, rfl⟩, by decide +kernel, by decide +kernel, rfl, rfl⟩
theorem witness_EveryStepGoesOnAndKeepsTheInvariant : State.reset.Legal := ⟨(by decide : State.reset.msys.mem.wf = true), by intro c h; cases h⟩

-- Further clauses -------------------------------------------------------------------------------------------------------------

def went (r : Result) : Bool := match r with | .next _ => true | _ => false
theorem next_of {r : Result} (s : State) (h : went r = true) : r = .next (after r s) := by
  cases r <;> simp_all [went, after]
theorem witness_FloatValues : ∃ (ty : Ty) (s t : Bool) (m n : Nat), ty.isFloat = true ∧ 0 < m * n ∧ 0 < m ∧ 0 < n ∧ s = false ∧ t = true :=
  ⟨.h, false, true, 3, 5, by decide, by decide, by decide, by decide, rfl, rfl⟩
theorem witness_ConversionsOfEverySource : ∃ (f g h : W3) (s : State), s.placed ∧ Ty.ofCode (f.immBits 3 0) = some .h ∧ f.ty.isFloat = true ∧
    Ty.ofCode (g.immBits 3 0) = some .q8 ∧ Ty.q8.isTile = true ∧ Ty.ofCode (h.immBits 3 0) = some .e8 ∧ h.ty.isFloat = true ∧
    (2 ^ 20 - 1 : Nat) < 2 ^ 20 ∧ (255 : Nat) < 256 :=
  ⟨{ w3 3 1 0 .f with imm := 8 }, { w3 3 1 0 .h with imm := 12 }, { w3 3 1 0 .bf with imm := 14 }, demo 0 0 0 0, placed_of (by decide +kernel),
    by decide, by decide, by decide, by decide, by decide, by decide, by decide, by decide⟩
/-- Two threads of the loaded logical core, the second ended or not; and, on core 1, a thread of another job. -/
def pairUp (ended : Bool) (s : State) : State :=
  let s := s.setThread { core := 0, thread := 1 } { Thread.zero with owner := some { job := 1, lcore := 0, tid := 1 }, ended := ended }
  let s := s.setCore 1 { s.core 1 with threads := Vector.replicate 4 Thread.zero }
  s.setThread { core := 1, thread := 0 } { Thread.zero with owner := some { job := 2, lcore := 0, tid := 0 } }
theorem witness_DoubleTrapStopsTheGrant :
    let s := pairUp false shut
    s.placed ∧ (s.regs.priv = true ∧ s.regs.te = false ∧ s.thr.owner = some { job := 1, lcore := 0, tid := 0 } ∧ (s.job 1).isSome = true) ∧
    (∃ j, s.job 1 = some j ∧ s.cur.core ∈ j.cores) ∧ (s.thread { core := 0, thread := 1 }).owner = some { job := 1, lcore := 0, tid := 1 } ∧
    (s.thread { core := 1, thread := 0 }).owner = some { job := 2, lcore := 0, tid := 0 } :=
  ⟨placed_of (by decide +kernel), by decide +kernel, ⟨((pairUp false shut).job 1).getD (loaderJob 1), by decide +kernel, by decide +kernel⟩,
    by decide +kernel, by decide +kernel⟩
def eqx (next : Nat) : Job :=
  { loaderJob 1 with card := { loaderCard with ctrl := loaderCard.ctrl ||| 0x10 }, strips := 2,
                     lcores := [(0, { (loaderJob 1).lcore 0 with next := next })] }
theorem witness_WaitsEndAndStripsRunOut :
    (waitUntil 9 (demo 0 0 0 0)).Calm ∧ (waitUntil 9 (demo 0 0 0 0)).thr.waiting = some (5, 9) ∧ (waitUntil 9 (demo 0 0 0 0)).thr.ended = false ∧
    (waitUntil 9 (demo 0 0 0 0)).thr.owner.isSome = true ∧ (waitUntil 0 (demo 0 0 0 0)).thr.waiting = some (5, 0) ∧
    (match (waitUntil 2000 lostOne).side.resv with | some r => !(waitUntil 2000 lostOne).holds r | none => false) = true ∧
    (eqx 1).card.eqx = true ∧ ((demo 0 0 0 0).setJob (eqx 1)).job 1 = some (eqx 1) ∧ ((demo 0 0 0 0).setJob (eqx 1)).transferring = false ∧
    max ((eqx 1).lcore 0).next (0 * (eqx 1).strips / (eqx 1).card.ncores) < (0 + 1) * (eqx 1).strips / (eqx 1).card.ncores ∧
    (0 + 1) * (eqx 2).strips / (eqx 2).card.ncores ≤ max ((eqx 2).lcore 0).next (0 * (eqx 2).strips / (eqx 2).card.ncores) ∧
    ((pairUp false (demo 0 0 0 0)).thread { (demo 0 0 0 0).cur with thread := 1 }).ended = false ∧
    (∀ i, i < 4 → i ≠ 0 → ((pairUp true (demo 0 0 0 0)).thread { (demo 0 0 0 0).cur with thread := i }).owner.isSome = true →
      ((pairUp true (demo 0 0 0 0)).thread { (demo 0 0 0 0).cur with thread := i }).ended = true) ∧
    (loaderJob 1).strips ≤ { loaderJob 1 with next := 1 }.next ∧ (loaderJob 1).finished + 1 = (loaderJob 1).strips :=
  ⟨calm_of (by decide +kernel), by decide +kernel⟩
theorem witness_CountersAndFreeReads : ∃ (f g : W3) (s : State), s.placed ∧ s.Calm ∧ f.stateReg = 0x00B ∧ g.stateReg = 0x032 ∧ s.regs.priv = true ∧
    (s.context s.thr.asid).isSome = true :=
  ⟨{ w3 5 1 0 .i8 with imm := 0x00B }, { w3 5 0 0 .i8 with imm := 0x032 }, demo 0 0 0 0, placed_of (by decide +kernel), calm_of (by decide +kernel),
    by decide, by decide, by decide +kernel, by decide +kernel⟩
theorem witness_RepliesOnTheirWay : ∃ (f : WM) (s : State) (p : Place), s.Calm ∧ f.c = 0 ∧ s.await ≠ [] ∧ s.await.contains 1 = false ∧
    s.scalarAccess s.msys s.me .load (s.getS f.a + f.off.signExtend 64 * BitVec.ofNat 64 (f.ty.width / 8)) (f.ty.width / 8) (f.ty.width / 8) false
      = .ok p :=
  ⟨wm 5 1 0 .i64, { demo 0x40 0 0 0 with await := [0] }, _, calm_of (by decide +kernel), rfl, by decide, by decide, (ex_ok (by decide +kernel)).choose_spec⟩
/-- The demo state whose page table maps VA 0 onto the 2 MiB that hold the table itself, under the key of device structures. -/
def selfMapped (f : State → State) : State :=
  let s := demo 0x1000 0 0x40 0
  f { s with msys := s.msys.store 0x401000 (toBytes 8 (0x400000 + 0x3F)) 0, keys := SMap.set s.keys 1 0 }
def prog (f : WM) : WM := { f with c := 3 }
/-- The member of a state with C = 0 goes on, and its progress word passes its checks before and after. -/
def counted (m : WM → Instr) (f : WM) (s : State) : Bool :=
  let u := after (exec (m { f with c := 0 }) s) s
  went (exec (m { f with c := 0 }) s) && decide (u.pc = s.pc + 8) && (u.regs.te == s.regs.te) && (u.regs.priv == s.regs.priv) &&
    (s.scalarAccess s.msys s.me .store (s.getS f.c) 8 8 false).toOption.isSome && (s.scalarAccess u.msys s.me .store (s.getS f.c) 8 8 false).toOption.isSome
theorem witness_ProgressWordsOfMembers :
    (∀ m ∈ ([Instr.st, .stc, .ldl, .czero] : List (WM → Instr)), counted m (prog (wm 5 1 2 .i64)) (demo 0x40 0 0x80 0) = true) ∧
    (∀ m ∈ ([Instr.vld, .vlds, .vldg, .vldl, .vst, .vsts, .vstg] : List (WM → Instr)),
      (lanes (demo 0x40 4 0x80 0) .i32 [0, 4] [0, 4] 3 2).fits [(prog (wm 1 1 2 .i32)).ty] ((prog (wm 1 1 2 .i32)).k != 0) = true ∧
      counted m (prog (wm 1 1 2 .i32)) (lanes (demo 0x40 4 0x80 0) .i32 [0, 4] [0, 4] 3 2) = true) ∧
    counted .vstc (prog { wm 1 1 2 .i32 with k := 1 }) (lanes (demo 0x40 4 0x80 0) .i32 [0, 4] [0, 4] 3 2) = true ∧
    (∀ m ∈ ([Instr.vlde, .vste] : List (WM → Instr)), counted m (prog (wm 1 1 0 .i32)) (lanes (demo 0x40 4 0x80 0) .i32 [0, 4] [0, 4] 3 2) = true) ∧
    (∀ m ∈ ([Instr.vldt, .vldtt] : List (WM → Instr)), counted m (prog (wm 3 1 2 .q8)) (tile1 0x40 0x80) = true) ∧
    (tile1 0x40 0x80).vstart % 256 = 0 := by decide +kernel
theorem witness_ProgressWordLost :
    let s := selfMapped id
    let u := after (exec (.st (wm 0 1 2 .i64)) s) s
    s.Calm ∧ s.Canonical ∧ (s.scalarAccess s.msys s.me .store (s.getS 3) 8 8 false).toOption.isSome = true ∧ s.open_ ∧
    exec (.st (wm 0 1 2 .i64)) s = .next u ∧ u.pc = s.pc + 8 ∧ ∃ c, s.scalarAccess u.msys s.me .store (s.getS 3) 8 8 false = .error c :=
  ⟨calm_of (by decide +kernel), (by decide +kernel : (selfMapped id).msys.mem.wf = true), by decide +kernel,
    (by decide +kernel : ((selfMapped id).regs.priv && !(selfMapped id).regs.te) = false), next_of _ (by decide +kernel), by decide +kernel,
    ex_error (by decide +kernel)⟩
theorem witness_SaturatingAndWideElements : ∃ f g : W3, f.ty.isInt = true ∧ f.q.getLsbD 0 = true ∧ Ty.ofCode (f.immBits 3 0) = some .n8 ∧ Ty.n8.isInt = true ∧
    wideTy f.ty .n8 = some .i32 ∧ g.ty.isInt = true ∧ g.q.getLsbD 0 = false ∧ Ty.ofCode (g.immBits 3 0) = some .i32 ∧ wideTy g.ty .i32 = some .i64 :=
  ⟨{ w3 4 1 2 .i16 with imm := 1, q := 1 }, { w3 4 1 2 .n8 with imm := 4 }, by decide, by decide, by decide, by decide, by decide, by decide, by decide,
    by decide, by decide⟩
/-- Every condition code but the last two has its operands' meaning; VSTART at VL. -/
theorem witness_ComparisonConditions : ∃ (f g : W3) (s : State) (c e : CmpFn), cmpOf s.regs (.vcmp f) = some (f, c) ∧ f.ty.isInt = true ∧
    f.immBits 2 0 = 5 ∧ cmpOf s.regs (.vfcmp g) = some (g, e) ∧ g.ty.isVFloat = true ∧ g.immBits 2 0 = 7 ∧ s.fits [f.ty] true = true ∧ s.vl = s.vstart :=
  ⟨{ w3 7 1 2 .n32 with imm := 5 }, { w3 7 1 2 .bf with imm := 7 }, two.setRegs { two.regs with vstart := 2 }, _, _, rfl, by decide, by decide, rfl,
    by decide, by decide, by decide +kernel, by decide +kernel⟩
/-- Reductions: masked and saturating, of no element, of a floating type at a depth above six, and whole. -/
theorem witness_ReductionForms :
    let none := lanes (demo 0 0 0 0) .i32 [] [] 0 0
    let wide := lanes (demo 0 0 0 0) .f [] [] 0 65
    (∃ f : W3, two.fits [f.ty] (f.k != 0) = true ∧ vOk f.ty f.d ∧ f.ty.isInt = true ∧ f.k ≠ 0 ∧ f.q.getLsbD 0 = true ∧ two.vl ≤ 2 ^ 6 ∧ f.imm.getLsbD 0 = false) ∧
    none.placed ∧ none.fits [.i32] false = true ∧ none.vl = 0 ∧ none.vlmax ≤ 2048 ∧
    (∃ f : W3, wide.placed ∧ wide.fits [f.ty] (f.k != 0) = true ∧ vOk f.ty f.d ∧ wide.vlmax ≤ 2048 ∧ f.ty.isVFloat = true ∧ 6 ≤ 7 ∧ wide.vl ≤ 2 ^ 7 ∧
      2 ^ (7 - 1) < wide.vl ∧ f.imm.getLsbD 0 = true) :=
  ⟨⟨{ w3 31 1 0 .i32 with k := 1, q := 1 }, by decide +kernel, (by decide : (31#6).toNat < 32), by decide, by decide, by decide, by decide +kernel, by decide⟩,
    placed_of (by decide +kernel), by decide +kernel, by decide +kernel, by decide +kernel,
    ⟨{ w3 31 1 0 .f with imm := 1 }, placed_of (by decide +kernel), by decide +kernel, (by decide : (31#6).toNat < 32), by decide +kernel, by decide, by decide,
      by decide +kernel, by decide +kernel, by decide⟩⟩
/-- Memory at 0x40 of window 0 holding a RUN image of two `.i32` elements with the given run ends. -/
def withRuns (ends : List Nat) : State := { two with msys := two.msys.store 0x10000040 (imageOf .i32 .run 2 2 [5, 6] ends) 1 }
def wide64 : Option Nat :=
  let s := { lanes (demo 0x40 8 0 0) .i64 [1] [] 0 1 with msys := two.msys.store 0x10000040 ((lanes (demo 0x40 8 0 0) .i64 [1] [] 0 1).image .i64 1) 1 }
  match s.readImage s.msys (s.getS 1) .i64 s.vl with | .ok (some (h, _)) => some h.n | _ => none
/-- What `vlde` makes of the image that a state's memory holds at its base. -/
def imageFate (s : State) : Option Bool :=
  match s.readImage s.msys (s.getS 1) .i32 s.vl with
  | .ok (some (h, planes)) => some (imageReg s.vlmax .i32 h planes).isSome
  | _ => none
theorem witness_ImagesGoodAndBad : imageFate withImage = some true ∧ imageFate (withRuns [1, 2]) = some true ∧ imageFate (withRuns [2, 1]) = some false ∧
    (withRuns [2, 1]).Calm ∧ (withRuns [2, 1]).Canonical ∧ (lanes (demo 0x40 8 0 0) .i64 [1] [] 0 1).fits [.i64] false = true ∧ Ty.i64.wide = true ∧
    wide64.isSome = true :=
  ⟨by decide +kernel, by decide +kernel, by decide +kernel, calm_of (by decide +kernel), (by decide +kernel : (withRuns [2, 1]).msys.mem.wf = true),
    by decide +kernel, by decide, by decide +kernel⟩
/-- `vldt` with an unaligned header; `vstt` within a tile, and with an unaligned payload or header. -/
theorem witness_TileTraps :
    let t := fun (a b c : Word) (v : Nat) => let s := lanes (demo a b c 0) .q8 [1, 2] [] 0 300; s.setRegs { s.regs with vstart := v }
    let f := { wm 1 1 2 .q8 with c := 3 }
    (t 0x400 0x48 0 0).vstart % 256 = 0 ∧ ((t 0x400 0x48 0 0).getS 1).toNat % 256 = 0 ∧ ((t 0x400 0x48 0 0).getS 2).toNat % 16 ≠ 0 ∧
    (∃ c, tileControl ((t 0x400 0x29 0x40 1).getS f.b) f.ty 300 = some c ∧ (t 0x400 0x29 0x40 1).fits [f.ty, c.sty] (f.k != 0) = true) ∧
    ((t 0x400 0x29 0x40 1).vstart % 256 ≠ 0 ∧ (t 0x440 0x29 0x40 0).vstart % 256 = 0 ∧ ((t 0x440 0x29 0x40 0).getS 1).toNat % 256 ≠ 0 ∧
    ((t 0x400 0x29 0x48 0).getS 1).toNat % 256 = 0 ∧ ((t 0x400 0x29 0x48 0).getS f.c).toNat % 16 ≠ 0 ∧ tileControl (0xFF : Word) f.ty 300 = none) ∧
    (∃ c, tileControl (0x229 : Word) f.ty 0 = some c ∧ c.vers = true) :=
  ⟨by decide +kernel, by decide +kernel, by decide +kernel,
    ⟨{ ct := 1, sty := .f, rnd := 0, vers := false, ev := 0 }, by decide +kernel, by decide +kernel⟩, by decide +kernel,
    ⟨{ ct := 1, sty := .f, rnd := 0, vers := true, ev := 0 }, by decide +kernel, by decide⟩⟩

-- Witnesses of the clauses added to statements already witnessed above, and the slots of Clause 29 ------------------------------

/-- R385-R389: eight vectors of 2,048 `.f` elements queued at one edge; edges and 78ths of a nanosecond until the last group is
final, 64·ALC bits a cycle, with an alarm in the fourth cycle or none. -/
def burstOf (alc : Nat) (alarm : Bool) : Quad :=
  let l := fun (_ : Nat) => alc
  let q := (List.range 8).foldl (fun q n => q.enqueue l 0 0 { pc := BitVec.ofNat 64 (8 * n), left := 65536 }) Quad.zero
  let q := ((q.edge l).edge l).edge l
  Quad.dry l 0 0 600 { q with alarm := alarm }
theorem test_burst_alarm : (burstOf 32 true).edges = 288 ∧ (burstOf 32 true).edgeAt = 490 * 78 := by decide +kernel
theorem test_burst_even : (burstOf 32 false).edges = 256 ∧ (burstOf 32 false).edgeAt = 256 * 130 := by decide +kernel
theorem test_burst_capped : (burstOf 16 false).edges = 512 := by decide +kernel

/-- Another thread's work in a slot has nothing more to do, so that TIME may not pass. -/
def heldBack : State := (demo 0 0 0 0).setThread { core := 1, thread := 0 } { Thread.zero with burst := true }
theorem witness_TimestampBehindAndNot : (demo 0 0 0 0).placed ∧ (demo 0 0 0 0).thr.held = [] ∧
    State.timeCap ((demo 0 0 0 0).setThr { (demo 0 0 0 0).thr with burst := false }) = none ∧ heldBack.placed ∧ heldBack.thr.held = [] ∧
    (State.timeCap (heldBack.setThr { heldBack.thr with burst := false })).isSome = true :=
  ⟨placed_of (by decide +kernel), by decide +kernel, by decide +kernel, placed_of (by decide +kernel), by decide +kernel, by decide +kernel⟩
def walking : State := { demo 0x40 0 0 0 with await := [1] }
def walked : Option Place :=
  (walking.scalarAccess walking.msys walking.me .load (walking.getS 1 + (wm 5 1 0 .i64).off.signExtend 64 * BitVec.ofNat 64 (64 / 8)) (64 / 8) (64 / 8)
    false).toOption
theorem witness_WalkOnItsWay : ∃ (f : WM) (s : State) (p : Place), s.Calm ∧ f.c = 0 ∧ s.await.contains 1 = true ∧
    s.scalarAccess s.msys s.me .load (s.getS f.a + f.off.signExtend 64 * BitVec.ofNat 64 (f.ty.width / 8)) (f.ty.width / 8) (f.ty.width / 8) false
      = .ok p ∧ s.unacknowledged (s.sourceKey s.cur.core (s.askedLine 0x40 p.pa)) < 64 :=
  ⟨wm 5 1 0 .i64, walking, walked.get (by decide +kernel), calm_of (by decide +kernel), rfl, by decide, ok_of (Option.some_get _).symm,
    by decide +kernel⟩
/-- Nodes of each kind, and a pair on either side of the order of maxima: −0 and +0. -/
theorem witness_NodesOfAMaximum :
    let node := fun (x : FVal) => ({ v := w80Of x, fl := 0 } : Node)
    fmtW80.decode (node .nan).v.toNat = .nan ∧ fmtW80.decode (node (.inf true)).v.toNat = .inf true ∧
    fmtW80.decode (node (.fin true 0 0)).v.toNat ≠ .nan ∧ fmtW80.decode (node (.fin false 0 0)).v.toNat ≠ .nan ∧
    TreeOp.max.node (node (.fin true 0 0)) (node (.fin false 0 0)) = node (.fin false 0 0) ∧
    TreeOp.min.node (node (.fin true 0 0)) (node (.fin false 0 0)) = node (.fin true 0 0) := by decide +kernel
theorem witness_EncodingsOfARegister : ∃ (f g : W3), two.fits [f.ty] false = true ∧ vOk f.ty f.d ∧ f.ty.wide = false ∧ f.ty.isTile = false ∧
    f.ty.isInt = true ∧ two.vlmax ∈ ([512, 1024, 2048] : List Nat) ∧ two.fits [g.ty] false = true ∧ vOk g.ty g.d ∧ g.ty.isInt = false ∧ g.ty.isTile = false ∧ g.ty.wide = false ∧
    segments (two.velems f.ty f.a.toNat two.vl) ≤ two.vlmax ∧ (two.velems f.ty f.a.toNat two.vl).eraseDups.length ≤ 256 :=
  ⟨w3 31 1 0 .i32, w3 31 1 0 .f, by decide +kernel, (by decide : (31#6).toNat < 32), by decide, by decide, by decide, by decide +kernel, by decide +kernel,
    (by decide : (31#6).toNat < 32), by decide, by decide, by decide, by decide +kernel, by decide +kernel⟩
/-- The second thread of the core is writing v1. -/
def writingV1 : State :=
  two.setThread { core := 0, thread := 1 } { Thread.zero with owner := some { job := 1, lcore := 0, tid := 1 }, stopped := some (0x1000, some 1) }
theorem witness_AnotherThreadWrites : writingV1.placed ∧ writingV1.thr.specFile = none ∧ writingV1.cur.core = 0 ∧ writingV1.cur.thread = 0 ∧
    (∀ i, i < 4 → (((writingV1.thread { writingV1.cur with thread := i }).stopped.any (fun x => x.2 == some 1)) = true ↔ i = 1)) ∧
    (writingV1.thread { writingV1.cur with thread := 1 }).specFile = none :=
  ⟨placed_of (by decide +kernel), by decide +kernel, by decide +kernel, by decide +kernel, by decide +kernel, by decide +kernel⟩
theorem witness_ProbedIsCanonical : probed.Canonical := (by decide +kernel : probed.msys.mem.wf = true)
/-- Two arrivals are left of two and the credits have come below zero, with the overrun trap on. -/
def overrunning : State := let s := barred 1 (-1) 5 0; s.setBarrier (barrierOf 0 1 0) { s.barrier (barrierOf 0 1 0) with ot := true }
theorem witness_BarriersOverrun : overrunning.Calm ∧ overrunning.holdsBarrier overrunning.thr.asid (idScope bar0.imm.toNat) (idIndex bar0.imm.toNat) = true ∧
    overrunning.side.phendMark overrunning.pc (barrierOf 0 1 0) = none ∧ (overrunning.actBarrier overrunning.cur.core 1 0 1 0).2 = true :=
  ⟨calm_of (by decide +kernel), by decide +kernel, by decide +kernel, by decide +kernel⟩
/-- A finished job behind another. -/
theorem witness_JobsFinishedInAnyOrder : let s := { withJob (doneJob 0) with finished := [(8, 1), (9, 77)] }
    s.finished.find? (fun x => x.1 == 9) = some (9, 77) ∧ (∀ j ∈ s.jobs, j.handle ≠ 9) := by decide +kernel
/-- A sub-block that package 3, which is no member, holds. -/
def lent : State := { moving with msys := { moving.msys with records := [(0, { Residence.zero with tier := 2, rpkg := 3 })] } }
theorem witness_HolderIsNoMember : lent.subBlock 0x40 = some 0 ∧ (lent.msys.record 0).tier = 2 ∧
    lent.member (lent.msys.record 0).rpkg.toNat = false ∧ (moving.msys.record 0).tier ≠ 2 := by decide +kernel
/-- A demotion due, and one not yet. -/
def quiet64 : State :=
  { epochal with accepted := epochal.accepted ||| 32, msys := { loaded.msys with records := [(1, { Residence.zero with tier := 0, dframe := 8, quiet := 64 })] } }
theorem witness_QuietLongEnough : (quiet64.msys.record 1).tier = 0 ∧ quiet64.thQuiet ≤ (quiet64.msys.record 1).quiet ∧ quiet64.accepted.getLsbD 5 = true ∧
    ¬ epochal.thQuiet ≤ (epochal.msys.record 1).quiet := by decide +kernel
theorem witness_SlotsIssueGroups : ∃ (x y : Quad) (sl : Slot), x.slots = [(0, sl)] ∧ y.slots = [(0, sl)] ∧
    sl.queue = vset (Vector.replicate 4 []) 0 [{ pc := 0, left := 65536 }] ∧ x.alarm = true ∧ y.alarm = false ∧ y.stretch = 0 ∧ y.halved = 0 :=
  ⟨{ Quad.zero with slots := [(0, { Slot.idle with queue := vset (Vector.replicate 4 []) 0 [{ pc := 0, left := 65536 }] })], alarm := true },
    { Quad.zero with slots := [(0, { Slot.idle with queue := vset (Vector.replicate 4 []) 0 [{ pc := 0, left := 65536 }] })] }, _, rfl, rfl, rfl, rfl, rfl, rfl, rfl⟩
theorem witness_NothingIsDue : (∀ c, State.reset.sampleNumber ≤ (State.reset.core c).samples) ∧
    (∀ q, (State.reset.quadNow q).edges / 64 ≤ (State.reset.quad q).window) :=
  ⟨fun _ => Nat.zero_le _, fun q => by
    have h : State.reset.quad q = Quad.zero := rfl
    rw [quadNow_still (q := q) rfl rfl (by rw [h]; decide), h]
    decide⟩
theorem witness_NewRequestInWinter : let s := { demo 0 0 0 0 with winter := true, agenda := [.replay 0 0x40 1 0 (.read 0x40 false)] }
    s.winter = true ∧ s.isReplay 0 0x40 1 0 = false := by decide +kernel
end Sys2Proof.Tests
end

/-!
PROOFS of the power events (O54). A quad's clock is brought up to an instant whatever the edges up to it hold (`Quad.run_caught`), so
that what leaves its edges leaves CYC. A-cycles after an alarm and the groups that issue in them are counted edge by edge
(`Quad.droop_after`, `groupsIn_succ`). A window of ballast draws, charges and writes its record (`State.ballastStep_eq`); the clock
runs as it does under any other record (`Quad.run_withBallast`), so one sample settles the ballast for the other cores of its quad.
What saves, resumes and traps leaves the season (`State.season`).
-/
namespace Sys2Proof.Machine
open Sys2Proof

-- A quad's clock (R28, R375) -------------------------------------------------------------------------------------------------

theorem opPeriod_pos (p : Nat) : 0 < opPeriod p :=
  match p with
  | 0 | 1 | 2 | 3 | 4 | 5 | 6 | 7 => by decide
  | n + 8 => (by decide : 0 < 130)

/-- A quad whose next edge lies ahead stands still. -/
theorem Quad.run_still {lanes : Nat → Nat} {q : Quad} {now : Nat} (h : now < q.edgeAt + q.cycle) (n : Nat) :
    Quad.run lanes n q now = q := by
  cases n <;> rw [Quad.run, if_pos h]

theorem Quad.run_succ (lanes : Nat → Nat) (n : Nat) (q : Quad) (now : Nat) :
    Quad.run lanes (n + 1) q now = if now < q.edgeAt + q.cycle then q else
      if q.calm then Quad.run lanes 0 q now else Quad.run lanes n (q.edge lanes) now := by
  conv => lhs; rw [Quad.run]

/-- However few edges it may take one by one, a quad is brought up to the instant: its next edge lies ahead. -/
theorem Quad.run_caught (lanes : Nat → Nat) (n : Nat) (q : Quad) (now : Nat) :
    now < (Quad.run lanes n q now).edgeAt + (Quad.run lanes n q now).cycle := by
  have base : ∀ q : Quad, now < (Quad.run lanes 0 q now).edgeAt + (Quad.run lanes 0 q now).cycle := by
    intro q
    rw [Quad.run]
    split
    · assumption
    · have hd := Nat.lt_div_mul_add (a := now - (q.edgeAt + q.cycle)) (opPeriod_pos q.clock)
      dsimp only
      omega
  induction n generalizing q with
  | zero => exact base q
  | succ n ih =>
    rw [Quad.run_succ]
    split
    · assumption
    · split
      · exact base q
      · exact ih _

theorem State.quadNow_running {s : State} (hw : s.winter = false) (q : Nat) :
    s.quadNow q = (s.quad q).at (s.lanes q) (s.ticks q) := by
  simp [State.quadNow, hw]

/-- Outside Winter a quad as it stands now has its next edge ahead. -/
theorem State.quadNow_caught {s : State} (hw : s.winter = false) (q : Nat) :
    s.ticks q < (s.quadNow q).edgeAt + (s.quadNow q).cycle := by
  rw [State.quadNow_running hw]
  exact Quad.run_caught ..

/-- A write of a quad that leaves its edges as they stand now leaves CYC counting on from there. -/
theorem State.cyc_setQuad {s : State} (hw : s.winter = false) (q : Nat) (y : Quad) (he : y.edges = (s.quadNow q).edges)
    (ha : y.edgeAt = (s.quadNow q).edgeAt) (hc : y.cycle = (s.quadNow q).cycle) : (s.setQuad q y).cyc q = s.cyc q := by
  have still : (s.setQuad q y).quadNow q = y := by
    rw [State.quadNow_running (s := s.setQuad q y) hw, State.quad_setQuad_self]
    exact Quad.run_still (by rw [ha, hc]; exact State.quadNow_caught hw q) _
  rw [State.cyc, still, he, State.cyc]

/-- While the rail moves, the clock is the slower of the two points' (R375). -/
theorem Quad.opMhz_clock_moving {x : Quad} {p : Nat} (h : x.moving = some p) : opMhz x.clock = min (opMhz x.op) (opMhz p) := by
  simp only [Quad.clock, h]
  split <;> omega
theorem Quad.clock_settled {x : Quad} (h : x.moving = none) : x.clock = x.op := by simp [Quad.clock, h]

-- Operating points, lanes and droop alarms (R375-R378) ---------------------------------------------------------------------------

theorem execOpPointChange_none {s : State} {n : Nat} (q : Nat) (h : 8 ≤ n) : execOpPointChange q n s = .next s := by
  simp [execOpPointChange, h]
theorem execDroopAlarm_below {s : State} {q n : Nat} (h : n < (s.quadNow q).drth.toNat) : execDroopAlarm q n s = .next s := by
  simp [execDroopAlarm, h]

section
variable {s : State} (hw : s.winter = false) (q n : Nat)
include hw

theorem execOpPointChange_begin (hn : n < 8) (hm : (s.quadNow q).moving = none) :
    execOpPointChange q n s =
      .next (if n = (s.quadNow q).op then s else s.setQuad q { s.quadNow q with moving := some n }) := by
  have : ¬ 8 ≤ n := by omega
  simp [execOpPointChange, hw, this, hm]
theorem execOpPointChange_end {p : Nat} (hn : n < 8) (hm : (s.quadNow q).moving = some p) :
    execOpPointChange q n s =
      .next (if n = p then s.setQuad q { s.quadNow q with op := p, moving := none } else s) := by
  have : ¬ 8 ≤ n := by omega
  simp [execOpPointChange, hw, this, hm]

/-- The management core's choice bounds ALC, which ALCLIM may hold lower (R376). -/
theorem execAlcChange_chosen (hn : n ∈ ([4, 8, 16, 32] : List Nat)) :
    ∃ t, execAlcChange q n s = .next t ∧ (t.core q).alcWanted = n ∧ t.alc q ≤ n ∧ t.msys = s.msys := by
  have hc : ([4, 8, 16, 32] : List Nat).contains n = true := List.contains_iff_mem.mpr hn
  refine ⟨(s.bringQuad (quadOf q)).setCore q { (s.bringQuad (quadOf q)).core q with alcWanted := n }, ?_, ?_, ?_, ?_⟩
  · simp only [execAlcChange, hw, hc, Bool.not_true, Bool.or_self, Bool.false_eq_true, if_false]
  · rw [State.core_setCore_self]
  · rw [State.alc, State.core_setCore_self]
    exact Nat.min_le_right _ _
  · simp [State.bringQuad, hw]

theorem execDroopAlarm_again (h : (s.quadNow q).drth.toNat ≤ n)
    (ha : (s.quadNow q).alarm = true ∨ (s.quadNow q).stretch ≠ 0) :
    execDroopAlarm q n s = .next (s.setQuad q { s.quadNow q with
      drSag := if (s.quadNow q).drSag < BitVec.ofNat 8 (min 255 n) then BitVec.ofNat 8 (min 255 n) else (s.quadNow q).drSag }) := by
  have hn : ¬ n < (s.quadNow q).drth.toNat := by omega
  have hb : ((s.quadNow q).alarm || (s.quadNow q).stretch != 0) = true := by simpa using ha
  simp only [execDroopAlarm, hw, hn, hb, decide_false, Bool.or_self, Bool.false_eq_true, if_false, if_true]
theorem execDroopAlarm_first (h : (s.quadNow q).drth.toNat ≤ n) (ha : (s.quadNow q).alarm = false)
    (hs : (s.quadNow q).stretch = 0) :
    execDroopAlarm q n s = .next (s.setQuad q { s.quadNow q with
      drCnt := (s.quadNow q).drCnt + 1, drSag := BitVec.ofNat 8 (min 255 n), drEv := true, alarm := true }) := by
  have hn : ¬ n < (s.quadNow q).drth.toNat := by omega
  simp [execDroopAlarm, hw, hn, ha, hs]

/-- The ends of a stretch and of a halved window are edges like the others (R377). -/
theorem exec_edgeEvents : ∀ i ∈ [Instr.stretchEnd q, .halvedIssueEnd q], exec i s = .next (s.setQuad q (s.quadNow q)) := by
  intro i hi
  simp only [List.mem_cons, List.not_mem_nil, or_false] at hi
  rcases hi with rfl | rfl
  · simp [exec, execStretchEnd, hw]
  · simp [exec, execHalvedIssueEnd, hw]
end

/-- A lease that has reached its TIME ends, and no other (R382). -/
theorem execCapLeaseExpiry_leased {s : State} {cap until_ : Nat} (h : s.capLease = some (cap, until_)) :
    execCapLeaseExpiry s = .next (if until_ ≤ s.time then { s with capLease := none } else s) := by
  simp only [execCapLeaseExpiry, h]
  split <;> rfl

-- A quad after an alarm (R377) ---------------------------------------------------------------------------------------------------

theorem Quad.edges_after (lanes : Nat → Nat) (x : Quad) (n : Nat) : (x.after lanes n).edges = x.edges + n := by
  induction n with
  | zero => rfl
  | succ n ih => simp only [Quad.after, Quad.edge, ih]; omega

theorem Quad.alarm_after (lanes : Nat → Nat) (x : Quad) (n : Nat) : (x.after lanes (n + 1)).alarm = false := rfl

/-- The stretch and the halved window that an alarm brings: six A-cycles, then 64. -/
theorem Quad.droop_after (lanes : Nat → Nat) {x : Quad} (ha : x.alarm = true) (n : Nat) :
    (x.after lanes (n + 1)).stretch = 6 - n ∧ (x.after lanes (n + 1)).halved = if n < 6 then 0 else 70 - n := by
  induction n with
  | zero => simp [Quad.after, Quad.edge, ha]
  | succ n ih =>
    obtain ⟨hs, hh⟩ := ih
    rw [Quad.after]
    simp only [Quad.edge, Quad.alarm_after, hs, hh, Bool.false_eq_true, if_false]
    refine ⟨by omega, ?_⟩
    rcases Nat.lt_trichotomy n 5 with h | h | h
    · rw [if_neg (by omega), if_neg (by omega), if_pos (by omega), if_pos (by omega)]
    · rw [if_pos (by omega), if_neg (by omega)]
      omega
    · rw [if_neg (by omega), if_pos (by omega), if_neg (by omega), if_neg (by omega)]
      omega

/-- Edges move no quad to another point. -/
theorem Quad.point_after (lanes : Nat → Nat) (x : Quad) (n : Nat) :
    (x.after lanes n).op = x.op ∧ (x.after lanes n).moving = x.moving := by
  induction n with
  | zero => exact ⟨rfl, rfl⟩
  | succ n ih => exact ih
theorem Quad.clock_after (lanes : Nat → Nat) {x : Quad} (hm : x.moving = none) (n : Nat) : (x.after lanes n).clock = x.op := by
  obtain ⟨ho, hmn⟩ := Quad.point_after lanes x n
  rw [Quad.clock_settled (hmn.trans hm), ho]

/-- A cycle that an edge begins lasts two periods within a stretch, and one outside. -/
theorem Quad.cycle_after (lanes : Nat → Nat) {x : Quad} (hm : x.moving = none) (n : Nat) :
    (x.after lanes (n + 1)).cycle = (if (x.after lanes (n + 1)).stretch = 0 then 1 else 2) * opPeriod x.op := by
  rw [← Quad.clock_after lanes hm n]
  rfl

/-- After an alarm six cycles last two periods each. -/
theorem Quad.edgeAt_after (lanes : Nat → Nat) {x : Quad} (ha : x.alarm = true) (hm : x.moving = none) (n : Nat) :
    (x.after lanes (n + 1)).edgeAt = x.edgeAt + x.cycle + (n + min n 6) * opPeriod x.op := by
  induction n with
  | zero => simp [Quad.after, Quad.edge]
  | succ n ih =>
    have step : (x.after lanes (n + 1 + 1)).edgeAt = (x.after lanes (n + 1)).edgeAt + (x.after lanes (n + 1)).cycle := rfl
    rw [step, ih, Quad.cycle_after lanes hm, (Quad.droop_after lanes ha n).1, Nat.add_assoc, ← Nat.add_mul]
    congr 2
    split <;> omega

-- The arithmetic slot (R385) ------------------------------------------------------------------------------------------------------

/-- Element groups that one busy thread issues in the first k A-cycles, with an alarm that waits for the first edge or with none. -/
def groupsIn (alarm : Bool) (k : Nat) : Nat :=
  if alarm = false ∨ k ≤ 6 then k else if k ≤ 70 then 6 + (k - 5) / 2 else k - 32

/-- The queues of a slot in which one thread alone has an instruction, of which so many bits are left. -/
def soleQueue (t : Nat) (pc : Word) (left : Nat) : Vector (List Queued) 4 :=
  vset (Vector.replicate 4 []) t (if left = 0 then [] else [{ pc := pc, left := left }])

theorem vget_replicate {α : Type} {n : Nat} (i : Nat) (d : α) : vget (Vector.replicate n d) i d = d := by
  simp only [vget, Vector.toList_replicate, List.getD_eq_getElem?_getD, List.getElem?_replicate]
  split <;> rfl

section
variable {t : Nat} (ht : t < 4) (pc : Word) (left : Nat)
include ht

theorem vget_soleQueue : vget (soleQueue t pc left) t [] = if left = 0 then [] else [{ pc := pc, left := left }] :=
  vget_vset_self _ _ _ _ ht

omit ht in
theorem vget_soleQueue_ne {u : Nat} (hu : u ≠ t) : vget (soleQueue t pc left) u [] = [] := by
  rw [soleQueue, vget_vset_ne _ _ _ hu, vget_replicate]

/-- The slot serves the only thread with work, whichever it served last. -/
theorem Slot.turn_sole {x : Slot} (hq : x.queue = soleQueue t pc left) : x.turn = if left = 0 then none else some t := by
  have busy : ∀ u, (!(vget x.queue u []).isEmpty) = (decide (u = t) && decide (left ≠ 0)) := by
    intro u
    rw [hq]
    by_cases hu : u = t
    · subst hu
      rw [vget_soleQueue ht]
      by_cases hl : left = 0 <;> simp [hl]
    · simp [vget_soleQueue_ne _ _ hu, hu]
  simp only [Slot.turn, busy]
  by_cases hl : left = 0
  · simp [hl]
  · simp only [hl, ne_eq, not_false_eq_true, decide_true, Bool.and_true, if_false]
    have mem : t ∈ (List.range 4).map (fun i => (x.last + 1 + i) % 4) :=
      List.mem_map.mpr ⟨(t + 3 * (x.last + 1)) % 4, List.mem_range.mpr (Nat.mod_lt _ (by decide)), by omega⟩
    obtain ⟨u, hu⟩ : ∃ u, ((List.range 4).map (fun i => (x.last + 1 + i) % 4)).find? (fun u => decide (u = t)) = some u :=
      Option.isSome_iff_exists.mp (List.find?_isSome.mpr ⟨t, mem, decide_eq_true rfl⟩)
    have same : u = t := by simpa using List.find?_some hu
    rw [hu, same]

/-- An issue takes one group from the only instruction that is queued. -/
theorem Slot.issue_sole {x : Slot} (hq : x.queue = soleQueue t pc left) (hl : left ≠ 0) (lanes : Nat) :
    (x.issue lanes).queue = soleQueue t pc (left - 64 * lanes) ∧ (x.issue lanes).flight = some (t, pc) := by
  have hv : vget x.queue t [] = [{ pc := pc, left := left }] := by rw [hq, vget_soleQueue ht, if_neg hl]
  simp only [Slot.issue, Slot.turn_sole ht pc left hq, if_neg hl, hv, and_true]
  rw [hq]
  simp only [soleQueue, vset_vset]
  by_cases h : left ≤ 64 * lanes
  · rw [if_pos h, if_pos (by omega)]
  · rw [if_neg h, if_neg (by omega)]

/-- A cycle of a slot with one instruction at most: a group issues when the cycle may issue and some is left. -/
theorem Slot.cycle_sole {x : Slot} (hq : x.queue = soleQueue t pc left) (lanes : Nat) (issues : Bool) :
    (x.cycle lanes issues).queue = soleQueue t pc (left - (if issues then 64 * lanes else 0)) ∧
    (x.cycle lanes issues).flight = if issues = true ∧ left ≠ 0 then some (t, pc) else none := by
  cases issues with
  | false => exact ⟨hq, rfl⟩
  | true =>
    by_cases hl : left = 0
    · subst hl
      have none : ({ x with flight := none } : Slot).turn = none := Slot.turn_sole ht pc 0 hq
      simp only [Slot.cycle, Slot.issue, none, if_true, Nat.zero_sub, ne_eq, not_true_eq_false, and_false, if_false, and_true]
      exact hq
    · obtain ⟨hqueue, hflight⟩ := Slot.issue_sole ht pc left (x := { x with flight := none }) hq hl lanes
      simp only [Slot.cycle, if_true]
      exact ⟨hqueue, by rw [hflight, if_pos ⟨trivial, hl⟩]⟩
end

/-- A-cycles issue as R377 says: each one, or after an alarm all but every second cycle of the halved window. -/
theorem groupsIn_succ (lanes : Nat → Nat) {x : Quad}
    (hx : x.alarm = true ∨ (x.alarm = false ∧ x.stretch = 0 ∧ x.halved = 0)) (n : Nat) :
    groupsIn x.alarm (n + 1) = groupsIn x.alarm n + if (x.after lanes (n + 1)).issues then 1 else 0 := by
  rcases hx with ha | ⟨ha, hs, hh⟩
  · simp only [Quad.issues, (Quad.droop_after lanes ha n).2, groupsIn, ha, Bool.true_eq_false, false_or, beq_iff_eq]
    repeat' split
    all_goals omega
  · have calm : ∀ k, (x.after lanes k).alarm = false ∧ (x.after lanes k).stretch = 0 ∧ (x.after lanes k).halved = 0 := by
      intro k
      induction k with
      | zero => exact ⟨ha, hs, hh⟩
      | succ k ih =>
        obtain ⟨ka, ks, kh⟩ := ih
        simp [Quad.after, Quad.edge, ka, ks, kh]
    simp [Quad.issues, (calm (n + 1)).2.2, groupsIn, ha]

/-- The queue of a slot with one instruction after n edges, and the group in flight. -/
theorem Quad.slot_after (lanes : Nat → Nat) {x : Quad} {i t : Nat} {sl : Slot} {pc : Word} {bits : Nat} (hsl : x.slots = [(i, sl)])
    (ht : t < 4) (hq : sl.queue = soleQueue t pc bits)
    (hx : x.alarm = true ∨ (x.alarm = false ∧ x.stretch = 0 ∧ x.halved = 0)) (n : Nat) :
    ∃ y : Slot, (x.after lanes n).slots = [(i, y)] ∧
      y.queue = soleQueue t pc (bits - groupsIn x.alarm n * (64 * lanes i)) ∧
      ∀ k, n = k + 1 → y.flight =
        if (x.after lanes n).issues = true ∧ bits - groupsIn x.alarm k * (64 * lanes i) ≠ 0 then some (t, pc) else none := by
  induction n with
  | zero => exact ⟨sl, hsl, by simpa [groupsIn] using hq, by omega⟩
  | succ n ih =>
    obtain ⟨y, hy, hqy, -⟩ := ih
    obtain ⟨hqueue, hflight⟩ := Slot.cycle_sole ht pc _ hqy (lanes i) (x.after lanes (n + 1)).issues
    refine ⟨y.cycle (lanes i) (x.after lanes (n + 1)).issues, ?_, ?_, ?_⟩
    · show (x.after lanes n).slots.map (fun (j, z) => (j, z.cycle (lanes j) (x.after lanes (n + 1)).issues)) = _
      rw [hy]
      rfl
    · rw [hqueue, groupsIn_succ lanes hx, Nat.add_mul, Nat.sub_sub]
      split <;> simp
    · intro k hk
      obtain rfl : n = k := by omega
      exact hflight

/-- Work of a thread that has the slot for itself is final after as many edges as it has groups (R385). -/
theorem Quad.work_after (lanes : Nat → Nat) {x : Quad} {i t : Nat} {sl : Slot} {pc : Word} {bits : Nat} (hsl : x.slots = [(i, sl)])
    (ht : t < 4) (hq : sl.queue = soleQueue t pc bits)
    (hx : x.alarm = true ∨ (x.alarm = false ∧ x.stretch = 0 ∧ x.halved = 0)) (n : Nat) :
    let left := fun (k : Nat) => bits - groupsIn x.alarm k * (64 * lanes i)
    let y := (x.after lanes n).slot i
    vget y.queue t [] = (if left n = 0 then [] else [{ pc := pc, left := left n }]) ∧
    (0 < n → y.working t = decide (left (n - 1) ≠ 0)) := by
  obtain ⟨y, hy, hqy, hf⟩ := Quad.slot_after lanes hsl ht hq hx n
  have hslot : (x.after lanes n).slot i = y := by simp [Quad.slot, hy, SMap.get]
  have hv := vget_soleQueue ht pc (bits - groupsIn x.alarm n * (64 * lanes i))
  rw [← hqy] at hv
  refine ⟨by simpa only [hslot] using hv, fun hn => ?_⟩
  obtain ⟨k, rfl⟩ : ∃ k, n = k + 1 := ⟨n - 1, by omega⟩
  have hg := groupsIn_succ lanes hx k
  simp only [hslot, Slot.working, hv, hf k rfl, Nat.add_sub_cancel]
  by_cases hi : (x.after lanes (k + 1)).issues = true
  · rw [hg]
    by_cases hl : bits - groupsIn x.alarm k * (64 * lanes i) = 0
    · simp only [hi, if_true, hl, Nat.add_mul, ← Nat.sub_sub, Nat.zero_sub]
      simp
    · simp [hi, hl]
  · rw [hg]
    by_cases hl : bits - groupsIn x.alarm k * (64 * lanes i) = 0 <;> simp [hi, hl]

-- Charging energy (R381) --------------------------------------------------------------------------------------------------------

theorem SMap.find_set_ne {α : Type} (m : SMap α) {k j : Nat} (v : α) (h : j ≠ k) : SMap.find (SMap.set m k v) j = SMap.find m j := by
  induction m with
  | nil => simp [SMap.set, SMap.find, Ne.symm h]
  | cons p r ih =>
    obtain ⟨i, u⟩ := p
    simp only [SMap.set]
    split
    · by_cases hj : j < k
      · have : i ≠ j := by omega
        have : j < i := by omega
        simp [SMap.find, *, Ne.symm h]
      · simp [SMap.find, hj, Ne.symm h]
    · split
      · subst i; simp [SMap.find, Ne.symm h]
      · simp only [SMap.find, ih]

/-- A sum over a sparse map after the listed value at a key is replaced by one that counts e more. -/
theorem SMap.sum_set {α : Type} (f : α → Nat) {m : SMap α} {k : Nat} {v w : α} {e : Nat} (hv : SMap.find m k = some v) (hw : f w = f v + e) :
    ((SMap.set m k w).map (fun p => f p.2)).sum = (m.map (fun p => f p.2)).sum + e := by
  induction m with
  | nil => simp [SMap.find] at hv
  | cons p r ih =>
    obtain ⟨i, u⟩ := p
    rcases Nat.lt_trichotomy k i with h | h | h
    · simp [SMap.find, Nat.ne_of_gt h, h] at hv
    · subst h
      obtain rfl : u = v := by simpa [SMap.find] using hv
      simp only [SMap.set, Nat.lt_irrefl, if_false, if_true, List.map_cons, List.sum_cons, hw]
      omega
    · have hr : SMap.find r k = some v := by simpa [SMap.find, Nat.ne_of_lt h, Nat.lt_asymm h] using hv
      simp only [SMap.set, Nat.lt_asymm h, Nat.ne_of_lt h, if_false, List.map_cons, List.sum_cons, ih hr]
      omega

/-- Energy on all accounts: the housekeeping account and those of the contexts. -/
def State.energyTotal (s : State) : Nat := s.energy0 + (s.contexts.map (fun p => p.2.energy)).sum

/-- A charge changes accounts alone. -/
theorem State.charge_rest (s : State) (a e : Nat) : { s.charge a e with contexts := s.contexts, energy0 := s.energy0 } = s := by
  simp only [State.charge]
  split <;> rfl
theorem State.energyTotal_charge (s : State) (a e : Nat) : (s.charge a e).energyTotal = s.energyTotal + e := by
  simp only [State.charge]
  split
  · rename_i c h
    have hsum := SMap.sum_set (w := { c with energy := c.energy + e }) Context.energy h rfl
    simp only [State.energyTotal, State.setContext, hsum]
    omega
  · simp only [State.energyTotal]
    omega
theorem State.context_charge_ne (s : State) {a b : Nat} (e : Nat) (h : b ≠ a) : (s.charge a e).context b = s.context b := by
  simp only [State.charge]
  split
  · exact SMap.find_set_ne _ _ h
  · rfl

/-- The charges of a list, one after the other. -/
def State.chargeAll (s : State) (l : List (Nat × Nat)) : State := l.foldl (fun s (a, e) => s.charge a e) s

theorem State.chargeAll_rest (s : State) (l : List (Nat × Nat)) :
    { s.chargeAll l with contexts := s.contexts, energy0 := s.energy0 } = s := by
  induction l generalizing s with
  | nil => rfl
  | cons p r ih =>
    have hr := ih (s.charge p.1 p.2)
    have hp := State.charge_rest s p.1 p.2
    show { (s.charge p.1 p.2).chargeAll r with contexts := s.contexts, energy0 := s.energy0 } = s
    rw [← hr] at hp
    exact hp
theorem State.chargeAll_quads (s : State) (l : List (Nat × Nat)) : (s.chargeAll l).quads = s.quads :=
  (congrArg State.quads (State.chargeAll_rest s l) :)
theorem State.energyTotal_chargeAll (s : State) (l : List (Nat × Nat)) :
    (s.chargeAll l).energyTotal = s.energyTotal + (l.map (fun p => p.2)).sum := by
  induction l generalizing s with
  | nil => rfl
  | cons p r ih =>
    show ((s.charge p.1 p.2).chargeAll r).energyTotal = _
    rw [ih, State.energyTotal_charge, List.map_cons, List.sum_cons]
    omega
theorem State.context_chargeAll (s : State) {l : List (Nat × Nat)} {b : Nat} (h : ∀ p ∈ l, p.1 ≠ b) :
    (s.chargeAll l).context b = s.context b := by
  induction l generalizing s with
  | nil => rfl
  | cons p r ih =>
    show ((s.charge p.1 p.2).chargeAll r).context b = _
    rw [ih _ (fun p hp => h p (List.mem_cons_of_mem _ hp))]
    exact State.context_charge_ne _ _ (Ne.symm (h p List.mem_cons_self))

-- Shares -------------------------------------------------------------------------------------------------------------------------

theorem totalPower_eq_sum (m : SMap Nat) : totalPower m = (m.map (fun p => p.2)).sum :=
  (List.sum_eq_foldl ..).symm

theorem le_totalPower {m : SMap Nat} {x : Nat × Nat} (h : x ∈ m) : x.2 ≤ totalPower m := by
  rw [totalPower_eq_sum]
  induction m with
  | nil => exact absurd h List.not_mem_nil
  | cons y r ih =>
    rw [List.map_cons, List.sum_cons]
    rcases List.mem_cons.mp h with rfl | hr
    · omega
    · have := ih hr
      omega

theorem sum_shares (whole all before : Nat) (l : List (Nat × Nat)) :
    whole * before / all + ((shares whole all before l).map (fun p => p.2)).sum = whole * (before + (l.map (fun p => p.2)).sum) / all := by
  induction l generalizing before with
  | nil => simp [shares]
  | cons p r ih =>
    obtain ⟨a, w⟩ := p
    have rises : whole * before / all ≤ whole * (before + w) / all :=
      Nat.div_le_div_right (Nat.mul_le_mul_left _ (by omega))
    have hr := ih (before + w)
    simp only [shares, List.map_cons, List.sum_cons, ← Nat.add_assoc] at hr ⊢
    omega

/-- Nothing of a whole that is shared out is lost. -/
theorem sum_shares_all (whole : Nat) {l : List (Nat × Nat)} (h : 0 < totalPower l) :
    ((shares whole (totalPower l) 0 l).map (fun p => p.2)).sum = whole := by
  have hs := sum_shares whole (totalPower l) 0 l
  rw [Nat.zero_add, ← totalPower_eq_sum l, Nat.mul_div_cancel _ h] at hs
  simpa using hs

theorem key_of_mem_shares {whole all before : Nat} {l : List (Nat × Nat)} {p : Nat × Nat} (hp : p ∈ shares whole all before l) :
    ∃ x ∈ l, x.1 = p.1 := by
  induction l generalizing before with
  | nil => simp [shares] at hp
  | cons q r ih =>
    rcases List.mem_cons.mp hp with rfl | hr
    · exact ⟨q, List.mem_cons_self, rfl⟩
    · obtain ⟨x, hx, e⟩ := ih hr
      exact ⟨x, List.mem_cons_of_mem _ hx, e⟩

-- Ballast (R379) -------------------------------------------------------------------------------------------------------------------

/-- A fall is that of a context whose issued power is lower than in the window before. -/
theorem mem_fallsOf {before now : SMap Nat} {x : Nat × Nat} :
    x ∈ fallsOf before now ↔ ∃ p ∈ before, SMap.get now 0 p.1 < p.2 ∧ x = (p.1, p.2 - SMap.get now 0 p.1) := by
  simp only [fallsOf, List.mem_filter, List.mem_map, bne_iff_ne]
  constructor
  · rintro ⟨⟨p, hp, rfl⟩, hx⟩
    exact ⟨p, hp, by omega, rfl⟩
  · rintro ⟨p, hp, hlt, rfl⟩
    exact ⟨⟨p, hp, rfl⟩, by omega⟩

theorem totalPower_fallsOf_pos {before now : SMap Nat} (h : ∃ p ∈ before, SMap.get now 0 p.1 < p.2) : 0 < totalPower (fallsOf before now) := by
  obtain ⟨p, hp, hlt⟩ := h
  have mem : (p.1, p.2 - SMap.get now 0 p.1) ∈ fallsOf before now := mem_fallsOf.mpr ⟨p, hp, hlt, rfl⟩
  exact Nat.lt_of_lt_of_le (Nat.sub_pos_of_lt hlt) (le_totalPower mem)

/-- Ballast raises a window to 87.5 % of the one before, and no further. -/
theorem add_ballastOf (estimate issued : Nat) :
    issued + ballastOf estimate issued = max issued (if 8 * issued < 7 * estimate then 7 * estimate / 8 else 0) := by
  simp only [ballastOf]
  split <;> omega

/-- Drawing the power of a window takes free values alone. -/
theorem State.windowPower_rest (l : List Nat) (s : State) : ∃ n, (s.windowPower l).2 = { s with fresh := n } := by
  induction l generalizing s with
  | nil => exact ⟨s.fresh, rfl⟩
  | cons a r ih =>
    obtain ⟨n, hn⟩ := ih s.draw.2
    exact ⟨n, hn⟩

/-- A quad with the ballast record of another one. -/
def Quad.withBallast (x b : Quad) : Quad := { x with window := b.window, estimate := b.estimate, issued := b.issued, falls := b.falls }

/-- A state and one that the ballast of quad q has made of it: beside its record, accounts and free values differ alone. -/
structure State.BallastOnly (q : Nat) (s t : State) : Prop where
  rest : { t with contexts := s.contexts, energy0 := s.energy0, fresh := s.fresh, quads := s.quads } = s
  others : ∀ p, p ≠ q → t.quad p = s.quad p
  record : t.quad q = (s.quad q).withBallast (t.quad q)

namespace State.BallastOnly
theorem refl (q : Nat) (s : State) : BallastOnly q s s := ⟨rfl, fun _ _ => rfl, rfl⟩
theorem trans {q : Nat} {s t u : State} (h : BallastOnly q s t) (k : BallastOnly q t u) : BallastOnly q s u where
  rest := by
    have hs := h.rest
    rw [← k.rest] at hs
    exact hs
  others p hp := (k.others p hp).trans (h.others p hp)
  record := by
    rw [k.record, h.record]
    rfl
theorem time {q : Nat} {s t : State} (h : BallastOnly q s t) : t.time = s.time := (congrArg State.time h.rest :)
theorem winter {q : Nat} {s t : State} (h : BallastOnly q s t) : t.winter = s.winter := (congrArg State.winter h.rest :)
theorem cores {q : Nat} {s t : State} (h : BallastOnly q s t) : t.cores = s.cores := (congrArg State.cores h.rest :)
theorem msys {q : Nat} {s t : State} (h : BallastOnly q s t) : t.msys = s.msys := (congrArg State.msys h.rest :)
end State.BallastOnly

/-- A write of the record of one quad, after charges and draws. -/
theorem State.ballastOnly_setQuad (q : Nat) (s : State) (n : Nat) (l : List (Nat × Nat)) (b : Quad) :
    State.BallastOnly q s ((({ s with fresh := n } : State).chargeAll l).setQuad q ((s.quad q).withBallast b)) where
  rest := by
    have h := State.chargeAll_rest { s with fresh := n } l
    show { (({ s with fresh := n } : State).chargeAll l) with contexts := s.contexts, energy0 := s.energy0, fresh := s.fresh, quads := s.quads } = s
    exact congrArg (fun u : State => { u with fresh := s.fresh, quads := s.quads }) h
  others p hp := by
    rw [State.quad_setQuad_ne _ _ hp, State.quad, State.chargeAll_quads]
    rfl
  record := by
    rw [State.quad_setQuad_self]
    rfl

/-- The contexts that a window's ballast is charged to. -/
def Quad.fallsAt (x : Quad) (now : SMap Nat) : SMap Nat :=
  if (fallsOf x.issued now).isEmpty then x.falls else fallsOf x.issued now
/-- The charges of a window's ballast. -/
def Quad.ballastCharges (x : Quad) (now : SMap Nat) : List (Nat × Nat) :=
  shares (windowEnergy (ballastOf x.estimate (totalPower now)) (opPeriod x.clock)) (totalPower (x.fallsAt now)) 0 (x.fallsAt now)
/-- The record of a window. -/
def Quad.recordOf (x : Quad) (now : SMap Nat) : Quad :=
  { x with window := x.window + 1, estimate := totalPower now + ballastOf x.estimate (totalPower now), issued := now,
           falls := x.fallsAt now }

/-- A window draws its power, charges its ballast and writes its record. -/
theorem State.ballastStep_eq (s : State) (q : Nat) : ∃ (n : Nat) (now : SMap Nat), s.ballastStep q =
    (({ s with fresh := n } : State).chargeAll ((s.quad q).ballastCharges now)).setQuad q ((s.quad q).recordOf now) := by
  obtain ⟨n, hn⟩ := State.windowPower_rest (s.quadContexts q) s
  refine ⟨n, (s.windowPower (s.quadContexts q)).1, ?_⟩
  rw [← hn]
  have hq : (s.windowPower (s.quadContexts q)).2.quad q = s.quad q := by rw [hn]; rfl
  simp only [State.ballastStep, hq]
  rfl
theorem State.ballastStep_only (s : State) (q : Nat) : State.BallastOnly q s (s.ballastStep q) := by
  obtain ⟨n, now, h⟩ := State.ballastStep_eq s q
  rw [h]
  exact State.ballastOnly_setQuad q s n _ ((s.quad q).recordOf now)

/-- R379: the record of a window, and whom its ballast is charged to where issued power fell in it. -/
theorem State.ballastStep_effect (s : State) (q : Nat) :
    let t := s.ballastStep q
    let x := s.quad q
    let y := t.quad q
    let issued := (y.issued.map (fun p => p.2)).sum
    let energy := fun (u : State) => u.energy0 + (u.contexts.map (fun p => p.2.energy)).sum
    y.window = x.window + 1 ∧ y.estimate = max issued (if 8 * issued < 7 * x.estimate then 7 * x.estimate / 8 else 0) ∧
    ((∃ p ∈ x.issued, SMap.get y.issued 0 p.1 < p.2) →
      energy t = energy s + (y.estimate - issued) * 64 * opPeriod x.clock ∧
      ∀ a c, (∀ p ∈ x.issued, p.1 = a → p.2 ≤ SMap.get y.issued 0 a) → s.context a = some c → t.context a = some c) := by
  obtain ⟨n, now, h⟩ := State.ballastStep_eq s q
  simp only [h, State.quad_setQuad_self, Quad.recordOf, ← totalPower_eq_sum now, true_and]
  refine ⟨add_ballastOf _ _, fun hfall => ?_⟩
  have pos := totalPower_fallsOf_pos hfall
  have hfalls : (s.quad q).fallsAt now = fallsOf (s.quad q).issued now := by
    rw [Quad.fallsAt, if_neg]
    intro he
    rw [List.isEmpty_iff.mp he] at pos
    exact absurd pos (Nat.lt_irrefl 0)
  constructor
  · have htotal := State.energyTotal_chargeAll { s with fresh := n } ((s.quad q).ballastCharges now)
    rw [Quad.ballastCharges, hfalls, sum_shares_all _ pos, windowEnergy] at htotal
    rw [Nat.add_sub_cancel_left, Quad.ballastCharges, hfalls]
    exact htotal
  · intro a c hkeep hc
    refine (State.context_chargeAll { s with fresh := n } (fun p hp => ?_)).trans hc
    obtain ⟨x, hx, hxp⟩ := key_of_mem_shares hp
    rw [hfalls] at hx
    obtain ⟨p0, hp0, hlt, rfl⟩ := mem_fallsOf.mp hx
    rintro rfl
    have := hkeep p0 hp0 hxp
    rw [← hxp] at this
    dsimp only at this
    omega

/-- So many windows of a quad leave the rest, and are counted. -/
theorem State.ballastSteps_only (q n : Nat) (s : State) :
    State.BallastOnly q s (State.ballastSteps q n s) ∧ ((State.ballastSteps q n s).quad q).window = (s.quad q).window + n := by
  induction n generalizing s with
  | zero => exact ⟨.refl q s, rfl⟩
  | succ n ih =>
    simp only [State.ballastSteps]
    split
    · refine ⟨State.ballastOnly_setQuad q s s.fresh []
        { s.quad q with window := (s.quad q).window + n + 1, issued := [] }, ?_⟩
      rw [State.quad_setQuad_self]
      rfl
    · obtain ⟨honly, hwindow⟩ := ih (s.ballastStep q)
      refine ⟨(State.ballastStep_only s q).trans honly, ?_⟩
      rw [hwindow, (State.ballastStep_effect s q).1]
      omega

theorem State.ballastTo_only (s : State) (q : Nat) (now : Quad) : State.BallastOnly q s (s.ballastTo q now) :=
  (State.ballastSteps_only q _ s).1
theorem State.window_ballastTo (s : State) (q : Nat) (now : Quad) :
    ((s.ballastTo q now).quad q).window = max (s.quad q).window (now.edges / 64) := by
  rw [State.ballastTo, (State.ballastSteps_only q _ s).2]
  omega
/-- Where no window is complete there is nothing to do. -/
theorem State.ballastTo_done {s : State} {q : Nat} {now : Quad} (h : now.edges / 64 ≤ (s.quad q).window) : s.ballastTo q now = s := by
  rw [State.ballastTo, Nat.sub_eq_zero_of_le h, State.ballastSteps]
/-- One window of a quad where something is issued or an estimate is left. -/
theorem State.ballastTo_next {s : State} {q : Nat} {now : Quad} (h : (s.quad q).window + 1 = now.edges / 64)
    (hb : s.quadContexts q ≠ [] ∨ (s.quad q).estimate ≠ 0) : s.ballastTo q now = s.ballastStep q := by
  have busy : ((s.quadContexts q).isEmpty && (s.quad q).estimate == 0) = false := by
    rcases hb with hb | hb
    · simp [hb]
    · simp [hb]
  rw [State.ballastTo, ← h, Nat.add_sub_cancel_left]
  simp only [State.ballastSteps, busy, Bool.false_eq_true, if_false]

/-- R379: the ballast of a quad, window by window, up to now. -/
theorem execBallastWindow_effect {s : State} (hw : s.winter = false) (q : Nat) :
    let x := s.quadNow q
    ∃ t, execBallastWindow q s = .next t ∧
      { t with contexts := s.contexts, energy0 := s.energy0, fresh := s.fresh, quads := s.quads } = s ∧
      (x.edges / 64 ≤ (s.quad q).window → t = s) ∧
      ((s.quad q).window < x.edges / 64 → (∀ p, p ≠ q → t.quad p = s.quad p) ∧
        ∃ e l w, t.quad q = { s.quad q with window := x.edges / 64, estimate := e, issued := l, falls := w }) ∧
      ((s.quad q).window + 1 = x.edges / 64 → s.quadContexts q ≠ [] ∨ (s.quad q).estimate ≠ 0 → t = s.ballastStep q) := by
  intro x
  have only := State.ballastTo_only s q x
  refine ⟨s.ballastTo q x, ?_, only.rest, State.ballastTo_done, fun h => ⟨only.others, ?_⟩, State.ballastTo_next⟩
  · simp [execBallastWindow, State.ballast, hw, x]
  · have hwindow : ((s.ballastTo q x).quad q).window = x.edges / 64 := by
      rw [State.window_ballastTo]
      omega
    refine ⟨((s.ballastTo q x).quad q).estimate, ((s.ballastTo q x).quad q).issued, ((s.ballastTo q x).quad q).falls, ?_⟩
    rw [only.record, Quad.withBallast, hwindow]

-- PC samples (R380) ----------------------------------------------------------------------------------------------------------------

section
variable (lanes : Nat → Nat) (q b : Quad)

theorem Quad.edge_withBallast : (q.withBallast b).edge lanes = (q.edge lanes).withBallast b := rfl

theorem Quad.ite_withBallast (p : Prop) [Decidable p] (x y : Quad) :
    (if p then x else y).withBallast b = if p then x.withBallast b else y.withBallast b :=
  apply_ite (fun z : Quad => z.withBallast b) p x y

/-- The clock of a quad runs as it does with any other record of its ballast. -/
theorem Quad.run_withBallast (n now : Nat) : Quad.run lanes n (q.withBallast b) now = (Quad.run lanes n q now).withBallast b := by
  have base : ∀ q : Quad, Quad.run lanes 0 (q.withBallast b) now = (Quad.run lanes 0 q now).withBallast b := fun q => by
    rw [Quad.run, Quad.run, Quad.ite_withBallast]
    rfl
  induction n generalizing q with
  | zero => exact base q
  | succ n ih =>
    rw [Quad.run_succ, Quad.run_succ, Quad.ite_withBallast, Quad.ite_withBallast, Quad.edge_withBallast, ih, base]
    rfl
end

/-- The instant of a sample is that of the state before its ballast. -/
theorem State.BallastOnly.sampleInstant {q : Nat} {s t : State} (h : State.BallastOnly q s t) :
    t.sampleInstant q = (s.sampleInstant q).withBallast (t.quad q) := by
  have hlanes : t.lanes q = s.lanes q := by
    funext i
    simp only [State.lanes, State.alc, State.core, h.cores]
    by_cases hq : quadOf (4 * q + i) = q
    · rw [hq, h.record]
      rfl
    · rw [h.others _ hq]
  rw [State.sampleInstant, hlanes, h.time, h.record]
  exact Quad.run_withBallast ..
/-- What a sample writes into its core moves no clock. -/
theorem State.sampleInstant_setCore (s : State) (c q : Nat) {x : Core} (h : x.alcWanted = (s.core c).alcWanted) :
    (s.setCore c x).sampleInstant q = s.sampleInstant q := by
  have hlanes : (s.setCore c x).lanes q = s.lanes q := by
    funext i
    simp only [State.lanes, State.alc]
    by_cases hc : 4 * q + i = c
    · subst hc
      rw [State.core_setCore_self, h]
      rfl
    · rw [State.core_setCore_ne _ _ hc]
      rfl
  rw [State.sampleInstant, hlanes]
  rfl

/-- The ballast of a quad has been taken up to the latest sample. -/
def State.Settled (s : State) (q : Nat) : Prop := (s.sampleInstant q).edges / 64 ≤ (s.quad q).window

/-- PCSAMP and the count of a core after the latest sample, with the estimate its quad holds then. -/
def State.sampledCore (s : State) (c estimate : Nat) : Core :=
  let tid := (s.sampleNumber + 3) % 4
  let t := s.thread { core := c, thread := tid }
  { s.core c with
    pcsamp := sampleWord t (((s.sampleInstant (quadOf c)).oldest (c % 4) tid).getD t.regs.pc) tid s.sampleNumber
      (BitVec.ofNat 16 (min 65535 estimate))
    samples := s.sampleNumber }

/-- A sample leaves the choice of lanes. -/
theorem State.sampledCore_alcWanted (s : State) (c estimate : Nat) : (s.sampledCore c estimate).alcWanted = (s.core c).alcWanted := by
  rw [State.sampledCore]

theorem State.sampleCore_done {s : State} {c : Nat} (h : s.sampleNumber ≤ (s.core c).samples) : s.sampleCore c = s := by
  simp [State.sampleCore, h]
/-- A sample that is due settles the quad's ballast and writes its core. -/
theorem State.sampleCore_due {s : State} (hw : s.winter = false) {c : Nat} (h : (s.core c).samples < s.sampleNumber) :
    s.sampleCore c = (s.ballastTo (quadOf c) (s.sampleInstant (quadOf c))).setCore c
      (s.sampledCore c ((s.ballastTo (quadOf c) (s.sampleInstant (quadOf c))).quad (quadOf c)).estimate) := by
  have hn : ¬ s.sampleNumber ≤ (s.core c).samples := by omega
  simp only [State.sampleCore, State.sampledCore, State.thread, hw, hn, decide_false, Bool.or_self, Bool.false_eq_true, if_false]

/-- Beside its core a sample writes what the ballast of its quad does. -/
theorem State.sampleCore_rest (s : State) (c : Nat) :
    { s.sampleCore c with
      cores := s.cores, contexts := s.contexts, energy0 := s.energy0, fresh := s.fresh, quads := s.quads } = s := by
  simp only [State.sampleCore]
  split
  · rfl
  · exact congrArg (fun u : State => { u with cores := s.cores }) (State.ballastTo_only s (quadOf c) _).rest
theorem State.sampleCore_winter (s : State) (c : Nat) : (s.sampleCore c).winter = s.winter := (congrArg State.winter (s.sampleCore_rest c) :)
theorem State.sampleCore_msys (s : State) (c : Nat) : (s.sampleCore c).msys = s.msys := (congrArg State.msys (s.sampleCore_rest c) :)
theorem State.sampleCore_sampleNumber (s : State) (c : Nat) : (s.sampleCore c).sampleNumber = s.sampleNumber :=
  (congrArg State.sampleNumber (s.sampleCore_rest c) :)
theorem State.core_sampleCore_ne (s : State) {a c : Nat} (h : c ≠ a) : (s.sampleCore a).core c = s.core c := by
  simp only [State.sampleCore]
  split
  · rfl
  · rw [State.core_setCore_ne _ _ h, State.core, (State.ballastTo_only s (quadOf a) _).cores]
    rfl

theorem State.sampleCores_msys (s : State) (l : List Nat) : (s.sampleCores l).msys = s.msys := by
  induction l generalizing s with
  | nil => rfl
  | cons a r ih => exact (ih (s.sampleCore a)).trans (s.sampleCore_msys a)
theorem State.core_sampleCores_ne (s : State) {l : List Nat} {c : Nat} (h : c ∉ l) : (s.sampleCores l).core c = s.core c := by
  induction l generalizing s with
  | nil => rfl
  | cons a r ih =>
    rw [List.mem_cons, not_or] at h
    exact (ih _ h.2).trans (State.core_sampleCore_ne s h.1)

/-- Once the ballast is settled, samples leave the record of it. -/
theorem State.Settled.quad_sampleCores {Q : Nat} {l : List Nat} (hl : ∀ c ∈ l, quadOf c = Q) {s : State} (hw : s.winter = false)
    (h : s.Settled Q) : (s.sampleCores l).quad Q = s.quad Q := by
  induction l generalizing s with
  | nil => rfl
  | cons a r ih =>
    have hr : ∀ c ∈ r, quadOf c = Q := fun c hc => hl c (List.mem_cons_of_mem _ hc)
    show ((s.sampleCore a).sampleCores r).quad Q = s.quad Q
    by_cases hd : (s.core a).samples < s.sampleNumber
    · have ha := hl a List.mem_cons_self
      rw [State.sampleCore_due hw hd, ha, State.ballastTo_done h]
      refine ih hr hw ?_
      rw [State.Settled, State.sampleInstant_setCore _ _ _ (State.sampledCore_alcWanted ..)]
      exact h
    · rw [State.sampleCore_done (by omega)]
      exact ih hr hw h

/-- R380: of the cores of a quad, each that a sample is due of gets it, with the estimate that the quad then holds. -/
theorem State.sampleCores_due {Q : Nat} {l : List Nat} (hl : ∀ c ∈ l, quadOf c = Q) (hnd : l.Nodup) {s : State} (hw : s.winter = false)
    {c : Nat} (hc : c ∈ l) (hd : (s.core c).samples < s.sampleNumber) :
    (s.sampleCores l).quad Q = (s.ballastTo Q (s.sampleInstant Q)).quad Q ∧
    (s.sampleCores l).core c = s.sampledCore c ((s.ballastTo Q (s.sampleInstant Q)).quad Q).estimate := by
  induction l generalizing s with
  | nil => exact absurd hc List.not_mem_nil
  | cons a r ih =>
    have hr : ∀ c ∈ r, quadOf c = Q := fun c hc => hl c (List.mem_cons_of_mem _ hc)
    obtain ⟨har, hndr⟩ := List.nodup_cons.mp hnd
    show ((s.sampleCore a).sampleCores r).quad Q = _ ∧ ((s.sampleCore a).sampleCores r).core c = _
    by_cases hda : (s.core a).samples < s.sampleNumber
    · have only := State.ballastTo_only s Q (s.sampleInstant Q)
      have hs' := State.sampleCore_due hw hda
      rw [hl a List.mem_cons_self] at hs'
      have hw' : (s.sampleCore a).winter = false := (s.sampleCore_winter a).trans hw
      have hquad : (s.sampleCore a).quad Q = (s.ballastTo Q (s.sampleInstant Q)).quad Q := by rw [hs']; rfl
      have hinstant : (s.sampleCore a).sampleInstant Q = (s.sampleInstant Q).withBallast ((s.sampleCore a).quad Q) := by
        rw [hs', State.sampleInstant_setCore, only.sampleInstant]
        · rfl
        · rw [State.sampledCore_alcWanted, State.core, State.core, only.cores]
      have settled : (s.sampleCore a).Settled Q := by
        rw [State.Settled, hinstant, hquad, State.window_ballastTo]
        exact Nat.le_max_right ..
      refine ⟨(settled.quad_sampleCores hr hw').trans hquad, ?_⟩
      by_cases hca : c = a
      · subst hca
        rw [State.core_sampleCores_ne _ har, hs', State.core_setCore_self]
      · have hcr : c ∈ r := (List.mem_cons.mp hc).resolve_left hca
        have hcore := State.core_sampleCore_ne s hca
        rw [(ih hr hndr hw' hcr (by rw [hcore, State.sampleCore_sampleNumber]; exact hd)).2, State.ballastTo_done settled, hquad]
        have hq : quadOf c = Q := hr c hcr
        simp only [State.sampledCore, State.thread, hcore, State.sampleCore_sampleNumber, hq, hinstant]
        rfl
    · have hca : c ≠ a := by
        rintro rfl
        exact hda hd
      rw [State.sampleCore_done (by omega)]
      exact ih hr hndr hw ((List.mem_cons.mp hc).resolve_left hca) hd

/-- The fields of PCSAMP (Table 28.4). -/
theorem sampleWord_fields (t : Thread) (pc : Word) {tid : Nat} (ht : tid < 4) (seq : Nat) (pwr : BitVec 16) :
    let w := sampleWord t pc tid seq pwr
    w.extractLsb' 0 16 = pwr ∧ w.extractLsb' 16 2 = BitVec.ofNat 2 tid ∧ w.extractLsb' 18 2 = BitVec.ofNat 2 seq ∧
    w.getLsbD 20 = (t.owner.isSome && !t.ended) ∧ w.extractLsb' 21 43 = pc.extractLsb' 3 43 := by
  intro w
  let run : Nat := if t.owner.isSome && !t.ended then 1 else 0
  have hrun : run < 2 := by
    show (if t.owner.isSome && !t.ended then 1 else 0 : Nat) < 2
    split <;> decide
  have hpc : bitsOf pc.toNat 45 3 = pc.toNat / 8 % 2 ^ 43 := rfl
  have hpwr := pwr.isLt
  have hw : w.toNat = pwr.toNat + tid * 2 ^ 16 + seq % 4 * 2 ^ 18 + run * 2 ^ 20 + pc.toNat / 8 % 2 ^ 43 * 2 ^ 21 := by
    show (BitVec.ofNat 64 (packFields [(pwr.toNat, 0), (tid, 16), (seq % 4, 18), (run, 20), (bitsOf pc.toNat 45 3, 21)])).toNat = _
    rw [hpc, BitVec.toNat_ofNat]
    simp only [packFields]
    omega
  have hbit : w.getLsbD 20 = decide (run = 1) := by
    rw [BitVec.getLsbD, Nat.testBit_eq_decide_div_mod_eq, hw]
    congr 1
    apply propext
    omega
  refine ⟨?_, ?_, ?_, ?_, ?_⟩
  · apply BitVec.eq_of_toNat_eq
    rw [BitVec.extractLsb'_toNat, hw]
    omega
  · apply BitVec.eq_of_toNat_eq
    rw [BitVec.extractLsb'_toNat, hw, BitVec.toNat_ofNat, Nat.shiftRight_eq_div_pow]
    omega
  · apply BitVec.eq_of_toNat_eq
    rw [BitVec.extractLsb'_toNat, hw, BitVec.toNat_ofNat, Nat.shiftRight_eq_div_pow]
    omega
  · rw [hbit]
    show decide ((if t.owner.isSome && !t.ended then 1 else 0 : Nat) = 1) = _
    cases t.owner.isSome && !t.ended <;> rfl
  · apply BitVec.eq_of_toNat_eq
    rw [BitVec.extractLsb'_toNat, BitVec.extractLsb'_toNat, hw, Nat.shiftRight_eq_div_pow, Nat.shiftRight_eq_div_pow]
    omega

/-- The cores of a quad. -/
theorem quadOf_mem_quad {Q c : Nat} (h : c ∈ (List.range 4).map (fun i => 4 * Q + i)) : quadOf c = Q := by
  obtain ⟨i, hi, rfl⟩ := List.mem_map.mp h
  rw [List.mem_range] at hi
  rw [quadOf]
  omega
theorem mem_quad_quadOf (c : Nat) : c ∈ (List.range 4).map (fun i => 4 * quadOf c + i) :=
  List.mem_map.mpr ⟨c % 4, List.mem_range.mpr (Nat.mod_lt _ (by decide)), Nat.div_add_mod c 4⟩

/-- R380: where no sample is due of a core of the quad, the event changes nothing. -/
theorem execPcSample_none {s : State} {q : Nat} (h : ∀ i, i < 4 → s.sampleNumber ≤ (s.core (4 * quadOf q + i)).samples) :
    execPcSample q s = .next s := by
  rw [execPcSample, State.sampleQuad, State.sampleCores_of_none]
  intro c hc
  obtain ⟨i, hi, rfl⟩ := List.mem_map.mp hc
  exact h i (List.mem_range.mp hi)

/-- R380: a sample that is due of a core. -/
theorem execPcSample_due {s : State} (hw : s.winter = false) {q : Nat} (hd : (s.core q).samples < s.sampleNumber) :
    ∃ t, execPcSample q s = .next t ∧ t.msys = s.msys ∧
      let k := s.sampleNumber
      let Q := quadOf q
      t.quad Q = (s.ballastTo Q (s.sampleInstant Q)).quad Q ∧
      let tid := (k + 3) % 4
      let thread := s.thread { core := q, thread := tid }
      let p := (t.core q).pcsamp
      (t.core q).samples = k ∧ p.extractLsb' 16 2 = BitVec.ofNat 2 tid ∧ p.extractLsb' 18 2 = BitVec.ofNat 2 k ∧
      p.extractLsb' 0 16 = BitVec.ofNat 16 (min 65535 (t.quad Q).estimate) ∧
      p.getLsbD 20 = (thread.owner.isSome && !thread.ended) ∧
      p.extractLsb' 21 43 = (((s.sampleInstant Q).oldest (q % 4) tid).getD thread.regs.pc).extractLsb' 3 43 := by
  have hnd : ((List.range 4).map (fun i => 4 * quadOf q + i)).Nodup :=
    List.pairwise_map.mpr (List.nodup_range.imp (fun h e => h (Nat.add_left_cancel e)))
  obtain ⟨hquad, hcore⟩ := State.sampleCores_due (fun c => quadOf_mem_quad) hnd hw (mem_quad_quadOf q) hd
  refine ⟨s.sampleQuad (quadOf q), rfl, State.sampleCores_msys s _, hquad, ?_⟩
  have hcore' : (s.sampleQuad (quadOf q)).core q = _ := hcore
  have hquad' : (s.sampleQuad (quadOf q)).quad (quadOf q) = _ := hquad
  rw [hcore', hquad']
  simp only [State.sampledCore]
  obtain ⟨hpwr, htid, hseq, hrun, hpc⟩ := sampleWord_fields (s.thread { core := q, thread := (s.sampleNumber + 3) % 4 })
    (((s.sampleInstant (quadOf q)).oldest (q % 4) ((s.sampleNumber + 3) % 4)).getD
      (s.thread { core := q, thread := (s.sampleNumber + 3) % 4 }).regs.pc)
    (Nat.mod_lt (s.sampleNumber + 3) (by decide : 0 < 4)) s.sampleNumber
    (BitVec.ofNat 16 (min 65535 ((s.ballastTo (quadOf q) (s.sampleInstant (quadOf q))).quad (quadOf q)).estimate))
  exact ⟨trivial, htid, hseq, hpwr, hrun, hpc⟩

-- What saving, resuming and trapping leave of the package's season (R383, R384) -------------------------------------------------------

/-- TIME, and what says whether the package is in Winter and how often it was. -/
structure Season where
  time : Nat
  winter : Bool
  brownOut : Bool
  winterCount : Word
def State.season (s : State) : Season := { time := s.time, winter := s.winter, brownOut := s.brownOut, winterCount := s.winterCount }

/-- A fold of steps that leave the season leaves it. -/
theorem State.season_foldl {α : Type} {g : State → α → State} (h : ∀ s a, (g s a).season = s.season) (l : List α) (s : State) :
    (l.foldl g s).season = s.season := by
  induction l generalizing s with
  | nil => rfl
  | cons a r ih => exact (ih (g s a)).trans (h s a)

@[simp] theorem State.season_setCore (s : State) (c : Nat) (x : Core) : (s.setCore c x).season = s.season := rfl
@[simp] theorem State.season_setQuad (s : State) (q : Nat) (x : Quad) : (s.setQuad q x).season = s.season := rfl
@[simp] theorem State.season_setThread (s : State) (t : Hart) (x : Thread) : (s.setThread t x).season = s.season := rfl
@[simp] theorem State.season_setThr (s : State) (x : Thread) : (s.setThr x).season = s.season := rfl
@[simp] theorem State.season_setRegs (s : State) (r : ThreadRegs) : (s.setRegs r).season = s.season := rfl
@[simp] theorem State.season_setSide (s : State) (x : Side) : (s.setSide x).season = s.season := rfl
@[simp] theorem State.season_setEntered (s : State) (x : Option Word) : (s.setEntered x).season = s.season := rfl
@[simp] theorem State.season_advance (s : State) : s.advance.season = s.season := rfl
@[simp] theorem State.season_setVstart (s : State) (n : Nat) : (s.setVstart n).season = s.season := rfl
@[simp] theorem State.season_setJob (s : State) (j : Job) : (s.setJob j).season = s.season := rfl
@[simp] theorem State.season_setContext (s : State) (n : Nat) (x : Context) : (s.setContext n x).season = s.season := rfl
@[simp] theorem State.season_setS (s : State) (d : BitVec 6) (v : Word) : (s.setS d v).season = s.season := by
  simp only [State.setS]; split <;> rfl
@[simp] theorem State.season_setFile (s : State) (f : RegFile) : (s.setFile f).season = s.season := by
  simp only [State.setFile]; split <;> rfl
@[simp] theorem State.season_setVreg (s : State) (r : Nat) (x : VReg) : (s.setVreg r x).season = s.season := s.season_setFile _
@[simp] theorem State.season_charge (s : State) (a e : Nat) : (s.charge a e).season = s.season := (congrArg State.season (s.charge_rest a e) :)
@[simp] theorem State.season_chargeFree (s : State) (a : Nat) : (s.chargeFree a).season = s.season := State.season_charge s.draw.2 a _
theorem State.MemOnly.season {s t : State} (h : s.MemOnly t) : t.season = s.season := by
  obtain ⟨m, cs, rfl⟩ := h.rest
  rfl
@[simp] theorem State.season_deviceReads (s : State) (unit pa n : Nat) : (s.deviceReads unit pa n).season = s.season :=
  (State.MemOnly.performs unit _ s).season
@[simp] theorem State.season_deviceStore (s : State) (unit pa : Nat) (b : List Byte) : (s.deviceStore unit pa b).season = s.season :=
  (State.MemOnly.perform s unit _).season
@[simp] theorem State.season_storeParts (s : State) (unit pa : Nat) (l : List (Nat × List Byte)) :
    (s.storeParts unit pa l).season = s.season := State.season_foldl (fun s _ => s.season_deviceStore unit _ _) l s
@[simp] theorem State.season_deviceClear (s : State) (unit pa n : Nat) : (s.deviceClear unit pa n).season = s.season :=
  State.season_foldl (fun s ln => (State.MemOnly.countAccess s (64 * ln) _).season) _ s
@[simp] theorem State.season_deviceZero (s : State) (unit pa n : Nat) : (s.deviceZero unit pa n).season = s.season := by
  refine State.season_foldl (fun s i => ?_) _ { s with msys := s.msys.zeroRange pa n }
  split <;> rfl
@[simp] theorem State.season_clearSlot (s : State) (cx : Context) (n : Nat) : (s.clearSlot cx n).season = s.season :=
  s.season_deviceStore _ _ _
theorem State.season_asHart (s : State) (t : Hart) {f : State → State} (h : ∀ s, (f s).season = s.season) :
    (s.asHart t f).season = s.season := h { s with cur := t }
@[simp] theorem State.season_retime (s : State) (h : Nat) : (s.retime h).season = s.season := by
  simp only [State.retime]; split <;> rfl

-- Stopping and saving ----------------------------------------------------------------------------------------------------------------

@[simp] theorem State.season_dropSpeculation (s : State) : s.dropSpeculation.season = s.season := by
  simp only [State.dropSpeculation]
  split
  · rfl
  · split <;> rfl
@[simp] theorem State.season_endWait (s : State) (d : BitVec 6) (r : Word) : (s.endWait d r).season = s.season :=
  State.season_setS _ d r
@[simp] theorem State.season_interruptWait (s : State) : s.interruptWait.season = s.season := by
  simp only [State.interruptWait]
  split
  · rfl
  · exact s.season_endWait _ _
theorem State.season_suspend (s : State) (t : Hart) : (s.suspend t).season = s.season := by
  refine s.season_asHart t (fun s => ?_)
  dsimp only
  split
  · rfl
  · split <;> split <;> simp
@[simp] theorem State.season_writeSlot (s : State) (j : Job) (cx : Context) (c core slot : Nat) :
    (s.writeSlot j cx c core slot).season = s.season := by
  simp only [State.writeSlot, State.season_chargeFree, State.season_setContext, State.season_storeParts, State.season_deviceReads]
  rw [State.season_foldl (fun s i => by simp)]
  split
  · simp
  · split <;> simp
theorem State.season_saveLcore (s : State) (h c core slot group : Nat) (kept : Option Nat) :
    (s.saveLcore h c core slot group kept).season = s.season := by
  simp only [State.saveLcore]
  split
  · rfl
  · split
    · rfl
    · rw [State.season_foldl (fun s t => s.season_setThread t _)]
      simp
theorem State.season_parkLcore (s : State) (h c core : Nat) (slot : Option Nat) : (s.parkLcore h c core slot).season = s.season := by
  simp only [State.parkLcore]
  split
  · rfl
  · rw [State.season_setJob]
    split
    · simp
    · rfl
theorem State.season_saveResidents (s : State) (core slot group : Nat) (kept : Option Nat) :
    (s.saveResidents core slot group kept).season = s.season := by
  simp only [State.saveResidents]
  rw [State.season_foldl, State.season_foldl (fun s i => s.season_suspend _)]
  intro s p
  split
  · exact s.season_saveLcore ..
  · exact s.season_parkLcore ..
theorem State.season_reply (s : State) (l : LRef) (tid fid : Nat) : (s.reply l tid fid).season = s.season := by
  simp only [State.reply]
  split
  · rfl
  · split
    · split
      · rfl
      · split <;> simp
    · rfl
theorem State.season_completeRequests (s : State) : s.completeRequests.season = s.season :=
  State.season_foldl (fun s _ => State.season_foldl (fun s _ => State.season_foldl (fun s _ =>
    State.season_foldl (fun s _ => s.season_reply _ _ _) _ s) _ s) _ s) _ s
theorem State.season_chargeInPlace (s : State) : s.chargeInPlace.season = s.season := by
  rw [State.chargeInPlace, State.season_chargeFree]
  refine State.season_foldl (fun s j => State.season_foldl (fun s p => ?_) _ s) _ s
  dsimp only
  split
  · exact s.season_chargeFree _
  · rfl
theorem State.season_stopClocks (s : State) : s.stopClocks.season = s.season := State.season_foldl (fun s q => s.season_setQuad q _) _ s

/-- The package at the end of Winter entry: what is busy is saved, requests are complete, and the clocks stand (Table 28.8). -/
def State.broughtToRest (s : State) : State :=
  (((s.cores.filter (fun (_, c) => !c.free)).map (fun (k, _) => k)).foldl
    (fun s c => s.saveResidents c 0 s.nextGroup (some c)) s).completeRequests.chargeInPlace.stopClocks

theorem State.season_broughtToRest (s : State) : s.broughtToRest.season = s.season := by
  rw [State.broughtToRest, State.season_stopClocks, State.season_chargeInPlace, State.season_completeRequests]
  exact State.season_foldl (fun s c => s.season_saveResidents _ _ _ _) _ s
theorem State.enterWinter_eq {s : State} (h : ¬ s.winter = true) : s.enterWinter =
    { s.broughtToRest with winter := true, winterCount := s.broughtToRest.winterCount + 1, winterAt := s.broughtToRest.time } := by
  rw [State.enterWinter, if_neg h, State.broughtToRest]

/-- Winter begins where it was not, and is counted; TIME goes on (R383). -/
theorem State.season_enterWinter (s : State) : s.enterWinter.season =
    { s.season with winter := true, winterCount := if s.winter then s.winterCount else s.winterCount + 1 } := by
  by_cases hw : s.winter = true
  · simp [State.enterWinter, State.season, hw]
  · have hs := s.season_broughtToRest
    simp only [State.season, Season.mk.injEq] at hs
    obtain ⟨htime, -, hbrown, hcount⟩ := hs
    simp only [State.enterWinter_eq hw, State.season, htime, hbrown, hcount, if_neg hw]

/-- The brown-out input is asserted: Winter, counted when it begins (R383). -/
theorem execWinterEntry_effect (s : State) : ∃ t, execWinterEntry s = .next t ∧ t.winter = true ∧ t.brownOut = true ∧ t.time = s.time ∧
    t.winterCount = (if s.winter then s.winterCount else s.winterCount + 1) := by
  have h := State.season_enterWinter { s with brownOut := true }
  exact ⟨_, rfl, congrArg Season.winter h, congrArg Season.brownOut h, congrArg Season.time h, congrArg Season.winterCount h⟩

-- Traps and resumption ---------------------------------------------------------------------------------------------------------------

theorem State.season_dropTransfers (s : State) (h : Nat) : (s.dropTransfers h).season = s.season := by
  simp only [State.dropTransfers]
  exact State.season_foldl (fun s t => State.season_foldl (fun s p => s.season_setCore _ _) _ s) _ s
theorem State.season_fuseQuad (s : State) (q : Nat) : (s.fuseQuad q).season = s.season := by
  simp only [State.fuseQuad]
  split
  · rfl
  · exact State.season_foldl (fun s c => s.season_setCore c _) _ s
theorem State.season_endJob (s : State) (h : Nat) : (s.endJob h).season = s.season := by
  simp only [State.endJob]
  split
  · rfl
  · split
    · rw [State.season_foldl (fun s q => s.season_fuseQuad q), State.season_setJob, State.season_foldl (fun s c => s.season_setCore c _),
        State.season_dropTransfers]
    · rw [State.season_setContext, State.season_foldl (fun s p => s.season_clearSlot _ _),
        State.season_foldl (fun s q => s.season_fuseQuad q), State.season_setJob, State.season_foldl (fun s c => s.season_setCore c _),
        State.season_dropTransfers]
@[simp] theorem State.season_enterTrap (s : State) (t : Trap) : (s.enterTrap t).season = s.season := by
  simp only [State.enterTrap]
  split
  · split
    · exact State.season_endJob { s with failures := s.failures + 1 } _
    · rfl
  · rfl
theorem State.season_putAnswer (s : State) (r : Request) : (s.putAnswer r).season = s.season := by
  simp only [State.putAnswer]
  split <;> simp
@[simp] theorem State.season_progOf (s : State) (rs : List Request) (n : Nat) : (s.progOf rs n).season = s.season := by
  simp only [State.progOf]
  split
  · simp only [State.setProg]
    split <;> simp
  · rfl
theorem State.season_applyAnswers (s : State) (rs : List Request) : (s.applyAnswers rs).season = s.season := by
  have put : (rs.foldl State.putAnswer s).season = s.season := State.season_foldl State.season_putAnswer rs s
  simp only [State.applyAnswers]
  split
  · split <;> simp [put]
  · simp [put]
theorem State.season_applyReplies (s : State) (t : Hart) (rs : List Request) (done : List (Nat × Nat)) :
    (s.applyReplies t rs done).season = s.season := by
  refine s.season_asHart t (fun s => ?_)
  dsimp only
  rw [apply_ite State.season, State.season_applyAnswers, ite_self]
  split
  · exact State.season_foldl (fun s p => s.season_setFile _) _ s
  · rfl
theorem State.season_respeculate (s : State) (t : Hart) : (s.respeculate t).season = s.season := by
  simp only [State.respeculate]
  split <;> rfl
theorem State.season_restoreLcore (s : State) (j : Job) (cx : Context) (c core : Nat) : (s.restoreLcore j cx c core).season = s.season := by
  simp only [State.restoreLcore]
  rw [State.season_foldl (fun s i => s.season_respeculate _), State.season_foldl, State.season_foldl, State.season_setJob]
  · intro s i
    simp
  · intro s i
    split
    · rfl
    · rw [State.season_deviceReads, State.season_applyReplies]
@[simp] theorem State.season_sampleCore (s : State) (c : Nat) : (s.sampleCore c).season = s.season :=
  (congrArg State.season (s.sampleCore_rest c) :)
theorem State.season_resumeGroup (s : State) (h group core : Nat) : (s.resumeGroup h group core).season = s.season := by
  simp only [State.resumeGroup]
  split
  · rfl
  · split
    · rfl
    · rw [State.season_retime, State.season_chargeFree, State.season_foldl, State.season_deviceReads, State.season_setCore,
        State.season_sampleCore]
      intro s p
      split
      · split
        · rfl
        · exact s.season_restoreLcore ..
      · rfl
theorem State.season_resumeInPlace (s : State) (j : Job) (c : Nat) : (s.resumeInPlace j c).season = s.season := by
  simp only [State.resumeInPlace]
  split
  · rw [State.season_foldl]
    · split <;> rfl
    · intro s t
      rw [State.season_respeculate, apply_ite State.season, State.season_setThread, ite_self]
  · rfl
theorem State.season_resumeKept (s : State) (h group core : Nat) : (s.resumeKept h group core).season = s.season := by
  simp only [State.resumeKept]
  split
  · rfl
  · split
    · rfl
    · split
      · exact s.season_resumeGroup ..
      · rfl

/-- Spring comes once neither cause of Winter is left, and TIME goes on (R384). -/
theorem State.season_leaveWinter (s : State) :
    s.leaveWinter.season = { s.season with winter := s.winter && (s.brownOut || s.winterCmd) } := by
  simp only [State.leaveWinter]
  split
  · rename_i h
    have hw : (s.winter && (s.brownOut || s.winterCmd)) = s.winter := by
      revert h
      cases s.winter <;> cases s.brownOut <;> cases s.winterCmd <;> decide
    rw [hw]
    rfl
  · rename_i h
    have hw : (s.winter && (s.brownOut || s.winterCmd)) = false := by
      revert h
      cases s.winter <;> cases s.brownOut <;> cases s.winterCmd <;> decide
    rw [State.season_foldl (fun s j => State.season_foldl (fun s p => s.season_resumeKept _ _ _) _ s),
      State.season_foldl (fun s j => State.season_foldl (fun s p => s.season_resumeInPlace _ _) _ s), State.season_chargeInPlace, hw]
    rfl

/-- The brown-out input is clear: Spring, unless a command holds Winter (R384). -/
theorem execSpring_effect (s : State) : ∃ t, execSpring s = .next t ∧ t.brownOut = false ∧ t.winter = (s.winter && s.winterCmd) ∧
    t.time = s.time := by
  have h := State.season_leaveWinter { s with brownOut := false }
  exact ⟨_, rfl, congrArg Season.brownOut h, congrArg Season.winter h, congrArg Season.time h⟩

-- Device reset (R398, R402) ----------------------------------------------------------------------------------------------------------

/-- Charging a device without contexts is charging the housekeeping account. -/
theorem State.chargeFree_unbound {s : State} (h : s.contexts = []) (a : Nat) :
    s.chargeFree a = { s with fresh := s.fresh + 1, energy0 := s.energy0 + Config.energy s.fresh } := by
  have none : ({ s with fresh := s.fresh + 1 } : State).context a = none := by simp [State.context, h, SMap.find]
  simp only [State.chargeFree, State.draw, State.charge, none]

/-- No slot but firmware's holds a key after a reset. -/
theorem State.keyOf_resetKeys {s : State} (h : s.keys = [(0, State.firmwareKey)]) (n : Nat) : s.keyOf n = none := by
  rw [State.keyOf]
  split
  · rfl
  · rename_i hn
    simp [h, SMap.find, Ne.symm hn]

/-- R398, R402: what a device reset leaves, and what it runs. -/
theorem execDeviceReset_effect (s : State) : let image := s.stored.getD s.running
    ∃ t, execDeviceReset s = .next t ∧ t.jobs = [] ∧ t.contexts = [] ∧ (∀ n, t.keyOf n = none) ∧ t.cores = [] ∧ t.started = false ∧
      t.msys.mem = [] ∧ t.winter = false ∧ t.replies = [] ∧
      (image.accepted s.fusedMin = true → t.running = image ∧ t.recovery = false ∧ t.stored = none ∧
        t.fusedMin.toNat = max s.fusedMin.toNat image.arb.toNat) ∧
      (image.accepted s.fusedMin = false → t.recovery = true ∧ t.offer = 1 ∧ t.fusedMin = s.fusedMin) := by
  intro image
  have hb : execDeviceReset s = if image.accepted s.fusedMin then _ else _ := rfl
  rw [hb]
  split
  · rename_i ha
    rw [State.chargeFree_unbound rfl]
    refine ⟨_, rfl, rfl, rfl, State.keyOf_resetKeys rfl, rfl, rfl, rfl, rfl, rfl, fun _ => ⟨rfl, rfl, rfl, ?_⟩, fun hn => ?_⟩
    · show (if s.fusedMin < image.arb then image.arb else s.fusedMin).toNat = _
      simp only [BitVec.lt_def]
      split <;> omega
    · exact absurd (ha.symm.trans hn) Bool.noConfusion
  · rename_i ha
    rw [State.chargeFree_unbound rfl]
    exact ⟨_, rfl, rfl, rfl, State.keyOf_resetKeys rfl, rfl, rfl, rfl, rfl, rfl, fun hn => absurd hn ha, fun _ => ⟨rfl, rfl, rfl⟩⟩

-- The events of a quad (R375-R380) -----------------------------------------------------------------------------------------------------

/-- R375: a change of operating point begins, ends, or is ignored, and CYC counts on. -/
theorem exec_opPointChange {s : State} (hw : s.winter = false) (q n : Nat) : let x := s.quadNow q
    (8 ≤ n → exec (.opPointChange q n) s = .next s) ∧
    (n < 8 → x.moving = none → n = x.op → exec (.opPointChange q n) s = .next s) ∧
    (n < 8 → x.moving = none → n ≠ x.op → ∃ t, exec (.opPointChange q n) s = .next t ∧ t = s.setQuad q { x with moving := some n } ∧
      opMhz (t.quad q).clock = min (opMhz x.op) (opMhz n) ∧ t.cyc q = s.cyc q) ∧
    (∀ p, n < 8 → x.moving = some p → n ≠ p → exec (.opPointChange q n) s = .next s) ∧
    (n < 8 → x.moving = some n → ∃ t, exec (.opPointChange q n) s = .next t ∧ t = s.setQuad q { x with op := n, moving := none } ∧
      (t.quad q).clock = n ∧ t.cyc q = s.cyc q) := by
  refine ⟨execOpPointChange_none q, fun hn hm hp => ?_, fun hn hm hp => ⟨_, ?_, rfl, ?_, ?_⟩, fun p hn hm hp => ?_,
    fun hn hm => ⟨_, ?_, rfl, ?_, ?_⟩⟩
  · exact (execOpPointChange_begin hw q n hn hm).trans (by rw [if_pos hp])
  · exact (execOpPointChange_begin hw q n hn hm).trans (by rw [if_neg hp])
  · rw [State.quad_setQuad_self]
    exact Quad.opMhz_clock_moving rfl
  · exact State.cyc_setQuad hw q _ rfl rfl rfl
  · exact (execOpPointChange_end hw q n hn hm).trans (by rw [if_neg hp])
  · exact (execOpPointChange_end hw q n hn hm).trans (by rw [if_pos rfl])
  · rw [State.quad_setQuad_self]
    rfl
  · exact State.cyc_setQuad hw q _ rfl rfl rfl

/-- R377: how long the cycles last that follow an alarm, and how many of them are halved. -/
theorem Quad.after_alarm (lanes : Nat → Nat) {x : Quad} (ha : x.alarm = true) (hm : x.moving = none) (n : Nat) :
    let y := x.after lanes n
    y.edges = x.edges + n ∧
    (1 ≤ n → n ≤ 6 → y.stretch = 7 - n ∧ y.halved = 0 ∧ y.cycle = 2 * opPeriod x.op) ∧
    (7 ≤ n → n ≤ 71 → y.stretch = 0 ∧ y.halved = 71 - n ∧ y.cycle = opPeriod x.op) ∧
    (7 ≤ n → y.edgeAt = x.edgeAt + x.cycle + (n + 5) * opPeriod x.op) := by
  refine ⟨Quad.edges_after lanes x n, ?_⟩
  cases n with
  | zero => exact ⟨by omega, by omega, by omega⟩
  | succ k =>
    obtain ⟨hstretch, hhalved⟩ := Quad.droop_after lanes ha k
    have hcycle := Quad.cycle_after lanes hm k
    have hedge := Quad.edgeAt_after lanes ha hm k
    rw [hstretch] at hcycle
    refine ⟨fun _ h6 => ?_, fun h7 _ => ?_, fun h7 => ?_⟩
    · rw [if_neg (by omega)] at hcycle
      rw [if_pos (by omega)] at hhalved
      exact ⟨by rw [hstretch]; omega, hhalved, hcycle⟩
    · rw [if_pos (by omega), Nat.one_mul] at hcycle
      rw [if_neg (by omega)] at hhalved
      exact ⟨by rw [hstretch]; omega, by rw [hhalved]; omega, hcycle⟩
    · rw [hedge, Nat.min_eq_right (by omega)]

/-- R385: what is queued and in flight of a thread that has the slot for itself. -/
theorem Quad.groups_after (x : Quad) (lanes : Nat → Nat) (i t : Nat) (sl : Slot) (pc : Word) (bits n : Nat) (hsl : x.slots = [(i, sl)])
    (ht : t < 4) (hq : sl.queue = vset (Vector.replicate 4 []) t [{ pc := pc, left := bits }]) (hb : 0 < bits)
    (hx : x.alarm = true ∨ (x.alarm = false ∧ x.stretch = 0 ∧ x.halved = 0)) :
    let u := 64 * lanes i
    let y := (x.after lanes n).slot i
    (groupsIn x.alarm n * u < bits → vget y.queue t [] = [{ pc := pc, left := bits - groupsIn x.alarm n * u }]) ∧
    (bits ≤ groupsIn x.alarm n * u → vget y.queue t [] = []) ∧
    (0 < n → y.working t = decide (groupsIn x.alarm (n - 1) * u < bits)) := by
  have sole : sl.queue = soleQueue t pc bits := by rw [hq, soleQueue, if_neg (by omega)]
  obtain ⟨hqueue, hworking⟩ := Quad.work_after lanes hsl ht sole hx n
  refine ⟨fun h => ?_, fun h => ?_, fun hn => ?_⟩
  · exact hqueue.trans (if_neg (Nat.sub_ne_zero_of_lt h))
  · exact hqueue.trans (if_pos (Nat.sub_eq_zero_of_le h))
  · exact (hworking hn).trans (decide_eq_decide.mpr Nat.sub_ne_zero_iff_lt)

/-- Settles O54: each event by its own lemma; the clock is brought up to now and stays so, a window's ballast is shared out whole, one
sample settles the ballast for the other cores of its quad, and saving and resuming threads leave TIME and the season. -/
theorem powerEventsActOnTheirQuads : Obligations.PowerEventsActOnTheirQuads := by
  unfold Obligations.PowerEventsActOnTheirQuads
  refine ⟨fun s q n hw => ?_, State.ballastStep_effect, fun x lanes n ha hm => Quad.after_alarm lanes ha hm n, Quad.groups_after,
    fun s cap until_ h => ⟨fun hu => ?_, fun hu => ?_⟩, execWinterEntry_effect, execSpring_effect, execDeviceReset_effect⟩
  · obtain ⟨hbeyond, hsame, hbegin, hother, hend⟩ := exec_opPointChange hw q n
    exact ⟨hbeyond, hsame, hbegin, hother, hend, execAlcChange_chosen hw q n, execDroopAlarm_below, execDroopAlarm_again hw q n,
      execDroopAlarm_first hw q n, fun i hi => ⟨exec_edgeEvents hw q i hi, State.cyc_setQuad hw q _ rfl rfl rfl⟩,
      execBallastWindow_effect hw q, execPcSample_none, execPcSample_due hw⟩
  · exact (execCapLeaseExpiry_leased h).trans (by rw [if_pos hu])
  · exact (execCapLeaseExpiry_leased h).trans (by rw [if_neg (by omega)])

end Sys2Proof.Machine

/-!
PROOFS of the turns of a thread (O58). A step is the turn that comes next, taken by its agent, and TIME (`step_of_turn`). What is due
before it writes cores, quads and accounts alone (`State.account_rest`). A thread's turn falls into the cases of `State.execute`, and
an instruction runs as `State.fetchInstr` reads it at PC.
-/
namespace Sys2Proof.Machine
open Sys2Proof

-- What is due before a turn (R379, R380) ---------------------------------------------------------------------------------------

/-- Between two states only cores, quads, accounts and free values differ. -/
def State.AccountOnly (s t : State) : Prop :=
  { t with cores := s.cores, contexts := s.contexts, energy0 := s.energy0, fresh := s.fresh, quads := s.quads } = s

namespace State.AccountOnly
theorem trans {s t u : State} (h : s.AccountOnly t) (k : t.AccountOnly u) : s.AccountOnly u := by
  have hs : State.AccountOnly s _ := h
  rw [← (k : _ = t)] at hs
  exact hs
theorem foldl {α : Type} {g : State → α → State} (hg : ∀ s a, State.AccountOnly s (g s a)) (l : List α) (s : State) :
    s.AccountOnly (l.foldl g s) := by
  induction l generalizing s with
  | nil => rfl
  | cons a r ih => exact (hg s a).trans (ih _)
theorem winter {s t : State} (h : s.AccountOnly t) : t.winter = s.winter := (congrArg State.winter h :)
theorem inbox {s t : State} (h : s.AccountOnly t) : t.inbox = s.inbox := (congrArg State.inbox h :)
theorem agenda {s t : State} (h : s.AccountOnly t) : t.agenda = s.agenda := (congrArg State.agenda h :)
end State.AccountOnly

theorem State.ballast_rest (s : State) (q : Nat) : s.AccountOnly (s.ballast q) := by
  simp only [State.ballast]
  split
  · rfl
  · exact congrArg (fun u : State => { u with cores := s.cores }) (State.ballastTo_only s q _).rest
theorem State.account_rest (s : State) : s.AccountOnly s.account :=
  (State.AccountOnly.foldl (fun s _ => State.AccountOnly.foldl State.sampleCore_rest _ s) _ s).trans
    (State.AccountOnly.foldl State.ballast_rest _ _)

/-- With no sample and no ballast window due, nothing is written before a turn. -/
theorem State.account_of_none {s : State} (hsamples : ∀ c, s.sampleNumber ≤ (s.core c).samples)
    (hwindows : ∀ q, (s.quadNow q).edges / 64 ≤ (s.quad q).window) : s.account = s := by
  have still : ∀ q, s.ballast q = s := by
    intro q
    rw [State.ballast, State.ballastTo_done (hwindows q), ite_self]
  have all : ∀ l : List Nat, l.foldl State.ballast s = s := by
    intro l
    induction l with
    | nil => rfl
    | cons q r ih => rw [List.foldl_cons, still, ih]
  rw [State.account, State.sample_of_none s (fun q _ i _ => hsamples _), all]

-- The turn that comes next (R383, R393) ------------------------------------------------------------------------------------------

theorem step_of_turn {s s' : State} {turn : Turn} (h : s.account.nextTurn = (turn, s')) : step s = tickResult (s'.takeTurn turn) := by
  simp only [step, State.turn, h]
theorem step_of_next {s s' t : State} {turn : Turn} (h : s.account.nextTurn = (turn, s')) (ht : s'.takeTurn turn = .next t) :
    step s = .next t.tick := by
  rw [step_of_turn h, ht]
  rfl

/-- The agenda says who moves next in Winter, and where Winter has held nothing back. -/
theorem State.nextTurn_agenda {s : State} {turn : Turn} {rest : List Turn} (h : s.winter = true ∨ s.inbox = [])
    (ha : s.agenda = turn :: rest) : s.nextTurn = (turn, { s with agenda := rest }) := by
  unfold State.nextTurn
  split
  · rename_i hw hi
    rcases h with h | h
    · exact absurd (h.symm.trans hw) Bool.noConfusion
    · exact absurd (h.symm.trans hi) (List.cons_ne_nil _ _).symm
  · rw [ha]
/-- What Winter held back goes first once it is over. -/
theorem State.nextTurn_inbox {s : State} {turn : Turn} {rest : List Turn} (hw : s.winter = false) (hi : s.inbox = turn :: rest) :
    s.nextTurn = (turn, { s with inbox := rest }) := by
  simp only [State.nextTurn, hw, hi]

-- Events, messages and requests (R144, R391-R393) ----------------------------------------------------------------------------------

theorem State.takeTurn_event {s : State} {i : Instr} (he : isEvent i = true) (hwf : WellFormed i = true) :
    s.takeTurn (.event i) = exec i s := by
  simp [State.takeTurn, State.happen, he, hwf]

section
variable {s : State} {io conn seq : Nat} {bytes : List Byte}

theorem State.takeTurn_message {m : Msg} {i : Instr} (hnew : ∀ r ∈ s.replies, r.conn = conn → r.seq ≠ seq)
    (hw : s.winter = true → io = 0) (hm : decodeMessage io conn seq bytes = (m, some i)) :
    s.takeTurn (.message io conn seq bytes) = exec i { s with command := m } := by
  have open_ : (s.winter && io != 0) = false := by
    cases h : s.winter with
    | false => rfl
    | true => simp [hw h]
  have first : s.replies.find? (fun r => r.conn == conn && r.seq == seq) = none := by
    rw [List.find?_eq_none]
    intro r hr
    simpa using hnew r hr
  simp [State.takeTurn, State.receive, open_, first, hm]
theorem State.takeTurn_message_held (hw : s.winter = true) (hio : io ≠ 0) :
    s.takeTurn (.message io conn seq bytes) = .next { s with inbox := s.inbox ++ [.message io conn seq bytes] } := by
  simp [State.takeTurn, State.receive, hw, hio]
end

section
variable {s : State} {src ln die : Nat} {seq : BitVec 32} (e : Effect)

theorem State.takeTurn_replay (h : s.isReplay src ln seq die = true) : s.takeTurn (.replay src ln seq die e) = .next s := by
  simp [State.takeTurn, State.delivery, State.deliver, h]
theorem State.takeTurn_request_held (h : s.isReplay src ln seq die = false) (hw : s.winter = true) :
    s.takeTurn (.replay src ln seq die e) = .next { s with inbox := s.inbox ++ [.replay src ln seq die e] } := by
  simp [State.takeTurn, State.delivery, h, hw]
end

-- A thread's turn (R223, R360) ---------------------------------------------------------------------------------------------------

section
variable {s : State} (stop : Option Nat) (await : List Nat)

theorem State.runThread_of_canRun {h : Hart} (hcan : State.canRun { s with cur := h } h = true)
    (hstill : (State.settleRequests { s with cur := h }).canRun h = true) :
    s.runThread h stop await = (State.settleRequests { s with cur := h }).execute stop await := by
  simp [State.runThread, hcan, hstill]

theorem State.execute_takes (h : s.thr.takes = true) : s.execute stop await = exec (.asyncTrapTaken s.cur) s := by
  rw [State.execute, if_pos h]
theorem State.execute_waiting {d : BitVec 6} {deadline : Word} (h : s.thr.takes = false) (hwait : s.thr.waiting = some (d, deadline)) :
    s.execute stop await = (s.waitTo d deadline).finish := by
  simp [State.execute, h, hwait]
theorem State.execute_waitsForReg (h : s.thr.takes = false) (hwait : s.thr.waiting = none) (hreg : s.waitsForReg = true) :
    s.execute stop await = .next (s.setThr { s.thr with burst := false }) := by
  simp [State.execute, h, hwait, hreg]

section
variable (h : s.thr.takes = false) (hwait : s.thr.waiting = none) (hreg : s.waitsForReg = false) {v : State}
include h hwait hreg

theorem State.execute_squashed (hack : s.needsAck = true) (hv : s.confirm = (v, true)) : s.execute stop await = .next v := by
  simp [State.execute, h, hwait, hreg, hack, hv]
theorem State.execute_runInstr (hv : (s.needsAck = false ∧ v = s) ∨ (s.needsAck = true ∧ s.confirm = (v, false))) :
    s.execute stop await = v.runInstr stop await := by
  rcases hv with ⟨hack, rfl⟩ | ⟨hack, hconfirm⟩
  · simp [State.execute, h, hwait, hreg, hack]
  · simp [State.execute, h, hwait, hreg, hack, hconfirm]
end

theorem State.runInstr_stalls {w : State} (h : s.stall s.fetchInstr = (w, true)) : s.runInstr stop await = .next w := by
  simp only [State.runInstr, h]
theorem State.runInstr_runs {w t : State} (h : s.stall s.fetchInstr = (w, false))
    (ht : exec s.fetchInstr { w.fetched with stopAt := stop, await := await } = .next t) :
    s.runInstr stop await = .next ((State.leave { t with stopAt := none, await := [] } w.pc s.fetchInstr
      (vectorWork s.fetchInstr w.wordAtPc) (w.storeSpans s.fetchInstr stop)).occupy w s.fetchInstr stop) := by
  simp only [State.runInstr, h, ht, clearStop]
end

/-- A thread that has come to its instruction stalls, or fetches it, runs it and goes on. -/
theorem step_of_runInstr {s v : State} {i : Instr} (hstep : step s = tickResult (v.runInstr none [])) (hi : v.fetchInstr = i) (w : State) :
    (v.stall i = (w, true) → step s = .next w.tick) ∧
    (v.stall i = (w, false) → w.fetched = w.issue ((w.fetchLines w.pc).map (fun x => .read x.1 x.2)) ∧
      ∀ t, exec i { w.fetched with stopAt := none, await := [] } = .next t →
        step s = .next (State.tick ((State.leave { t with stopAt := none, await := [] } w.pc i (vectorWork i w.wordAtPc)
          (w.storeSpans i none)).occupy w i none))) := by
  subst hi
  refine ⟨fun hs => ?_, fun hs => ⟨rfl, fun t ht => ?_⟩⟩
  · rw [hstep, State.runInstr_stalls none [] hs]
    rfl
  · rw [hstep, State.runInstr_runs none [] hs ht]
    rfl

-- The instruction at PC (R181-R183) ------------------------------------------------------------------------------------------------

theorem featureNeed_lt (w : Word) : featureNeed w < 2 ^ 5 := by
  unfold featureNeed
  split
  · decide
  · split <;> decide

/-- A word's features are accepted when each bit that it needs is (R181). -/
theorem featureNeed_accepted (a : BitVec 256) (w : Word) :
    a.toNat % 2 ^ 5 &&& featureNeed w = featureNeed w ↔ ∀ n, n < 5 → (featureNeed w).testBit n = true → a.getLsbD n = true := by
  constructor
  · intro h n hn hbit
    rw [← h, Nat.testBit_and, Nat.testBit_mod_two_pow] at hbit
    simp only [Bool.and_eq_true] at hbit
    exact hbit.1.2
  · intro h
    refine Nat.eq_of_testBit_eq (fun n => ?_)
    rw [Nat.testBit_and, Nat.testBit_mod_two_pow]
    by_cases hbit : (featureNeed w).testBit n = true
    · have hn : n < 5 := Nat.lt_of_not_le (fun hge => by
        rw [Nat.testBit_lt_two_pow (Nat.lt_of_lt_of_le (featureNeed_lt w) (Nat.pow_le_pow_right (by decide) hge))] at hbit
        exact Bool.noConfusion hbit)
      have ha : a.toNat.testBit n = true := h n hn hbit
      simp [hbit, hn, ha]
    · simp [hbit]

section
variable {s : State}

theorem State.fetchInstr_fault {c : Nat} (h : s.scalarAccess s.view s.me .fetch s.pc 8 8 false = .error c) :
    s.fetchInstr = .instructionFetchFault := by
  simp only [State.fetchInstr, State.fetchWord, h]

variable {p : Place} (h : s.scalarAccess s.view s.me .fetch s.pc 8 8 false = .ok p) {w : Word}
  (hw : w = BitVec.ofNat 64 (ofBytes (s.loadAt s.view p 8)))
include h hw

theorem State.fetchInstr_word : s.fetchInstr =
    if s.accepted.toNat % 2 ^ 5 &&& featureNeed w = featureNeed w then decodeInstr w else .reservedInstruction w := by
  simp only [State.fetchInstr, State.fetchWord, h, ← hw]
theorem State.fetchInstr_decoded {i : Instr} (hi : decodeWord w = .ok i)
    (ha : ∀ n, n < 5 → (featureNeed w).testBit n = true → s.accepted.getLsbD n = true) : s.fetchInstr = i := by
  rw [State.fetchInstr_word h hw, if_pos ((featureNeed_accepted _ _).mpr ha)]
  simp only [decodeInstr, hi]
theorem State.fetchInstr_reserved (hr : (∀ i, decodeWord w ≠ .ok i) ∨
    ¬ ∀ n, n < 5 → (featureNeed w).testBit n = true → s.accepted.getLsbD n = true) : s.fetchInstr = .reservedInstruction w := by
  rw [← featureNeed_accepted] at hr
  rw [State.fetchInstr_word h hw]
  split
  · rename_i ha
    have hnone := hr.resolve_right (not_not_intro ha)
    unfold decodeInstr
    split
    · rename_i i hi
      exact absurd hi (hnone i)
    · rfl
  · rfl
end

/-- R49: an instruction that reads no scalar of vector work and loads nothing makes no stall. -/
theorem State.stall_of_no_source {s : State} {i : Instr} (hregs : scalarSources i = (0, 0)) (hspan : s.scalarSpan i = []) :
    s.stall i = (s, false) :=
  s.stall_of_ready i (by simp [hregs]) (by simp [hregs]) (by simp [hspan])
/-- R49: nothing stalls where no vector work and no store may be incomplete. -/
theorem State.stall_of_idle {s : State} (i : Instr) (hbusy : s.file.busy = 0) (hreads : s.thr.reads = 0) (hstores : s.thr.stores = []) :
    s.stall i = (s, false) :=
  s.stall_of_ready i (by simp [hbusy]) (by simp [hreads]) (by simp [hstores])

/-- Settles O58: the cases of a thread's turn by the lemma for each branch of `State.execute`; the instruction at PC is what its word
decodes to, or the row for a word or a fetch that is none; and an event, a message or a request by the lemma for its turn. -/
theorem stepRunsTheDecodedInstruction : Obligations.StepRunsTheDecodedInstruction := by
  unfold Obligations.StepRunsTheDecodedInstruction
  refine ⟨fun s s' turn hturn => ⟨?_, ?_, ?_, ?_, ?_, ?_, ?_, ?_⟩, fun s => State.account_of_none, fun s i => State.stall_of_no_source,
    fun s i => State.stall_of_idle i⟩
  · rintro h _ rfl hcan rfl hstill
    have hrun : s'.takeTurn (.run h) = _ := State.runThread_of_canRun none [] hcan hstill
    have hstep := step_of_turn hturn
    rw [hrun] at hstep
    refine ⟨fun htakes t ht => ?_, fun d deadline t htakes hwait ht => ?_, fun htakes hwait hreg => ?_,
      fun v htakes hwait hreg hack hv => ?_, fun v htakes hwait hreg hv => ?_⟩
    · exact step_of_next hturn (hrun.trans ((State.execute_takes none [] htakes).trans ht))
    · exact step_of_next hturn (hrun.trans ((State.execute_waiting none [] htakes hwait).trans ht))
    · exact step_of_next hturn (hrun.trans (State.execute_waitsForReg none [] htakes hwait hreg))
    · exact step_of_next hturn (hrun.trans (State.execute_squashed none [] htakes hwait hreg hack hv))
    · rw [State.execute_runInstr none [] htakes hwait hreg hv] at hstep
      exact ⟨fun c hc => step_of_runInstr hstep (State.fetchInstr_fault hc), fun p hp =>
        ⟨fun i hi ha => step_of_runInstr hstep (State.fetchInstr_decoded hp rfl hi ha),
          fun hr => step_of_runInstr hstep (State.fetchInstr_reserved hp rfl hr)⟩⟩
  · rintro i t rfl he hwf ht
    exact step_of_next hturn ((State.takeTurn_event he hwf).trans ht)
  · rintro io conn seq bytes m i t rfl hnew hw hm ht
    exact step_of_next hturn ((State.takeTurn_message hnew hw hm).trans ht)
  · rintro io conn seq bytes rfl hw hio
    exact step_of_next hturn (State.takeTurn_message_held hw hio)
  · rintro src ln die seq e rfl hreplay
    exact step_of_next hturn (State.takeTurn_replay e hreplay)
  · rintro src ln die seq e rfl hnew hw
    exact step_of_next hturn (State.takeTurn_request_held e hnew hw)
  · intro hheld rest hagenda
    have rest_ := s.account_rest
    have hnext := State.nextTurn_agenda (s := s.account) (by rwa [rest_.winter, rest_.inbox]) (rest_.agenda.trans hagenda)
    exact congrArg Prod.snd (hturn.symm.trans hnext)
  · intro hw rest hinbox
    have rest_ := s.account_rest
    have hnext := State.nextTurn_inbox (rest_.winter.trans hw) (rest_.inbox.trans hinbox)
    exact congrArg Prod.snd (hturn.symm.trans hnext)

end Sys2Proof.Machine

/-!
PROOFS of jobs (O48). Lines that a unit reads change no byte (`State.reads_bytes`), and a store leaves the same bytes whatever reads
went before it (`MemSys.SameBytes.store`). A submission ends in one of three ways (`State.submitCard_cases`). What ends a job writes
its record through `State.setJob`, and every other operation on the way leaves the list of jobs (`State.jobs_endJob`).
-/
namespace Sys2Proof.Machine
open Sys2Proof

-- Reads at their homes, and stores after them (R108, R116) -------------------------------------------------------------------------

/-- Lines read at their homes keep every byte. -/
theorem State.reads_bytes (c : Nat) (l : List (Nat × Bool)) (s : State) : s.msys.SameBytes (s.performAll c (readsOf l)).msys := by
  induction l generalizing s with
  | nil => exact .refl _
  | cons x r ih => exact (MemSys.SameBytes.touchLoad s c x.2 x.1).trans (ih _)
theorem MemSys.SameBytes.sameBut {m m' : MemSys} (h : m.SameBytes m') (spans : List (Nat × Nat)) : m.sameBut m' spans :=
  fun a key _ => h.readByte key a

namespace MemSys.SameBytes
/-- A fold of steps that each keep two memories the same. -/
theorem foldl₂ {α : Type} {g g' : MemSys → α → MemSys} (hg : ∀ m m' a, MemSys.SameBytes m m' → (g m a).SameBytes (g' m' a)) (l : List α)
    {m m' : MemSys} (h : m.SameBytes m') : (l.foldl g m).SameBytes (l.foldl g' m') := by
  induction l generalizing m m' with
  | nil => exact h
  | cons a r ih => exact ih (hg m m' a h)
theorem rekey {m m' : MemSys} (h : m.SameBytes m') (n : Nat) (key : BitVec 256) : (m.rekey n key).SameBytes (m'.rekey n key) := by
  have hopens : (m'.line n).opens key = (m.line n).opens key := by simp only [Line.opens, h.keys n]
  have hunder : m'.lineUnder n key = m.lineUnder n key := by simp only [MemSys.lineUnder, hopens, h.mem, h.keys n]
  simp only [MemSys.rekey, hopens]
  split
  · exact h
  · exact ⟨by simp only [hunder, h.mem], h.keys⟩
theorem setLine₂ {m m' : MemSys} (h : m.SameBytes m') (n : Nat) {x x' : Line} (hx : x'.key = x.key) :
    (m.setLine n x).SameBytes (m'.setLine n x') where
  mem := h.mem
  keys k := by
    by_cases hk : k = n
    · subst hk
      rw [MemSys.line_setLine_self, MemSys.line_setLine_self, hx]
    · rw [MemSys.line_setLine_ne _ _ hk, MemSys.line_setLine_ne _ _ hk, h.keys k]
/-- Two memories of the same bytes and keys are so after a store. -/
theorem store {m m' : MemSys} (h : m.SameBytes m') (pa : Nat) (bytes : List Byte) (key : BitVec 256) :
    (m.store pa bytes key).SameBytes (m'.store pa bytes key) := by
  simp only [MemSys.store]
  split
  · exact h
  · have hrekeyed := foldl₂ (fun _ _ n h => h.rekey n key) (linesOf pa bytes.length) h
    refine foldl₂ (fun m m' n h => h.setLine₂ n ?_) _ ⟨?_, hrekeyed.keys⟩
    · simp only [h.keys n]
    · simp only [hrekeyed.mem]
end MemSys.SameBytes

/-- Stores of one unit, one after the other, leave the bytes that they leave in memory alone. -/
theorem State.stores_bytes (c z : Nat) (l : List (Place × Nat × Flags)) {m : MemSys} {s : State} (h : m.SameBytes s.msys) :
    (l.foldl (fun m x => m.store x.1.pa (toBytes z x.2.1) x.1.key) m).SameBytes
      (l.foldl (fun s x => s.perform c (.store x.1.pa (toBytes z x.2.1) x.1.key)) s).msys := by
  induction l generalizing m s with
  | nil => exact h
  | cons x r ih => exact ih ((h.store _ _ _).trans (State.perform_bytes s c (.store x.1.pa (toBytes z x.2.1) x.1.key)))

theorem State.performAll_append (s : State) (c : Nat) (l r : List Effect) :
    s.performAll c (l ++ r) = (s.performAll c l).performAll c r := List.foldl_append
theorem toBytes_length (n x : Nat) : (toBytes n x).length = n := by
  induction n generalizing x with
  | zero => rfl
  | succ n ih => rw [toBytes, List.length_cons, ih]

/-- A store after some reads: a reader under its key receives the bytes, and no other line changes. -/
theorem State.store_after_reads {s : State} (hs : s.Canonical) (c : Nat) (l : List (Nat × Bool)) (pa : Nat) (bytes : List Byte)
    (key : BitVec 256) : let u := s.performAll c (readsOf l ++ [.store pa bytes key])
    u.msys.load key pa bytes.length = bytes ∧ s.msys.sameBut u.msys [(pa, bytes.length)] := by
  intro u
  have hwf : (s.performAll c (readsOf l)).Canonical := State.performs_canonical c _ s hs
  have hstored : ((s.performAll c (readsOf l)).msys.store pa bytes key).SameBytes u.msys := by
    show MemSys.SameBytes _ (s.performAll c (readsOf l ++ [.store pa bytes key])).msys
    rw [State.performAll_append]
    exact State.perform_bytes _ c (.store pa bytes key)
  refine ⟨?_, fun a k ha => ?_⟩
  · rw [hstored.load, MemSys.load_store _ _ _ _ hwf]
  · rw [hstored.readByte, MemSys.sameBut_store _ pa bytes key hwf a k ha, (State.reads_bytes c l s).readByte]

-- The list of jobs -------------------------------------------------------------------------------------------------------------------

theorem State.job_congr {s t : State} (h : t.jobs = s.jobs) (n : Nat) : t.job n = s.job n := by rw [State.job, State.job, h]
theorem State.handle_of_job {s : State} {h : Nat} {j : Job} (hj : s.job h = some j) : j.handle = h := by
  simpa using List.find?_some hj
/-- The job of a handle after its record is written. -/
theorem State.job_setJob {s : State} {h : Nat} {j x : Job} (hj : s.job h = some j) (hx : x.handle = h) : (s.setJob x).job h = some x := by
  subst hx
  exact State.job_setJob_self s x (Option.isSome_iff_exists.mpr ⟨j, hj⟩)
/-- A fold of steps that leave the jobs leaves them. -/
theorem State.jobs_foldl {α : Type} {g : State → α → State} (hg : ∀ s a, (g s a).jobs = s.jobs) (l : List α) (s : State) :
    (l.foldl g s).jobs = s.jobs := by
  induction l generalizing s with
  | nil => rfl
  | cons a r ih => exact (ih (g s a)).trans (hg s a)
theorem State.jobs_fuseQuad (s : State) (q : Nat) : (s.fuseQuad q).jobs = s.jobs := by
  simp only [State.fuseQuad]
  split
  · rfl
  · exact State.jobs_foldl (fun s c => State.setCore_jobs s c _) _ s
theorem State.jobs_dropTransfers (s : State) (h : Nat) : (s.dropTransfers h).jobs = s.jobs := by
  simp only [State.dropTransfers]
  exact State.jobs_foldl (fun s t => State.jobs_foldl (fun s p => State.setCore_jobs s _ _) _ s) _ s
theorem State.MemOnly.deviceStore (s : State) (unit pa : Nat) (b : List Byte) : s.MemOnly (s.deviceStore unit pa b) :=
  State.MemOnly.perform s unit _
theorem State.MemOnly.clearSlots (cx : Context) (l : SMap LRef) (s : State) :
    s.MemOnly (l.foldl (fun s (n, _) => s.clearSlot cx n) s) :=
  State.MemOnly.foldl _ (fun s _ => State.MemOnly.deviceStore s _ _ _) l s

/-- A job that has ended with status 1 (R43). -/
def Job.endedEarly (j : Job) : Job :=
  { j with
    ended1 := true, cores := [], readySince := none, waitSince := none, heldSince := none,
    lcores := j.lcores.map (fun (c, l) => (c, { l with st := .ended, slot := none, threads := [], kept := none })), st := .completing }
/-- The end of a job writes its record, and no other one's. -/
theorem State.jobs_endJob {s : State} {h : Nat} {j : Job} (hj : s.job h = some j) : (s.endJob h).jobs = (s.setJob j.endedEarly).jobs := by
  have stopped : (j.cores.foldl (fun s c => s.setCore c ((s.core c).dropJob h)) (s.dropTransfers h)).jobs = s.jobs :=
    (State.jobs_foldl (fun s c => State.setCore_jobs s c _) _ _).trans (s.jobs_dropTransfers h)
  have written := congrArg (List.map (fun k : Job => if k.handle == j.endedEarly.handle then j.endedEarly else k)) stopped
  simp only [State.endJob, hj]
  split
  · exact (State.jobs_foldl State.jobs_fuseQuad _ _).trans written
  · rw [State.setContext_jobs, (State.MemOnly.clearSlots _ _ _).jobs, State.jobs_foldl State.jobs_fuseQuad]
    exact written

-- Submission (R33, R34, R338) ----------------------------------------------------------------------------------------------------------

theorem State.nextHandle_makeReady (s : State) (j : Job) : (s.makeReady j).nextHandle = s.nextHandle := by
  have performed : ∀ (c : Nat) (es : List Effect) (t : State), (t.performAll c es).nextHandle = t.nextHandle := by
    intro c es t
    obtain ⟨m, cs, h⟩ := (State.MemOnly.performs c es t).rest
    rw [h]
  simp only [State.makeReady]
  cases s.context j.card.asid with
  | none => rfl
  | some cx =>
    dsimp only
    split
    · rfl
    · split
      · rfl
      · split
        · exact performed _ _ s
        · exact performed _ _ s
theorem State.nextHandle_releaseJobs (s : State) : s.releaseJobs.nextHandle = s.nextHandle :=
  foldl_keeps (fun t : State => t.nextHandle = s.nextHandle) _ (fun t j ht => by
    split
    · exact (t.nextHandle_makeReady j).trans ht
    · exact ht) _ _ rfl

/-- A card is accepted under the next handle, or refused with a code that is not 0, or its footprint table could not be read. -/
theorem State.submitCard_cases (s : State) (c : Card) (host mayTop : Bool) :
    (∃ u : State, s.submitCard c host mayTop = (.accepted (s.cardReads c).nextHandle, u) ∧
      u.nextHandle = (s.cardReads c).nextHandle + 1) ∨
    (∃ n, n ≠ 0 ∧ s.submitCard c host mayTop = (.refused n, s.cardReads c)) ∨
    (∃ t a, s.submitCard c host mayTop = (.failed t a, s.cardReads c)) := by
  simp only [State.submitCard]
  split
  · rename_i t a _ _
    exact .inr (.inr ⟨t, a, rfl⟩)
  · exact .inl ⟨_, rfl, State.nextHandle_releaseJobs _⟩
  · rename_i n _ hfailed haccepted
    refine .inr (.inl ⟨_, fun hn => ?_, rfl⟩)
    cases hbad : (s.footprintsOf c).2.2 with
    | none => exact haccepted hn hbad
    | some x => exact hfailed x.1 x.2 hn hbad

/-- A misaligned entry is refused with 1 before anything else is looked at (Table 3.3). -/
theorem State.refusal_of_entry (s : State) {c : Card} (h : c.entry.toNat % 8 ≠ 0) (fpOk : List Bool) (mayTop bound fpFail : Bool) :
    s.refusal c fpOk mayTop bound fpFail = 1 := by
  have hb : (c.entry.toNat % 8 != 0) = true := by simpa using h
  simp [State.refusal, hb]
theorem State.submitCard_of_entry (s : State) {c : Card} (h : c.entry.toNat % 8 ≠ 0) (host mayTop : Bool) :
    (s.submitCard c host mayTop).1 = .refused 1 := by
  simp only [State.submitCard, State.refusal_of_entry _ h]

-- jlaunch (R338) -----------------------------------------------------------------------------------------------------------------------

section
variable {f : W3} {s : State} (k : s.Calm)
include k

theorem exec_jlaunch_misaligned (h : (s.getS f.a).toNat % 128 ≠ 0) : exec (.jlaunch f) s = .next (s.trapped 4 (s.getS f.a)) := by
  simp only [exec, execJlaunch, k.confirming, if_pos h]
  exact k.finish_trapHere _ _

variable (ha : (s.getS f.a).toNat % 128 = 0) {b : List Byte} {reads : List (Nat × Bool)}
  (hb : s.scalarBytes s.me 16 (s.getS f.a) = .ok (b, reads)) {r : State} (hr : r = s.performAll s.cur.core (readsOf reads.eraseDups))
include ha hb hr

/-- Once the card is read, the member ends by its ASID, by the jobs that the scheduler holds, and by the card. -/
theorem exec_jlaunch_card : exec (.jlaunch f) s = (if (cardOf b).asid ≠ s.thr.asid && !s.regs.priv then r.illegal (.jlaunch f) 3
    else if jobLimit ≤ s.jobs.length then r.again
    else match r.submitCard (cardOf b) false s.regs.priv with
      | (.accepted h, u) => (u.setS f.d (BitVec.ofNat 64 h)).complete
      | (.refused n, u) => (u.setS f.d (refusalWord n)).complete
      | (.failed c a, u) => u.trapHere c a).finish := by
  have only : s.MemOnly r := hr ▸ State.MemOnly.performs _ _ _
  have hn : ¬ (s.getS f.a).toNat % 128 ≠ 0 := not_not_intro ha
  rcases hsub : r.submitCard (cardOf b) false s.regs.priv with ⟨⟨h⟩ | ⟨n⟩ | ⟨c, a⟩, u⟩ <;>
    simp only [exec, execJlaunch, k.confirming, if_neg hn, hb, k.issue, ← hr, only.thr, only.regs, only.jobs, hsub]

theorem exec_jlaunch_foreign (hasid : (cardOf b).asid ≠ s.thr.asid) (hp : s.regs.priv = false) :
    exec (.jlaunch f) s = .next (r.trapped 3 (encode (.jlaunch f))) := by
  have calm : r.Calm := State.MemOnly.calm (hr ▸ State.MemOnly.performs _ _ _) k
  rw [exec_jlaunch_card k ha hb hr, if_pos (by simp [hasid, hp])]
  exact calm.finish_illegal _ _

variable (hown : (cardOf b).asid = s.thr.asid ∨ s.regs.priv = true)
include hown

omit k ha hb hr in
theorem own_of_asid : ¬ ((cardOf b).asid ≠ s.thr.asid && !s.regs.priv) = true := by
  rcases hown with h | h <;> simp [h]

theorem exec_jlaunch_full (hfull : 65536 ≤ s.jobs.length) : exec (.jlaunch f) s = .next (r.setEntered none) := by
  rw [exec_jlaunch_card k ha hb hr, if_neg (own_of_asid hown), if_pos (show jobLimit ≤ _ from hfull)]
  rfl

variable (hroom : s.jobs.length < 65536) {u : State}
include hroom

/-- With room for a job, the member ends as the submission of its card did. -/
theorem exec_jlaunch_submitted : exec (.jlaunch f) s = (match r.submitCard (cardOf b) false s.regs.priv with
    | (.accepted h, u) => (u.setS f.d (BitVec.ofNat 64 h)).complete
    | (.refused n, u) => (u.setS f.d (refusalWord n)).complete
    | (.failed c a, u) => u.trapHere c a : Done).finish := by
  rw [exec_jlaunch_card k ha hb hr, if_neg (own_of_asid hown), if_neg (show ¬ jobLimit ≤ _ from Nat.not_le_of_lt hroom)]

theorem exec_jlaunch_accepted {h : Nat} (hsub : r.submitCard (cardOf b) false s.regs.priv = (.accepted h, u)) :
    exec (.jlaunch f) s = .next ((u.setS f.d (BitVec.ofNat 64 h)).ended) ∧ h = s.nextHandle ∧ u.nextHandle = h + 1 := by
  have only : s.MemOnly (r.cardReads (cardOf b)) :=
    State.MemOnly.trans (hr ▸ State.MemOnly.performs _ _ _) (State.MemOnly.performs _ _ r)
  have hnext : (r.cardReads (cardOf b)).nextHandle = s.nextHandle := by
    obtain ⟨m, cs, he⟩ := only.rest
    rw [he]
  refine ⟨by rw [exec_jlaunch_submitted k ha hb hr hown hroom, hsub]; rfl, ?_⟩
  rcases r.submitCard_cases (cardOf b) false s.regs.priv with ⟨v, hv, hvn⟩ | ⟨n, -, hv⟩ | ⟨t, a, hv⟩ <;> rw [hv] at hsub
  · cases hsub
    exact ⟨hnext, hvn⟩
  · cases hsub
  · cases hsub

theorem exec_jlaunch_refused {n : Nat} (hsub : r.submitCard (cardOf b) false s.regs.priv = (.refused n, u)) :
    n ≠ 0 ∧ u.jobs = s.jobs ∧ u.nextHandle = s.nextHandle ∧ s.msys.sameBut u.msys [] ∧
      exec (.jlaunch f) s = .next ((u.put f.d (0x8000000000000000 + BitVec.ofNat 64 n)).setEntered none) := by
  rcases r.submitCard_cases (cardOf b) false s.regs.priv with ⟨v, hv, -⟩ | ⟨m, hm, hv⟩ | ⟨t, a, hv⟩ <;> rw [hv] at hsub
  · cases hsub
  · cases hsub
    have only : s.MemOnly (r.cardReads (cardOf b)) :=
      State.MemOnly.trans (hr ▸ State.MemOnly.performs _ _ _) (State.MemOnly.performs _ _ r)
    have bytes : s.msys.SameBytes (r.cardReads (cardOf b)).msys :=
      MemSys.SameBytes.trans (hr ▸ State.reads_bytes _ _ s) (State.reads_bytes _ _ r)
    refine ⟨hm, only.jobs, ?_, bytes.sameBut [], ?_⟩
    · obtain ⟨m, cs, he⟩ := only.rest
      rw [he]
    · rw [exec_jlaunch_submitted k ha hb hr hown hroom, hv, ← State.setS_advance _ _ _ (only.calm k).placed]
      rfl
  · cases hsub
end

-- jwait (R339) -------------------------------------------------------------------------------------------------------------------------

section
variable {f : W3} {s : State} (k : s.Calm)
include k

theorem exec_jwait_refusal (h : (s.getS f.a).getLsbD 63 = true) :
    exec (.jwait f) s = .next ((s.put f.d (s.getS f.a)).setEntered none) := by
  rw [← State.setS_advance s _ _ k.placed]
  simp only [exec, execJwait, k.confirming, if_pos h]
  rfl

variable (h : ¬ (s.getS f.a).getLsbD 63 = true)
include h

theorem exec_jwait_waits (hw : s.jobWord (s.getS f.a).toNat = none) : exec (.jwait f) s = .next (s.setEntered none) := by
  simp only [exec, execJwait, k.confirming, if_neg h, hw]
  rfl
theorem exec_jwait_word {w : Word} (hw : s.jobWord (s.getS f.a).toNat = some w) :
    exec (.jwait f) s = .next ((s.put f.d w).setEntered none) := by
  rw [← State.setS_advance s _ _ k.placed]
  simp only [exec, execJwait, k.confirming, if_neg h, hw]
  rfl
end

section
variable {s : State} {h : Nat}

theorem State.jobWord_incomplete (hj : ∃ j ∈ s.jobs, j.handle = h) : s.jobWord h = none := by
  simp only [State.jobWord]
  exact if_pos (by simpa using hj)

variable (hj : ∀ j ∈ s.jobs, j.handle ≠ h)
include hj

theorem State.jobWord_gone : s.jobWord h = some (((s.finished.find? (fun x => x.1 == h)).map (·.2)).getD (BitVec.allOnes 64)) := by
  have hn : ¬ s.jobs.any (fun j => j.handle == h) = true := by simpa using hj
  simp only [State.jobWord, if_neg hn]
  split
  · rename_i hf
    simp [hf]
  · rename_i hf
    simp [hf]
theorem State.jobWord_finished {w : Word} (hf : s.finished.find? (fun x => x.1 == h) = some (h, w)) : s.jobWord h = some w := by
  rw [State.jobWord_gone hj, hf]
  rfl
theorem State.jobWord_unknown (hf : ∀ x ∈ s.finished, x.1 ≠ h) : s.jobWord h = some (BitVec.allOnes 64) := by
  have none : s.finished.find? (fun x => x.1 == h) = none := List.find?_eq_none.mpr (fun x hx => by simpa using hf x hx)
  rw [State.jobWord_gone hj, none]
  rfl
end

-- Combine and completion record (R42, R43) -----------------------------------------------------------------------------------------------

/-- R43: the fields of the completion word. -/
theorem Job.word_eq (j : Job) (status : Nat) : j.word status = BitVec.ofNat 64 (j.finished % 2 ^ 32 + j.card.asid * 2 ^ 32 + status * 2 ^ 48
    + (if j.ended1 then 0 else j.flags.toNat) * 2 ^ 56) := by
  simp only [Job.word, regW, packFields]
  congr 1
  omega

theorem State.mem_finishJob (s : State) (h : Nat) (w : Word) : (h, w) ∈ (s.finishJob h w).finished := by
  simp only [State.finishJob]
  rw [List.drop_append_of_le_length (Nat.sub_le _ _)]
  exact List.mem_append_right _ List.mem_cons_self
theorem State.job_finishJob (s : State) (h : Nat) (w : Word) : (s.finishJob h w).job h = none := by
  simp [State.job, State.finishJob]

section
variable {s : State} {h : Nat} {j : Job} (hj : s.job h = some j) (hw : s.winter = false)
include hj hw

/-- A combine that fails leaves memory's bytes and gives status 2. -/
theorem exec_jobCombine_failed (hc : j.toCombine = true)
    (hfail : s.combineFrom (s.agentOf j) j.card (j.card.cmbTy.getD .i32) j.strips j.card.cmblen.toNat 0 = none) :
    ∃ l, exec (.jobCombine h) s = .next
      ((s.performAll (s.agentOf j).core (readsOf l)).setJob { j with fault := 2, combined := true }) :=
  ⟨s.combineReads (s.agentOf j) j.card ((j.card.cmbTy.getD .i32).width / 8) j.strips, by
    simp [exec, execJobCombine, hj, hw, hc, hfail]⟩
theorem exec_jobCombine_done (hc : j.toCombine = true) {r : List (Place × Nat × Flags)}
    (hr : s.combineFrom (s.agentOf j) j.card (j.card.cmbTy.getD .i32) j.strips j.card.cmblen.toNat 0 = some r) :
    ∃ u, exec (.jobCombine h) s = .next u ∧
      u.msys.mem = (r.foldl (fun m x => m.store x.1.pa (toBytes ((j.card.cmbTy.getD .i32).width / 8) x.2.1) x.1.key) s.msys).mem ∧
      u.job h = some { j with combined := true, flags := r.foldl (fun a x => a ||| x.2.2) 0 } := by
  let w := (s.agentOf j).core
  let z := (j.card.cmbTy.getD .i32).width / 8
  let v := s.performAll w (readsOf (s.combineReads (s.agentOf j) j.card z j.strips))
  let u := r.foldl (fun s x => s.perform w (.store x.1.pa (toBytes z x.2.1) x.1.key)) v
  have hu : u.jobs = s.jobs :=
    (State.jobs_foldl (fun s x => (State.MemOnly.perform s w _).jobs) r v).trans (State.MemOnly.performs w _ s).jobs
  refine ⟨u.setJob { j with combined := true, flags := r.foldl (fun a x => a ||| x.2.2) 0 }, ?_, ?_, ?_⟩
  · simp only [exec, execJobCombine, hj, hw, hc, hr]
    rfl
  · exact (State.stores_bytes w z r (State.reads_bytes w _ s)).mem
  · exact State.job_setJob ((State.job_congr hu h).trans hj) (State.handle_of_job hj :)

section
variable (hst : j.st = .completing) (hc : j.toCombine = false)
include hst hc

omit hj in
theorem record_due : (s.winter || j.st != .completing || j.toCombine) = false := by simp [hw, hst, hc]

/-- A record that falls due leaves the job's word as `finishJob` keeps it, and releases the jobs that waited for it. -/
theorem exec_completionRecord_word (hd : j.card.doneAt = 0) :
    exec (.completionRecord h) s = .next (s.finishJob h (j.word (if j.ended1 then 1 else j.fault))).releaseJobs := by
  simp only [exec, execCompletionRecord, hj, record_due hw hst hc, Bool.false_eq_true, if_false, if_pos hd]
theorem exec_completionRecord_written (hd : j.card.doneAt ≠ 0) {p : Place}
    (hp : s.vectorAccess s.msys (s.agentOf j) .store j.card.doneAt 8 8 = .ok p) :
    exec (.completionRecord h) s = .next
      ((s.performAll (s.agentOf j).core (readsOf (s.vectorReads (s.agentOf j) .store j.card.doneAt p.pa)
        ++ [.store p.pa (toBytes 8 (j.word (if j.ended1 then 1 else j.fault)).toNat) p.key])).finishJob h
          (j.word (if j.ended1 then 1 else j.fault))).releaseJobs := by
  simp only [exec, execCompletionRecord, hj, record_due hw hst hc, Bool.false_eq_true, if_false, if_neg hd, hp]
theorem exec_completionRecord_failed (hd : j.card.doneAt ≠ 0) {code : Nat}
    (hp : s.vectorAccess s.msys (s.agentOf j) .store j.card.doneAt 8 8 = .error code) :
    exec (.completionRecord h) s = .next
      ((s.performAll (s.agentOf j).core (readsOf (s.vectorTried s.msys (s.agentOf j) .store j.card.doneAt 8))).finishJob h
        (j.word 4)).releaseJobs := by
  simp only [exec, execCompletionRecord, hj, record_due hw hst hc, Bool.false_eq_true, if_false, if_neg hd, hp]
end

/-- A supervisor ends a job that is not complete (R43). -/
theorem exec_jobEndedBySupervisor_effect (hst : j.st ≠ .completing) :
    ∃ u j', exec (.jobEndedBySupervisor h) s = .next u ∧ u.job h = some j' ∧ j'.ended1 = true ∧ j'.st = .completing ∧ j'.cores = [] := by
  refine ⟨s.endJob h, j.endedEarly, ?_, ?_, rfl, rfl, rfl⟩
  · simp [exec, execJobEndedBySupervisor, hj, hw, hst]
  · rw [State.job_congr (State.jobs_endJob hj)]
    exact State.job_setJob hj (State.handle_of_job hj :)

-- Levels (R355) --------------------------------------------------------------------------------------------------------------------------

theorem exec_agingTick_due {x : Nat} (hx : j.waitSince = some x) (hdue : x + 1000000 ≤ s.time) :
    exec (.agingTick h) s = .next (s.setJob { j with
      waitSince := some (x + 1000000), level := if j.level < 62 ∧ j.card.prio < 62 then j.level + 1 else j.level }) := by
  have hnot : ¬ s.time < x + 1000000 := Nat.not_lt_of_le hdue
  simp [exec, execAgingTick, hj, hw, hx, msNs, hnot]
theorem exec_levelReturn_due {x : Nat} (hx : j.heldSince = some x) (hdue : x + 1000000 ≤ s.time) :
    exec (.levelReturn h) s = .next (s.setJob { j with level := j.card.prio }) := by
  have hnot : ¬ s.time < x + 1000000 := Nat.not_lt_of_le hdue
  simp [exec, execLevelReturn, hj, hw, hx, msNs, hnot]
end

/-- In Winter a job neither combines, completes, ends nor changes its level (R383). -/
theorem exec_jobEvents_winter {s : State} (hw : s.winter = true) (h : Nat) :
    ∀ i ∈ [Instr.jobCombine h, .completionRecord h, .jobEndedBySupervisor h, .agingTick h, .levelReturn h], exec i s = .next s := by
  intro i hi
  simp only [List.mem_cons, List.not_mem_nil, or_false] at hi
  rcases hi with rfl | rfl | rfl | rfl | rfl
  · show execJobCombine h s = .next s
    rw [execJobCombine]
    split <;> simp [hw]
  · show execCompletionRecord h s = .next s
    rw [execCompletionRecord]
    split <;> simp [hw]
  · show execJobEndedBySupervisor h s = .next s
    rw [execJobEndedBySupervisor]
    split <;> simp [hw]
  · show execAgingTick h s = .next s
    rw [execAgingTick]
    split
    · rfl
    · split <;> simp [hw]
  · show execLevelReturn h s = .next s
    rw [execLevelReturn]
    split
    · rfl
    · split <;> simp [hw]

/-- Settles O48: `jlaunch` by how the submission of its card ends, `jwait` by the word of its handle, and each event of a job by its own
lemma. -/
theorem jobsLaunchCombineAndComplete : Obligations.JobsLaunchCombineAndComplete := by
  unfold Obligations.JobsLaunchCombineAndComplete
  refine ⟨fun f s k => ⟨exec_jlaunch_misaligned k, fun b reads ha hb => ⟨exec_jlaunch_foreign k ha hb rfl, exec_jlaunch_full k ha hb rfl,
    fun hown hroom => ⟨fun h u => exec_jlaunch_accepted k ha hb rfl hown hroom, fun n u => exec_jlaunch_refused k ha hb rfl hown hroom,
      fun he => State.submitCard_of_entry _ he _ _⟩⟩, exec_jwait_refusal k, fun hn hj => ?_, fun w hn hj hf => ?_, fun hn hj hf => ?_⟩,
    fun h s j hj hw => ⟨exec_jobCombine_failed hj hw, fun r hc => exec_jobCombine_done hj hw hc, fun hst hc hd => ?_,
      fun p hs hst hc hd hp => ?_, fun code hst hc hd hp => ?_, exec_jobEndedBySupervisor_effect hj hw,
      fun x => exec_agingTick_due hj hw, fun x => exec_levelReturn_due hj hw⟩, fun h s hw => exec_jobEvents_winter hw h⟩
  · exact exec_jwait_waits k (Bool.eq_false_iff.mp hn) (State.jobWord_incomplete hj)
  · exact exec_jwait_word k (Bool.eq_false_iff.mp hn) (State.jobWord_finished hj hf)
  · exact exec_jwait_word k (Bool.eq_false_iff.mp hn) (State.jobWord_unknown hj hf)
  · rw [← Job.word_eq]
    exact ⟨exec_completionRecord_word hj hw hst hc hd, s.mem_finishJob h _, s.job_finishJob h _⟩
  · rw [← Job.word_eq]
    obtain ⟨hload, hother⟩ := State.store_after_reads hs (s.agentOf j).core (s.vectorReads (s.agentOf j) .store j.card.doneAt p.pa) p.pa
      (toBytes 8 (j.word (if j.ended1 then 1 else j.fault)).toNat) p.key
    rw [toBytes_length] at hload hother
    obtain ⟨m, cs, hu⟩ := (State.MemOnly.performs (s.agentOf j).core (readsOf (s.vectorReads (s.agentOf j) .store j.card.doneAt p.pa)
      ++ [.store p.pa (toBytes 8 (j.word (if j.ended1 then 1 else j.fault)).toNat) p.key]) s).rest
    exact ⟨_, exec_completionRecord_written hj hw hst hc hd hp, by rw [hu], by rw [hu], hload, hother⟩
  · rw [← Job.word_eq]
    exact ⟨_, exec_completionRecord_failed hj hw hst hc hd hp⟩

end Sys2Proof.Machine

/-!
REFUTATIONS. O51: in Winter an asynchronous cause stays pending, where the statement has every calm thread that could take one take it.
O52: a grant may take a core that Winter keeps for a logical core of another job (`State.usable` does not ask), and no logical core
starts there.
-/
namespace Sys2Proof.Machine
open Sys2Proof

-- An asynchronous cause in Winter (R360, R383) -----------------------------------------------------------------------------------

/-- In Winter no asynchronous trap is taken. -/
theorem exec_asyncTrapTaken_winter {s : State} (hw : s.winter = true) (t : Hart) : exec (.asyncTrapTaken t) s = .next s := by
  simp [exec, execAsyncTrapTaken, hw]

/-- A trap leaves TE = 0, when it is no double trap (R361). -/
theorem State.te_enterTrap (s : State) (t : Trap) (h : s.open_) (hp : s.placed) : (s.enterTrap t).regs.te = false := by
  rw [State.enterTrap_regs s t h hp]
  rfl

/-- A thread with TE = 1 that runs a logical core, and for which one cause is pending. -/
def causePending : Thread :=
  { Thread.zero with
    owner := some { job := 1, lcore := 0, tid := 0 }
    regs := { ThreadRegs.zero with te := true }
    side := { Side.zero with pending := [{ code := 16, val := 0, fid := 0 }] } }
/-- The package in Winter, with that thread left in place as thread 0 of core 0. -/
def wintering : State := { State.reset.setThr causePending with winter := true }

theorem wintering_thr : wintering.thr = causePending := State.thr_setThr State.reset causePending (by decide)
theorem wintering_calm : wintering.Calm where
  placed := by decide
  file := by rw [wintering_thr]; rfl
  probes := by rw [State.side, wintering_thr]; rfl
  held := by rw [wintering_thr]; rfl

/-- Refutes O51: in Winter the event changes nothing, so that a thread with TE = 1 and a cause pending keeps TE = 1, and the trap that
the statement claims would leave it 0. -/
theorem not_blocksAndAsynchronousTraps : ¬ Obligations.BlocksAndAsynchronousTraps := by
  unfold Obligations.BlocksAndAsynchronousTraps
  rintro ⟨-, htraps⟩
  have htakes : wintering.thr.takes = true := by rw [wintering_thr]; rfl
  obtain ⟨p, -, -, hexec⟩ := (htraps wintering wintering_calm).2 htakes
  rw [exec_asyncTrapTaken_winter rfl] at hexec
  have hstands := Host.Outcome.next.inj hexec
  have placed := wintering_calm.setSide { wintering.side with pending := wintering.side.pending.erase p } wintering_calm.probes
  have hthr : (wintering.setSide { wintering.side with pending := wintering.side.pending.erase p }).regs = causePending.regs := by
    rw [State.regs, State.setSide, State.thr_setThr _ _ wintering_calm.placed, wintering_thr]
  have hte := State.te_enterTrap _ { code := p.code, val := p.val, point := wintering.pc, asy := true, blk := false, fid := p.fid }
    (show State.open_ _ by rw [State.open_, hthr]; rfl) placed.placed
  rw [← hstands, State.regs, wintering_thr] at hte
  exact Bool.noConfusion hte

-- A grant of a core that Winter keeps (R354, R384) ---------------------------------------------------------------------------------

/-- A job of one logical core with one strip, ready for its first grant in a quad. -/
def askingJob : Job := { loaderJob 1 with card := { loaderCard with ctrl := 2 }, scopeAt := none, cores := [] }
/-- Another job, with a stopped logical core for which Winter keeps core 0. -/
def keepingJob : Job :=
  { askingJob with handle := 2, st := .dependent, lcores := [(0, { LCore.zero with st := .saved, kept := some 0 })] }
/-- A started package that holds both jobs, with nothing on any core. -/
def grantable : State := { State.reset with started := true, contexts := [(0, loaderContext 0)], jobs := [askingJob, keepingJob] }

theorem grantable_grantOk : grantable.grantOk askingJob [0] = true := by decide +kernel
/-- Nothing starts on the core: its thread 0 runs no logical core. -/
theorem grantable_owner : ((grantable.grantCores askingJob [0]).thread { core := 0, thread := 0 }).owner = none := rfl

/-- Refutes O52: core 0 is granted to job 1, while Winter keeps it for job 2, and thread 0 of it is not started. -/
theorem not_schedulerMovesLogicalCores : ¬ Obligations.SchedulerMovesLogicalCores := by
  unfold Obligations.SchedulerMovesLogicalCores
  rintro ⟨hgrant, -⟩
  obtain ⟨-, hmade, hstarts⟩ := hgrant grantable 1 askingJob [0] rfl
  obtain ⟨t, ht, hthread⟩ := hstarts 0 rfl grantable_grantOk rfl rfl rfl (by decide) rfl rfl
  rw [(hmade grantable_grantOk).1] at ht
  obtain rfl := Host.Outcome.next.inj ht
  obtain ⟨-, -, -, -, -, -, -, -, -, howner⟩ := hthread
  exact Option.some_ne_none _ (howner.symm.trans grantable_owner)

end Sys2Proof.Machine

/-!
PROOFS of circular buffers and barriers (O47) and of the reset state (O60). A calm thread ends a member by a result (`finish_put`), by a
trap at the next word (`finish_putTrap`), or at its own word again. An action on a barrier leaves its phase open or completes one or two
(`Barrier.act_pending`, `Barrier.act_completes`, `Barrier.act_completesTwo`), and BAR ends by whether the barrier is held and by what its
action brought (`State.actBarrier`).
-/
namespace Sys2Proof.Machine
open Sys2Proof

-- What a change of the executing thread leaves --------------------------------------------------------------------------------------

section
variable (s : State) (h : s.placed)
include h

theorem State.regs_setEntered (x : Option Word) : (s.setEntered x).regs = s.regs := by
  rw [State.regs, State.setEntered, State.thr_setThr s _ h]
  rfl
theorem State.side_setEntered (x : Option Word) : (s.setEntered x).side = s.side := by
  rw [State.side, State.setEntered, State.thr_setThr s _ h]
  rfl
theorem State.side_setSide (x : Side) : (s.setSide x).side = x := by
  rw [State.side, State.setSide, State.thr_setThr s _ h]
theorem State.regs_setSide (x : Side) : (s.setSide x).regs = s.regs := by
  rw [State.regs, State.setSide, State.thr_setThr s _ h]
  rfl
theorem State.pc_ended : s.ended.pc = s.pc + 8 := by
  rw [State.pc, State.ended, State.regs_setEntered s.advance h]
  exact State.pc_advance s h
theorem State.side_put (d : BitVec 6) (v : Word) : (s.put d v).side = s.side := State.side_setRegs s _ h
end

theorem State.cbuf_setThr (s : State) (x : Thread) (n : Nat) : (s.setThr x).myCore.cbuf n = s.myCore.cbuf n := by
  have core : (s.setThr x).myCore = { s.myCore with threads := (s.setThr x).myCore.threads } := State.setThread_core s s.cur x s.cur.core
  rw [core]
  rfl
theorem State.cbuf_ended (s : State) (n : Nat) : s.ended.myCore.cbuf n = s.myCore.cbuf n :=
  (State.cbuf_setThr _ _ n).trans (State.cbuf_setThr s _ n)

-- How a calm thread ends a member ---------------------------------------------------------------------------------------------------

section
variable {s : State} (k : s.Calm)
include k

theorem State.Calm.finish_put (d : BitVec 6) (v : Word) : (s.setS d v).complete.finish = .next ((s.put d v).setEntered none) := by
  rw [← State.setS_advance s d v k.placed]
  rfl
/-- A member that completes with a scalar result and then traps, with TPC the next word (R334). -/
theorem State.Calm.finish_putTrap (d : BitVec 6) (v : Word) (code : Nat) (val : Word) :
    (Done.trap (Trap.sync code val (s.setS d v).advance.pc) (s.setS d v).advance).finish =
      .next (((s.put d v).setEntered none).enterTrap (Trap.sync code val (s.pc + 8))) := by
  have hpc : (s.put d v).pc = s.pc + 8 := by
    rw [State.pc, State.regs_put s d v k.placed]
    rfl
  have calm : ((s.put d v).setEntered none).Calm := State.Calm.setEntered (k.setRegs _) none
  rw [State.setS_advance s d v k.placed, Done.finish, calm.raise, hpc]
theorem State.Calm.setBarrier (n : Nat) (b : Barrier) : (s.setBarrier n b).Calm := ⟨k.placed, k.file, k.probes, k.held⟩
end

-- Circular buffers (R330, R331) -----------------------------------------------------------------------------------------------------

/-- A buffer field has room for 16 numbers. -/
theorem immBits_lt (f : W3) : f.immBits 3 0 < 16 := Nat.mod_lt _ (by decide)

/-- Another buffer of a core leaves its threads, and so the thread that executes. -/
theorem State.thr_setCbuf (s : State) (n : Nat) (b : CBuf) : (s.setMyCore (s.myCore.setCbuf n b)).thr = s.thr := by
  simp only [State.thr, State.thread, State.setMyCore, State.setCore_cur, State.core_setCore_self]
  rfl
theorem State.cbuf_setCbuf (s : State) {n : Nat} (b : CBuf) (h : n < 16) : (s.setMyCore (s.myCore.setCbuf n b)).myCore.cbuf n = b := by
  simp only [State.myCore, State.setMyCore, State.setCore_cur, State.core_setCore_self]
  exact vget_vset_self _ _ _ _ h

/-- What `cbinit` accepts as a descriptor: no reserved bits, an aligned base and a slot size in range (R330). -/
def geometryOk (x : Nat) : Prop :=
  x < 2 ^ 44 ∧ x % 64 = 0 ∧ 1 ≤ x / 2 ^ 20 % 65536 ∧ x / 2 ^ 20 % 65536 ≤ 1024
/-- `cbinit` raises trap 1 for any other. -/
theorem geometry_refused (x : Nat) :
    (2 ^ 44 ≤ x || x % 2 ^ 20 % 64 ≠ 0 || bitsOf x 35 20 = 0 || 1024 < bitsOf x 35 20) = true ↔ ¬ geometryOk x := by
  simp only [Bool.or_eq_true, decide_eq_true_eq]
  simp only [bitsOf, geometryOk]
  omega

section
variable {f : W3} {s : State} (k : s.Calm) {b : CBuf} (hb : s.myCore.cbuf (f.immBits 3 0) = b)
  {x : Nat} (hx : (s.getS f.a).toNat = x)
include k hb

theorem exec_cbinit_waits (ht : b.transit ≠ []) : exec (.cbinit f) s = .next (s.setEntered none) := by
  have busy : (!b.transit.isEmpty) = true := by simpa using ht
  simp only [exec, execCbinit, k.confirming, hb, busy, if_true]
  rfl

include hx

theorem exec_cbinit_refused (ht : b.transit = []) (hok : ¬ geometryOk x) :
    exec (.cbinit f) s = .next (s.trapped 1 (encode (.cbinit f))) := by
  simp only [exec, execCbinit, k.confirming, hb, hx, ht, List.isEmpty_nil, Bool.not_true, Bool.false_eq_true, if_false,
    if_pos ((geometry_refused x).mpr hok)]
  exact k.finish_illegal _ _

/-- With no slot in transit and a descriptor that is accepted, `cbinit` ends by whether the buffer fits. -/
theorem exec_cbinit_accepted (ht : b.transit = []) (hok : geometryOk x) :
    exec (.cbinit f) s = (if s.scratchSize s.cur.core < x % 2 ^ 20 + bitsOf x 43 36 * bitsOf x 35 20 * 64 then
        s.trapHere 7 (scratchVa (s.scratchSize s.cur.core))
      else (s.setMyCore (s.myCore.setCbuf (f.immBits 3 0)
        { CBuf.zero with base := x % 2 ^ 20, slotsz := bitsOf x 35 20, nslot := bitsOf x 43 36 })).complete).finish := by
  have accepted := mt (geometry_refused x).mp (not_not_intro hok)
  simp only [exec, execCbinit, k.confirming, hb, hx, ht, List.isEmpty_nil, Bool.not_true, Bool.false_eq_true, if_false, if_neg accepted]

theorem exec_cbinit_tooLarge (ht : b.transit = []) (hok : geometryOk x)
    (hlarge : s.scratchSize s.cur.core < x % 2 ^ 20 + bitsOf x 43 36 * bitsOf x 35 20 * 64) :
    exec (.cbinit f) s = .next (s.trapped 7 (scratchVa (s.scratchSize s.cur.core))) := by
  rw [exec_cbinit_accepted k hb hx ht hok, if_pos hlarge]
  exact k.finish_trapHere _ _
theorem exec_cbinit_sets (ht : b.transit = []) (hok : geometryOk x)
    (hfits : x % 2 ^ 20 + bitsOf x 43 36 * bitsOf x 35 20 * 64 ≤ s.scratchSize s.cur.core) :
    exec (.cbinit f) s = .next ((s.setMyCore (s.myCore.setCbuf (f.immBits 3 0)
      { CBuf.zero with base := x % 2 ^ 20, slotsz := bitsOf x 35 20, nslot := bitsOf x 43 36 })).ended) := by
  rw [exec_cbinit_accepted k hb hx ht hok, if_neg (Nat.not_lt.mpr hfits)]
  rfl

theorem exec_cbwait_refused (h : b.nslot = 0 ∨ b.nslot < x) : exec (.cbwait f) s = .next (s.trapped 1 (encode (.cbwait f))) := by
  have refused : (b.nslot = 0 || b.nslot < x) = true := by simpa using h
  simp only [exec, execCbwait, k.confirming, hb, hx, if_pos refused]
  exact k.finish_illegal _ _

/-- `cbwait` of a number of slots that the buffer has ends by how many of them are filled. -/
theorem exec_cbwait_accepted (hn : b.nslot ≠ 0) (hle : x ≤ b.nslot) : exec (.cbwait f) s = (if b.filled.length < x then s.again
    else (s.setS f.d (scratchVa (b.slotOffset (b.filled.headD b.readPos)))).complete).finish := by
  have accepted : ¬ (b.nslot = 0 || b.nslot < x) = true := by simp [hn, hle]
  simp only [exec, execCbwait, k.confirming, hb, hx, if_neg accepted]

theorem exec_cbwait_waits (hn : b.nslot ≠ 0) (hle : x ≤ b.nslot) (hfew : b.filled.length < x) :
    exec (.cbwait f) s = .next (s.setEntered none) := by
  rw [exec_cbwait_accepted k hb hx hn hle, if_pos hfew]
  rfl
theorem exec_cbwait_returns (hn : b.nslot ≠ 0) (hle : x ≤ b.nslot) (hfilled : x ≤ b.filled.length) :
    exec (.cbwait f) s = .next ((s.put f.d (scratchVa (b.slotOffset (b.filled.headD b.readPos)))).setEntered none) := by
  rw [exec_cbwait_accepted k hb hx hn hle, if_neg (Nat.not_lt.mpr hfilled), k.finish_put]

theorem exec_cbrel_refused (h : b.nslot = 0 ∨ b.filled.length < x) :
    exec (.cbrel f) s = .next (s.trapped 1 (encode (.cbrel f))) := by
  have refused : (b.nslot = 0 || b.filled.length < x) = true := by simpa using h
  simp only [exec, execCbrel, k.confirming, hb, hx, if_pos refused]
  exact k.finish_illegal _ _

/-- `cbrel` frees the oldest filled slots, and moves the read position alone beside them. -/
theorem exec_cbrel_releases (hn : b.nslot ≠ 0) (hfilled : x ≤ b.filled.length) :
    ∃ pos, exec (.cbrel f) s = .next ((s.setMyCore (s.myCore.setCbuf (f.immBits 3 0)
      { b with filled := b.filled.drop x, readPos := pos })).ended) := by
  have accepted : ¬ (b.nslot = 0 || b.filled.length < x) = true := by simp [hn, hfilled]
  refine ⟨(((b.filled.take x).getLast?).map (fun y => (y + 1) % b.nslot)).getD b.readPos, ?_⟩
  simp only [exec, execCbrel, k.confirming, hb, hx, if_neg accepted, State.finish_complete]

theorem exec_cbrel_effect (hn : b.nslot ≠ 0) (hfilled : x ≤ b.filled.length) :
    ∃ t, exec (.cbrel f) s = .next t ∧ t.pc = s.pc + 8 ∧ t.msys = s.msys ∧
      (t.myCore.cbuf (f.immBits 3 0)).filled = b.filled.drop x ∧
      (t.myCore.cbuf (f.immBits 3 0)).free = b.nslot - (b.filled.length - x) - b.transit.length := by
  obtain ⟨pos, hexec⟩ := exec_cbrel_releases k hb hx hn hfilled
  refine ⟨_, hexec, ?_, rfl, ?_⟩
  · rw [State.pc_ended, State.pc, State.regs, State.thr_setCbuf]
    · rfl
    · exact k.placed
  · rw [State.cbuf_ended, State.cbuf_setCbuf s _ (immBits_lt f)]
    exact ⟨rfl, by rw [CBuf.free, List.length_drop]⟩
end

-- An action on a barrier (R334) -----------------------------------------------------------------------------------------------------

section
variable (b : Barrier) (na nb : Nat) (pod : Option (List Nat))

theorem Barrier.act_pending (h : 0 < b.ra - na ∨ 0 < b.rb - nb) :
    b.act na nb pod = ({ b with ra := b.ra - na, rb := b.rb - nb }, false) := by
  have pending : ¬ (b.ra - na ≤ 0 && b.rb - nb ≤ 0) = true := by
    simp only [Bool.and_eq_true, decide_eq_true_eq]
    omega
  simp only [Barrier.act, if_neg pending]

section
variable (ha : b.ra - na ≤ 0) (hb : b.rb - nb ≤ 0)
include ha hb

/-- The excess of a phase is carried into the next one as a deficit. -/
theorem Barrier.act_completes (h : 0 < b.ea + (b.ra - na) ∨ 0 < b.eb + (b.rb - nb)) :
    b.act na nb pod = (({ b with
      ra := b.ea + (b.ra - na), rb := b.eb + (b.rb - nb), excess := b.excess || decide (b.ra - na < 0 ∨ b.rb - nb < 0) }
        : Barrier).completed pod 1,
      decide (b.ra - na < 0 ∨ b.rb - nb < 0)) := by
  have hnext : ¬ (b.ea + (b.ra - na) ≤ 0 && b.eb + (b.rb - nb) ≤ 0) = true := by
    simp only [Bool.and_eq_true, decide_eq_true_eq]
    omega
  simp only [Barrier.act, ha, hb, decide_true, Bool.and_self, if_true, if_neg hnext, Bool.decide_or]
/-- An excess that covers a whole phase completes that one too, and the rest is discarded. -/
theorem Barrier.act_completesTwo (hea : b.ea + (b.ra - na) ≤ 0) (heb : b.eb + (b.rb - nb) ≤ 0) :
    b.act na nb pod = (({ b with
      ra := b.ea, rb := b.eb, excess := b.excess || decide (b.ra - na < 0 ∨ b.rb - nb < 0) }
        : Barrier).completed pod 2,
      decide (b.ra - na < 0 ∨ b.rb - nb < 0)) := by
  simp only [Barrier.act, ha, hb, hea, heb, decide_true, Bool.and_self, if_true, Bool.decide_or]
end

/-- An action overruns when it completes a phase with a count below zero. -/
theorem Barrier.act_overruns :
    (b.act na nb pod).2 = true ↔ b.ra - na ≤ 0 ∧ b.rb - nb ≤ 0 ∧ (b.ra - na < 0 ∨ b.rb - nb < 0) := by
  by_cases h : b.ra - na ≤ 0 ∧ b.rb - nb ≤ 0
  · obtain ⟨ha, hb⟩ := h
    have ends : (b.act na nb pod).2 = decide (b.ra - na < 0 ∨ b.rb - nb < 0) := by
      by_cases hnext : 0 < b.ea + (b.ra - na) ∨ 0 < b.eb + (b.rb - nb)
      · rw [Barrier.act_completes b na nb pod ha hb hnext]
      · rw [Barrier.act_completesTwo b na nb pod ha hb (by omega) (by omega)]
    rw [ends, decide_eq_true_eq]
    exact ⟨fun h => ⟨ha, hb, h⟩, fun ⟨_, _, h⟩ => h⟩
  · rw [Barrier.act_pending b na nb pod (by omega)]
    exact ⟨fun h => Bool.noConfusion h, fun ⟨ha, hb, _⟩ => absurd ⟨ha, hb⟩ h⟩
end

/-- An arrival or credit writes its barrier and nothing else. -/
theorem State.actBarrier_only {s u : State} {core scope idx na nb : Nat} {excess : Bool}
    (h : s.actBarrier core scope idx na nb = (u, excess)) : ∃ b, u = s.setBarrier (barrierOf core scope idx) b :=
  ⟨_, (congrArg Prod.fst h).symm⟩

/-- An overrun traps where OT = 1. -/
theorem State.actBarrier_traps (s : State) (core scope idx na nb : Nat) : (s.actBarrier core scope idx na nb).2 = true ↔
    (s.barrier (barrierOf core scope idx)).ot = true ∧
      ((s.barrier (barrierOf core scope idx)).act na nb (if scope = 5 then some (s.otherMembers idx) else none)).2 = true :=
  (Bool.and_eq_true_iff ..).trans and_comm

-- BAR (R332, R333, R335) ------------------------------------------------------------------------------------------------------------

/-- What `barinit` accepts as counts and control: no reserved bits, and something to wait for (R333). -/
def countsOk (ea eb ctl : Nat) : Prop := ea < 2 ^ 32 ∧ eb < 2 ^ 48 ∧ ctl < 2 ∧ (ea ≠ 0 ∨ eb ≠ 0)
/-- `barinit` raises trap 1 for any others. -/
theorem counts_refused (ea eb ctl : Nat) :
    (2 ^ 32 ≤ ea || 2 ^ 48 ≤ eb || 2 ≤ ctl || (ea = 0 && eb = 0)) = true ↔ ¬ countsOk ea eb ctl := by
  simp only [countsOk, Bool.or_eq_true, Bool.and_eq_true, decide_eq_true_eq]
  omega

/-- The mark that a `phend` leaves is its PHASE. -/
theorem Side.phendMark_append {x : Side} {pc : Word} {n : Nat} (ph : Word) (h : x.phendMark pc n = none) :
    ({ x with phend := x.phend ++ [(pc, n, ph)] } : Side).phendMark pc n = some ph := by
  have unmarked : x.phend.find? (fun (p, j, _) => p == pc && j == n) = none := Option.map_eq_none_iff.mp h
  simp [Side.phendMark, List.find?_append, unmarked]
theorem Side.phendMark_clearMark (x : Side) (pc : Word) (n : Nat) : (x.clearMark pc n).phendMark pc n = none := by
  rw [Side.phendMark, Option.map_eq_none_iff, List.find?_eq_none]
  intro ⟨p, j, ph⟩ hm hmark
  have kept : (!(p == pc && j == n)) = true := (List.mem_filter.mp hm).2
  rw [show (p == pc && j == n) = true from hmark] at kept
  exact Bool.noConfusion kept

section
variable {f : W3} {s : State} (k : s.Calm)
include k

section
variable (foreign : s.holdsBarrier s.thr.asid (idScope f.imm.toNat) (idIndex f.imm.toNat) = false)
include foreign

theorem State.Calm.finish_barrierForm_foreign (i : Instr) (g : State → Done) :
    (s.barrierForm i f g).finish = .next (s.trapped 3 (encode i)) := by
  simp only [State.barrierForm, k.confirming, foreign, Bool.false_eq_true, if_false]
  exact k.finish_illegal _ _
theorem exec_barinit_foreign : exec (.barinit f) s = .next (s.trapped 3 (encode (.barinit f))) :=
  k.finish_barrierForm_foreign foreign _ _
theorem exec_barrive_foreign : exec (.barrive f) s = .next (s.trapped 3 (encode (.barrive f))) :=
  k.finish_barrierForm_foreign foreign _ _
theorem exec_barwait_foreign : exec (.barwait f) s = .next (s.trapped 3 (encode (.barwait f))) :=
  k.finish_barrierForm_foreign foreign _ _
theorem exec_phend_foreign : exec (.phend f) s = .next (s.trapped 3 (encode (.phend f))) :=
  k.finish_barrierForm_foreign foreign _ _
end

variable (held : s.holdsBarrier s.thr.asid (idScope f.imm.toNat) (idIndex f.imm.toNat) = true)
include held

theorem State.Calm.barrierForm_held (i : Instr) (g : State → Done) : s.barrierForm i f g = g s := by
  simp only [State.barrierForm, k.confirming, held, if_true]

section
variable {ea eb ctl : Nat} (ha : (s.getS f.a).toNat = ea) (hb : (s.getS f.b).toNat = eb) (hc : (s.getS f.c).toNat = ctl)
include ha hb hc

theorem exec_barinit_refused (h : ¬ countsOk ea eb ctl) :
    exec (.barinit f) s = .next (s.trapped 1 (encode (.barinit f))) := by
  simp only [exec, execBarinit, k.barrierForm_held held, ha, hb, hc, if_pos ((counts_refused ea eb ctl).mpr h)]
  exact k.finish_illegal _ _
theorem exec_barinit_sets (h : countsOk ea eb ctl) :
    exec (.barinit f) s = .next ((s.setBarrier (s.myBarrier f) { s.barrier (s.myBarrier f) with
      ea := ea, eb := eb, ra := ea, rb := eb, ot := ctl == 1, excess := false, reached := 0 }).ended) := by
  have accepted := mt (counts_refused ea eb ctl).mp (not_not_intro h)
  simp only [exec, execBarinit, k.barrierForm_held held, ha, hb, hc, if_neg accepted, State.finish_complete]
end

theorem exec_barwait_returns (h : s.getS f.a < (s.barrier (s.myBarrier f)).phase) :
    exec (.barwait f) s = .next ((s.put f.d (s.barrier (s.myBarrier f)).phase).setEntered none) := by
  simp only [exec, execBarwait, k.barrierForm_held held, if_pos h, k.finish_put]
theorem exec_barwait_waits (h : ¬ s.getS f.a < (s.barrier (s.myBarrier f)).phase) :
    exec (.barwait f) s = .next (s.setEntered none) := by
  simp only [exec, execBarwait, k.barrierForm_held held, if_neg h]
  rfl

section
variable {u : State} {excess : Bool} (hact : s.actBarrier s.cur.core (idScope f.imm.toNat) (idIndex f.imm.toNat) 1 0 = (u, excess))
include hact

theorem exec_barrive_arrives (he : excess = false) :
    exec (.barrive f) s = .next ((u.put f.d (s.barrier (s.myBarrier f)).phase).setEntered none) := by
  subst he
  obtain ⟨b, rfl⟩ := State.actBarrier_only hact
  simp only [exec, execBarrive, k.barrierForm_held held, hact, Bool.false_eq_true, if_false]
  exact (k.setBarrier _ b).finish_put _ _
theorem exec_barrive_overruns (he : excess = true) :
    exec (.barrive f) s = .next (((u.put f.d (s.barrier (s.myBarrier f)).phase).setEntered none).enterTrap
      (Trap.sync 11 (f.imm.setWidth 64) (s.pc + 8))) := by
  subst he
  obtain ⟨b, rfl⟩ := State.actBarrier_only hact
  simp only [exec, execBarrive, k.barrierForm_held held, hact, if_true]
  exact (k.setBarrier _ b).finish_putTrap _ _ _ _

section
variable (first : s.side.phendMark s.pc (s.myBarrier f) = none)
include first

theorem exec_phend_overruns (he : excess = true) :
    exec (.phend f) s = .next (((u.put f.d (u.barrier (s.myBarrier f)).phase).setEntered none).enterTrap
      (Trap.sync 11 (f.imm.setWidth 64) (s.pc + 8))) := by
  subst he
  obtain ⟨b, rfl⟩ := State.actBarrier_only hact
  simp only [exec, execPhend, k.barrierForm_held held, first, hact, if_true]
  exact (k.setBarrier _ b).finish_putTrap _ _ _ _

variable (he : excess = false)
include he

/-- The arrival that completes the phase returns at once. -/
theorem exec_phend_completes (h : (s.barrier (s.myBarrier f)).phase < (u.barrier (s.myBarrier f)).phase) :
    exec (.phend f) s = .next ((u.put f.d (u.barrier (s.myBarrier f)).phase).setEntered none) := by
  subst he
  obtain ⟨b, rfl⟩ := State.actBarrier_only hact
  simp only [exec, execPhend, k.barrierForm_held held, first, hact, Bool.false_eq_true, if_false, if_pos h]
  exact (k.setBarrier _ b).finish_put _ _
/-- An arrival that leaves the phase open is marked, and the member stands at its word. -/
theorem exec_phend_arrives (h : ¬ (s.barrier (s.myBarrier f)).phase < (u.barrier (s.myBarrier f)).phase) :
    ∃ t, exec (.phend f) s = .next t ∧ t.regs = s.regs ∧
      t.side.phendMark s.pc (s.myBarrier f) = some (s.barrier (s.myBarrier f)).phase ∧ t.barriers = u.barriers := by
  subst he
  obtain ⟨b, rfl⟩ := State.actBarrier_only hact
  have hexec : exec (.phend f) s = .next (((s.setBarrier (s.myBarrier f) b).setSide
      { s.side with phend := s.side.phend ++ [(s.pc, s.myBarrier f, (s.barrier (s.myBarrier f)).phase)] }).setEntered none) := by
    simp only [exec, execPhend, k.barrierForm_held held, first, hact, Bool.false_eq_true, if_false, if_neg h]
    rfl
  refine ⟨_, hexec, ?_, ?_, rfl⟩
  · rw [State.regs_setEntered, State.regs_setSide]
    · rfl
    all_goals exact k.placed
  · rw [State.side_setEntered, State.side_setSide]
    · exact Side.phendMark_append _ first
    all_goals exact k.placed
end
end

section
variable {from_ : Word} (marked : s.side.phendMark s.pc (s.myBarrier f) = some from_)
include marked

theorem exec_phend_waits (h : ¬ from_ < (s.barrier (s.myBarrier f)).phase) : exec (.phend f) s = .next (s.setEntered none) := by
  simp only [exec, execPhend, k.barrierForm_held held, marked, if_neg h]
  rfl
/-- A marked `phend` does not arrive again, and takes its mark away when it returns. -/
theorem exec_phend_returns (h : from_ < (s.barrier (s.myBarrier f)).phase) :
    ∃ t, exec (.phend f) s = .next t ∧ t.regs = s.regs.put f.d (s.barrier (s.myBarrier f)).phase ∧
      t.side.phendMark s.pc (s.myBarrier f) = none ∧ t.barriers = s.barriers := by
  have calm : (s.setSide (s.side.clearMark s.pc (s.myBarrier f))).Calm := k.setSide _ k.probes
  have hexec : exec (.phend f) s = .next (((s.setSide (s.side.clearMark s.pc (s.myBarrier f))).put f.d
      (s.barrier (s.myBarrier f)).phase).setEntered none) := by
    simp only [exec, execPhend, k.barrierForm_held held, marked, if_pos h, calm.finish_put]
  refine ⟨_, hexec, ?_, ?_, rfl⟩
  · rw [State.regs_setEntered, State.regs_put, State.regs_setSide]
    all_goals exact k.placed
  · rw [State.side_setEntered, State.side_put, State.side_setSide, Side.phendMark_clearMark]
    all_goals exact k.placed
end
end

-- Phases of a pod barrier (R336, R383) ----------------------------------------------------------------------------------------------

section
variable {s : State} (pkg idx : Nat)

theorem exec_podPhaseMessage_held (hw : s.winter = true) :
    exec (.podPhaseMessage pkg idx) s = .next { s with inbox := s.inbox ++ [.event (.podPhaseMessage pkg idx)] } := by
  simp only [exec, execPodPhaseMessage, hw, if_true]
theorem exec_podPhaseMessage_discarded (hw : s.winter = false) (h : pkg ∉ s.otherMembers idx ∨ 512 ≤ idx) :
    exec (.podPhaseMessage pkg idx) s = .next s := by
  have stranger : ¬ ((s.otherMembers idx).contains pkg && idx < 512) = true := by
    simp only [Bool.and_eq_true, List.contains_iff_mem, decide_eq_true_eq]
    rintro ⟨hm, hi⟩
    exact h.elim (fun h => h hm) (Nat.not_le_of_lt hi)
  simp only [exec, execPodPhaseMessage, hw, Bool.false_eq_true, if_false, if_neg stranger]
/-- A member's completion is counted, and lets the phases complete that all members have reached. -/
theorem exec_podPhaseMessage_member (hw : s.winter = false) (hm : pkg ∈ s.otherMembers idx) (hi : idx < 512) :
    exec (.podPhaseMessage pkg idx) s = .next (s.setBarrier (barrierKey 4 0 idx) (Barrier.podAdvance
      { s.barrier (barrierKey 4 0 idx) with
        members := SMap.set (s.barrier (barrierKey 4 0 idx)).members pkg
          (SMap.get (s.barrier (barrierKey 4 0 idx)).members 0 pkg + 1) } (s.otherMembers idx))) := by
  have member : ((s.otherMembers idx).contains pkg && idx < 512) = true := by simp [hm, hi]
  simp only [exec, execPodPhaseMessage, hw, Bool.false_eq_true, if_false, if_pos member]
/-- With one other member, the phases that both have reached complete. -/
theorem exec_podPhaseMessage_sole (hw : s.winter = false) (hm : s.otherMembers idx = [pkg]) (hi : idx < 512) :
    ∃ t, exec (.podPhaseMessage pkg idx) s = .next t ∧ t.cores = s.cores ∧ t.msys = s.msys ∧
      (t.barrier (barrierKey 4 0 idx)).phase = (s.barrier (barrierKey 4 0 idx)).phase +
        BitVec.ofNat 64 (min (s.barrier (barrierKey 4 0 idx)).reached (SMap.get (s.barrier (barrierKey 4 0 idx)).members 0 pkg + 1)) := by
  refine ⟨_, exec_podPhaseMessage_member pkg idx hw (by simp [hm]) hi, rfl, rfl, ?_⟩
  rw [State.barrier, State.setBarrier, SMap.get_set_self, hm]
  simp only [Barrier.podAdvance, List.foldl_cons, List.foldl_nil, SMap.get_set_self]
end

/-- Settles O47: the circular buffers, BAR, an action on a barrier and the messages of a pod phase, each by the lemmas of its ends. -/
theorem buffersAndBarriersCount : Obligations.BuffersAndBarriersCount := by
  unfold Obligations.BuffersAndBarriersCount
  refine ⟨fun f s k => ⟨exec_cbinit_waits k rfl, exec_cbinit_refused k rfl rfl, exec_cbinit_tooLarge k rfl rfl, exec_cbinit_sets k rfl rfl,
      exec_cbwait_refused k rfl rfl, exec_cbwait_waits k rfl rfl, exec_cbwait_returns k rfl rfl, exec_cbrel_refused k rfl rfl,
      exec_cbrel_effect k rfl rfl⟩,
    fun f s k => ⟨exec_barinit_foreign k, fun held => exec_barinit_refused k held rfl rfl rfl,
      fun held => exec_barinit_sets k held rfl rfl rfl,
      fun foreign => ⟨exec_barrive_foreign k foreign, exec_barwait_foreign k foreign, exec_phend_foreign k foreign⟩,
      fun held h => exec_barrive_arrives k held rfl h, State.actBarrier_traps s _ _ _ _ _,
      fun held h => exec_barrive_overruns k held rfl h,
      fun held first h => exec_phend_overruns k held rfl first h, exec_barwait_returns k, exec_barwait_waits k,
      fun held first h => exec_phend_completes k held rfl first h,
      fun held first h => exec_phend_arrives k held rfl first h, fun _ held => exec_phend_waits k held,
      fun _ held => exec_phend_returns k held⟩,
    fun b na nb => ⟨fun h => ?_, fun ha hb h => ?_, fun hea heb ha hb => ?_, b.act_overruns na nb none⟩,
    fun pkg idx s => ⟨exec_podPhaseMessage_held pkg idx, exec_podPhaseMessage_discarded pkg idx, exec_podPhaseMessage_sole pkg idx⟩⟩
  · rw [b.act_pending na nb none h]
    exact ⟨rfl, rfl⟩
  · rw [b.act_completes na nb none ha hb h]
    rfl
  · rw [b.act_completesTwo na nb none ha hb hea heb]
    rfl

-- Reset (R119, R398) -------------------------------------------------------------------------------------------------------------------

/-- Nothing is written yet, so that every unit is as its reset value says. -/
theorem State.core_reset (c : Nat) : State.reset.core c = Core.zero := rfl
theorem State.thread_reset (h : Hart) : State.reset.thread h = Thread.zero := by
  rw [State.thread, State.core_reset]
  exact vget_replicate _ _
theorem ThreadRegs.s_zero (n : Nat) : vget ThreadRegs.zero.s n 0 = 0 := vget_replicate _ _
/-- A line that nothing has written opens under every key, and its bytes read as zero (log entry 1). -/
theorem MemSys.readByte_reset (key : BitVec 256) (a : Nat) : State.reset.msys.readByte key a = 0 := by
  have opens : (State.reset.msys.line (a / 64)).opens key = true := rfl
  rw [MemSys.readByte, if_pos opens]
  rfl
theorem State.reset_legal : State.reset.Legal := ⟨rfl, fun _ hx => absurd hx List.not_mem_nil⟩

/-- Settles O60: what the lists of the reset state do not hold stands at its reset value. -/
theorem resetMeetsTheInvariant : Obligations.ResetMeetsTheInvariant := by
  unfold Obligations.ResetMeetsTheInvariant
  refine ⟨State.reset_legal, fun c => by rw [State.core_reset]; rfl, fun h _ => ?_, State.reset_legal.1, MemSys.readByte_reset, rfl, rfl,
    rfl, rfl⟩
  rw [State.thread_reset]
  exact ⟨rfl, rfl, ThreadRegs.s_zero, rfl, rfl, rfl⟩

end Sys2Proof.Machine

/-!
PROOFS of the traps of a word that is no instruction and of a failed fetch (O19). Both trap at PC with nothing done before, and a calm
thread takes such a trap at once (`State.Calm.finish_trapHere`).
-/
namespace Sys2Proof.Machine
open Sys2Proof

section
variable {s : State} (k : s.Calm)
include k

theorem exec_reservedInstruction (w : Word) :
    exec (.reservedInstruction w) s = .next (s.trapped (if w.getLsbD 63 then 2 else 1) w) := by
  simp only [exec, execReservedInstruction]
  exact k.finish_trapHere _ w
/-- The code is the one that the fetch itself fails with (R183). -/
theorem exec_instructionFetchFault {c : Nat} (hc : s.fetchWord s.pc = .error c) :
    exec .instructionFetchFault s = .next (s.trapped c s.pc) := by
  simp only [exec, execInstructionFetchFault, hc]
  exact k.finish_trapHere c s.pc
end

/-- Settles O19: each row of the machine ends in the trap at PC that a calm thread takes at once. -/
theorem reservedWordsAndFailedFetchesTrap : Obligations.ReservedWordsAndFailedFetchesTrap := by
  unfold Obligations.ReservedWordsAndFailedFetchesTrap
  exact fun s k => ⟨exec_reservedInstruction k, fun c => exec_instructionFetchFault k⟩

end Sys2Proof.Machine
